-- ==== Sys2Proof/Word.lean ====
section
/-! DEFINITION. The widths the manual gives its data: an octet, a line map, a sequence number. -/

namespace Sys2Proof

/-- Eight bits, as carried in one character on the serial link (section 3.0). -/
abbrev Octet := BitVec 8

/-- One bit per line, L0 in the least significant bit (R201). -/
abbrev LineMap := BitVec 32

/-- A record's sequence number, 0 to 65535, wrapping (R6). -/
abbrev SeqNo := BitVec 16

end Sys2Proof
end

