-- ==== Sys2Proof/Syntax.lean ====
section
/-! DEFINITION. The names the manual gives its values, the contents of requests, and the commands (the rows of
spec/opcode_table.json). -/

namespace Sys2Proof

/-! ## Named values (R201) -/

/-- A line level, a reference level, the level of SYNC or RXD. -/
inductive Level where
  | low | high
  deriving DecidableEq, Repr, Inhabited

/-- A drive state of an output (section 4.2). RELEASED is high impedance. -/
inductive Drive where
  | low | high | released
  deriving DecidableEq, Repr, Inhabited

/-- A time value: seconds, and ticks within the second 0 to 1023 (section 4.1, R108). -/
structure TimeValue where
  sec  : BitVec 32
  tick : BitVec 10
  deriving DecidableEq, Repr, Inhabited

/-- The time quality stamped with a record (R110). -/
inductive Quality where
  | unset | set | synced | holdover
  deriving DecidableEq, Repr, Inhabited

/-- A stamp: the time value and quality of one moment (R5). -/
structure Stamp where
  time    : TimeValue
  quality : Quality
  deriving DecidableEq, Repr, Inhabited

/-- The class of a record (R4). -/
inductive RecordClass where
  | routine | alarm
  deriving DecidableEq, Repr

/-- The sense of a line (R26). -/
inductive LineSense where
  | normal | inverted
  deriving DecidableEq, Repr

/-- The recording class of a line (R31). -/
inductive Recording where
  | silent | routine | alarm
  deriving DecidableEq, Repr

/-- The sense of a watch, MATCH or DIFFER (R48). -/
inductive WatchSense where
  | matching | differing
  deriving DecidableEq, Repr

/-- The rearm field of a watch (R49). -/
inductive Rearm where
  | auto | manual
  deriving DecidableEq, Repr

/-- The restore reporting field of a watch (R50). -/
inductive RestoreReporting where
  | none | plain | withSnapshot
  deriving DecidableEq, Repr

/-- The action of a watch; the parts R51 holds as absent are not there. -/
inductive Action where
  | none
  | drive (output : Fin 8) (level : Drive)
  | pulse (output : Fin 8) (level : Drive) (duration : Nat)
  deriving DecidableEq, Repr

/-- A watch definition (R46). The reference pattern is held LOW outside the line set (R47). -/
structure WatchDef where
  lineSet      : LineMap
  reference    : LineMap
  sense        : WatchSense
  qualify      : Nat
  rearm        : Rearm
  restore      : RestoreReporting
  tripSnapshot : Bool
  cls          : RecordClass
  action       : Action
  prerequisite : Option (Fin 16)
  deriving DecidableEq, Repr

/-- The outcome of a trip's action (R70, R90). -/
inductive ActionOutcome where
  | none | done | blockedOwned | blockedFunction
  deriving DecidableEq, Repr

/-- A function other than GENERAL: TICK at `2 ^ rate` Hz, or ATTN (R87). -/
inductive OutputFunction where
  | tick (rate : Fin 10)
  | attn
  deriving DecidableEq, Repr

/-- The reference selection (R106). -/
inductive Reference where
  | khz32768 | khz40960 | khz65536 | khz81920
  deriving DecidableEq, Repr

/-- The active edge of SYNC (R107). -/
inductive SyncEdge where
  | rising | falling
  deriving DecidableEq, Repr

/-- The option of an armed step (R114). -/
inductive ArmOption where
  | free | track
  deriving DecidableEq, Repr

/-- The setting a SET_SYNC carries (R113). -/
inductive SyncSetting where
  | off | track
  deriving DecidableEq, Repr

/-- The bit rates of the link (R152). -/
inductive BitRate where
  | b9600 | b19200 | b38400 | b57600 | b115200 | b230400
  deriving DecidableEq, Repr

/-- The parity of the link (R152). -/
inductive Parity where
  | none | even | odd
  deriving DecidableEq, Repr

/-- The link settings: one bit rate and one parity for both directions (R152). -/
structure LinkSettings where
  rate   : BitRate
  parity : Parity
  deriving DecidableEq, Repr

/-- The delivery mode (R128). -/
inductive Mode where
  | polled | stream
  deriving DecidableEq, Repr

/-- The delivery state (R128). -/
inductive DeliveryState where
  | running | stalled
  deriving DecidableEq, Repr

/-- The scope of a RESTART (R193). -/
inductive RestartScope where
  | full | link
  deriving DecidableEq, Repr

/-- The cause of a start (R174, R197). -/
inductive StartCause where
  | powerOn | resetLine | restartFull
  deriving DecidableEq, Repr

/-- The status of a reply (R185). -/
inductive Status where
  | ok | unknownKind | badLength | badField | busy
  | notDefined | inUse | stillActive | notTripped | badChain
  | owned | functionAssigned | wrongMode | ackRange
  deriving DecidableEq, Repr

/-- The 25 request kinds (section 9.6). -/
inductive RequestKind where
  | identify | linkStatus | setLink | restart
  | configureLines | readLines
  | setWatch | enableWatch | disableWatch | rearmWatch | queryWatch
  | driveOutput | setOutputFunction | readOutputs
  | setTime | setTimeAtPulse | setSync | configureTime | readTime
  | fetch | ack | setDelivery | resume | journalStatus | clearJournal
  deriving DecidableEq, Repr

/-! ## The contents of the requests that carry a payload (R205) -/

/-- CONFIGURE_LINES (R38). -/
structure ConfigureLines where
  first     : Nat
  count     : Nat
  sense     : LineSense
  settle    : Nat
  recording : Recording
  limit     : Nat
  window    : Nat
  recovery  : Nat
  deriving DecidableEq, Repr

/-- SET_WATCH: no definition in the CLEAR form (R58). -/
structure SetWatch where
  watch      : Fin 16
  definition : Option WatchDef
  deriving DecidableEq, Repr

/-- The form of a DRIVE_OUTPUT (R100). -/
inductive DriveForm where
  | level (level : Drive)
  | pulse (level : Drive) (duration : Nat)
  deriving DecidableEq, Repr

/-- DRIVE_OUTPUT (R100). -/
structure DriveOutput where
  output : Fin 8
  form   : DriveForm
  deriving DecidableEq, Repr

/-- SET_OUTPUT_FUNCTION; no function is GENERAL (R101). -/
structure SetOutputFunction where
  output   : Fin 8
  function : Option OutputFunction
  deriving DecidableEq, Repr

/-- SET_TIME_AT_PULSE (R114). -/
structure SetTimeAtPulse where
  sec    : BitVec 32
  option : ArmOption
  deriving DecidableEq, Repr

/-- CONFIGURE_TIME (R107). -/
structure ConfigureTime where
  reference : Reference
  edge      : SyncEdge
  deriving DecidableEq, Repr

/-- SET_DELIVERY (R145): the five delivery settings. -/
structure DeliverySettings where
  mode       : Mode
  window     : Nat
  perReport  : Nat
  interval   : Nat
  retryLimit : Nat
  deriving DecidableEq, Repr

/-! ## The commands -/

/-- The commands, one constructor per row of spec/opcode_table.json, in the table's order.

The operands are what comes from outside the part with the event (a pin level, an octet) or which of several like things
the event befalls (a line, a watch, an output). A request row has none: it is the dispatch of the request frame that
stands at the front of the request queue (R178), whose fields are in that frame. -/
inductive Instr where
  /-- POWER_ON (R192); `reset` is the level of the RESET line while the supply rises. -/
  | powerOn (reset : Level)
  /-- RESET_ASSERTION (R191). -/
  | resetAssertion
  /-- RESET_RELEASE (R191). -/
  | resetRelease
  /-- TICK (R106); the levels of the pins L0 to L31 and of SYNC at this tick. -/
  | tick (pins : LineMap) (sync : Level)
  /-- SAMPLE (R25), of the pin levels of the present tick. -/
  | sample
  /-- SETTLE_END (R29): the sample at which the settle of `line` ends. -/
  | settleEnd (line : Fin 32)
  /-- CHATTER_WINDOW_EXPIRY (R33): the sample at which the window of `line` runs out. -/
  | chatterWindowExpiry (line : Fin 32)
  /-- RECOVERY_EXPIRY (R36): the sample at which the recovery time of `line` expires. -/
  | recoveryExpiry (line : Fin 32)
  /-- QUALIFY_EXPIRY (R67). -/
  | qualifyExpiry (watch : Fin 16)
  /-- WATCH_PULSE_END (R94). -/
  | watchPulseEnd (watch : Fin 16)
  /-- HOST_PULSE_END (R93). -/
  | hostPulseEnd (output : Fin 8)
  /-- SYNC_PULSE (R111). -/
  | syncPulse
  /-- SLEW_TICK (R118): a tick that is a slew tick, with the pin levels of a TICK. -/
  | slewTick (pins : LineMap) (sync : Level)
  /-- ARM_DEADLINE_EXPIRY (R116). -/
  | armDeadlineExpiry
  /-- MISSED_PULSE_EXPIRY (R121). -/
  | missedPulseExpiry
  /-- RETRANSMIT_EXPIRY (R133). -/
  | retransmitExpiry
  /-- OCTET_ARRIVES (R154): the eight data bits, the parity bit (read only with a parity selected) and the stop bit,
  as sampled on RXD. -/
  | octetArrives (data : Octet) (parityBit : Level) (stopBit : Level)
  /-- INTER_OCTET_TIMEOUT (R161). -/
  | interOctetTimeout
  /-- REPLY_HAND_OVER (R163). -/
  | replyHandOver
  /-- START_NOTICE_HAND_OVER (R198). -/
  | startNoticeHandOver
  /-- REPORT_HAND_OVER (R130). -/
  | reportHandOver
  /-- LAST_OCTET_LEAVES (R163). -/
  | lastOctetLeaves
  /-- REPETITION_TIMER_EXPIRY (R198). -/
  | repetitionTimerExpiry
  /-- DISPATCH_UNKNOWN_KIND (R181). -/
  | dispatchUnknownKind
  | identify
  | linkStatus
  | setLink
  | restart
  | configureLines
  | readLines
  | setWatch
  | enableWatch
  | disableWatch
  | rearmWatch
  | queryWatch
  | driveOutput
  | setOutputFunction
  | readOutputs
  | setTime
  | setTimeAtPulse
  | setSync
  | configureTime
  | readTime
  | fetch
  | ack
  | setDelivery
  | resume
  | journalStatus
  | clearJournal
  /-- START_BIT_FOUND (R154, R161): whether RXD has been HIGH for a sampling period since the receiver began to wait for
  it, and whether RXD is still LOW half a bit time later. -/
  | startBitFound (highBefore : Bool) (confirmed : Bool)
  deriving DecidableEq, Repr

end Sys2Proof
end

