-- ==== Sys2Proof/Config.lean ====
section
/-! DEFINITION. What the part fixes (capacities, codes), and the free values: what the manual leaves open, about which
nothing can be proved. -/

namespace Sys2Proof.Config

/-- The journal holds at most 384 records (R11). -/
def journalCapacity : Nat := 384

/-- The request queue holds at most 4 frames (R174). -/
def requestCapacity : Nat := 4

/-- The reply queue holds at most 6 replies (R174). -/
def replyCapacity : Nat := 6

/-- The longest chain of watches (R57). -/
def chainLimit : Nat := 4

/-- The family code of the Tafmor family (R202). -/
def familyCode : Nat := 0x3A

/-- The revision this manual describes (R187). -/
def revision : Nat := 1

/-- Which of several things that come together is taken first, where the manual says that either may be (R7, R53, R91):
a free value, one for each choice made (log entry 1). -/
opaque choice : Nat → Nat

/-- A stamp for which the manual states no value (log entry 2): a free value, one for each use. -/
opaque unstatedStamp : Nat → Stamp

end Sys2Proof.Config
end

