-- ==== Sys2Proof/WellFormed.lean ====
section
/-! DEFINITION. The ranges of the fields of a request, which the dispatcher's field check holds them to (R183). -/

namespace Sys2Proof

/-- The ranges of R38. -/
def ConfigureLines.wellFormed (r : ConfigureLines) : Bool :=
  decide (r.first ≤ 31) && decide (1 ≤ r.count) && decide (r.count ≤ 32) && decide (r.first + r.count ≤ 32)
    && decide (r.settle ≤ 7) && (decide (r.limit = 0) || (decide (2 ≤ r.limit) && decide (r.limit ≤ 30)))
    && decide (1 ≤ r.window) && decide (r.window ≤ 60) && decide (1 ≤ r.recovery) && decide (r.recovery ≤ 60)

/-- The range of a pulse duration, 1 to 61440 ticks (R58, R100). -/
def durationInRange (n : Nat) : Bool := decide (1 ≤ n) && decide (n ≤ 61440)

/-- The range of an action's duration (R58). -/
def Action.wellFormed : Action → Bool
  | .none => true
  | .drive _ _ => true
  | .pulse _ _ duration => durationInRange duration

/-- The ranges of R58, and the reference levels outside the set held LOW (R47). -/
def WatchDef.wellFormed (d : WatchDef) : Bool :=
  decide (d.lineSet ≠ 0) && decide (d.reference &&& ~~~d.lineSet = 0) && decide (d.qualify ≤ 61440) && d.action.wellFormed

/-- The ranges of R58 for either form. -/
def SetWatch.wellFormed (r : SetWatch) : Bool :=
  match r.definition with
  | none => true
  | some d => d.wellFormed

/-- The ranges of R100. -/
def DriveOutput.wellFormed (r : DriveOutput) : Bool :=
  match r.form with
  | .level _ => true
  | .pulse _ duration => durationInRange duration

/-- O6 takes GENERAL or TICK, O7 takes GENERAL or ATTN, and no other output a function (R101). -/
def SetOutputFunction.wellFormed (r : SetOutputFunction) : Bool :=
  match r.function with
  | none => decide (r.output = 6) || decide (r.output = 7)
  | some (.tick _) => decide (r.output = 6)
  | some .attn => decide (r.output = 7)

/-- The range of a FETCH's maximum (R138). -/
def fetchMaximumInRange (n : Nat) : Bool := decide (1 ≤ n) && decide (n ≤ 8)

/-- The ranges of R145. -/
def DeliverySettings.wellFormed (r : DeliverySettings) : Bool :=
  decide (1 ≤ r.window) && decide (r.window ≤ 16) && decide (1 ≤ r.perReport) && decide (r.perReport ≤ 4)
    && decide (64 ≤ r.interval) && decide (r.interval ≤ 8192) && decide (1 ≤ r.retryLimit) && decide (r.retryLimit ≤ 15)

end Sys2Proof
end

