-- ==== Sys2Proof/Decode.lean ====
section
/-! DEFINITION. The codes and layouts of chapter 11: the codes of named values, the multi-octet fields, the payloads of
requests (read by the dispatcher's length and field checks, R182 and R183, and written back by the host's side), and
the host's fixed names for the table's words. -/

namespace Sys2Proof

/-- spec/opcode_table.json gives no row any bits: no word spells a command. -/
def decodeTableWord (_nbits _w : Nat) : Option Instr := none

/-! ## Multi-octet fields, most significant octet first (R201) -/

/-- A number as one octet. -/
def octets8 (n : Nat) : List Octet := [BitVec.ofNat 8 n]

/-- A number as two octets. -/
def octets16 (n : Nat) : List Octet := [BitVec.ofNat 8 (n / 256), BitVec.ofNat 8 n]

/-- A number as four octets. -/
def octets32 (n : Nat) : List Octet := octets16 (n / 65536) ++ octets16 n

/-- The number that two octets carry. -/
def nat16 (a b : Octet) : Nat := a.toNat * 256 + b.toNat

/-- The number that four octets carry. -/
def nat32 (a b c d : Octet) : Nat := nat16 a b * 65536 + nat16 c d

/-- A time field: seconds in 4 octets, ticks in 2 (R201). -/
def timeOctets (t : TimeValue) : List Octet := octets32 t.sec.toNat ++ octets16 t.tick.toNat

/-- A line map: L31 in the most significant bit of the first octet (R201). -/
def mapOctets (m : LineMap) : List Octet := octets32 m.toNat

/-- A yes/no flag (R201). -/
def flagOctet (b : Bool) : Octet := if b then 1 else 0

/-- A present-or-absent field: a presence octet, and the field's octets when present (R201). -/
def presentOctets : Option (List Octet) → List Octet
  | none => [0]
  | some field => 1 :: field

/-! ## Codes of named values (R201) -/

def Level.code : Level → Octet
  | .low => 0 | .high => 1

def Drive.code : Drive → Octet
  | .low => 0 | .high => 1 | .released => 2

def Drive.ofCode (o : Octet) : Option Drive :=
  match o.toNat with
  | 0 => some .low | 1 => some .high | 2 => some .released | _ => none

/-- A yes/no flag as received. -/
def flagOfCode (o : Octet) : Option Bool :=
  match o.toNat with
  | 0 => some false | 1 => some true | _ => none

def LineSense.code : LineSense → Octet
  | .normal => 0 | .inverted => 1

def LineSense.ofCode (o : Octet) : Option LineSense :=
  match o.toNat with
  | 0 => some .normal | 1 => some .inverted | _ => none

def Recording.code : Recording → Octet
  | .silent => 0 | .routine => 1 | .alarm => 2

def Recording.ofCode (o : Octet) : Option Recording :=
  match o.toNat with
  | 0 => some .silent | 1 => some .routine | 2 => some .alarm | _ => none

def RecordClass.code : RecordClass → Octet
  | .routine => 0 | .alarm => 1

def RecordClass.ofCode (o : Octet) : Option RecordClass :=
  match o.toNat with
  | 0 => some .routine | 1 => some .alarm | _ => none

def Quality.code : Quality → Octet
  | .unset => 0 | .set => 1 | .synced => 2 | .holdover => 3

def WatchSense.code : WatchSense → Octet
  | .matching => 0 | .differing => 1

def WatchSense.ofCode (o : Octet) : Option WatchSense :=
  match o.toNat with
  | 0 => some .matching | 1 => some .differing | _ => none

def Rearm.code : Rearm → Octet
  | .auto => 0 | .manual => 1

def Rearm.ofCode (o : Octet) : Option Rearm :=
  match o.toNat with
  | 0 => some .auto | 1 => some .manual | _ => none

def RestoreReporting.code : RestoreReporting → Octet
  | .none => 0 | .plain => 1 | .withSnapshot => 2

def RestoreReporting.ofCode (o : Octet) : Option RestoreReporting :=
  match o.toNat with
  | 0 => some .none | 1 => some .plain | 2 => some .withSnapshot | _ => Option.none

def ActionOutcome.code : ActionOutcome → Octet
  | .none => 0 | .done => 1 | .blockedOwned => 2 | .blockedFunction => 3

def SyncSetting.code : SyncSetting → Octet
  | .off => 0 | .track => 1

def SyncSetting.ofCode (o : Octet) : Option SyncSetting :=
  match o.toNat with
  | 0 => some .off | 1 => some .track | _ => none

def ArmOption.code : ArmOption → Octet
  | .free => 0 | .track => 1

def ArmOption.ofCode (o : Octet) : Option ArmOption :=
  match o.toNat with
  | 0 => some .free | 1 => some .track | _ => none

def Reference.code : Reference → Octet
  | .khz32768 => 0 | .khz40960 => 1 | .khz65536 => 2 | .khz81920 => 3

def Reference.ofCode (o : Octet) : Option Reference :=
  match o.toNat with
  | 0 => some .khz32768 | 1 => some .khz40960 | 2 => some .khz65536 | 3 => some .khz81920 | _ => none

def SyncEdge.code : SyncEdge → Octet
  | .rising => 0 | .falling => 1

def SyncEdge.ofCode (o : Octet) : Option SyncEdge :=
  match o.toNat with
  | 0 => some .rising | 1 => some .falling | _ => none

def BitRate.code : BitRate → Octet
  | .b9600 => 0 | .b19200 => 1 | .b38400 => 2 | .b57600 => 3 | .b115200 => 4 | .b230400 => 5

def BitRate.ofCode (o : Octet) : Option BitRate :=
  match o.toNat with
  | 0 => some .b9600 | 1 => some .b19200 | 2 => some .b38400 | 3 => some .b57600 | 4 => some .b115200
  | 5 => some .b230400 | _ => none

def Parity.code : Parity → Octet
  | .none => 0 | .even => 1 | .odd => 2

def Parity.ofCode (o : Octet) : Option Parity :=
  match o.toNat with
  | 0 => some .none | 1 => some .even | 2 => some .odd | _ => Option.none

def Mode.code : Mode → Octet
  | .polled => 0 | .stream => 1

def Mode.ofCode (o : Octet) : Option Mode :=
  match o.toNat with
  | 0 => some .polled | 1 => some .stream | _ => none

def DeliveryState.code : DeliveryState → Octet
  | .running => 0 | .stalled => 1

def RestartScope.code : RestartScope → Octet
  | .full => 0 | .link => 1

def RestartScope.ofCode (o : Octet) : Option RestartScope :=
  match o.toNat with
  | 0 => some .full | 1 => some .link | _ => none

def StartCause.code : StartCause → Octet
  | .powerOn => 0 | .resetLine => 1 | .restartFull => 2

/-- The function octet of an output: 0 GENERAL, 1 TICK, 2 ATTN (R201). -/
def functionCode : Option OutputFunction → Octet
  | none => 0 | some (.tick _) => 1 | some .attn => 2

/-- The frequency of a TICK function in Hz (R87), and 0 for the others (R205). -/
def functionHz : Option OutputFunction → Nat
  | some (.tick rate) => 2 ^ rate.val
  | _ => 0

/-- The TICK function of a frequency in Hz: 1, 2, 4, … 512 (R101). -/
def tickRateOfHz (hz : Nat) : Option (Fin 10) := (List.finRange 10).find? fun rate => 2 ^ rate.val == hz

/-- The status octet (R202). -/
def Status.code : Status → Octet
  | .ok => 0x00 | .unknownKind => 0x01 | .badLength => 0x02 | .badField => 0x03 | .busy => 0x04
  | .notDefined => 0x10 | .inUse => 0x11 | .stillActive => 0x12 | .notTripped => 0x13 | .badChain => 0x14
  | .owned => 0x20 | .functionAssigned => 0x21 | .wrongMode => 0x30 | .ackRange => 0x31

/-- The request codes (R202). -/
def RequestKind.code : RequestKind → Octet
  | .identify => 0x01 | .linkStatus => 0x02 | .setLink => 0x03 | .restart => 0x04
  | .configureLines => 0x10 | .readLines => 0x11
  | .setWatch => 0x20 | .enableWatch => 0x21 | .disableWatch => 0x22 | .rearmWatch => 0x23 | .queryWatch => 0x24
  | .driveOutput => 0x30 | .setOutputFunction => 0x31 | .readOutputs => 0x32
  | .setTime => 0x40 | .setTimeAtPulse => 0x41 | .setSync => 0x42 | .configureTime => 0x43 | .readTime => 0x44
  | .fetch => 0x50 | .ack => 0x51 | .setDelivery => 0x52 | .resume => 0x53 | .journalStatus => 0x54
  | .clearJournal => 0x55

/-- The 25 request kinds in the catalogue's order (section 9.6). -/
def RequestKind.all : List RequestKind :=
  [.identify, .linkStatus, .setLink, .restart, .configureLines, .readLines, .setWatch, .enableWatch, .disableWatch,
   .rearmWatch, .queryWatch, .driveOutput, .setOutputFunction, .readOutputs, .setTime, .setTimeAtPulse, .setSync,
   .configureTime, .readTime, .fetch, .ack, .setDelivery, .resume, .journalStatus, .clearJournal]

/-- The request kind of a KIND octet; every other value is an unknown kind (R181, R202). -/
def RequestKind.ofCode (o : Octet) : Option RequestKind := RequestKind.all.find? fun k => k.code == o

/-- The KIND of a REPLY (R202). -/
def replyKind : Octet := 0x80

/-- The KIND of a REPORT (R202). -/
def reportKind : Octet := 0x81

/-- The KIND of a START notice (R202). -/
def startKind : Octet := 0x82

/-! ## Request payloads: the length check and the field check (R182, R183, R205) -/

/-- A checked value, or the refusal of the field check. -/
def fieldsOr {α : Type} : Option α → Except Status α
  | some a => .ok a
  | none => .error .badField

/-- A value that passes its range check, or the refusal of the field check. -/
def inRange {α : Type} (wellFormed : α → Bool) (a : α) : Except Status α :=
  if wellFormed a then .ok a else .error .badField

/-- The kinds that carry no payload (R182). -/
def parseEmpty : List Octet → Except Status Unit
  | [] => .ok ()
  | _ => .error .badLength

/-- A watch index (R58, section 4.6). -/
def watchOfCode (o : Octet) : Option (Fin 16) := if h : o.toNat < 16 then some ⟨o.toNat, h⟩ else none

/-- An output index (R58, R100). -/
def outputOfCode (o : Octet) : Option (Fin 8) := if h : o.toNat < 8 then some ⟨o.toNat, h⟩ else none

/-- SET_LINK (R167). -/
def parseSetLink : List Octet → Except Status LinkSettings
  | [rate, parity] =>
    match BitRate.ofCode rate, Parity.ofCode parity with
    | some rate, some parity => .ok ⟨rate, parity⟩
    | _, _ => .error .badField
  | _ => .error .badLength

def encodeSetLink (r : LinkSettings) : List Octet := [r.rate.code, r.parity.code]

/-- RESTART (R193). -/
def parseRestart : List Octet → Except Status RestartScope
  | [scope] => fieldsOr (RestartScope.ofCode scope)
  | _ => .error .badLength

def encodeRestart (r : RestartScope) : List Octet := [r.code]

/-- CONFIGURE_LINES (R38). -/
def parseConfigureLines : List Octet → Except Status ConfigureLines
  | [first, count, sense, settle, recording, limit, window, recovery] =>
    match LineSense.ofCode sense, Recording.ofCode recording with
    | some sense, some recording =>
      inRange ConfigureLines.wellFormed
        ⟨first.toNat, count.toNat, sense, settle.toNat, recording, limit.toNat, window.toNat, recovery.toNat⟩
    | _, _ => .error .badField
  | _ => .error .badLength

def encodeConfigureLines (r : ConfigureLines) : List Octet :=
  octets8 r.first ++ octets8 r.count ++ [r.sense.code] ++ octets8 r.settle ++ [r.recording.code] ++ octets8 r.limit
    ++ octets8 r.window ++ octets8 r.recovery

/-- The action kind code (R201). -/
def Action.code : Action → Octet
  | .none => 0
  | .drive _ _ => 1
  | .pulse _ _ _ => 2

/-- The action of a definition, from its kind, output, level and duration octets; the parts the kind leaves unused are
not looked at (R58). -/
def actionOfCodes (kind output level duration1 duration0 : Octet) : Option Action :=
  match kind.toNat with
  | 0 => some .none
  | 1 =>
    match outputOfCode output, Drive.ofCode level with
    | some output, some level => some (.drive output level)
    | _, _ => none
  | 2 =>
    match outputOfCode output, Drive.ofCode level with
    | some output, some level => some (.pulse output level (nat16 duration1 duration0))
    | _, _ => none
  | _ => none

/-- The output, level and duration octets of an action, as the part writes them: 0xFF and 0 where unused (R204). -/
def actionOctets : Action → List Octet
  | .none => [0xFF, 0xFF] ++ octets16 0
  | .drive output level => octets8 output.val ++ [level.code] ++ octets16 0
  | .pulse output level duration => octets8 output.val ++ [level.code] ++ octets16 duration

/-- The prerequisite of a definition; the index is not looked at when the flag says absent (R58). -/
def prerequisiteOfCodes (flag index : Octet) : Option (Option (Fin 16)) :=
  match flagOfCode flag with
  | some false => some none
  | some true => (watchOfCode index).map some
  | none => none

/-- The prerequisite flag and index, 0xFF where absent (R204). -/
def prerequisiteOctets : Option (Fin 16) → List Octet
  | none => [0, 0xFF]
  | some p => 1 :: octets8 p.val

/-- The 22 octets of a watch definition (R204), checked by R58; a reference bit outside the set is held LOW (R47). -/
def parseDefinition : List Octet → Except Status WatchDef
  | [s3, s2, s1, s0, r3, r2, r1, r0, sense, q1, q0, rearm, restore, snapshot, cls, kind, output, level, d1, d0, flag,
      index] =>
    match WatchSense.ofCode sense, Rearm.ofCode rearm, RestoreReporting.ofCode restore, flagOfCode snapshot,
      RecordClass.ofCode cls, actionOfCodes kind output level d1 d0, prerequisiteOfCodes flag index with
    | some sense, some rearm, some restore, some snapshot, some cls, some action, some prerequisite =>
      let lineSet := BitVec.ofNat 32 (nat32 s3 s2 s1 s0)
      inRange WatchDef.wellFormed
        { lineSet, reference := BitVec.ofNat 32 (nat32 r3 r2 r1 r0) &&& lineSet, sense, qualify := nat16 q1 q0, rearm,
          restore, tripSnapshot := snapshot, cls, action, prerequisite }
    | _, _, _, _, _, _, _ => .error .badField
  | _ => .error .badLength

/-- The 22 octets the part writes for a definition it holds (R204). -/
def definitionOctets (d : WatchDef) : List Octet :=
  mapOctets d.lineSet ++ mapOctets d.reference ++ [d.sense.code] ++ octets16 d.qualify
    ++ [d.rearm.code, d.restore.code, flagOctet d.tripSnapshot, d.cls.code, d.action.code] ++ actionOctets d.action
    ++ prerequisiteOctets d.prerequisite

/-- SET_WATCH: the DEFINE length with form 1, the CLEAR length with form 0; one of the two lengths with another form is
BAD_FIELD, any other length BAD_LENGTH (R182). -/
def parseSetWatch (payload : List Octet) : Except Status SetWatch :=
  match payload with
  | [watch, form] =>
    match watchOfCode watch, flagOfCode form with
    | some watch, some false => .ok ⟨watch, none⟩
    | _, _ => .error .badField
  | watch :: form :: definition =>
    if definition.length = 22 then
      match watchOfCode watch, flagOfCode form, parseDefinition definition with
      | some watch, some true, .ok d => .ok ⟨watch, some d⟩
      | _, _, _ => .error .badField
    else .error .badLength
  | _ => .error .badLength

def encodeSetWatch (r : SetWatch) : List Octet :=
  match r.definition with
  | none => octets8 r.watch.val ++ [0]
  | some d => octets8 r.watch.val ++ [1] ++ definitionOctets d

/-- ENABLE_WATCH, DISABLE_WATCH, REARM_WATCH and QUERY_WATCH: a watch index (section 4.6). -/
def parseWatchIndex : List Octet → Except Status (Fin 16)
  | [watch] => fieldsOr (watchOfCode watch)
  | _ => .error .badLength

def encodeWatchIndex (w : Fin 16) : List Octet := octets8 w.val

/-- The form of a DRIVE_OUTPUT; level and duration are not looked at but for PULSE (R100). -/
def driveFormOfCodes (form level duration1 duration0 : Octet) : Option DriveForm :=
  match form.toNat with
  | 3 => (Drive.ofCode level).map fun level => .pulse level (nat16 duration1 duration0)
  | _ => (Drive.ofCode form).map .level

/-- DRIVE_OUTPUT (R100). -/
def parseDriveOutput : List Octet → Except Status DriveOutput
  | [output, form, level, d1, d0] =>
    match outputOfCode output, driveFormOfCodes form level d1 d0 with
    | some output, some form => inRange DriveOutput.wellFormed ⟨output, form⟩
    | _, _ => .error .badField
  | _ => .error .badLength

def encodeDriveOutput (r : DriveOutput) : List Octet :=
  match r.form with
  | .level level => octets8 r.output.val ++ [level.code, 0] ++ octets16 0
  | .pulse level duration => octets8 r.output.val ++ [3, level.code] ++ octets16 duration

/-- The function a SET_OUTPUT_FUNCTION assigns; the frequency is not looked at but for TICK (R101). -/
def functionOfCodes (function hz1 hz0 : Octet) : Option (Option OutputFunction) :=
  match function.toNat with
  | 0 => some none
  | 1 => (tickRateOfHz (nat16 hz1 hz0)).map fun rate => some (.tick rate)
  | 2 => some (some .attn)
  | _ => none

/-- SET_OUTPUT_FUNCTION (R101). -/
def parseSetOutputFunction : List Octet → Except Status SetOutputFunction
  | [output, function, hz1, hz0] =>
    match outputOfCode output, functionOfCodes function hz1 hz0 with
    | some output, some function => inRange SetOutputFunction.wellFormed ⟨output, function⟩
    | _, _ => .error .badField
  | _ => .error .badLength

def encodeSetOutputFunction (r : SetOutputFunction) : List Octet :=
  octets8 r.output.val ++ [functionCode r.function] ++ octets16 (functionHz r.function)

/-- A time field as received: ticks 0 to 1023 (R122, R201). -/
def timeOfOctets (s3 s2 s1 s0 t1 t0 : Octet) : Option TimeValue :=
  if nat16 t1 t0 < 1024 then some ⟨BitVec.ofNat 32 (nat32 s3 s2 s1 s0), BitVec.ofNat 10 (nat16 t1 t0)⟩ else none

/-- SET_TIME (R122). -/
def parseSetTime : List Octet → Except Status TimeValue
  | [s3, s2, s1, s0, t1, t0] => fieldsOr (timeOfOctets s3 s2 s1 s0 t1 t0)
  | _ => .error .badLength

def encodeSetTime (t : TimeValue) : List Octet := timeOctets t

/-- SET_TIME_AT_PULSE (R114). -/
def parseSetTimeAtPulse : List Octet → Except Status SetTimeAtPulse
  | [s3, s2, s1, s0, option] =>
    fieldsOr ((ArmOption.ofCode option).map fun option => ⟨BitVec.ofNat 32 (nat32 s3 s2 s1 s0), option⟩)
  | _ => .error .badLength

def encodeSetTimeAtPulse (r : SetTimeAtPulse) : List Octet := octets32 r.sec.toNat ++ [r.option.code]

/-- SET_SYNC (R113). -/
def parseSetSync : List Octet → Except Status SyncSetting
  | [setting] => fieldsOr (SyncSetting.ofCode setting)
  | _ => .error .badLength

def encodeSetSync (r : SyncSetting) : List Octet := [r.code]

/-- CONFIGURE_TIME (R107). -/
def parseConfigureTime : List Octet → Except Status ConfigureTime
  | [reference, edge] =>
    match Reference.ofCode reference, SyncEdge.ofCode edge with
    | some reference, some edge => .ok ⟨reference, edge⟩
    | _, _ => .error .badField
  | _ => .error .badLength

def encodeConfigureTime (r : ConfigureTime) : List Octet := [r.reference.code, r.edge.code]

/-- FETCH: its maximum (R138). -/
def parseFetch : List Octet → Except Status Nat
  | [maximum] => inRange fetchMaximumInRange maximum.toNat
  | _ => .error .badLength

def encodeFetch (maximum : Nat) : List Octet := octets8 maximum

/-- ACK: any sequence number (R140). -/
def parseAck : List Octet → Except Status SeqNo
  | [s1, s0] => .ok (BitVec.ofNat 16 (nat16 s1 s0))
  | _ => .error .badLength

def encodeAck (n : SeqNo) : List Octet := octets16 n.toNat

/-- SET_DELIVERY (R145). -/
def parseSetDelivery : List Octet → Except Status DeliverySettings
  | [mode, window, perReport, i1, i0, retryLimit] =>
    match Mode.ofCode mode with
    | some mode =>
      inRange DeliverySettings.wellFormed ⟨mode, window.toNat, perReport.toNat, nat16 i1 i0, retryLimit.toNat⟩
    | none => .error .badField
  | _ => .error .badLength

def encodeSetDelivery (r : DeliverySettings) : List Octet :=
  [r.mode.code] ++ octets8 r.window ++ octets8 r.perReport ++ octets16 r.interval ++ octets8 r.retryLimit

end Sys2Proof
end

