-- ==== Sys2Proof/Machine/State.lean ====
section
/-! DEFINITION. The state of the part: every piece of state the manual gives its eight blocks, as plain data, and its value
right after power-on. -/

namespace Sys2Proof.Machine

/-! ## Timers -/

/-- A timer that counts ticks down (section 4.1). `left` is 1 or more. At the tick at which it would reach 0 it keeps 1
and becomes `due`: its expiry, an event of its own, then takes the last count. So a reply formed between that tick and
the expiry still shows a count of 1 or more, as R83, R102 and R123 give. -/
structure Countdown where
  left : Nat
  due  : Bool
  deriving DecidableEq, Repr

/-! ## Records (chapter 1) -/

/-- The subkind of a TIME record; the old time value is there exactly with STEP (R3). -/
inductive TimeSubkind where
  | step (old : TimeValue)
  | syncGained
  | holdover
  | syncMissed
  deriving DecidableEq, Repr

/-- The kind of a record and the fields of its kind (R2). The edge count of a CHATTER OFF is always 0. -/
inductive RecordBody where
  | edge (line : Fin 32) (level : Level) (recovered : Bool)
  | trip (watch : Fin 16) (onset : TimeValue) (outcome : ActionOutcome) (count : Nat) (snapshot : Option LineMap)
  | restore (watch : Fin 16) (snapshot : Option LineMap)
  | chatterOn (line : Fin 32) (count : Nat)
  | chatterOff (line : Fin 32)
  | time (subkind : TimeSubkind)
  | restart (cause : StartCause) (held : Nat) (returned : Nat)
  | gap (lost : Nat) (displaced : Nat)
  deriving DecidableEq, Repr

/-- A record as its sending block forms it: complete except for its sequence number (R1). Its length follows from the
kind and the optional parts (`RecordBody.length`). -/
structure Draft where
  cls   : RecordClass
  stamp : Stamp
  body  : RecordBody
  deriving DecidableEq, Repr

/-- A held record: the record with its sequence number, and beside it its delivery state (R1, R9). -/
structure Held where
  seq       : SeqNo
  record    : Draft
  delivered : Bool
  deriving DecidableEq, Repr

/-- The event journal: the held records oldest first, the next-sequence counter (R6), the counts and the GAP owed flag
(R14). -/
structure Journal where
  held      : List Held
  next      : SeqNo
  lost      : Nat
  displaced : Nat
  gapOwed   : Bool
  deriving DecidableEq, Repr

/-! ## Lines (chapter 2) -/

/-- The configuration of a line; window and recovery time in ticks (R38, R39). -/
structure LineConfig where
  sense     : LineSense
  settle    : Nat
  recording : Recording
  limit     : Nat
  window    : Nat
  recovery  : Nat
  deriving DecidableEq, Repr

/-- The filter state of a line; in SETTLING the captured stamp and the settle ticks remaining (R28, R29). -/
inductive Filter where
  | stable
  | settling (captured : Stamp) (left : Nat)
  deriving DecidableEq, Repr

/-- The chatter state of a line; in COUNTING the edge count and the window ticks remaining, in SUPPRESSED the recovery
ticks remaining (R32 to R35). -/
inductive Chatter where
  | quiet
  | counting (count : Nat) (left : Nat)
  | suppressed (left : Nat)
  deriving DecidableEq, Repr

/-- One monitored line. -/
structure Line where
  config   : LineConfig
  raw      : Level
  filtered : Level
  filter   : Filter
  chatter  : Chatter
  deriving DecidableEq, Repr

/-- The line front end. `pins` are the levels of L0 to L31 at the present tick, `sampleDue` says that the sample of this
tick has yet to be taken (R25), and `firstSample` that the next sample sets the levels without an edge (R42 to R44). -/
structure FrontEnd where
  lines       : Vector Line 32
  pins        : LineMap
  sampleDue   : Bool
  firstSample : Bool
  deriving DecidableEq, Repr

/-! ## Watches (chapters 3 and 4) -/

/-- The state of a watch. The onset is held in QUALIFYING, TRIPPED and HELD, the qualify ticks remaining in QUALIFYING
(R65). -/
inductive WatchState where
  | disabled
  | armed
  | qualifying (onset : TimeValue) (timer : Countdown)
  | tripped (onset : TimeValue)
  | held (onset : TimeValue)
  deriving DecidableEq, Repr

/-- One entry of the watch table (R46, R65). Its owned output and its pulse remaining are kept once, at the output
(`ownedOutput`, `pulseRemaining`). -/
structure Watch where
  definition : Option WatchDef
  state      : WatchState
  tripCount  : Nat
  tripTime   : TimeValue
  deriving DecidableEq, Repr

/-! ## Outputs (chapter 5) -/

/-- A pulse in progress: its level and the ticks remaining (R87). -/
structure Pulse where
  level : Drive
  timer : Countdown
  deriving DecidableEq, Repr

/-- The owner of an output with the owner's hold on it (R87): HOST with or without a host pulse, a watch with the level
of its DRIVE action, a watch with its pulse, or FUNCTION with the function assigned. -/
inductive Owner where
  | host (pulse : Option Pulse)
  | drive (watch : Fin 16) (level : Drive)
  | pulse (watch : Fin 16) (pulse : Pulse)
  | function (function : OutputFunction)
  deriving DecidableEq, Repr

/-- One output. The function of O6 and O7 is GENERAL exactly while the owner is not FUNCTION (R87). -/
structure Output where
  hostLevel : Drive
  owner     : Owner
  deriving DecidableEq, Repr

/-! ## Time base (chapter 6) -/

/-- The state to which an arm returns (R111). -/
inductive Remembered where
  | free | acquiring | tracking | holdover
  deriving DecidableEq, Repr

/-- The sync state, with the items held in ARMED and the missed-pulse limit counted in TRACKING (R111). -/
inductive SyncState where
  | free
  | armed (remembered : Remembered) (value : BitVec 32) (option : ArmOption) (deadline : Countdown)
  | acquiring
  | tracking (limit : Countdown)
  | holdover
  deriving DecidableEq, Repr

/-- The time base. `inForce` is the reference whose divisor the tick in progress uses (R107). `syncLevel` is the SYNC
level of the latest sample of SYNC, absent before the first, and `pulseDue` says that the sample of this tick made a
pulse that has yet to be taken (R111). `pulseInState` says that a pulse has been accepted since the present sync state
was entered (R123). -/
structure TimeBase where
  reference      : Reference
  inForce        : Reference
  edge           : SyncEdge
  tickCounter    : BitVec 32
  time           : TimeValue
  everSet        : Bool
  sync           : SyncState
  slewRemainder  : Int
  slewSpacing    : Nat
  lastPulseAge   : Option Nat
  pulseInState   : Bool
  ignored        : Nat
  syncLevel      : Option Level
  pulseDue       : Bool
  deriving DecidableEq, Repr

/-! ## Delivery (chapter 7) -/

/-- The delivery engine (R128). -/
structure Delivery where
  settings     : DeliverySettings
  state        : DeliveryState
  retry        : Nat
  timer        : Option Countdown
  reportNumber : Octet
  resend       : List SeqNo
  deriving DecidableEq, Repr

/-! ## Host link (chapter 8) -/

/-- A message without its envelope: KIND, TAG and payload. LEN is the payload's length plus 2 (R155). -/
structure Frame where
  kind    : Octet
  tag     : Octet
  payload : List Octet
  deriving DecidableEq, Repr

/-- The effect a reply makes at the leaving of its last octet (R184): the switch of link settings of a SET_LINK, or the
pending start of a RESTART. -/
inductive Deferred where
  | switch (settings : LinkSettings)
  | start (scope : RestartScope)
  deriving DecidableEq, Repr

/-- A reply in the reply queue, with the deferred effect attached to it (R167, R193). -/
structure Reply where
  frame  : Frame
  effect : Option Deferred
  deriving DecidableEq, Repr

/-- The octet receiver (R154): waiting for RXD to be HIGH for a sampling period, looking for a start bit, or within an
octet whose start bit it has found. What leads to looking is a HIGH of RXD long enough (DESIGN CHOICE, log entry 31). -/
inductive Receiver where
  | waitHigh | looking | receiving
  deriving DecidableEq, Repr

/-- The frame assembler (R157 to R159): the LEN received, the body octets to come, the octets collected (KIND, TAG,
payload), the running check and the damaged flag; in CHECK the high check octet once it has come. In LENGTH the running
check is 0xFFFF and the damaged flag clear. -/
inductive Assembler where
  | hunt
  | length
  | body (len : Nat) (toCome : Nat) (octets : List Octet) (crc : BitVec 16) (damaged : Bool)
  | check (len : Nat) (octets : List Octet) (crc : BitVec 16) (damaged : Bool) (high : Option Octet)
  deriving DecidableEq, Repr

/-- What the frame on TXD is, for the event of its last octet leaving (R163). -/
inductive TxSource where
  | reply (effect : Option Deferred)
  | notice
  | report
  deriving DecidableEq, Repr

/-- The line of the transmit arbiter, FREE or SENDING with the octets of the frame still to leave (R162). -/
inductive TxLine where
  | free
  | sending (source : TxSource) (octets : List Octet)
  deriving DecidableEq, Repr

/-- The nine link counters (R165). -/
structure LinkCounters where
  noise         : Nat
  lengthErrors  : Nat
  timeouts      : Nat
  parityErrors  : Nat
  framingErrors : Nat
  damagedFrames : Nat
  crcErrors     : Nat
  busyRefusals  : Nat
  droppedFrames : Nat
  deriving DecidableEq, Repr

/-- The host link. -/
structure Link where
  settings  : LinkSettings
  receiver  : Receiver
  assembler : Assembler
  counters  : LinkCounters
  line      : TxLine
  deriving DecidableEq, Repr

/-! ## Dispatcher and start-up announcer (chapters 9 and 10) -/

/-- The one entry of the reply cache (R174). -/
structure CacheEntry where
  kind  : Octet
  tag   : Octet
  frame : Frame
  deriving DecidableEq, Repr

/-- The request dispatcher (R174). -/
structure Dispatcher where
  requests       : List Frame
  replies        : List Reply
  cache          : Option CacheEntry
  lastStartCause : StartCause
  deriving DecidableEq, Repr

/-- The notice due (R197). -/
inductive NoticeDue where
  | none | first | repeated
  deriving DecidableEq, Repr

/-- The start-up announcer (R197). -/
structure Announcer where
  answered : Bool
  due      : NoticeDue
  timer    : Option Countdown
  number   : Nat
  cause    : StartCause
  deriving DecidableEq, Repr

/-- The RESET line: HIGH and the part running, or LOW and the part held, from power-on or not (R191, R192). -/
inductive Hold where
  | running
  | held (fromPowerOn : Bool)
  deriving DecidableEq, Repr

/-! ## The present moment (the model's own; log entries 3 and 26) -/

/-- The reception in progress that a RESTART FULL has discarded (R172): the parity in force and the frame so far. It is
kept for the rest of the moment, for an octet that arrives together with the start and is taken after it (R190, R199). -/
structure Reception where
  parity    : Parity
  assembler : Assembler
  deriving DecidableEq, Repr

/-- The two parties of the link, each of which has one event at a moment at the most: the receiver, and the
transmitter. -/
inductive Party where
  | receiver | transmitter
  deriving DecidableEq, Repr

/-- What the present moment has had on the link: an event of the receiver; a frame that was handed over or has left; and
the reception that a RESTART FULL has cut off at it. Another event of the same party comes later, at a moment of its
own. -/
structure Moment where
  received    : Bool
  transmitted : Bool
  cut         : Option Reception
  deriving DecidableEq, Repr

/-- A moment that has had nothing on the link. -/
def Moment.fresh : Moment := ⟨false, false, none⟩

/-! ## The whole part -/

/-- The state of the part, the queue of waiting commands, and two fields of the model's own: `moment`, and `choices`, the
count of the free values used (log entries 1, 2 and 3). -/
structure State where
  hold       : Hold
  front      : FrontEnd
  watches    : Vector Watch 16
  outputs    : Vector Output 8
  time       : TimeBase
  journal    : Journal
  delivery   : Delivery
  link       : Link
  dispatcher : Dispatcher
  announcer  : Announcer
  moment     : Moment
  choices    : Nat
  pending    : List Instr
  deriving DecidableEq, Repr

/-- The reasons a step can stop with a fault. There is none: the manual gives every command an effect in every state. -/
inductive Fault where
  deriving DecidableEq, Repr

/-- The reasons a step can be refused. -/
inductive Refusal where
  /-- Raised by an arm of `exec` whose command has no meaning yet; safe. No arm raises it. -/
  | notModelled (mnemonic : String)
  deriving DecidableEq, Repr

/-- The answer of a meaning. -/
abbrev Result := Host.Outcome State Fault Refusal

/-! ## Power-on values -/

/-- The default configuration of a line (R42). -/
def LineConfig.default : LineConfig :=
  { sense := .normal, settle := 3, recording := .silent, limit := 0, window := 1024, recovery := 5120 }

/-- A line at power-on (R42). -/
def Line.powerOn : Line :=
  { config := .default, raw := .low, filtered := .low, filter := .stable, chatter := .quiet }

/-- A watch at power-on (R62, R84). -/
def Watch.powerOn : Watch :=
  { definition := none, state := .disabled, tripCount := 0, tripTime := ⟨0, 0⟩ }

/-- The default state of an output (R87, R104). -/
def Output.default (o : Fin 8) : Output :=
  { hostLevel := .released, owner := if o = 7 then .function .attn else .host none }

/-- The time base at power-on (R111, R125). -/
def TimeBase.powerOn : TimeBase :=
  { reference := .khz32768, inForce := .khz32768, edge := .rising, tickCounter := 0, time := ⟨0, 0⟩, everSet := false,
    sync := .free, slewRemainder := 0, slewSpacing := 0, lastPulseAge := none, pulseInState := false, ignored := 0,
    syncLevel := none, pulseDue := false }

/-- The journal at power-on (R21). -/
def Journal.powerOn : Journal :=
  { held := [], next := 0, lost := 0, displaced := 0, gapOwed := false }

/-- The delivery engine at power-on (R128, R148). -/
def Delivery.powerOn : Delivery :=
  { settings := { mode := .polled, window := 8, perReport := 4, interval := 512, retryLimit := 4 }, state := .running,
    retry := 0, timer := none, reportNumber := 0, resend := [] }

/-- The link settings after power-on and each full start (R152). -/
def LinkSettings.default : LinkSettings := { rate := .b19200, parity := .none }

/-- Every link counter at 0 (R165). -/
def LinkCounters.zero : LinkCounters :=
  { noise := 0, lengthErrors := 0, timeouts := 0, parityErrors := 0, framingErrors := 0, damagedFrames := 0,
    crcErrors := 0, busyRefusals := 0, droppedFrames := 0 }

/-- The link at power-on (R170). -/
def Link.powerOn : Link :=
  { settings := LinkSettings.default, receiver := .waitHigh, assembler := .hunt, counters := .zero, line := .free }

/-- The dispatcher at power-on (R174, R188). -/
def Dispatcher.powerOn : Dispatcher :=
  { requests := [], replies := [], cache := none, lastStartCause := .powerOn }

/-- The announcer as a full start of a given cause leaves it (R197). -/
def Announcer.started (cause : StartCause) : Announcer :=
  { answered := false, due := .first, timer := none, number := 0, cause }

/-- The part right after power-on with the RESET line HIGH (R192). -/
def State.reset : State :=
  { hold := .running
    front := { lines := Vector.ofFn fun _ => Line.powerOn, pins := 0, sampleDue := false, firstSample := true }
    watches := Vector.ofFn fun _ => Watch.powerOn
    outputs := Vector.ofFn Output.default
    time := .powerOn
    journal := .powerOn
    delivery := .powerOn
    link := .powerOn
    dispatcher := .powerOn
    announcer := .started .powerOn
    moment := .fresh
    choices := 0
    pending := [] }

end Sys2Proof.Machine
end

