-- ==== Sys2Proof/Machine/Flags.lean ====
section
/-! DEFINITION. Every value the manual forms from the state rather than holds: the time quality, counts of the journal,
levels of the lines as a map, the TICK wave, the attention condition, driven states and pins, the parity bit, the frame
check, and when a report is ready. -/

namespace Sys2Proof.Machine

/-! ## Time -/

/-- The time quality, from the sync state and the ever-set flag (R110). -/
def TimeBase.quality (t : TimeBase) : Quality :=
  if t.everSet then
    match t.sync with
    | .tracking _ => .synced
    | .holdover => .holdover
    | _ => .set
  else .unset

/-- The stamp of the present moment (R5, R108). -/
def TimeBase.now (t : TimeBase) : Stamp := ⟨t.time, t.quality⟩

/-- The divisor of a reference selection to the tick (R106). -/
def referenceDivisor : Reference → Nat
  | .khz32768 => 32
  | .khz40960 => 40
  | .khz65536 => 64
  | .khz81920 => 80

/-- A time value as a count of ticks, for comparing: seconds first, then ticks (R54). -/
def ticksOf (t : TimeValue) : Nat := t.sec.toNat * 1024 + t.tick.toNat

/-- The later of two time values (R54). -/
def laterTime (a b : TimeValue) : TimeValue := if ticksOf a < ticksOf b then b else a

/-- The earlier of two time values (R54). -/
def earlierTime (a b : TimeValue) : TimeValue := if ticksOf b < ticksOf a then b else a

/-- The latest of some time values, if there is one. -/
def latestTime : List TimeValue → Option TimeValue
  | [] => none
  | t :: ts => some (ts.foldl laterTime t)

/-- The earliest of some time values, if there is one. -/
def earliestTime : List TimeValue → Option TimeValue
  | [] => none
  | t :: ts => some (ts.foldl earlierTime t)

/-! ## Journal -/

/-- The held count (R18). -/
def Journal.heldCount (j : Journal) : Nat := j.held.length

/-- The DELIVERED count (R18). -/
def Journal.deliveredCount (j : Journal) : Nat := j.held.countP (·.delivered)

/-- The PENDING count (R18). -/
def Journal.pendingCount (j : Journal) : Nat := j.held.countP (!·.delivered)

/-- The number of held ALARM records (R18). -/
def Journal.alarmCount (j : Journal) : Nat := j.held.countP (decide <| ·.record.cls = .alarm)

/-- The journal is full when it holds 384 records (R11). -/
def Journal.full (j : Journal) : Bool := decide (Config.journalCapacity ≤ j.heldCount)

/-- The sequence numbers of the DELIVERED records held, oldest first (R133). -/
def Journal.deliveredSeqs (j : Journal) : List SeqNo := (j.held.filter (·.delivered)).map (·.seq)

/-! ## Lines -/

/-- The map with a 1 for each line of which `p` holds (R201). -/
def mapOf (p : Fin 32 → Bool) : LineMap := BitVec.ofFnLE p

/-- The level a line's bit of a map gives. -/
def levelIn (m : LineMap) (i : Fin 32) : Level := if m.getLsbD i.val then .high else .low

/-- The raw logical levels (R41). -/
def FrontEnd.rawMap (f : FrontEnd) : LineMap := mapOf fun i => decide (f.lines[i].raw = .high)

/-- The filtered levels, which are also a snapshot (R3, R41). -/
def FrontEnd.filteredMap (f : FrontEnd) : LineMap := mapOf fun i => decide (f.lines[i].filtered = .high)

/-- Whether a line's filter is SETTLING. -/
def Line.isSettling (l : Line) : Bool :=
  match l.filter with
  | .stable => false
  | .settling _ _ => true

/-- Whether a line is SUPPRESSED. -/
def Line.isSuppressed (l : Line) : Bool :=
  match l.chatter with
  | .suppressed _ => true
  | _ => false

/-- The settling set (R41). -/
def FrontEnd.settlingMap (f : FrontEnd) : LineMap := mapOf fun i => f.lines[i].isSettling

/-- The suppressed set (R41). -/
def FrontEnd.suppressedMap (f : FrontEnd) : LineMap := mapOf fun i => f.lines[i].isSuppressed

/-- The raw logical level that a sense forms from a pin level (R26). -/
def senseLevel : LineSense → Level → Level
  | .normal, pin => pin
  | .inverted, .low => .high
  | .inverted, .high => .low

/-- The settle time of a settle index in ticks: 0, 1, 2, 4, 8, 16, 32, 64 (R27). -/
def settleTime : Nat → Nat
  | 0 => 0
  | n + 1 => 2 ^ n

/-! ## Watches -/

/-- A watch in TRIPPED or HELD, which counts as tripped for its dependents (R52). -/
def WatchState.isTripped : WatchState → Bool
  | .tripped _ => true
  | .held _ => true
  | _ => false

/-- The code of a watch state (R201). -/
def WatchState.code : WatchState → Octet
  | .disabled => 0
  | .armed => 1
  | .qualifying _ _ => 2
  | .tripped _ => 3
  | .held _ => 4

/-- The onset, held in QUALIFYING, TRIPPED and HELD (R65). -/
def WatchState.onset : WatchState → Option TimeValue
  | .qualifying onset _ => some onset
  | .tripped onset => some onset
  | .held onset => some onset
  | _ => none

/-- The prerequisite a watch names, if its definition is present and names one (R52). -/
def State.prerequisite (s : State) (w : Fin 16) : Option (Fin 16) :=
  match s.watches[w].definition with
  | none => none
  | some d => d.prerequisite

/-- The watches that name `w` as prerequisite (R55). -/
def State.dependents (s : State) (w : Fin 16) : List (Fin 16) :=
  (List.finRange 16).filter fun d => decide (s.prerequisite d = some w)

/-- The pattern condition, on the filtered levels as they stand (R48). -/
def State.pattern (s : State) (d : WatchDef) : Bool :=
  let atReference (i : Fin 32) : Bool :=
    !d.lineSet.getLsbD i.val || decide (s.front.lines[i].filtered = levelIn d.reference i)
  match d.sense with
  | .matching => (List.finRange 32).all atReference
  | .differing => !(List.finRange 32).all atReference

/-- Whether a definition's prerequisite, if it names one, is TRIPPED or HELD (R52). -/
def State.prerequisiteTripped (s : State) (d : WatchDef) : Bool :=
  match d.prerequisite with
  | none => true
  | some p => s.watches[p].state.isTripped

/-- The watch condition (R52). -/
def State.condition (s : State) (d : WatchDef) : Bool := s.pattern d && s.prerequisiteTripped d

/-- The chain from a watch ends within `n` watches: it names no prerequisite, or is absent, before they run out. A cycle
never ends, so it fails at every `n` (R57). -/
def chainEnds (prerequisite : Fin 16 → Option (Fin 16)) : Nat → Fin 16 → Bool
  | 0, _ => false
  | n + 1, w =>
    match prerequisite w with
    | none => true
    | some p => chainEnds prerequisite n p

/-- The chain check over the whole table with `d` in place at `w` (R57). -/
def State.chainsEnd (s : State) (w : Fin 16) (d : WatchDef) : Bool :=
  let prerequisite (v : Fin 16) : Option (Fin 16) := if v = w then d.prerequisite else s.prerequisite v
  (List.finRange 16).all (chainEnds prerequisite Config.chainLimit)

/-! ## Outputs -/

/-- The period of the TICK wave in ticks: 1024 divided by the frequency (R97). -/
def wavePeriod (rate : Fin 10) : Nat := 1024 / 2 ^ rate.val

/-- The level of the TICK wave, from the tick counter: HIGH for the first half of each period (R97). -/
def waveLevel (rate : Fin 10) (tickCounter : BitVec 32) : Drive :=
  if tickCounter.toNat % wavePeriod rate < wavePeriod rate / 2 then .high else .low

/-- The attention condition (R98). -/
def State.attention (s : State) : Bool :=
  !s.announcer.answered || decide (s.delivery.state = .stalled)
    || (decide (s.delivery.settings.mode = .polled) && decide (0 < s.journal.pendingCount))

/-- The level a function gives (R97, R98). -/
def State.functionLevel (s : State) : OutputFunction → Drive
  | .tick rate => waveLevel rate s.time.tickCounter
  | .attn => if s.attention then .low else .released

/-- The driven state of an output, from its owner, pulse and host level (R88). -/
def State.driven (s : State) (o : Fin 8) : Drive :=
  match s.outputs[o].owner with
  | .host none => s.outputs[o].hostLevel
  | .host (some p) => p.level
  | .drive _ level => level
  | .pulse _ p => p.level
  | .function f => s.functionLevel f

/-- Whether the part is held by the RESET line (R191). -/
def State.isHeld (s : State) : Bool :=
  match s.hold with
  | .running => false
  | .held _ => true

/-- The pin of an output: its driven state, and RELEASED while the RESET line is held (R88, R104). -/
def State.pin (s : State) (o : Fin 8) : Drive := if s.isHeld then .released else s.driven o

/-- The pulse running on an output, if any (R87). -/
def Owner.runningPulse : Owner → Option Pulse
  | .host p => p
  | .drive _ _ => none
  | .pulse _ p => some p
  | .function _ => none

/-- The watch that owns an output, if one does (R89). -/
def Owner.watch : Owner → Option (Fin 16)
  | .host _ => none
  | .drive w _ => some w
  | .pulse w _ => some w
  | .function _ => none

/-- The code of an owner (R201). -/
def Owner.code : Owner → Octet
  | .host _ => 0x00
  | .function _ => 0x01
  | .drive w _ => BitVec.ofNat 8 (0x10 + w.val)
  | .pulse w _ => BitVec.ofNat 8 (0x10 + w.val)

/-- The function assigned to an output; none is GENERAL (R87). -/
def Owner.assigned : Owner → Option OutputFunction
  | .function f => some f
  | _ => none

/-- The output a watch owns, if it owns one (R65). -/
def State.ownedOutput (s : State) (w : Fin 16) : Option (Fin 8) :=
  (List.finRange 8).find? fun o => decide (s.outputs[o].owner.watch = some w)

/-- The ticks left of a watch's running pulse, if it runs one (R65, R78). -/
def State.pulseRemaining (s : State) (w : Fin 16) : Option Nat :=
  match s.ownedOutput w with
  | none => none
  | some o => s.outputs[o].owner.runningPulse.map (·.timer.left)

/-! ## The sample and the lines of a request -/

/-- Whether the sample of the present tick can be taken: it has yet to be, and the part is not held (R25, R43). -/
def State.sampleReady (s : State) : Bool := !s.isHeld && s.front.sampleDue

/-- Whether a CONFIGURE_LINES covers a line (R39). -/
def covers (r : ConfigureLines) (i : Fin 32) : Bool :=
  decide (r.first ≤ i.val) && decide (i.val < r.first + r.count)

/-- The suppressed lines whose suppression a CONFIGURE_LINES ends: the limit is changed to 0 (R37). -/
def State.endedBy (s : State) (r : ConfigureLines) : List (Fin 32) :=
  (List.finRange 32).filter fun i =>
    covers r i && s.front.lines[i].isSuppressed && decide (s.front.lines[i].config.limit ≠ 0) && decide (r.limit = 0)

/-- Of some lines whose suppression ends, those that deliver a RECOVERED edge at it (R36, R37). -/
def State.recovering (s : State) (lines : List (Fin 32)) : List (Fin 32) :=
  lines.filter fun i => decide (s.front.lines[i].raw ≠ s.front.lines[i].filtered)

/-! ## The link -/

/-- The number of HIGH bits among the data bits. -/
def highBits (data : Octet) : Nat := (List.range 8).countP data.getLsbD

/-- The parity bit that agrees with the data bits, with EVEN or ODD (R153). -/
def parityBit (parity : Parity) (data : Octet) : Option Level :=
  match parity with
  | .none => none
  | .even => some (if highBits data % 2 = 1 then .high else .low)
  | .odd => some (if highBits data % 2 = 1 then .low else .high)

/-- A parity error: a parity is selected and the received bit disagrees (R154). -/
def parityError (parity : Parity) (data : Octet) (received : Level) : Bool :=
  match parityBit parity data with
  | none => false
  | some expected => decide (expected ≠ received)

/-- The levels one octet puts on TXD, a bit time each: start bit, data bits least significant first, parity bit, stop
bit (R153). -/
def txOctetLevels (settings : LinkSettings) (o : Octet) : List Level :=
  [.low] ++ (List.range 8).map (fun i => if o.getLsbD i then .high else .low) ++ (parityBit settings.parity o).toList
    ++ [.high]

/-- The levels of the frame that TXD carries, a bit time each, its octets back to back; none while the line is FREE (R153,
R162). -/
def Link.txLevels (l : Link) : List Level :=
  match l.line with
  | .free => []
  | .sending _ octets => octets.flatMap (txOctetLevels l.settings)

/-- The level of TXD `n` bit times after the hand-over of the frame on it: the frame's levels in turn, and HIGH after
them; with the line FREE, HIGH (R153). -/
def Link.txd (l : Link) (n : Nat) : Level := l.txLevels.getD n .high

/-- The divisor of LCLK for a bit rate (R152). -/
def bitRateDivisor : BitRate → Nat
  | .b9600 => 48 | .b19200 => 24 | .b38400 => 12 | .b57600 => 8 | .b115200 => 4 | .b230400 => 2

/-- The bit times of one octet (R152). -/
def octetBits (parity : Parity) : Nat :=
  match parity with
  | .none => 10
  | _ => 11

/-- One bit through the frame check: shift left, and combine with the polynomial where the bits differed (R156). -/
def crcBit (crc : BitVec 16) (bit : Bool) : BitVec 16 :=
  if crc.msb = bit then crc <<< 1 else (crc <<< 1) ^^^ 0x1021

/-- One octet through the frame check, most significant bit first (R156). -/
def crcOctet (crc : BitVec 16) (o : Octet) : BitVec 16 :=
  [7, 6, 5, 4, 3, 2, 1, 0].foldl (fun c i => crcBit c (o.getLsbD i)) crc

/-- The frame check over some octets, from 0xFFFF (R156). -/
def crcOf (octets : List Octet) : BitVec 16 := octets.foldl crcOctet 0xFFFF

/-! ## Delivery and start-up -/

/-- A report is ready (R129). -/
def State.reportReady (s : State) : Bool :=
  decide (s.delivery.settings.mode = .stream) && decide (s.delivery.state = .running) && s.announcer.answered
    && (decide (s.delivery.resend ≠ [])
      || (decide (s.journal.deliveredCount < s.delivery.settings.window) && decide (0 < s.journal.pendingCount)))

/-- The line is FREE and the part is not held, so that a hand-over can be made (R162, R191). -/
def State.lineFree (s : State) : Bool := !s.isHeld && decide (s.link.line = .free)

/-- The dispatcher can dispatch: a request is queued and a reply slot is free (R178). -/
def State.canDispatch (s : State) : Bool :=
  !s.isHeld && decide (s.dispatcher.requests ≠ []) && decide (s.dispatcher.replies.length < Config.replyCapacity)

/-- The arbiter takes the oldest reply (R162). -/
def State.replyWaits (s : State) : Bool := s.lineFree && decide (s.dispatcher.replies ≠ [])

/-- The requests that are dispatched at the present moment: as many as reply slots are free, and one more where the
hand-over of a reply frees one (R178). -/
def State.dispatchedNow (s : State) : List Frame :=
  if s.isHeld then []
  else
    s.dispatcher.requests.take
      (Config.replyCapacity - s.dispatcher.replies.length + if s.replyWaits then 1 else 0)

/-- The arbiter takes the START notice: one is due and no reply waits (R162), nor a request that is dispatched at the same
arrival (R175): a FIRST notice goes behind the reply to the request that answers the announcement (R199). -/
def State.noticeWaits (s : State) : Bool :=
  s.lineFree && decide (s.dispatcher.replies = []) && !s.canDispatch && decide (s.announcer.due ≠ .none)

/-- The arbiter takes a report: one is ready, no reply waits and no notice is due (R162). -/
def State.reportWaits (s : State) : Bool :=
  s.lineFree && decide (s.dispatcher.replies = []) && decide (s.announcer.due = .none) && s.reportReady

end Sys2Proof.Machine
end

