-- ==== Sys2Proof/Machine/Operands.lean ====
section
/-! DEFINITION. The layouts of what the part sends: records, frames on the wire, and the fields of replies (chapter 11). -/

namespace Sys2Proof.Machine

/-! ## Records (R203) -/

/-- The length field of a record, from its kind and the optional part present (R1, R203). -/
def RecordBody.length : RecordBody → Nat
  | .edge _ _ _ => 12
  | .trip _ _ _ _ none => 20
  | .trip _ _ _ _ (some _) => 24
  | .restore _ none => 11
  | .restore _ (some _) => 15
  | .chatterOn _ _ => 13
  | .chatterOff _ => 13
  | .time (.step _) => 17
  | .time _ => 11
  | .restart _ _ _ => 14
  | .gap _ _ => 14

/-- The record kind in the three least significant bits of the kind octet (R203). -/
def RecordBody.kindCode : RecordBody → Octet
  | .edge _ _ _ => 1
  | .trip _ _ _ _ _ => 2
  | .restore _ _ => 3
  | .chatterOn _ _ => 4
  | .chatterOff _ => 4
  | .time _ => 5
  | .restart _ _ _ => 6
  | .gap _ _ => 7

/-- An optional snapshot: absent, it occupies no octets (R3). -/
def snapshotOctets : Option LineMap → List Octet
  | none => []
  | some m => mapOctets m

/-- The kind fields, from offset 10 (R203). -/
def RecordBody.fieldOctets : RecordBody → List Octet
  | .edge line level recovered => octets8 line.val ++ [level.code ||| (flagOctet recovered <<< 1)]
  | .trip watch onset outcome count snapshot =>
    octets8 watch.val ++ timeOctets onset ++ [outcome.code] ++ octets16 count ++ snapshotOctets snapshot
  | .restore watch snapshot => octets8 watch.val ++ snapshotOctets snapshot
  | .chatterOn line count => octets8 line.val ++ [1] ++ octets8 count
  | .chatterOff line => octets8 line.val ++ [0, 0]
  | .time (.step old) => [0] ++ timeOctets old
  | .time .syncGained => [1]
  | .time .holdover => [2]
  | .time .syncMissed => [3]
  | .restart cause held returned => [cause.code] ++ octets16 held ++ octets8 returned
  | .gap lost displaced => octets16 lost ++ octets16 displaced

/-- The kind, class and quality octet (R203). -/
def kindOctet (r : Draft) : Octet := (r.cls.code <<< 7) ||| (r.stamp.quality.code <<< 5) ||| r.body.kindCode

/-- A record as it is carried in a REPORT or a FETCH reply (R203). -/
def Held.octets (h : Held) : List Octet :=
  octets8 h.record.body.length ++ octets16 h.seq.toNat ++ [kindOctet h.record] ++ timeOctets h.record.stamp.time
    ++ h.record.body.fieldOctets

/-- Records back to back, oldest first (R202). -/
def recordsOctets (rs : List Held) : List Octet := rs.flatMap Held.octets

/-! ## Frames (R155, R156, R202) -/

/-- The octets the frame check covers: LEN through the last payload octet (R156). -/
def Frame.checkedOctets (f : Frame) : List Octet :=
  octets8 (f.payload.length + 2) ++ [f.kind, f.tag] ++ f.payload

/-- A frame on the wire: SYNC, LEN, KIND, TAG, payload, CHECK high octet first (R155). -/
def Frame.wire (f : Frame) : List Octet :=
  0xC3 :: f.checkedOctets ++ octets16 (crcOf f.checkedOctets).toNat

/-- A reply: the tag of the request, its kind as received, the status and the fields that follow (R185). -/
def replyFrame (request : Frame) (status : Status) (fields : List Octet) : Frame :=
  { kind := replyKind, tag := request.tag, payload := request.kind :: status.code :: fields }

/-- The payload of a REPORT (R202). -/
def reportPayload (j : Journal) (rs : List Held) : List Octet :=
  octets16 j.heldCount ++ [flagOctet j.gapOwed] ++ octets8 rs.length ++ recordsOctets rs

/-- The START notice, with the fields as they stand (R197, R202). -/
def noticeFrame (s : State) : Frame :=
  { kind := startKind, tag := BitVec.ofNat 8 s.announcer.number
    payload := [s.announcer.cause.code] ++ octets8 Config.revision ++ octets16 s.journal.heldCount
      ++ octets16 s.journal.next.toNat ++ [s.time.quality.code] }

/-! ## Fields of OK replies (R205) -/

/-- IDENTIFY (R187). -/
def identifyFields (s : State) : List Octet :=
  octets8 Config.familyCode ++ octets8 Config.revision ++ octets8 32 ++ octets8 8 ++ octets8 16
    ++ octets16 Config.journalCapacity ++ octets8 16 ++ [s.dispatcher.lastStartCause.code]

/-- LINK_STATUS (R166). -/
def linkStatusFields (l : Link) : List Octet :=
  octets16 l.counters.noise ++ octets16 l.counters.lengthErrors ++ octets16 l.counters.timeouts
    ++ octets16 l.counters.parityErrors ++ octets16 l.counters.framingErrors ++ octets16 l.counters.damagedFrames
    ++ octets16 l.counters.crcErrors ++ octets16 l.counters.busyRefusals ++ octets16 l.counters.droppedFrames
    ++ [l.settings.rate.code, l.settings.parity.code]

/-- READ_LINES (R41). -/
def readLinesFields (f : FrontEnd) : List Octet :=
  mapOctets f.rawMap ++ mapOctets f.filteredMap ++ mapOctets f.settlingMap ++ mapOctets f.suppressedMap

/-- The qualify ticks remaining, present in QUALIFYING (R83). -/
def WatchState.qualifyLeft : WatchState → Option Nat
  | .qualifying _ timer => some timer.left
  | _ => none

/-- QUERY_WATCH (R83). -/
def queryWatchFields (s : State) (w : Fin 16) : List Octet :=
  presentOctets (s.watches[w].definition.map definitionOctets) ++ [s.watches[w].state.code]
    ++ octets16 s.watches[w].tripCount ++ presentOctets ((s.ownedOutput w).map fun o => octets8 o.val)
    ++ presentOctets ((s.pulseRemaining w).map octets16) ++ presentOctets (s.watches[w].state.onset.map timeOctets)
    ++ presentOctets (s.watches[w].state.qualifyLeft.map octets16)

/-- One output of READ_OUTPUTS; the function and frequency only for O6 and O7 (R102, R205). -/
def outputFields (s : State) (o : Fin 8) : List Octet :=
  [s.outputs[o].hostLevel.code, s.outputs[o].owner.code, (s.driven o).code]
    ++ presentOctets (s.outputs[o].owner.runningPulse.map fun p => octets16 p.timer.left)
    ++ (if 6 ≤ o.val then
          functionCode s.outputs[o].owner.assigned :: octets16 (functionHz s.outputs[o].owner.assigned)
        else [])

/-- READ_OUTPUTS: O0 to O7 in order (R102). -/
def readOutputsFields (s : State) : List Octet := (List.finRange 8).flatMap (outputFields s)

/-- The code of a sync state (R201). -/
def SyncState.code : SyncState → Octet
  | .free => 0
  | .armed _ _ _ _ => 1
  | .acquiring => 2
  | .tracking _ => 3
  | .holdover => 4

/-- The armed value and the deadline remaining, present in ARMED (R123). -/
def SyncState.armFields : SyncState → List Octet
  | .armed _ value _ deadline =>
    presentOctets (some (octets32 value.toNat)) ++ presentOctets (some (octets16 deadline.left))
  | _ => presentOctets none ++ presentOctets none

/-- The ticks since the last accepted pulse, present when a pulse has been accepted since the present sync state was
entered (R123). -/
def TimeBase.shownAge (t : TimeBase) : Option Nat := if t.pulseInState then t.lastPulseAge else none

/-- READ_TIME (R123); the slew remainder in two's complement (R205). -/
def readTimeFields (t : TimeBase) : List Octet :=
  timeOctets t.time ++ [t.quality.code, t.sync.code] ++ t.sync.armFields ++ [BitVec.ofInt 8 t.slewRemainder]
    ++ presentOctets (t.shownAge.map octets16) ++ octets16 t.ignored

/-- JOURNAL_STATUS (R18). -/
def journalStatusFields (j : Journal) : List Octet :=
  octets16 j.heldCount ++ octets16 j.pendingCount ++ octets8 j.deliveredCount ++ octets16 j.alarmCount
    ++ presentOctets (j.held.head?.map fun h => octets16 h.seq.toNat) ++ octets16 j.next.toNat ++ [flagOctet j.gapOwed]
    ++ octets16 j.lost ++ octets16 j.displaced ++ octets16 (Config.journalCapacity - j.heldCount)

/-- FETCH: the flags octet holds GAP owed in its least significant bit and more in the next (R138, R205), and 0 in the
other six bits, of which the manual says nothing (DESIGN CHOICE, log entry 27). -/
def fetchFields (j : Journal) (rs : List Held) : List Octet :=
  octets16 j.heldCount ++ [flagOctet j.gapOwed ||| (flagOctet (decide (rs.length < j.heldCount)) <<< 1)]
    ++ octets8 rs.length ++ recordsOctets rs

end Sys2Proof.Machine
end

