-- ==== Sys2Proof/Machine/Ops.lean ====
section
/-! DEFINITION. The shared operations on the state: counters and timers, free choices, the journal's arrivals, removals and
returns, replies, and the reads and writes of one line, watch or output. -/

namespace Sys2Proof.Machine

/-! ## Counters and timers -/

/-- A saturating counter with the given maximum counts one (section 4.4). -/
def countTo (max n : Nat) : Nat := if n < max then n + 1 else n

/-- A saturating counter that stops at 65535 counts one (section 4.4). -/
def count16 (n : Nat) : Nat := countTo 65535 n

/-- A timer loaded with a number of ticks. -/
def Countdown.load (n : Nat) : Countdown := ⟨n, false⟩

/-- A timer counts one tick down, and becomes due where it would reach 0. -/
def Countdown.tick (c : Countdown) : Countdown :=
  if c.left ≤ 1 then { c with due := true } else { c with left := c.left - 1 }

/-- Whether a timer is running and due. -/
def isDue : Option Countdown → Bool
  | none => false
  | some c => c.due

/-- The time value one tick later: from tick 1023 to tick 0 of the next second, and from the last second to 0 (R108). -/
def nextTime (t : TimeValue) : TimeValue :=
  if t.tick = 1023 then ⟨t.sec + 1, 0⟩ else ⟨t.sec, t.tick + 1⟩

/-! ## One line, one watch, one output -/

/-- The state with one line replaced. -/
def State.setLine (s : State) (i : Fin 32) (l : Line) : State :=
  { s with front := { s.front with lines := s.front.lines.set i.val l i.isLt } }

/-- The state with one watch replaced. -/
def State.setWatch (s : State) (w : Fin 16) (x : Watch) : State :=
  { s with watches := s.watches.set w.val x w.isLt }

/-- The state with the runtime state of one watch replaced. -/
def State.setWatchState (s : State) (w : Fin 16) (x : WatchState) : State :=
  s.setWatch w { s.watches[w] with state := x }

/-- The state with one output replaced. -/
def State.setOutput (s : State) (o : Fin 8) (x : Output) : State :=
  { s with outputs := s.outputs.set o.val x o.isLt }

/-- The state with the owner of one output replaced. -/
def State.setOwner (s : State) (o : Fin 8) (x : Owner) : State :=
  s.setOutput o { s.outputs[o] with owner := x }

/-! ## Free values -/

/-- A choice among `n` things of which any may be taken first: a free value, used only where there are two or more (log
entry 1). -/
def State.choose (s : State) (n : Nat) : Nat × State :=
  if n ≤ 1 then (0, s) else (Config.choice s.choices % n, { s with choices := s.choices + 1 })

/-- A stamp the manual states no value for: a free value (log entry 2). -/
def State.unstated (s : State) : Stamp × State :=
  (Config.unstatedStamp s.choices, { s with choices := s.choices + 1 })

/-! ## The journal (chapter 1) -/

/-- A record enters at the back with the next sequence number, PENDING (R6, R9). -/
def Journal.enter (j : Journal) (r : Draft) : Journal :=
  { j with held := j.held ++ [{ seq := j.next, record := r, delivered := false }], next := j.next + 1 }

/-- The owed GAP record enters with the counts as they stand, which are then cleared (R15). -/
def Journal.enterGap (j : Journal) (now : Stamp) : Journal :=
  { (j.enter { cls := .alarm, stamp := now, body := .gap j.lost j.displaced }) with
    lost := 0, displaced := 0, gapOwed := false }

/-- A record is lost: the lost count increments and a GAP is owed (R12, R13). -/
def Journal.lose (j : Journal) : Journal := { j with lost := count16 j.lost, gapOwed := true }

/-- A PENDING ROUTINE record, which an ALARM arrival may displace (R13). -/
def Held.displaceable (h : Held) : Bool := !h.delivered && decide (h.record.cls = .routine)

/-- A record arrives at a full journal: a ROUTINE record is lost (R12); an ALARM record displaces the oldest PENDING
ROUTINE record and takes its slot, or is lost if there is none (R13). -/
def Journal.arriveFull (j : Journal) (r : Draft) : Journal :=
  match r.cls with
  | .routine => j.lose
  | .alarm =>
    if j.held.any Held.displaceable then
      { j with held := j.held.eraseP Held.displaceable, displaced := count16 j.displaced, gapOwed := true }.enter r
    else j.lose

/-- A record that finds no GAP owed arrives: entered into a free slot (R11), or handled by its class (R12, R13). -/
def Journal.arrivePlain (j : Journal) (r : Draft) : Journal :=
  if j.full then j.arriveFull r else j.enter r

/-- A record arrives: into a journal with a free slot, after an owed GAP record (R11, R15). -/
def Journal.arrive (j : Journal) (now : Stamp) (r : Draft) : Journal :=
  if j.gapOwed && !j.full then (j.enterGap now).arrivePlain r else j.arrivePlain r

/-- The DELIVERED record with sequence number `n`, which an ACK of `n` names (R140). -/
def Held.named (n : SeqNo) (h : Held) : Bool := h.delivered && decide (h.seq = n)

/-- A held record whose delivery state is DELIVERED has the number (R140). -/
def Journal.acknowledgeable (j : Journal) (n : SeqNo) : Bool := j.held.any (Held.named n)

/-- How many records an ACK of `n` removes: those from the oldest up to and including the one it names (R17). -/
def Journal.through (j : Journal) (n : SeqNo) : Nat := j.held.findIdx (Held.named n) + 1

/-- The removal by an ACK, at which an owed GAP record enters the first freed slot (R15, R17, R142). -/
def Journal.removeThrough (j : Journal) (now : Stamp) (n : SeqNo) : Journal :=
  let freed := { j with held := j.held.drop (j.through n) }
  if freed.gapOwed && !freed.full then freed.enterGap now else freed

/-- Every held record leaves, and the counts are cleared (R19). -/
def Journal.clear (j : Journal) : Journal := { j with held := [], lost := 0, displaced := 0, gapOwed := false }

/-- Every DELIVERED record returns to PENDING (R9). -/
def Journal.returnAll (j : Journal) : Journal := { j with held := j.held.map fun h => { h with delivered := false } }

/-- The first `n` held records are marked DELIVERED (R9). -/
def Journal.markFirst (j : Journal) (n : Nat) : Journal :=
  { j with held := (j.held.take n).map (fun h => { h with delivered := true }) ++ j.held.drop n }

/-- A record reaches the journal (R7). -/
def State.arrive (s : State) (r : Draft) : State := { s with journal := s.journal.arrive s.time.now r }

/-- Records that arrive together, in streams each of which has an order of its own, enter in an order that the manual
leaves open between the streams (R7): at each entry, the first record of a freely chosen stream. `fuel` is the number of
records. -/
def arriveTogether : Nat → List (List Draft) → State → State
  | 0, _, s => s
  | fuel + 1, streams, s =>
    let waiting := streams.filter (fun rs => !rs.isEmpty)
    let (k, s) := s.choose waiting.length
    match waiting[k]? with
    | some (r :: rest) => arriveTogether fuel (waiting.set k rest) (s.arrive r)
    | _ => s

/-- Every record of some streams arrives (R7), without a break: a record of another event of the same moment comes before
or after them, never between; nor is a removal, a hand-over, a FETCH or a clear taken between two of them, where R10, R16 and
R20 let it come in either order with each arrival (DESIGN CHOICE, log entry 16). -/
def State.send (s : State) (streams : List (List Draft)) : State := arriveTogether streams.flatten.length streams s

/-! ## The link counters (R165) -/

/-- The state with the link counters changed. -/
def State.countLink (s : State) (f : LinkCounters → LinkCounters) : State :=
  { s with link := { s.link with counters := f s.link.counters } }

/-! ## The line of the transmit arbiter (R162) -/

/-- The line is SENDING a frame (R162), which leaves at a later moment. -/
def State.startSending (s : State) (source : TxSource) (f : Frame) : State :=
  { s with link := { s.link with line := .sending source f.wire }, moment := { s.moment with transmitted := true } }

/-! ## Replies (sections 9.3 and 9.5) -/

/-- What an owning block answers to a request it takes or refuses: the status, the fields after it, the deferred effect
attached to the reply, and the state after (R184, R185). -/
structure Taken where
  status : Status
  fields : List Octet
  effect : Option Deferred
  state  : State
  deriving DecidableEq, Repr

/-- A request taken, with the fields of its OK reply. -/
def Taken.ok (fields : List Octet) (s : State) : Taken := ⟨.ok, fields, none, s⟩

/-- A request refused, which changes nothing (R184). -/
def Taken.refuse (status : Status) (s : State) : Taken := ⟨status, [], none, s⟩

/-- A reply joins the back of the reply queue (R185). -/
def State.queueReply (s : State) (r : Reply) : State :=
  { s with dispatcher := { s.dispatcher with replies := s.dispatcher.replies ++ [r] } }

/-- The request at the front of the queue leaves it (R178). -/
def State.popRequest (s : State) : State :=
  { s with dispatcher := { s.dispatcher with requests := s.dispatcher.requests.tail } }

/-- The reply cache takes a new entry, for a tag other than 0 (R180). -/
def State.cacheReply (s : State) (request reply : Frame) : State :=
  if request.tag = 0 then s
  else
    { s with dispatcher :=
        { s.dispatcher with cache := some { kind := request.kind, tag := request.tag, frame := reply } } }

/-- The cached reply, where the frame repeats the cached request (R179). -/
def Dispatcher.repeatOf (d : Dispatcher) (request : Frame) : Option Frame :=
  match d.cache with
  | none => none
  | some e => if request.tag ≠ 0 ∧ e.tag = request.tag ∧ e.kind = request.kind then some e.frame else none

/-- The reply of an executed or refused request is formed, queued and cached (R180, R185). -/
def Taken.answer (t : Taken) (request : Frame) : State :=
  let reply := replyFrame request t.status t.fields
  (t.state.queueReply { frame := reply, effect := t.effect }).cacheReply request reply

/-- A dispatch of the request `f`, which stands at the front of the queue, by the steps of sections 9.3 to 9.5: the
repeat is answered from the cache (R179); the length and field checks refuse (R182, R183); the owning block takes
(R184); the reply is queued and cached (R185). -/
def dispatchFrame {α : Type} (f : Frame) (parse : List Octet → Except Status α) (take : α → State → Taken) (s : State) :
    State :=
  match s.dispatcher.repeatOf f with
  | some copy => s.popRequest.queueReply { frame := copy, effect := none }
  | none =>
    match parse f.payload with
    | .error status => (Taken.refuse status s.popRequest).answer f
    | .ok a => (take a s.popRequest).answer f

/-- The dispatch of a request of the given kind, where the front of the request queue is one and a reply slot is free
(R178). Otherwise that dispatch does not come about, and nothing changes (log entry 4). -/
def dispatch {α : Type} (kind : RequestKind) (parse : List Octet → Except Status α) (take : α → State → Taken)
    (s : State) : State :=
  if s.canDispatch then
    match s.dispatcher.requests with
    | [] => s
    | f :: _ => if RequestKind.ofCode f.kind = some kind then dispatchFrame f parse take s else s
  else s

/-- The dispatch of a frame whose kind is not a request kind (R181). -/
def dispatchUnknown (s : State) : State :=
  if s.canDispatch then
    match s.dispatcher.requests with
    | [] => s
    | f :: _ =>
      if RequestKind.ofCode f.kind = none then
        dispatchFrame f (fun _ => (.error .unknownKind : Except Status Unit)) (fun _ s => .ok [] s) s
      else s
  else s

end Sys2Proof.Machine
end

