-- ==== Sys2Proof/Machine/Delivery.lean ====
section
/-! DEFINITION. The delivery engine and the requests to it and to the journal (chapters 1 and 7). -/

namespace Sys2Proof.Machine

/-! ## Reports -/

/-- How many records a new report takes: the least of the records per report and the window less the DELIVERED count, of
the PENDING records held (R130). -/
def State.newReportSize (s : State) : Nat :=
  min s.journal.pendingCount
    (min s.delivery.settings.perReport (s.delivery.settings.window - s.journal.deliveredCount))

/-- The held records with the given sequence numbers, in that order (R130). -/
def Journal.withSeqs (j : Journal) (seqs : List SeqNo) : List Held :=
  seqs.filterMap fun n => j.held.find? fun h => decide (h.seq = n)

/-- The records of the report that is handed over: the first entries of the resend list, or else the oldest PENDING
records (R130). -/
def State.reportRecords (s : State) : List Held :=
  if s.delivery.resend = [] then (s.journal.held.filter fun h => !h.delivered).take s.newReportSize
  else s.journal.withSeqs (s.delivery.resend.take s.delivery.settings.perReport)

/-- The REPORT frame that is handed over: the report number in its tag, the held count, the GAP owed flag and the records
(R130, R202). -/
def State.reportFrame (s : State) : Frame :=
  { kind := reportKind, tag := s.delivery.reportNumber, payload := reportPayload s.journal s.reportRecords }

/-- Records are marked DELIVERED: the oldest `n` PENDING ones (R9). Every DELIVERED record is older than they are. -/
def Journal.markPending : Nat → List Held → List Held
  | 0, held => held
  | _, [] => []
  | n + 1, h :: rest =>
    if h.delivered then h :: Journal.markPending (n + 1) rest
    else { h with delivered := true } :: Journal.markPending n rest

/-- REPORT_HAND_OVER (R130): the frame is formed, its records leave the resend list or are marked DELIVERED, the report
number advances and the line is SENDING. -/
def reportHandOver (s : State) : State :=
  if s.reportWaits then
    let delivery := { s.delivery with
      reportNumber := s.delivery.reportNumber + 1
      resend := s.delivery.resend.drop s.delivery.settings.perReport }
    let held :=
      if s.delivery.resend = [] then Journal.markPending s.newReportSize s.journal.held else s.journal.held
    { s with delivery, journal := { s.journal with held } }.startSending .report s.reportFrame
  else s

/-- The last octet of a REPORT frame leaves: the retransmit timer is loaded in STREAM mode while RUNNING (R132). It is loaded too
by a REPORT handed over before a stall that leaves after a RESUME and before any resend frame, where R144 has the timer stay
stopped until the first resend frame's last octet leaves: the model follows R132 there (DESIGN CHOICE, log entry 30). -/
def Delivery.reportLeft (d : Delivery) : Delivery :=
  if d.settings.mode = .stream ∧ d.state = .running then { d with timer := some (.load d.settings.interval) } else d

/-- RETRANSMIT_EXPIRY (R133): without a DELIVERED record held, only the timer stops; else the retry count increases, and
the engine stalls at the retry limit or begins a go-back. -/
def retransmitExpiry (s : State) : State :=
  if isDue s.delivery.timer then
    let d := { s.delivery with timer := none }
    if s.journal.deliveredCount = 0 then { s with delivery := d }
    else if d.settings.retryLimit ≤ d.retry + 1 then
      { s with delivery := { d with retry := d.retry + 1, state := .stalled, resend := [] } }
    else { s with delivery := { d with retry := d.retry + 1, resend := s.journal.deliveredSeqs } }
  else s

/-! ## Requests -/

/-- FETCH (R138): refused in STREAM mode; in POLLED mode the oldest held records are returned, and the PENDING ones among
them marked DELIVERED. -/
def takeFetch (maximum : Nat) (s : State) : Taken :=
  match s.delivery.settings.mode with
  | .stream => .refuse .wrongMode s
  | .polled =>
    .ok (fetchFields s.journal (s.journal.held.take maximum)) { s with journal := s.journal.markFirst maximum }

/-- What a valid ACK does to the delivery engine after the removal (R141). -/
def Delivery.acknowledged (d : Delivery) (j : Journal) : Delivery :=
  { d with
    retry := 0
    state := .running
    resend := d.resend.filter j.deliveredSeqs.contains
    timer :=
      match d.settings.mode with
      | .polled => none
      | .stream => if j.deliveredCount = 0 then none else some (.load d.settings.interval) }

/-- ACK (R140, R141, R142). -/
def takeAck (n : SeqNo) (s : State) : Taken :=
  if s.journal.acknowledgeable n then
    let journal := s.journal.removeThrough s.time.now n
    .ok (octets8 (s.journal.through n)) { s with journal, delivery := s.delivery.acknowledged journal }
  else .refuse .ackRange s

/-- The delivery engine begins again: no resend list, no retry, no timer, RUNNING (R146, R151). -/
def Delivery.restarted (d : Delivery) : Delivery := { d with state := .running, retry := 0, timer := none, resend := [] }

/-- SET_DELIVERY (R146). -/
def takeSetDelivery (settings : DeliverySettings) (s : State) : Taken :=
  .ok (octets8 s.journal.deliveredCount)
    { s with
      journal := s.journal.returnAll
      delivery := { s.delivery with settings }.restarted }

/-- RESUME (R144): ends a stall and begins a go-back of the DELIVERED records. -/
def takeResume (s : State) : Taken :=
  match s.delivery.state with
  | .running => .ok [DeliveryState.running.code] s
  | .stalled =>
    .ok [DeliveryState.stalled.code]
      { s with delivery := { s.delivery with state := .running, retry := 0, resend := s.journal.deliveredSeqs } }

/-- JOURNAL_STATUS (R18). -/
def takeJournalStatus (s : State) : Taken := .ok (journalStatusFields s.journal) s

/-- CLEAR_JOURNAL (R19): the cleared records leave the resend list, and the delivery engine keeps the rest (R134). -/
def takeClearJournal (s : State) : Taken :=
  .ok (octets16 s.journal.heldCount)
    { s with journal := s.journal.clear, delivery := { s.delivery with resend := [] } }

end Sys2Proof.Machine
end

