-- ==== Sys2Proof/Machine/Watches.lean ====
section
/-! DEFINITION. The watch engine and its holds on outputs (chapters 3, 4 and 5): evaluation, trip, restore, claims and
releases, the events of the watches, and the requests to them. -/

namespace Sys2Proof.Machine

/-- An edge as it is delivered to the watch engine (R30). -/
structure Edge where
  line      : Fin 32
  level     : Level
  stamp     : Stamp
  recovered : Bool
  deriving DecidableEq, Repr

/-- The result of an evaluation (R53). -/
inductive Evaluation where
  /-- The watch condition is true, with the onset formed; none where the event formed none (R54). -/
  | holds (onset : Option TimeValue)
  /-- The watch condition is false; the stamps that a RESTORE record it causes may carry (R75). -/
  | fails (stamps : List Stamp)
  /-- False at the departure of the prerequisite, which never restores the watch (R76), and at a delivery that makes that
  departure itself (R56). -/
  | departure
  deriving DecidableEq, Repr

/-- What is still to be done about one event at the watch engine: a watch acts on the result of its evaluation, or the
dependents of a watch are evaluated at its trip or at its departure (R53, R55). -/
inductive Task where
  | act (watch : Fin 16) (evaluation : Evaluation)
  | tripped (watch : Fin 16)
  | departed (watch : Fin 16)
  deriving DecidableEq, Repr

/-- The state as an event has brought it so far, with the records sent that have yet to reach the journal, in streams
that each keep their own order. R31 gives the line front end's records an order, so they are one stream. Records that arrive
together have no stated order (R7), and the model leaves it open for two records of one watch too: every TRIP and RESTORE
record is a stream of its own (DESIGN CHOICE, log entry 16). -/
structure Work where
  state : State
  sent  : List (List Draft)
  deriving DecidableEq, Repr

/-- The event is over: the records it sent reach the journal (R7). -/
def Work.finish (k : Work) : State := k.state.send k.sent

/-! ## Claims and releases (R89, R90, R92) -/

/-- A claim by watch `w` of output `o` for an action with the given hold: decided by the owner alone (R90). -/
def claimOutput (w : Fin 16) (o : Fin 8) (hold : Owner) (s : State) : ActionOutcome × State :=
  match s.outputs[o].owner with
  | .host _ => (.done, s.setOwner o hold)
  | .drive v _ => if v = w then (.done, s.setOwner o hold) else (.blockedOwned, s)
  | .pulse v _ => if v = w then (.done, s.setOwner o hold) else (.blockedOwned, s)
  | .function _ => (.blockedFunction, s)

/-- Step 4 of the trip: the claim of a watch's action (R70, R77, R78). -/
def claim (w : Fin 16) (a : Action) (s : State) : ActionOutcome × State :=
  match a with
  | .none => (.none, s)
  | .drive o level => claimOutput w o (.drive w level) s
  | .pulse o level duration => claimOutput w o (.pulse w ⟨level, .load duration⟩) s

/-- The outputs with the holds of a watch that `p` selects let go: owner HOST, no pulse (R92). -/
def releaseWhere (p : Owner → Bool) (s : State) : State :=
  let released (x : Output) : Output := if p x.owner = true then { x with owner := .host none } else x
  { s with outputs := Vector.ofFn fun o => released s.outputs[o] }

/-- Watch `w` releases the output it owns under a DRIVE action (R77). -/
def releaseDrive (w : Fin 16) (s : State) : State :=
  releaseWhere (fun owner => match owner with | .drive v _ => decide (v = w) | _ => false) s

/-- Watch `w` releases the output it owns under any action, and its pulse ends (R81). -/
def releaseAll (w : Fin 16) (s : State) : State := releaseWhere (fun owner => decide (owner.watch = some w)) s

/-! ## Evaluation (R53 to R55) -/

/-- The edges of a delivery on lines of a watch's line set. -/
def edgesOn (d : WatchDef) (edges : List Edge) : List Edge := edges.filter fun e => d.lineSet.getLsbD e.line.val

/-- The edges whose new level differs from the line's reference level. -/
def leaving (d : WatchDef) (edges : List Edge) : List Edge :=
  edges.filter fun e => decide (e.level ≠ levelIn d.reference e.line)

/-- The pattern onset of a delivery that leaves the pattern condition true; with DIFFER none where no set line left its
reference level (R54). `edges` are those on lines of the set. -/
def patternOnset (d : WatchDef) (edges : List Edge) : Option TimeValue :=
  match d.sense with
  | .matching => latestTime (edges.map (·.stamp.time))
  | .differing => earliestTime ((leaving d edges).map (·.stamp.time))

/-- The onset of a watch from its pattern onset: the later of it and the prerequisite's trip time (R54). -/
def State.onsetFrom (s : State) (d : WatchDef) (pattern : TimeValue) : TimeValue :=
  match d.prerequisite with
  | none => pattern
  | some p => laterTime pattern s.watches[p].tripTime

/-- The distinct stamps whose time is the given one. -/
def stampsAt (edges : List Edge) : Option TimeValue → List Stamp
  | none => []
  | some t => ((edges.map (·.stamp)).filter fun st => decide (st.time = t)).eraseDups

/-- The stamps a RESTORE caused by a delivery may carry (R75); more than one only where edges with one time value carry
different qualities, none where the manual states no stamp. -/
def restoreStamps (s : State) (d : WatchDef) (edges : List Edge) : List Stamp :=
  if s.pattern d then stampsAt edges (earliestTime (edges.map (·.stamp.time)))
  else
    match d.sense with
    | .matching => stampsAt (leaving d edges) (earliestTime ((leaving d edges).map (·.stamp.time)))
    | .differing => stampsAt edges (latestTime (edges.map (·.stamp.time)))

/-- Whether a delivery of edges restores watch `p` (R73, R74). -/
def State.restoresAt (s : State) (edges : List Edge) (p : Fin 16) : Bool :=
  match s.watches[p].definition, s.watches[p].state with
  | some d, .tripped _ => decide (edgesOn d edges ≠ []) && !s.condition d
  | _, _ => false

/-- Whether a delivery of edges restores watch `p` under AUTO rearm, so that it departs from TRIPPED at it (R73). -/
def State.departsAt (s : State) (edges : List Edge) (p : Fin 16) : Bool :=
  s.restoresAt edges p && s.watches[p].definition.any fun d => decide (d.rearm = .auto)

/-- The evaluation of a watch on a delivery of edges (R53, R54). Where the delivery itself takes the prerequisite out of
TRIPPED, the condition is false after both (R56). -/
def State.evaluateDelivery (s : State) (d : WatchDef) (edges : List Edge) : Evaluation :=
  if s.condition d then
    if d.prerequisite.any (s.departsAt edges) then .departure
    else .holds ((patternOnset d (edgesOn d edges)).map (s.onsetFrom d))
  else .fails (restoreStamps s d (edgesOn d edges))

/-- The evaluation of a dependent at its prerequisite's trip: the onset is the trip time (R55). -/
def State.evaluateTrip (s : State) (d : WatchDef) (prerequisite : Fin 16) : Evaluation :=
  if s.condition d then .holds (some s.watches[prerequisite].tripTime) else .fails []

/-- The evaluation of a watch at the taking of an ENABLE_WATCH or REARM_WATCH for it: the onset is the time value at the
taking (R66). -/
def State.evaluateTaking (s : State) (d : WatchDef) : Evaluation :=
  if s.condition d then .holds (some s.time.time) else .fails []

/-- The evaluation of a watch, if it has a definition and is enabled (R53). -/
def State.evaluation (s : State) (evaluate : WatchDef → Evaluation) (w : Fin 16) : Option Task :=
  match s.watches[w].definition with
  | none => none
  | some d => if s.watches[w].state = .disabled then none else some (.act w (evaluate d))

/-- The evaluations of a delivery: of every enabled watch with an edge on a line of its set, all on the same levels and
states (R53). -/
def State.deliveryTasks (s : State) (edges : List Edge) : List Task :=
  (List.finRange 16).filterMap fun w =>
    match s.watches[w].definition with
    | none => none
    | some d => if edgesOn d edges = [] then none else s.evaluation (fun d => s.evaluateDelivery d edges) w

/-! ## Trip and restore (R70, R73 to R75) -/

/-- The snapshot of a TRIP or RESTORE record, when it carries one (R3). -/
def State.snapshotIf (s : State) (b : Bool) : Option LineMap := if b then some s.front.filteredMap else none

/-- A watch trips (R70): it enters TRIPPED, its trip count and trip time are written, it claims its output, and it sends
its TRIP record (R71), in a stream of its own: the watch may have sent a RESTORE record at the same event, and the order of
the two is left open (DESIGN CHOICE, log entry 16). The evaluation of its dependents is left to be done. -/
def trip (w : Fin 16) (onset : TimeValue) (k : Work) : Work × List Task :=
  match k.state.watches[w].definition with
  | none => (k, [])
  | some d =>
    let count := count16 k.state.watches[w].tripCount
    let s := k.state.setWatch w
      { k.state.watches[w] with state := .tripped onset, tripCount := count, tripTime := k.state.time.time }
    let (outcome, s) := claim w d.action s
    let record : Draft :=
      { cls := d.cls, stamp := s.time.now, body := .trip w onset outcome count (s.snapshotIf d.tripSnapshot) }
    ({ state := s, sent := k.sent ++ [[record]] }, [.tripped w])

/-- The stamp of a RESTORE record, from those it may carry: a free one where the manual states none (log entry 2). -/
def State.pickStamp (s : State) (stamps : List Stamp) : Stamp × State :=
  let (i, s) := s.choose stamps.length
  match stamps[i]? with
  | some stamp => (stamp, s)
  | none => s.unstated

/-- The RESTORE record of a restore, when restore reporting asks for one (R75), in a stream of its own: the watch may trip
again at the same event, and the order of the two records is left open (DESIGN CHOICE, log entry 16). -/
def sendRestore (w : Fin 16) (d : WatchDef) (stamps : List Stamp) (k : Work) : Work :=
  match d.restore with
  | .none => k
  | reporting =>
    let (stamp, s) := k.state.pickStamp stamps
    let record : Draft :=
      { cls := d.cls, stamp, body := .restore w (s.snapshotIf (decide (reporting = .withSnapshot))) }
    { state := s, sent := k.sent ++ [[record]] }

/-- A TRIPPED watch whose condition is false: to ARMED under AUTO, its DRIVE output released and its dependents to be
evaluated (R73); to HELD under MANUAL (R74). -/
def restore (w : Fin 16) (onset : TimeValue) (d : WatchDef) (stamps : List Stamp) (k : Work) : Work × List Task :=
  match d.rearm with
  | .auto =>
    (sendRestore w d stamps { k with state := releaseDrive w (k.state.setWatchState w .armed) }, [.departed w])
  | .manual => (sendRestore w d stamps { k with state := k.state.setWatchState w (.held onset) }, [])

/-- The onset that an evaluation has formed, or a free one where the manual states none (log entry 2). -/
def State.pickOnset (s : State) : Option TimeValue → TimeValue × State
  | some onset => (onset, s)
  | none => (s.unstated.1.time, s.unstated.2)

/-- The condition of an ARMED watch has become true: it enters QUALIFYING with its qualify time loaded, or trips at once
with a qualify time of 0 (R66). -/
def becomeTrue (w : Fin 16) (d : WatchDef) (onset : Option TimeValue) (k : Work) : Work × List Task :=
  let (onset, s) := k.state.pickOnset onset
  if d.qualify = 0 then trip w onset { k with state := s }
  else ({ k with state := s.setWatchState w (.qualifying onset (.load d.qualify)) }, [])

/-- A watch acts on the result of an evaluation, by its state (R66, R68, R73, R74, R76). Where the prerequisite has left
TRIPPED or HELD at the same event before the watch acts, the condition is false (R56). -/
def act (w : Fin 16) (e : Evaluation) (k : Work) : Work × List Task :=
  match k.state.watches[w].definition with
  | none => (k, [])
  | some d =>
    match k.state.watches[w].state, e with
    | .armed, .holds onset => if k.state.prerequisiteTripped d then becomeTrue w d onset k else (k, [])
    | .qualifying _ _, .fails _ => ({ k with state := k.state.setWatchState w .armed }, [])
    | .qualifying _ _, .departure => ({ k with state := k.state.setWatchState w .armed }, [])
    | .tripped onset, .fails stamps => restore w onset d stamps k
    | _, _ => (k, [])

/-! ## One event at the watch engine -/

/-- The evaluations of the dependents of `w` at an event of it, all on the same levels and states (R53). -/
def State.dependentTasks (s : State) (w : Fin 16) (evaluate : WatchDef → Evaluation) : List Task :=
  (s.dependents w).filterMap (s.evaluation evaluate)

/-- One task is done, with the tasks that follow from it. -/
def runTask (t : Task) (k : Work) : Work × List Task :=
  match t with
  | .act w e => act w e k
  | .tripped w => (k, k.state.dependentTasks w fun d => k.state.evaluateTrip d w)
  | .departed w => (k, k.state.dependentTasks w fun _ => .departure)

/-- The watches a task reads or writes. -/
def State.touched (s : State) : Task → List (Fin 16)
  | .act w _ => [w]
  | .tripped w => w :: s.dependents w
  | .departed w => w :: s.dependents w

/-- The positions of the tasks that may be done next: those that touch no watch an earlier task touches. Tasks about
different watches have no order among them (R53); those about one watch keep theirs. -/
def State.ready (s : State) (ts : List Task) : List Nat :=
  (List.range ts.length).filter fun i =>
    match ts[i]? with
    | none => false
    | some t => (ts.take i).all fun earlier => (s.touched earlier).all fun w => !(s.touched t).contains w

/-- The tasks are done, each time a freely chosen one of those that may be next, until none is left. `fuel` bounds their
number (log entry 5). -/
def runTasks : Nat → List Task → Work → Work
  | 0, _, k => k
  | fuel + 1, ts, k =>
    let ready := k.state.ready ts
    let (n, s) := k.state.choose ready.length
    match ready[n]? with
    | none => k
    | some i =>
      match ts[i]? with
      | none => k
      | some t =>
        let (k, more) := runTask t { k with state := s }
        runTasks fuel (ts.eraseIdx i ++ more) k

/-- More tasks than one event can give, since no chain is longer than 4 watches (log entry 5). -/
def taskFuel : Nat := 1000000

/-- The tasks of one event are done to the end. -/
def Work.run (k : Work) (ts : List Task) : Work := runTasks taskFuel ts k

/-- A delivery of edges to the watch engine (R30, R53). -/
def deliver (edges : List Edge) (k : Work) : Work := k.run (k.state.deliveryTasks edges)

/-! ## Departures that come together with a delivery (R56)

A delivery that makes the condition of a dependent true and the departure of its prerequisite may come together in two events
of one moment. The manual takes such events in either order and has the two orders differ in no record (R56, R178). A dependent
with a qualify time of 0 would trip where the delivery is taken first (R66), so the model takes the departure first there
(DESIGN CHOICE, log entry 7). The definitions of this section only find out whether the order matters; nothing acts. -/

/-- Whether a watch is ARMED, with a qualify time of 0, and named as dependent of watch `p`, so that it trips at the delivery
that makes its condition true (R66). -/
def State.tripsAtOnce (s : State) (p w : Fin 16) : Bool :=
  match s.watches[w].definition, s.watches[w].state with
  | some d, .armed => decide (d.qualify = 0) && decide (d.prerequisite = some p)
  | _, _ => false

/-- Whether the delivery of some edges, with the levels as they stand after them, trips a dependent of watch `p` that has a
qualify time of 0. -/
def State.tripsDependent (s : State) (edges : List Edge) (p : Fin 16) : Bool :=
  !s.departsAt edges p
    && (List.finRange 16).any fun w =>
      s.tripsAtOnce p w && s.watches[w].definition.any fun d => decide (edgesOn d edges ≠ []) && s.condition d

/-- Whether edges on some lines may trip a dependent of watch `p` that has a qualify time of 0. -/
def State.mayTripDependent (s : State) (lines : List (Fin 32)) (p : Fin 16) : Bool :=
  (List.finRange 16).any fun w =>
    s.tripsAtOnce p w && s.watches[w].definition.any fun d => lines.any fun i => d.lineSet.getLsbD i.val

/-- Whether edges on some lines may restore watch `p` under AUTO rearm (R73). -/
def State.mayRestore (s : State) (lines : List (Fin 32)) (p : Fin 16) : Bool :=
  match s.watches[p].definition, s.watches[p].state with
  | some d, .tripped _ => decide (d.rearm = .auto) && lines.any fun i => d.lineSet.getLsbD i.val
  | _, _ => false

/-- Whether a REARM_WATCH may find watch `p` HELD: it is, or it is TRIPPED under MANUAL rearm, so that a delivery of the same
moment may make it so (R74, R82). -/
def State.mayRearm (s : State) (p : Fin 16) : Bool :=
  match s.watches[p].definition, s.watches[p].state with
  | _, .held _ => true
  | some d, .tripped _ => decide (d.rearm = .manual)
  | _, _ => false

/-- Whether the dispatch of a request may take watch `p` out of TRIPPED and HELD: a DISABLE_WATCH (R81) or a REARM_WATCH
(R82) of it, or a CONFIGURE_LINES that ends the suppression of one of its lines (R37, R73). -/
def State.requestDeparts (s : State) (p : Fin 16) (f : Frame) : Bool :=
  match RequestKind.ofCode f.kind with
  | some .disableWatch => decide (f.payload = encodeWatchIndex p)
  | some .rearmWatch => decide (f.payload = encodeWatchIndex p) && s.mayRearm p
  | some .configureLines =>
    match parseConfigureLines f.payload with
    | .ok r => s.mayRestore (s.recovering (s.endedBy r)) p
    | .error _ => false
  | _ => false

/-! ## Expiries -/

/-- Whether the qualify timer of a watch has reached 0 (R67). A watch with no definition is DISABLED (R46). -/
def State.qualifyDue (s : State) (w : Fin 16) : Bool :=
  s.watches[w].definition.isSome
    && match s.watches[w].state with
      | .qualifying _ timer => timer.due
      | _ => false

/-- QUALIFY_EXPIRY: a watch whose qualify timer has reached 0 trips (R67, R70). -/
def qualifyExpiry (w : Fin 16) (s : State) : State :=
  match s.watches[w].state with
  | .qualifying onset timer =>
    if timer.due then
      let (k, ts) := trip w onset { state := s, sent := [] }
      (k.run ts).finish
    else s
  | _ => s

/-- Whether an output carries a pulse of watch `w` that has reached 0. -/
def watchPulseDue (w : Fin 16) : Owner → Bool
  | .pulse v p => decide (v = w) && p.timer.due
  | _ => false

/-- WATCH_PULSE_END: a watch pulse that has reached 0 has ended, and the watch lets go of the output (R94). -/
def watchPulseEnd (w : Fin 16) (s : State) : State := releaseWhere (watchPulseDue w) s

/-! ## Requests to a watch -/

/-- SET_WATCH: IN_USE unless the watch is DISABLED, then BAD_CHAIN where the chain check fails; otherwise the definition
is replaced whole, or made absent (R59 to R61). -/
def takeSetWatch (r : SetWatch) (s : State) : Taken :=
  if s.watches[r.watch].state ≠ .disabled then .refuse .inUse s
  else
    match r.definition with
    | none => .ok [] (s.setWatch r.watch { s.watches[r.watch] with definition := none })
    | some d =>
      if s.chainsEnd r.watch d then .ok [] (s.setWatch r.watch { s.watches[r.watch] with definition := some d })
      else .refuse .badChain s

/-- The watch has been put into ARMED by the request, and is evaluated at the taking (R80, R82); `before` are the tasks
that come first. -/
def evaluateAtTaking (w : Fin 16) (before : List Task) (s : State) : State :=
  let tasks := (s.evaluation s.evaluateTaking w).toList
  (({ state := s, sent := [] : Work }.run before).run tasks).finish

/-- ENABLE_WATCH (R80). -/
def takeEnableWatch (w : Fin 16) (s : State) : Taken :=
  if s.watches[w].definition = none then .refuse .notDefined s
  else if s.watches[w].state ≠ .disabled then .refuse .inUse s
  else
    let s := evaluateAtTaking w [] (s.setWatch w { s.watches[w] with state := .armed, tripCount := 0 })
    .ok [s.watches[w].state.code] s

/-- DISABLE_WATCH: DISABLED from whatever state, its output released and its pulse ended, no record; its dependents are
evaluated if it left TRIPPED or HELD (R81). -/
def takeDisableWatch (w : Fin 16) (s : State) : Taken :=
  let before := s.watches[w].state
  let s := releaseAll w (s.setWatchState w .disabled)
  let s := if before.isTripped then ({ state := s, sent := [] : Work }.run [.departed w]).finish else s
  .ok [before.code] s

/-- REARM_WATCH: from HELD to ARMED, its DRIVE output released, its dependents evaluated at its departure, then itself
at the taking (R82). -/
def takeRearmWatch (w : Fin 16) (s : State) : Taken :=
  match s.watches[w].state with
  | .held _ =>
    let s := evaluateAtTaking w [.departed w] (releaseDrive w (s.setWatchState w .armed))
    .ok [s.watches[w].state.code] s
  | .tripped _ => .refuse .stillActive s
  | _ => .refuse .notTripped s

/-- QUERY_WATCH (R83). -/
def takeQueryWatch (w : Fin 16) (s : State) : Taken := .ok (queryWatchFields s w) s

end Sys2Proof.Machine
end

