-- ==== Sys2Proof/Machine/Lines.lean ====
section
/-! DEFINITION. The line front end (chapter 2): the sample of the 32 lines with settle filter, chatter supervision and
suppression, and the requests to the lines. -/

namespace Sys2Proof.Machine

/-- What one line does at one event: its state after, the edge it delivers, and the records it sends in order (R31). -/
structure LineResult where
  line : Line
  edge : Option Edge
  sent : List Draft
  deriving DecidableEq, Repr

/-- The EDGE record of a delivered edge, on a line whose recording class is ROUTINE or ALARM (R31). -/
def edgeRecord (recording : Recording) (e : Edge) : List Draft :=
  match recording with
  | .silent => []
  | .routine => [{ cls := .routine, stamp := e.stamp, body := .edge e.line e.level e.recovered }]
  | .alarm => [{ cls := .alarm, stamp := e.stamp, body := .edge e.line e.level e.recovered }]

/-- The settle filter of a line at a sample: its state after, and the stamp of the edge it produces (R28, R29). -/
def filterStep (l : Line) (raw : Level) (now : Stamp) : Filter × Option Stamp :=
  match l.filter with
  | .stable =>
    if raw = l.filtered then (.stable, none)
    else if settleTime l.config.settle = 0 then (.stable, some now)
    else (.settling now (settleTime l.config.settle), none)
  | .settling captured left =>
    if raw = l.filtered then (.stable, none)
    else if left ≤ 1 then (.stable, some captured)
    else (.settling captured (left - 1), none)

/-- The chatter window of a line in COUNTING at a sample (R33). -/
def windowStep : Chatter → Chatter
  | .counting count left => if left ≤ 1 then .quiet else .counting count (left - 1)
  | c => c

/-- What chatter supervision does with an edge (R32, R33). -/
inductive Supervision where
  | passed (chatter : Chatter)
  | withheld (count : Nat)
  deriving DecidableEq, Repr

/-- An edge put to chatter supervision: passed with the limit 0, and passed or withheld by the count (R32, R33). A
suppressed line's filter makes no edge, so its case does not come about. -/
def supervise (c : LineConfig) : Chatter → Supervision
  | .quiet => if c.limit = 0 then .passed .quiet else .passed (.counting 1 c.window)
  | .counting count left =>
    if c.limit = 0 then .passed .quiet
    else if count + 1 ≤ c.limit then .passed (.counting (count + 1) left)
    else .withheld (count + 1)
  | .suppressed left => .passed (.suppressed left)

/-- Suppression ends: QUIET, the filtered level set to the raw logical level, a RECOVERED edge if that changes it, and a
CHATTER OFF record (R36, R37). -/
def endSuppression (i : Fin 32) (now : Stamp) (l : Line) : LineResult :=
  let line := { l with filtered := l.raw, filter := .stable, chatter := .quiet }
  let off : Draft := { cls := .routine, stamp := now, body := .chatterOff i }
  if l.raw = l.filtered then { line, edge := none, sent := [off] }
  else
    let e : Edge := { line := i, level := l.raw, stamp := now, recovered := true }
    { line, edge := some e, sent := edgeRecord l.config.recording e ++ [off] }

/-- A SUPPRESSED line at a sample: a raw change reloads the recovery count, and otherwise it is counted to its expiry
(R35, R36). -/
def suppressedStep (i : Fin 32) (raw : Level) (now : Stamp) (left : Nat) (l : Line) : LineResult :=
  if raw ≠ l.raw then { line := { l with raw, chatter := .suppressed l.config.recovery }, edge := none, sent := [] }
  else if left ≤ 1 then endSuppression i now l
  else { line := { l with chatter := .suppressed (left - 1) }, edge := none, sent := [] }

/-- An edge put to supervision takes effect, or is withheld and the line enters SUPPRESSED with a CHATTER ON record
(R30, R31, R34). `l` is the line as the filter and the window have left it. -/
def superviseEdge (i : Fin 32) (stamp : Stamp) (l : Line) : LineResult :=
  match supervise l.config l.chatter with
  | .passed chatter =>
    let e : Edge := { line := i, level := l.raw, stamp, recovered := false }
    { line := { l with filtered := l.raw, chatter }, edge := some e, sent := edgeRecord l.config.recording e }
  | .withheld count =>
    { line := { l with filter := .stable, chatter := .suppressed l.config.recovery }, edge := none
      sent := [{ cls := .routine, stamp, body := .chatterOn i count }] }

/-- One line at one sample, in the order of R25: raw logical level, settle filter or suppression, chatter window,
supervision of the edge. -/
def sampleLine (i : Fin 32) (pin : Level) (now : Stamp) (l : Line) : LineResult :=
  let raw := senseLevel l.config.sense pin
  match l.chatter with
  | .suppressed left => suppressedStep i raw now left l
  | chatter =>
    let (filter, edge) := filterStep l raw now
    let l := { l with raw, filter, chatter := windowStep chatter }
    match edge with
    | none => { line := l, edge := none, sent := [] }
    | some stamp => superviseEdge i stamp l

/-- The first sample after a full start sets a line's raw and filtered levels, with no edge (R42 to R44). -/
def firstSampleLine (pin : Level) (l : Line) : Line :=
  { l with raw := senseLevel l.config.sense pin, filtered := senseLevel l.config.sense pin }

/-- What each of the 32 lines does at the sample of the present tick. -/
def State.sampleResults (s : State) : Vector LineResult 32 :=
  Vector.ofFn fun i => sampleLine i (levelIn s.front.pins i) s.time.now s.front.lines[i]

/-- The edges of the sample of the present tick, which are delivered together (R30). -/
def State.sampleEdges (s : State) : List Edge := (List.finRange 32).filterMap fun i => s.sampleResults[i].edge

/-- The state once every line has acted at the sample, before its edges are delivered. -/
def State.sampled (s : State) : State :=
  { s with front := { s.front with lines := Vector.ofFn fun i => s.sampleResults[i].line, sampleDue := false } }

/-- The sample of the present tick (R25): every line acts, then the edges are delivered together (R30), and the records of
the lines, in ascending order of line, reach the journal with those of the watches (R31). A record of another event of the
same moment comes before or after all of them, where R31 lets it come between too (DESIGN CHOICE, log entry 16). -/
def takeSample (s : State) : State :=
  if s.front.firstSample then
    { s with front :=
        { s.front with
          lines := Vector.ofFn fun i => firstSampleLine (levelIn s.front.pins i) s.front.lines[i]
          sampleDue := false, firstSample := false } }
  else
    let sent := (List.finRange 32).flatMap fun i => s.sampleResults[i].sent
    (deliver s.sampleEdges { state := s.sampled, sent := [sent] }).finish

/-- Whether the sample of the present tick can be taken and delivers its edges: it is no first sample after a full start (R43,
R44). -/
def State.sampleDelivers (s : State) : Bool := s.sampleReady && !s.front.firstSample

/-- Whether the sample of the present tick ends the settle of a line (R29). -/
def State.settleEnds (s : State) (i : Fin 32) : Bool :=
  !s.front.firstSample && !s.front.lines[i].isSuppressed
    && match s.front.lines[i].filter with
      | .stable => false
      | .settling _ left =>
        decide (left ≤ 1)
          && decide (senseLevel s.front.lines[i].config.sense (levelIn s.front.pins i) ≠ s.front.lines[i].filtered)

/-- Whether the sample of the present tick runs out the chatter window of a line (R33). -/
def State.windowExpires (s : State) (i : Fin 32) : Bool :=
  !s.front.firstSample
    && match s.front.lines[i].chatter with
      | .counting _ left => decide (left ≤ 1)
      | _ => false

/-- Whether the recovery time of a line expires at the sample of the present tick (R35, R36). -/
def State.recoveryExpires (s : State) (i : Fin 32) : Bool :=
  !s.front.firstSample
    && match s.front.lines[i].chatter with
      | .suppressed left =>
        decide (left ≤ 1)
          && decide (senseLevel s.front.lines[i].config.sense (levelIn s.front.pins i) = s.front.lines[i].raw)
      | _ => false

/-! ## Requests to the lines -/

/-- The configuration a CONFIGURE_LINES gives a line; window and recovery time are held in ticks (R39). -/
def newConfig (r : ConfigureLines) : LineConfig :=
  { sense := r.sense, settle := r.settle, recording := r.recording, limit := r.limit, window := r.window * 1024
    recovery := r.recovery * 1024 }

/-- A line takes a new configuration (R39). A changed limit returns a line in COUNTING to QUIET (R37); the end of a
suppression is left to be done. -/
def Line.configure (c : LineConfig) (l : Line) : Line :=
  { l with
    config := c
    chatter :=
      match l.chatter with
      | .counting count left => if c.limit = l.config.limit then .counting count left else .quiet
      | chatter => chatter }

/-- The suppression of one line ends at the taking, with a delivery of its own (R30, R37). -/
def endAtTaking (i : Fin 32) (k : Work) : Work :=
  let result := endSuppression i k.state.time.now k.state.front.lines[i]
  deliver result.edge.toList { state := k.state.setLine i result.line, sent := k.sent ++ [result.sent] }

/-- Whether the delivery at the end of the suppression of line `i`, taken now, trips a dependent with a qualify time of 0 whose
prerequisite a later delivery of the same taking, on one of the lines `rest`, may restore: that departure comes first (R56;
log entry 7). -/
def State.endsLater (s : State) (rest : List (Fin 32)) (i : Fin 32) : Bool :=
  let result := endSuppression i s.time.now s.front.lines[i]
  (List.finRange 16).any fun p =>
    (s.setLine i result.line).tripsDependent result.edge.toList p && s.mayRestore (s.recovering rest) p

/-- Of some lines whose suppression is to end, those that may be next: any of them, but for those whose delivery comes behind
a departure, as long as there are others (R56; log entry 7). -/
def State.endsNext (s : State) (lines : List (Fin 32)) : List (Fin 32) :=
  match lines.filter fun i => !s.endsLater (lines.erase i) i with
  | [] => lines
  | first => first

/-- The suppressions of some lines end one after another, in an order that the manual leaves open. `fuel` bounds their
number. -/
def endSuppressions : Nat → List (Fin 32) → Work → Work
  | 0, _, k => k
  | fuel + 1, lines, k =>
    let next := k.state.endsNext lines
    let (n, s) := k.state.choose next.length
    match next[n]? with
    | none => k
    | some i => endSuppressions fuel (lines.erase i) (endAtTaking i { k with state := s })

/-- Whether the sample of the present tick comes before a CONFIGURE_LINES that is taken now: it restores a watch under AUTO
rearm, and a RECOVERED edge of the taking may trip a dependent of that watch with a qualify time of 0 (R56; log entry 7). -/
def State.sampleFirst (s : State) (r : ConfigureLines) : Bool :=
  s.sampleDelivers
    && (List.finRange 16).any fun p =>
      s.sampled.departsAt s.sampleEdges p && s.mayTripDependent (s.recovering (s.endedBy r)) p

/-- The lines take their new configuration, and suppressions end by it (R37, R39). -/
def configureLines (r : ConfigureLines) (s : State) : State :=
  let ended := s.endedBy r
  let configured (i : Fin 32) (l : Line) : Line := if covers r i = true then l.configure (newConfig r) else l
  let s := { s with front := { s.front with lines := Vector.ofFn fun i => configured i s.front.lines[i] } }
  (endSuppressions ended.length ended { state := s, sent := [] }).finish

/-- CONFIGURE_LINES (R37, R39), behind the sample of the present tick where that comes first. -/
def takeConfigureLines (r : ConfigureLines) (s : State) : Taken :=
  .ok [] (configureLines r (if s.sampleFirst r then takeSample s else s))

/-- READ_LINES (R41). -/
def takeReadLines (s : State) : Taken := .ok (readLinesFields s.front) s

end Sys2Proof.Machine
end

