-- ==== Sys2Proof/Machine/Link.lean ====
section
/-! DEFINITION. The host link (chapter 8): the octet receiver, the frame assembler, the arrival of a frame at the dispatcher
(section 9.2), the hand-overs of replies and START notices, the repetition of the announcement, and the link
requests. -/

namespace Sys2Proof.Machine

/-! ## Reception -/

/-- The state with the receiver changed. -/
def State.setReceiver (s : State) (r : Receiver) : State := { s with link := { s.link with receiver := r } }

/-- The state with the assembler changed. -/
def State.setAssembler (s : State) (a : Assembler) : State := { s with link := { s.link with assembler := a } }

/-- A start bit has been found: RXD still LOW half a bit time later, it is the start of an octet; otherwise it was false,
and is discarded and not counted (R154). RXD was HIGH at that check, and the receiver looks anew with no other HIGH period
(DESIGN CHOICE, log entry 31). -/
def foundStart (confirmed : Bool) (s : State) : State := s.setReceiver (if confirmed then .receiving else .looking)

/-- The queueing of a frame answers the announcement: the repetition timer is stopped and a REPEAT notice withdrawn; a
FIRST notice stays due (R199). -/
def Announcer.answer (a : Announcer) : Announcer :=
  if a.answered then a
  else
    { a with answered := true, timer := none
             due := match a.due with | .repeated => .none | due => due }

/-- A complete frame arrives at the dispatcher (R175, R176): queued, which answers the announcement; or, with the request
queue full, answered BUSY in a free reply slot, or dropped. -/
def frameArrives (f : Frame) (s : State) : State :=
  if s.dispatcher.requests.length < Config.requestCapacity then
    { s with
      dispatcher := { s.dispatcher with requests := s.dispatcher.requests ++ [f] }
      announcer := s.announcer.answer }
  else if s.dispatcher.replies.length < Config.replyCapacity then
    (s.queueReply { frame := replyFrame f .busy [], effect := none }).countLink fun c =>
      { c with busyRefusals := count16 c.busyRefusals }
  else s.countLink fun c => { c with droppedFrames := count16 c.droppedFrames }

/-- The frame of the octets collected in BODY: KIND, TAG, payload (R159). -/
def frameOf : List Octet → Option Frame
  | kind :: tag :: payload => some { kind, tag, payload }
  | _ => none

/-- The second check octet has arrived: the frame is judged (R160), and the assembler is in HUNT. -/
def frameEnds (octets : List Octet) (running received : BitVec 16) (damaged : Bool) (s : State) : State :=
  let s := s.setAssembler .hunt
  if damaged then s.countLink fun c => { c with damagedFrames := count16 c.damagedFrames }
  else if running ≠ received then s.countLink fun c => { c with crcErrors := count16 c.crcErrors }
  else
    match frameOf octets with
    | some f => frameArrives f s
    | none => s

/-- An octet arrives in BODY (R159). -/
def bodyOctet (len toCome : Nat) (octets : List Octet) (crc : BitVec 16) (damaged : Bool) (o : Octet) (bad : Bool) :
    Assembler :=
  if toCome ≤ 1 then .check len (octets ++ [o]) (crcOctet crc o) (damaged || bad) none
  else .body len (toCome - 1) (octets ++ [o]) (crcOctet crc o) (damaged || bad)

/-- The frame assembler takes an octet, marked good or bad (R157 to R160). -/
def assemble (o : Octet) (bad : Bool) (s : State) : State :=
  match s.link.assembler with
  | .hunt =>
    if o = 0xC3 ∧ bad = false then s.setAssembler .length
    else s.countLink fun c => { c with noise := count16 c.noise }
  | .length =>
    if 2 ≤ o.toNat ∧ o.toNat ≤ 252 then s.setAssembler (.body o.toNat o.toNat [] (crcOctet 0xFFFF o) bad)
    else (s.setAssembler .hunt).countLink fun c => { c with lengthErrors := count16 c.lengthErrors }
  | .body len toCome octets crc damaged => s.setAssembler (bodyOctet len toCome octets crc damaged o bad)
  | .check len octets crc damaged none => s.setAssembler (.check len octets crc (damaged || bad) (some o))
  | .check _ octets crc damaged (some high) => frameEnds octets crc (high ++ o) (damaged || bad) s

/-- The counts of a received octet's faults: a parity error and a framing error, each where it is one (R154). -/
def countOctet (parityBad framingBad : Bool) (c : LinkCounters) : LinkCounters :=
  { c with
    parityErrors := if parityBad then count16 c.parityErrors else c.parityErrors
    framingErrors := if framingBad then count16 c.framingErrors else c.framingErrors }

/-- The octet whose start bit was found is marked bad by its parity bit or its stop bit and handed to the assembler;
after a framing error the receiver waits for RXD HIGH (R154). A stop bit sampled HIGH is that HIGH period itself, and the
receiver then looks for a start bit at once (DESIGN CHOICE, log entry 31). -/
def takeOctet (data : Octet) (parityLevel stopLevel : Level) (s : State) : State :=
  let parityBad := parityError s.link.settings.parity data parityLevel
  let framingBad := decide (stopLevel = .low)
  let s := s.countLink (countOctet parityBad framingBad)
  let s := s.setReceiver (if framingBad then .waitHigh else .looking)
  assemble data (parityBad || framingBad) s

/-- The frame that an octet completes, where it is the second check octet of a frame that R160 finds complete. -/
def Reception.completes (r : Reception) (data : Octet) (parityLevel stopLevel : Level) : Option Frame :=
  match r.assembler with
  | .check _ octets crc damaged (some high) =>
    if damaged || parityError r.parity data parityLevel || decide (stopLevel = .low) || decide (crc ≠ high ++ data) then
      none
    else frameOf octets
  | _ => none

/-- An octet arrives together with a RESTART FULL, and the start is taken first: a frame that it completes arrives after the
start (R190, R199), and any other octet is discarded with no count (R172; log entry 26). -/
def arriveAfterStart (r : Reception) (data : Octet) (parityLevel stopLevel : Level) (s : State) : State :=
  match r.completes data parityLevel stopLevel with
  | some f => frameArrives f s
  | none => s

/-- The reception in progress: the octet whose start bit has been found, and the frame so far. -/
def Link.inProgress (l : Link) : Option Reception :=
  match l.receiver with
  | .receiving => some { parity := l.settings.parity, assembler := l.assembler }
  | _ => none

/-- The assembler abandons a frame it holds, and the timeout counter increments (R161, R168). Its octets are discarded. -/
def abandonFrame (s : State) : State :=
  match s.link.assembler with
  | .hunt => s
  | _ => (s.setAssembler .hunt).countLink fun c => { c with timeouts := count16 c.timeouts }

/-! ## Transmission -/

/-- REPLY_HAND_OVER (R163): the oldest reply goes onto a FREE line, and its slot is free. -/
def replyHandOver (s : State) : State :=
  if s.replyWaits then
    match s.dispatcher.replies with
    | [] => s
    | r :: rest =>
      { s with dispatcher := { s.dispatcher with replies := rest } }.startSending (.reply r.effect) r.frame
  else s

/-- The announcer's interval between notices, 2 s (R198). -/
def repetitionInterval : Nat := 2048

/-- The announcer learns of the hand-over of a notice: its number increases, none is due, and while the announcement is
UNANSWERED the repetition timer is loaded (R198). -/
def Announcer.sent (a : Announcer) : Announcer :=
  { a with
    due := .none
    number := countTo 255 a.number
    timer := if a.answered then a.timer else some (.load repetitionInterval) }

/-- START_NOTICE_HAND_OVER (R198): the notice is formed with the fields as they stand. -/
def startNoticeHandOver (s : State) : State :=
  if s.noticeWaits then { s.startSending .notice (noticeFrame s) with announcer := s.announcer.sent } else s

/-- REPETITION_TIMER_EXPIRY (R198): a REPEAT notice becomes due. -/
def repetitionTimerExpiry (s : State) : State :=
  if isDue s.announcer.timer then { s with announcer := { s.announcer with timer := none, due := .repeated } } else s

/-! ## Requests -/

/-- LINK_STATUS: the counters are read and cleared in one action (R166). -/
def takeLinkStatus (s : State) : Taken := .ok (linkStatusFields s.link) (s.countLink fun _ => LinkCounters.zero)

/-- SET_LINK: the settings are held as pending, with the reply, until it leaves (R167). -/
def takeSetLink (settings : LinkSettings) (s : State) : Taken :=
  ⟨.ok, encodeSetLink settings, some (.switch settings), s⟩

/-- The switch at the leaving of a SET_LINK reply: where the settings differ, an octet in progress is discarded and a
frame in progress abandoned, and the receiver waits for RXD HIGH (R168). -/
def switchLink (settings : LinkSettings) (s : State) : State :=
  if settings = s.link.settings then s
  else
    let s := (abandonFrame s).setReceiver .waitHigh
    { s with link := { s.link with settings } }

/-- IDENTIFY (R187). -/
def takeIdentify (s : State) : Taken := .ok (identifyFields s) s

/-- RESTART: the pending start is attached to the reply (R193). -/
def takeRestart (scope : RestartScope) (s : State) : Taken := ⟨.ok, encodeRestart scope, some (.start scope), s⟩

end Sys2Proof.Machine
end

