-- ==== Sys2Proof/Machine/Outputs.lean ====
section
/-! DEFINITION. The output block's own events and requests (chapter 5). Claims and releases by watches stand in
Machine/Watches.lean. -/

namespace Sys2Proof.Machine

/-- Whether an output carries a host pulse that has reached 0. -/
def hostPulseDue : Owner → Bool
  | .host (some p) => p.timer.due
  | _ => false

/-- HOST_PULSE_END: a host pulse that has reached 0 has ended, and the output returns to its host level (R93). -/
def hostPulseEnd (o : Fin 8) (s : State) : State :=
  if hostPulseDue s.outputs[o].owner then s.setOwner o (.host none) else s

/-- A request refused because a watch owns the output; the reply carries the watch's index (R100, R101). -/
def refuseOwned (w : Fin 16) (s : State) : Taken := ⟨.owned, octets8 w.val, none, s⟩

/-- DRIVE_OUTPUT, decided by the output's owner (R100): a level sets the host level and cancels a host pulse, PULSE
starts or restarts a host pulse (R93). -/
def takeDriveOutput (r : DriveOutput) (s : State) : Taken :=
  match s.outputs[r.output].owner with
  | .drive w _ => refuseOwned w s
  | .pulse w _ => refuseOwned w s
  | .function _ => .refuse .functionAssigned s
  | .host _ =>
    let s :=
      match r.form with
      | .level level => s.setOutput r.output { hostLevel := level, owner := .host none }
      | .pulse level duration => s.setOwner r.output (.host (some ⟨level, .load duration⟩))
    .ok [(s.driven r.output).code] s

/-- SET_OUTPUT_FUNCTION (R96, R101): a function cancels a host pulse and makes the owner FUNCTION, GENERAL returns an
output owned by FUNCTION to HOST and changes nothing on one that HOST owns. -/
def takeSetOutputFunction (r : SetOutputFunction) (s : State) : Taken :=
  match s.outputs[r.output].owner with
  | .drive w _ => refuseOwned w s
  | .pulse w _ => refuseOwned w s
  | .function _ =>
    let s :=
      match r.function with
      | some f => s.setOwner r.output (.function f)
      | none => s.setOwner r.output (.host none)
    .ok [(s.driven r.output).code] s
  | .host _ =>
    let s :=
      match r.function with
      | some f => s.setOwner r.output (.function f)
      | none => s
    .ok [(s.driven r.output).code] s

/-- READ_OUTPUTS (R102). -/
def takeReadOutputs (s : State) : Taken := .ok (readOutputsFields s) s

end Sys2Proof.Machine
end

