-- ==== Sys2Proof/Machine/Time.lean ====
section
/-! DEFINITION. The time base (chapter 6): what a tick does to it, the pulse and the expiries of the synchronisation machine,
and the time requests. -/

namespace Sys2Proof.Machine

/-- The deadline of an arm, 3 s (R114). -/
def armDeadline : Nat := 3072

/-- The missed-pulse limit (R121). -/
def missedPulseLimit : Nat := 1280

/-- The minimum interval between accepted pulses (R117). -/
def minimumInterval : Nat := 768

/-! ## The tick -/

/-- Whether the coming tick is a slew tick: the 16th since the pulse, or since the slew tick before, at which the spacing has
been counted down to 0 (R106, R118). -/
def TimeBase.slewTickNext (t : TimeBase) : Bool := decide (t.slewRemainder ≠ 0) && decide (t.slewSpacing = 0)

/-- The time value after a tick: advanced by one, held or doubled at a slew tick (R108, R118). -/
def TimeBase.timeAfterTick (t : TimeBase) : TimeValue :=
  if t.slewTickNext then
    if 0 < t.slewRemainder then t.time else nextTime (nextTime t.time)
  else nextTime t.time

/-- The slew remainder after a tick: one step toward 0 at a slew tick (R118). -/
def TimeBase.remainderAfterTick (t : TimeBase) : Int :=
  if t.slewTickNext then
    if 0 < t.slewRemainder then t.slewRemainder - 1 else t.slewRemainder + 1
  else t.slewRemainder

/-- The slew spacing at the start of a slew and after each of its slew ticks, by the slew remainder: 15, the top of the range of
R111, so that every sixteenth tick finds it at 0 (R118; DEDUCED, log entry 29), and 0 where no slew runs on (DEDUCED, log entry
28). -/
def spacingFrom (remainder : Int) : Nat := if remainder = 0 then 0 else 15

/-- The slew spacing after a tick: counted down while the remainder is not 0, and restarted at a slew tick (R106, R111, R118). -/
def TimeBase.spacingAfterTick (t : TimeBase) : Nat :=
  if t.slewRemainder = 0 then t.slewSpacing
  else if t.slewTickNext then spacingFrom t.remainderAfterTick
  else t.slewSpacing - 1

/-- The arm deadline and the missed-pulse limit count one tick (R114, R121). -/
def SyncState.tick : SyncState → SyncState
  | .armed remembered value option deadline => .armed remembered value option deadline.tick
  | .tracking limit => .tracking limit.tick
  | s => s

/-- The level that is active under a SYNC edge (R111). -/
def activeLevel : SyncEdge → Level
  | .rising => .high
  | .falling => .low

/-- A sample of SYNC makes a pulse: the level has changed from the previous sample to the active level (R111). -/
def pulseMade (edge : SyncEdge) (previous : Option Level) (level : Level) : Bool :=
  match previous with
  | none => false
  | some p => decide (p ≠ level) && decide (level = activeLevel edge)

/-- One tick at the time base, with the sample of SYNC at it (R106, R108, R111). The next tick is divided under the
reference selected by now (R107). -/
def TimeBase.tick (sync : Level) (t : TimeBase) : TimeBase :=
  { t with
    inForce := t.reference
    tickCounter := t.tickCounter + 1
    time := t.timeAfterTick
    slewRemainder := t.remainderAfterTick
    slewSpacing := t.spacingAfterTick
    lastPulseAge := t.lastPulseAge.map count16
    sync := t.sync.tick
    syncLevel := some sync
    pulseDue := pulseMade t.edge t.syncLevel sync }

/-! ## Slew, step and change of state -/

/-- No slew runs (R112). The spacing is set to 0 with the remainder (DEDUCED, log entry 28). -/
def TimeBase.clearSlew (t : TimeBase) : TimeBase := { t with slewRemainder := 0, slewSpacing := 0 }

/-- A sync state is entered with no pulse; at the entry to FREE and to HOLDOVER a slew is ended (R112, R121). -/
def TimeBase.enter (t : TimeBase) (sync : SyncState) : TimeBase :=
  let t := { t with sync, pulseInState := false }
  match sync with
  | .free => t.clearSlew
  | .holdover => t.clearSlew
  | _ => t

/-- TRACKING with the missed-pulse limit loaded (R121). -/
def SyncState.newTracking : SyncState := .tracking (.load missedPulseLimit)

/-- The state to which an arm returns; in TRACKING the missed-pulse limit is loaded (R116). -/
def Remembered.state : Remembered → SyncState
  | .free => .free
  | .acquiring => .acquiring
  | .tracking => .newTracking
  | .holdover => .holdover

/-- The state an arm remembers (R114); an arm in ARMED keeps the one it has. -/
def SyncState.toRemember : SyncState → Remembered
  | .free => .free
  | .armed remembered _ _ _ => remembered
  | .acquiring => .acquiring
  | .tracking _ => .tracking
  | .holdover => .holdover

/-- The return of an arm to the remembered state (R116). -/
def TimeBase.returnFromArm (t : TimeBase) (remembered : Remembered) : TimeBase := t.enter remembered.state

/-- The record of the time base with the given class and subkind, stamped with the time value and quality as they stand
(R5, section 6.4). -/
def TimeBase.record (t : TimeBase) (cls : RecordClass) (subkind : TimeSubkind) : Draft :=
  { cls, stamp := t.now, body := .time subkind }

/-- The time value is written outside the tick: the ever-set flag is set and the slew is cleared (R109, R115, R119,
R122). -/
def TimeBase.setTo (t : TimeBase) (time : TimeValue) : TimeBase := { t.clearSlew with time, everSet := true }

/-- The offset of a pulse, from the ticks within the second: −512 to 511 (R117). -/
def pulseOffset (tick : BitVec 10) : Int := if tick.toNat ≤ 511 then (tick.toNat : Int) else (tick.toNat : Int) - 1024

/-- The nearest whole second (R119). -/
def nearestSecond (t : TimeValue) : TimeValue := if t.tick.toNat ≤ 511 then ⟨t.sec, 0⟩ else ⟨t.sec + 1, 0⟩

/-- An accepted pulse: its age is 0 from now on, and it was accepted in the state it leads to (R111, R123). -/
def TimeBase.accepted (t : TimeBase) (sync : SyncState) : TimeBase :=
  { t with sync, lastPulseAge := some 0, pulseInState := true }

/-- The pulse of an armed step (R115). -/
def TimeBase.armedPulse (t : TimeBase) (value : BitVec 32) (option : ArmOption) : TimeBase × List Draft :=
  let next := (t.setTo ⟨value, 0⟩).accepted (match option with | .track => .newTracking | .free => .free)
  (next, [next.record .routine (.step t.time)])

/-- A pulse comes within the minimum interval of the last accepted one (R117). -/
def TimeBase.tooSoon (t : TimeBase) : Bool :=
  match t.lastPulseAge with
  | none => false
  | some age => decide (age < minimumInterval)

/-- The offset of a pulse is small enough for a slew: −8 to 8 (R118). -/
def TimeBase.slews (t : TimeBase) : Bool := decide (-8 ≤ pulseOffset t.time.tick) && decide (pulseOffset t.time.tick ≤ 8)

/-- The time base corrected by an accepted pulse: by a slew of its offset (R118), or by a step to the nearest whole second
(R119). -/
def TimeBase.corrected (t : TimeBase) : TimeBase :=
  if t.slews then
    { t with slewRemainder := pulseOffset t.time.tick, slewSpacing := spacingFrom (pulseOffset t.time.tick) }
  else t.setTo (nearestSecond t.time)

/-- Whether the sync state is TRACKING. -/
def SyncState.isTracking : SyncState → Bool
  | .tracking _ => true
  | _ => false

/-- A pulse in ACQUIRING, TRACKING or HOLDOVER (R117 to R120): ignored within the minimum interval; otherwise corrected
by a slew or a step, the state then being TRACKING, with a SYNC_GAINED record unless it was. -/
def TimeBase.trackedPulse (t : TimeBase) : TimeBase × List Draft :=
  if t.tooSoon then ({ t with ignored := count16 t.ignored }, [])
  else
    let next := t.corrected.accepted .newTracking
    (next, (if t.slews then [] else [next.record .routine (.step t.time)])
      ++ (if t.sync.isTracking then [] else [next.record .routine .syncGained]))

/-- A pulse, by the sync state; a pulse in FREE is ignored and not counted (R111, R112). -/
def TimeBase.pulse (t : TimeBase) : TimeBase × List Draft :=
  match t.sync with
  | .free => (t, [])
  | .armed _ value option _ => t.armedPulse value option
  | _ => t.trackedPulse

/-- The time base changes, and the records it sends, in order, reach the journal (R120). A record of another event of the
same moment comes before or after them; between a STEP and a SYNC_GAINED record it comes by `syncPulse` (DESIGN CHOICE, log
entry 16). -/
def State.withTime (s : State) (r : TimeBase × List Draft) : State := State.send { s with time := r.1 } [r.2]

/-- The pulse that the sample of SYNC at this tick has made, as it is taken (R111). -/
def TimeBase.takePulse (t : TimeBase) : TimeBase × List Draft := ({ t with pulseDue := false } : TimeBase).pulse

/-- Whether the deadline of an arm has reached 0 (R116). -/
def SyncState.deadlineDue : SyncState → Bool
  | .armed _ _ _ deadline => deadline.due
  | _ => false

/-- ARM_DEADLINE_EXPIRY (R116): return to the remembered state, with a SYNC_MISSED record. -/
def armDeadlineExpiry (s : State) : State :=
  match s.time.sync with
  | .armed remembered _ _ deadline =>
    if deadline.due then
      let next := s.time.returnFromArm remembered
      s.withTime (next, [next.record .alarm .syncMissed])
    else s
  | _ => s

/-- Whether the missed-pulse limit has reached 0 (R121). -/
def SyncState.limitDue : SyncState → Bool
  | .tracking limit => limit.due
  | _ => false

/-- MISSED_PULSE_EXPIRY (R121): to HOLDOVER, with a HOLDOVER record. -/
def missedPulseExpiry (s : State) : State :=
  if s.time.sync.limitDue then
    let next := s.time.enter .holdover
    s.withTime (next, [next.record .alarm .holdover])
  else s

/-! ## Requests -/

/-- SET_TIME (R122): in ARMED it also cancels the arm, with no SYNC_MISSED record. -/
def takeSetTime (time : TimeValue) (s : State) : Taken :=
  let returned :=
    match s.time.sync with
    | .armed remembered _ _ _ => s.time.returnFromArm remembered
    | _ => s.time
  let next := returned.setTo time
  .ok (timeOctets s.time.time) (s.withTime (next, [next.record .routine (.step s.time.time)]))

/-- SET_TIME_AT_PULSE (R114). -/
def takeSetTimeAtPulse (r : SetTimeAtPulse) (s : State) : Taken :=
  let replaced :=
    match s.time.sync with
    | .armed _ _ _ _ => true
    | _ => false
  let sync : SyncState := .armed s.time.sync.toRemember r.sec r.option (.load armDeadline)
  .ok [flagOctet replaced] { s with time := { s.time with sync, pulseInState := false } }

/-- SET_SYNC at the time base (R113). -/
def TimeBase.setSync (t : TimeBase) (setting : SyncSetting) : TimeBase :=
  match setting, t.sync with
  | .track, .free => t.enter .acquiring
  | .track, .armed _ _ _ _ => t.enter .acquiring
  | .track, _ => t
  | .off, .free => t.clearSlew
  | .off, _ => t.enter .free

/-- SET_SYNC (R113). -/
def takeSetSync (setting : SyncSetting) (s : State) : Taken :=
  let next := s.time.setSync setting
  .ok [next.sync.code] { s with time := next }

/-- CONFIGURE_TIME (R107): the reference applies from the tick that follows, the edge from the next sample of SYNC. -/
def takeConfigureTime (r : ConfigureTime) (s : State) : Taken :=
  .ok [] { s with time := { s.time with reference := r.reference, edge := r.edge } }

/-- READ_TIME (R123). -/
def takeReadTime (s : State) : Taken := .ok (readTimeFields s.time) s

/-- The time base at the assertion of the RESET line and at a RESTART FULL (R126, R127). -/
def TimeBase.fullStart (t : TimeBase) : TimeBase :=
  { (t.enter .free) with lastPulseAge := none, ignored := 0 }

end Sys2Proof.Machine
end

