-- ==== Sys2Proof/Machine/Start.lean ====
section
/-! DEFINITION. The starts (chapter 10, and the last section of each chapter before it): power-on, the assertion and release
of the RESET line, RESTART FULL and RESTART LINK, and the leaving of a frame's last octet, at which a RESTART acts. -/

namespace Sys2Proof.Machine

/-- Running settles, windows and recovery counts are abandoned (R43, R44). -/
def Line.abandon (l : Line) : Line := { l with filter := .stable, chatter := .quiet }

/-- The lines at the assertion of the RESET line: no samples from here on, and what runs is abandoned (R43). -/
def FrontEnd.assertReset (f : FrontEnd) : FrontEnd :=
  { f with lines := Vector.ofFn fun i => f.lines[i].abandon, sampleDue := false }

/-- The lines at the release of the RESET line and at a RESTART FULL: default configuration, levels kept until the next
sample sets them with no edge (R43, R44). -/
def FrontEnd.fullStart (f : FrontEnd) : FrontEnd :=
  { f with lines := Vector.ofFn fun i => { f.lines[i].abandon with config := LineConfig.default }, firstSample := true }

/-- The watches at a full start: definitions absent, every watch DISABLED, trip counts and trip times kept (R63, R85). -/
def fullStartWatches (ws : Vector Watch 16) : Vector Watch 16 :=
  Vector.ofFn fun w => { ws[w] with definition := none, state := .disabled }

/-- The link at its defaults, with nothing received so far kept (R171, R172). -/
def Link.fullStart (l : Link) : Link :=
  { l with settings := LinkSettings.default, receiver := .waitHigh, assembler := .hunt, counters := .zero }

/-- The queues emptied and the cache cleared (R188, R189). -/
def Dispatcher.emptied (d : Dispatcher) : Dispatcher := { d with requests := [], replies := [], cache := none }

/-- What the assertion of the RESET line and a RESTART FULL have in common at the watches, the outputs, the time base, the
delivery engine, the link and the dispatcher (R195). -/
def State.fullStartBlocks (s : State) : State :=
  { s with
    watches := fullStartWatches s.watches
    outputs := Vector.ofFn Output.default
    time := s.time.fullStart
    delivery := .powerOn
    link := s.link.fullStart
    dispatcher := s.dispatcher.emptied }

/-- A full start with a cause ends: DELIVERED records return to PENDING and the RESTART record arrives (R22, R23); the
lines take their defaults; the last start cause and the announcement are set (R188, R197). -/
def State.announceStart (s : State) (cause : StartCause) : State :=
  let record : Draft :=
    { cls := .alarm, stamp := s.time.now, body := .restart cause s.journal.heldCount s.journal.deliveredCount }
  let s := { s with
    front := s.front.fullStart
    dispatcher := { s.dispatcher with lastStartCause := cause }
    announcer := .started cause }
  { s with journal := s.journal.returnAll.arrive s.time.now record }

/-- POWER_ON (R192): every piece of state takes its power-on value. With the RESET line LOW the part is held from
power-on and no notice is due. The waiting commands are not the part's. -/
def powerOn (reset : Level) (s : State) : State :=
  let on := { State.reset with choices := s.choices, pending := s.pending }
  match reset with
  | .high => on
  | .low => { on with hold := .held true, announcer := { Announcer.started .powerOn with due := .none } }

/-- RESET_ASSERTION (R191): the frame on TXD is cut off, what is pending is dropped, and the part is held. -/
def resetAssertion (s : State) : State :=
  match s.hold with
  | .held _ => s
  | .running =>
    let s := s.fullStartBlocks
    { s with
      hold := .held false
      front := s.front.assertReset
      link := { s.link with line := .free }
      announcer := { s.announcer with due := .none, timer := none }
      moment := .fresh }

/-- RESET_RELEASE (R191): a full start with cause RESET_LINE; or, of a line held from power-on, the end of the power-on
start, with no RESTART record (R192). -/
def resetRelease (s : State) : State :=
  match s.hold with
  | .running => s
  | .held true => { s with hold := .running, front := s.front.fullStart, announcer := .started .powerOn }
  | .held false => { s with hold := .running }.announceStart .resetLine

/-- The reception in progress whose next octet can still arrive together with a start that cuts it off now. At a moment that has
had its event of the receiver there is none: an octet whose start bit has been found at it arrives at a later one, and the start
just discards it (R172, R190; log entries 3 and 26). -/
def State.cutOff (s : State) : Option Reception := if s.moment.received then none else s.link.inProgress

/-- The start of a RESTART FULL (R195). What it cuts off of reception is kept for the rest of the moment (log entry 26). -/
def restartFull (s : State) : State :=
  { s with moment := { s.moment with cut := s.cutOff } }.fullStartBlocks.announceStart .restartFull

/-- The start of a RESTART LINK (R196): the request path is cleared, every DELIVERED record returns to PENDING, and
delivery begins again; the rest runs on. -/
def restartLink (s : State) : State :=
  { s with
    dispatcher := s.dispatcher.emptied
    journal := s.journal.returnAll
    delivery := s.delivery.restarted }

/-- The effect a frame makes when its last octet leaves, before the line becomes FREE (R163). -/
def leavingEffect (source : TxSource) (s : State) : State :=
  match source with
  | .reply none => s
  | .reply (some (.switch settings)) => switchLink settings s
  | .reply (some (.start .full)) => restartFull s
  | .reply (some (.start .link)) => restartLink s
  | .notice => s
  | .report => { s with delivery := s.delivery.reportLeft }

/-- The last octet of a frame leaves: its effect, and the line FREE (R163). -/
def frameLeaves (source : TxSource) (s : State) : State :=
  let s := leavingEffect source s
  { s with link := { s.link with line := .free } }

end Sys2Proof.Machine
end

