-- ==== Sys2Proof/Machine/Requests.lean ====
section
/-! DEFINITION. The dispatch of each request kind (chapter 9): the dispatch common to all of them, with the kind's own length
and field checks and its owning block. -/

namespace Sys2Proof.Machine

/-- The dispatch of a request of kind IDENTIFY (R187). -/
def dispatchIdentify (s : State) : State := dispatch .identify parseEmpty (fun _ => takeIdentify) s

/-- The dispatch of a request of kind LINK_STATUS (R166). -/
def dispatchLinkStatus (s : State) : State := dispatch .linkStatus parseEmpty (fun _ => takeLinkStatus) s

/-- The dispatch of a request of kind SET_LINK (R167). -/
def dispatchSetLink (s : State) : State := dispatch .setLink parseSetLink takeSetLink s

/-- The dispatch of a request of kind RESTART (R193). -/
def dispatchRestart (s : State) : State := dispatch .restart parseRestart takeRestart s

/-- The dispatch of a request of kind CONFIGURE_LINES (R37 to R39). -/
def dispatchConfigureLines (s : State) : State := dispatch .configureLines parseConfigureLines takeConfigureLines s

/-- The dispatch of a request of kind READ_LINES (R41). -/
def dispatchReadLines (s : State) : State := dispatch .readLines parseEmpty (fun _ => takeReadLines) s

/-- The dispatch of a request of kind SET_WATCH (R57 to R61). -/
def dispatchSetWatch (s : State) : State := dispatch .setWatch parseSetWatch takeSetWatch s

/-- The dispatch of a request of kind ENABLE_WATCH (R80). -/
def dispatchEnableWatch (s : State) : State := dispatch .enableWatch parseWatchIndex takeEnableWatch s

/-- The dispatch of a request of kind DISABLE_WATCH (R81). -/
def dispatchDisableWatch (s : State) : State := dispatch .disableWatch parseWatchIndex takeDisableWatch s

/-- The dispatch of a request of kind REARM_WATCH (R82). -/
def dispatchRearmWatch (s : State) : State := dispatch .rearmWatch parseWatchIndex takeRearmWatch s

/-- The dispatch of a request of kind QUERY_WATCH (R83). -/
def dispatchQueryWatch (s : State) : State := dispatch .queryWatch parseWatchIndex takeQueryWatch s

/-- The dispatch of a request of kind DRIVE_OUTPUT (R100). -/
def dispatchDriveOutput (s : State) : State := dispatch .driveOutput parseDriveOutput takeDriveOutput s

/-- The dispatch of a request of kind SET_OUTPUT_FUNCTION (R101). -/
def dispatchSetOutputFunction (s : State) : State := dispatch .setOutputFunction parseSetOutputFunction takeSetOutputFunction s

/-- The dispatch of a request of kind READ_OUTPUTS (R102). -/
def dispatchReadOutputs (s : State) : State := dispatch .readOutputs parseEmpty (fun _ => takeReadOutputs) s

/-- The dispatch of a request of kind SET_TIME (R122). -/
def dispatchSetTime (s : State) : State := dispatch .setTime parseSetTime takeSetTime s

/-- The dispatch of a request of kind SET_TIME_AT_PULSE (R114). -/
def dispatchSetTimeAtPulse (s : State) : State := dispatch .setTimeAtPulse parseSetTimeAtPulse takeSetTimeAtPulse s

/-- The dispatch of a request of kind SET_SYNC (R113). -/
def dispatchSetSync (s : State) : State := dispatch .setSync parseSetSync takeSetSync s

/-- The dispatch of a request of kind CONFIGURE_TIME (R107). -/
def dispatchConfigureTime (s : State) : State := dispatch .configureTime parseConfigureTime takeConfigureTime s

/-- The dispatch of a request of kind READ_TIME (R123). -/
def dispatchReadTime (s : State) : State := dispatch .readTime parseEmpty (fun _ => takeReadTime) s

/-- The dispatch of a request of kind FETCH (R138). -/
def dispatchFetch (s : State) : State := dispatch .fetch parseFetch takeFetch s

/-- The dispatch of a request of kind ACK (R140 to R142). -/
def dispatchAck (s : State) : State := dispatch .ack parseAck takeAck s

/-- The dispatch of a request of kind SET_DELIVERY (R146). -/
def dispatchSetDelivery (s : State) : State := dispatch .setDelivery parseSetDelivery takeSetDelivery s

/-- The dispatch of a request of kind RESUME (R144). -/
def dispatchResume (s : State) : State := dispatch .resume parseEmpty (fun _ => takeResume) s

/-- The dispatch of a request of kind JOURNAL_STATUS (R18). -/
def dispatchJournalStatus (s : State) : State := dispatch .journalStatus parseEmpty (fun _ => takeJournalStatus) s

/-- The dispatch of a request of kind CLEAR_JOURNAL (R19). -/
def dispatchClearJournal (s : State) : State := dispatch .clearJournal parseEmpty (fun _ => takeClearJournal) s

/-- The dispatch of the oldest request, whatever its kind (R178). -/
def dispatchOldest (s : State) : State :=
  match s.dispatcher.requests with
  | [] => s
  | f :: _ =>
    match RequestKind.ofCode f.kind with
    | none => dispatchUnknown s
    | some .identify => dispatchIdentify s
    | some .linkStatus => dispatchLinkStatus s
    | some .setLink => dispatchSetLink s
    | some .restart => dispatchRestart s
    | some .configureLines => dispatchConfigureLines s
    | some .readLines => dispatchReadLines s
    | some .setWatch => dispatchSetWatch s
    | some .enableWatch => dispatchEnableWatch s
    | some .disableWatch => dispatchDisableWatch s
    | some .rearmWatch => dispatchRearmWatch s
    | some .queryWatch => dispatchQueryWatch s
    | some .driveOutput => dispatchDriveOutput s
    | some .setOutputFunction => dispatchSetOutputFunction s
    | some .readOutputs => dispatchReadOutputs s
    | some .setTime => dispatchSetTime s
    | some .setTimeAtPulse => dispatchSetTimeAtPulse s
    | some .setSync => dispatchSetSync s
    | some .configureTime => dispatchConfigureTime s
    | some .readTime => dispatchReadTime s
    | some .fetch => dispatchFetch s
    | some .ack => dispatchAck s
    | some .setDelivery => dispatchSetDelivery s
    | some .resume => dispatchResume s
    | some .journalStatus => dispatchJournalStatus s
    | some .clearJournal => dispatchClearJournal s

/-! ## The meanings of the rows -/

/-- DISPATCH_UNKNOWN_KIND (R181). -/
def execDispatchUnknownKind (s : State) : Result := .next (dispatchUnknown s)

/-- IDENTIFY (R187). -/
def execIdentify (s : State) : Result := .next (dispatchIdentify s)

/-- LINK_STATUS (R166). -/
def execLinkStatus (s : State) : Result := .next (dispatchLinkStatus s)

/-- SET_LINK (R167). -/
def execSetLink (s : State) : Result := .next (dispatchSetLink s)

/-- RESTART (R193). -/
def execRestart (s : State) : Result := .next (dispatchRestart s)

/-- CONFIGURE_LINES (R37 to R39). -/
def execConfigureLines (s : State) : Result := .next (dispatchConfigureLines s)

/-- READ_LINES (R41). -/
def execReadLines (s : State) : Result := .next (dispatchReadLines s)

/-- SET_WATCH (R57 to R61). -/
def execSetWatch (s : State) : Result := .next (dispatchSetWatch s)

/-- ENABLE_WATCH (R80). -/
def execEnableWatch (s : State) : Result := .next (dispatchEnableWatch s)

/-- DISABLE_WATCH (R81). -/
def execDisableWatch (s : State) : Result := .next (dispatchDisableWatch s)

/-- REARM_WATCH (R82). -/
def execRearmWatch (s : State) : Result := .next (dispatchRearmWatch s)

/-- QUERY_WATCH (R83). -/
def execQueryWatch (s : State) : Result := .next (dispatchQueryWatch s)

/-- DRIVE_OUTPUT (R100). -/
def execDriveOutput (s : State) : Result := .next (dispatchDriveOutput s)

/-- SET_OUTPUT_FUNCTION (R101). -/
def execSetOutputFunction (s : State) : Result := .next (dispatchSetOutputFunction s)

/-- READ_OUTPUTS (R102). -/
def execReadOutputs (s : State) : Result := .next (dispatchReadOutputs s)

/-- SET_TIME (R122). -/
def execSetTime (s : State) : Result := .next (dispatchSetTime s)

/-- SET_TIME_AT_PULSE (R114). -/
def execSetTimeAtPulse (s : State) : Result := .next (dispatchSetTimeAtPulse s)

/-- SET_SYNC (R113). -/
def execSetSync (s : State) : Result := .next (dispatchSetSync s)

/-- CONFIGURE_TIME (R107). -/
def execConfigureTime (s : State) : Result := .next (dispatchConfigureTime s)

/-- READ_TIME (R123). -/
def execReadTime (s : State) : Result := .next (dispatchReadTime s)

/-- FETCH (R138). -/
def execFetch (s : State) : Result := .next (dispatchFetch s)

/-- ACK (R140 to R142). -/
def execAck (s : State) : Result := .next (dispatchAck s)

/-- SET_DELIVERY (R146). -/
def execSetDelivery (s : State) : Result := .next (dispatchSetDelivery s)

/-- RESUME (R144). -/
def execResume (s : State) : Result := .next (dispatchResume s)

/-- JOURNAL_STATUS (R18). -/
def execJournalStatus (s : State) : Result := .next (dispatchJournalStatus s)

/-- CLEAR_JOURNAL (R19). -/
def execClearJournal (s : State) : Result := .next (dispatchClearJournal s)

end Sys2Proof.Machine
end

