-- ==== Sys2Proof/Machine/Pulse.lean ====
section
/-! DEFINITION. The sample with what comes before it at its moment (R25, R56), and the SYNC pulse (R111), with what other
blocks do between the STEP and the SYNC_GAINED record of one (R120). -/

namespace Sys2Proof.Machine

/-! ## The sample -/

/-- Whether requests that are dispatched at the present moment come before the sample of the present tick: its delivery, taken
now, would trip a dependent with a qualify time of 0, and one of them may take the prerequisite of that watch out of TRIPPED
and HELD (R56; log entry 7). What such a request does, it does at its dispatch (R178); one that is refused there, or answered
from the cache, departs nothing. -/
def State.requestsFirst (s : State) : Bool :=
  s.sampleDelivers
    && (List.finRange 16).any fun p =>
      s.dispatchedNow.any (s.requestDeparts p) && s.sampled.tripsDependent s.sampleEdges p

/-- The dispatcher's next event: the dispatch of the oldest request, or with the reply queue full the hand-over that frees a
slot (R178). -/
def dispatcherEvent (s : State) : State :=
  if s.canDispatch then dispatchOldest s else if s.replyWaits then replyHandOver s else s

/-- The requests that come before the sample are dispatched, one after another in their order (R178). `fuel` bounds the number
of events. -/
def departFirst : Nat → State → State
  | 0, s => s
  | fuel + 1, s => if s.requestsFirst then departFirst fuel (dispatcherEvent s) else s

/-- More events than the dispatcher has at one moment: 4 requests and one hand-over (log entry 5). -/
def departFuel : Nat := 10

/-- The sample of the present tick is taken, behind the requests that come before it (R25, R56). A CONFIGURE_LINES among them may
have taken it. -/
def sampleBehind (s : State) : State :=
  let s := departFirst departFuel s
  if s.sampleReady then takeSample s else s

/-- SAMPLE (R25). -/
def sample (s : State) : State := if s.sampleReady then sampleBehind s else s

/-- SETTLE_END (R29): the sample, where it ends the settle of the line. -/
def settleEnd (i : Fin 32) (s : State) : State := if s.sampleReady && s.settleEnds i then sampleBehind s else s

/-- CHATTER_WINDOW_EXPIRY (R33): the sample, where it runs out the line's window. -/
def chatterWindowExpiry (i : Fin 32) (s : State) : State :=
  if s.sampleReady && s.windowExpires i then sampleBehind s else s

/-- RECOVERY_EXPIRY (R36): the sample, where the line's recovery time expires at it. -/
def recoveryExpiry (i : Fin 32) (s : State) : State := if s.sampleReady && s.recoveryExpires i then sampleBehind s else s

/-! ## The SYNC pulse -/

/-- An event of another block than the time base that is due and may send records. -/
inductive Beside where
  | sample
  | qualify (watch : Fin 16)
  | dispatch
  deriving DecidableEq, Repr

/-- Whether the taking of a request of this kind may send records of the lines or of the watches (R37, R66, R80, R82). -/
def sendsRecords : RequestKind → Bool
  | .configureLines => true
  | .enableWatch => true
  | .rearmWatch => true
  | _ => false

/-- Whether a request whose taking may send records is at the front of the queue and can be dispatched (R178). -/
def State.dispatchSends (s : State) : Bool :=
  s.canDispatch
    && match s.dispatcher.requests with
      | [] => false
      | f :: _ => ((RequestKind.ofCode f.kind).map sendsRecords).getD false

/-- The events of other blocks that are due and may send records. A sample behind requests is not among them, since those
requests may be to the time base (log entry 16). -/
def State.besides (s : State) : List Beside :=
  (if s.sampleReady && !s.requestsFirst then [.sample] else [])
    ++ ((List.finRange 16).filter s.qualifyDue).map .qualify
    ++ (if s.dispatchSends then [.dispatch] else [])

/-- One of them is taken. -/
def takeBeside : Beside → State → State
  | .sample, s => sample s
  | .qualify w, s => qualifyExpiry w s
  | .dispatch, s => dispatchOldest s

/-- More of them than can be due at one tick: the sample, 16 watches and 4 requests (log entry 5). -/
def besideFuel : Nat := 100

/-- Freely chosen ones of them are taken, one after another: all, some or none. `fuel` bounds their number. -/
def takeBesides : Nat → State → State
  | 0, s => s
  | fuel + 1, s =>
    let (n, t) := s.choose (s.besides.length + 1)
    match s.besides[n]? with
    | none => t
    | some e => takeBesides fuel (takeBeside e t)

/-- SYNC_PULSE: the pulse that the sample of SYNC at this tick has made is taken (R111). Of a STEP and a SYNC_GAINED record
the STEP is handed to the journal first, and records that other blocks send at the same moment may be entered between the
two: their events may be taken there (R120). -/
def syncPulse (s : State) : State :=
  if s.time.pulseDue then
    match s.time.takePulse with
    | (time, [step, gained]) => (takeBesides besideFuel (s.withTime (time, [step]))).arrive gained
    | pulse => s.withTime pulse
  else s

end Sys2Proof.Machine
end

