-- ==== Sys2Proof/Machine/Moments.lean ====
section
/-! DEFINITION. Events that come about of themselves, at their moment and not later (R67, R93, R94, R116, R121, R133, R162,
R175, R178, R198), and the events of the link. The commands may take a due event earlier and in any order; where the next
event of the link cannot come together with it any more, it is taken first (log entry 3). -/

namespace Sys2Proof.Machine

/-! ## What is due -/

/-- An event that comes about of itself, without anything from outside. -/
inductive Due where
  | sample
  | pulse
  | qualify (watch : Fin 16)
  | watchPulse (watch : Fin 16)
  | hostPulse (output : Fin 8)
  | deadline
  | missedPulse
  | retransmit
  | repetition
  | dispatch
  | handOver
  deriving DecidableEq, Repr

/-- Whether some output carries a pulse of watch `w` that has reached 0. -/
def State.watchPulseEnds (s : State) (w : Fin 16) : Bool :=
  (List.finRange 8).any fun o => watchPulseDue w s.outputs[o].owner

/-- Whether the arbiter has a frame to take onto a FREE line (R162). -/
def State.canHandOver (s : State) : Bool := s.replyWaits || s.noticeWaits || s.reportWaits

/-- The events that are due. -/
def State.dueEvents (s : State) : List Due :=
  (if s.sampleReady then [.sample] else [])
    ++ (if s.time.pulseDue then [.pulse] else [])
    ++ ((List.finRange 16).filter s.qualifyDue).map .qualify
    ++ ((List.finRange 16).filter s.watchPulseEnds).map .watchPulse
    ++ ((List.finRange 8).filter fun o => hostPulseDue s.outputs[o].owner).map .hostPulse
    ++ (if s.time.sync.deadlineDue then [.deadline] else [])
    ++ (if s.time.sync.limitDue then [.missedPulse] else [])
    ++ (if isDue s.delivery.timer then [.retransmit] else [])
    ++ (if isDue s.announcer.timer then [.repetition] else [])
    ++ (if s.canDispatch then [.dispatch] else [])
    ++ (if s.canHandOver then [.handOver] else [])

/-- The arbiter takes one frame by its order of preference (R162). -/
def handOver (s : State) : State :=
  if s.replyWaits then replyHandOver s
  else if s.noticeWaits then startNoticeHandOver s
  else reportHandOver s

/-- A due event is taken. -/
def takeDue : Due → State → State
  | .sample, s => sample s
  | .pulse, s => syncPulse s
  | .qualify w, s => qualifyExpiry w s
  | .watchPulse w, s => watchPulseEnd w s
  | .hostPulse o, s => hostPulseEnd o s
  | .deadline, s => armDeadlineExpiry s
  | .missedPulse, s => missedPulseExpiry s
  | .retransmit, s => retransmitExpiry s
  | .repetition, s => repetitionTimerExpiry s
  | .dispatch, s => dispatchOldest s
  | .handOver, s => handOver s

/-- Due events are taken until none is, each time a freely chosen one; `fuel` bounds their number. -/
def takeDueEvents : Nat → State → State
  | 0, s => s
  | fuel + 1, s =>
    let (n, t) := s.choose s.dueEvents.length
    match s.dueEvents[n]? with
    | none => t
    | some e => takeDueEvents fuel (takeDue e t)

/-- More events than can be due at one tick: 16 watches and 8 outputs, one of each other timer, the sample, the pulse, 4
requests and one hand-over (log entry 5). -/
def dueFuel : Nat := 100

/-- Every due event is taken, until none is. -/
def State.settle (s : State) : State := takeDueEvents dueFuel s

/-! ## Moments (log entry 3) -/

/-- Whether a party of the link has had its event at this moment. -/
def Moment.had (m : Moment) : Party → Bool
  | .receiver => m.received
  | .transmitter => m.transmitted

/-- The moment once a party has its event at it. An octet that was in progress does not arrive after that. -/
def Moment.join (m : Moment) : Party → Moment
  | .receiver => { m with received := true, cut := none }
  | .transmitter => { m with transmitted := true }

/-- The state in which an event of a party of the link is taken. Where the party has had its event at the present moment,
this one comes later, so what is due is taken first (R162, R175, R178); otherwise it comes together with what is due, and
the order of the commands says which is first (R177, R190). -/
def State.found (p : Party) (s : State) : State :=
  if s.dueEvents = [] ∨ s.moment.had p = true then { s.settle with moment := Moment.fresh.join p }
  else { s with moment := s.moment.join p }

/-! ## The events of the link -/

/-- Whether the receiver finds a start bit: it looks for one, or has waited until RXD was HIGH (R154). Where it looks, `highBefore`
is not asked: the HIGH sample of a stop bit, or the HIGH check of a false start, has been the sampling period for which RXD must
be HIGH (DESIGN CHOICE, log entry 31). While held, RXD is ignored (R171). -/
def State.findsStartBit (highBefore confirmed : Bool) (s : State) : Bool :=
  !s.isHeld
    && match s.link.receiver with
      | .receiving => false
      | .looking => confirmed
      | .waitHigh => highBefore

/-- START_BIT_FOUND (R154, R161). -/
def startBitFound (highBefore confirmed : Bool) (s : State) : State :=
  if s.findsStartBit highBefore confirmed then foundStart confirmed (s.found .receiver) else s

/-- OCTET_ARRIVES (R154): with no octet in progress none arrives, but for one that arrives together with the start that has
discarded it. While held, RXD is ignored (R171). -/
def octetArrives (data : Octet) (parityLevel stopLevel : Level) (s : State) : State :=
  if s.isHeld then s
  else if s.link.receiver = .receiving then takeOctet data parityLevel stopLevel (s.found .receiver)
  else
    match s.moment.cut with
    | none => s
    | some r => arriveAfterStart r data parityLevel stopLevel { s with moment := s.moment.join .receiver }

/-- Whether the gap after an octet can expire: within a frame, with no start bit found (R161). -/
def State.gapExpires (s : State) : Bool :=
  !s.isHeld && decide (s.link.receiver ≠ .receiving) && decide (s.link.assembler ≠ .hunt)

/-- INTER_OCTET_TIMEOUT (R161): 16 octet times have passed within a frame with no start bit found. A start bit found
before ends the gap, and there is then no timeout. -/
def interOctetTimeout (s : State) : State := if s.gapExpires then abandonFrame (s.found .receiver) else s

/-- LAST_OCTET_LEAVES (R163). -/
def lastOctetLeaves (s : State) : State :=
  match s.link.line with
  | .free => s
  | .sending source _ => frameLeaves source (s.found .transmitter)

end Sys2Proof.Machine
end

