-- ==== Sys2Proof/Machine/Events.lean ====
section
/-! DEFINITION. The meanings of the rows that are events of the pins, the lines, the timers and the link. -/

namespace Sys2Proof.Machine

/-- POWER_ON (R192). -/
def execPowerOn (reset : Level) (s : State) : Result := .next (powerOn reset s)

/-- RESET_ASSERTION (R191). -/
def execResetAssertion (s : State) : Result := .next (resetAssertion s)

/-- RESET_RELEASE (R191). -/
def execResetRelease (s : State) : Result := .next (resetRelease s)

/-- SAMPLE (R25). -/
def execSample (s : State) : Result := .next (sample s)

/-- SETTLE_END (R29). -/
def execSettleEnd (line : Fin 32) (s : State) : Result := .next (settleEnd line s)

/-- CHATTER_WINDOW_EXPIRY (R33). -/
def execChatterWindowExpiry (line : Fin 32) (s : State) : Result := .next (chatterWindowExpiry line s)

/-- RECOVERY_EXPIRY (R36). -/
def execRecoveryExpiry (line : Fin 32) (s : State) : Result := .next (recoveryExpiry line s)

/-- QUALIFY_EXPIRY (R67). -/
def execQualifyExpiry (watch : Fin 16) (s : State) : Result := .next (qualifyExpiry watch s)

/-- WATCH_PULSE_END (R94). -/
def execWatchPulseEnd (watch : Fin 16) (s : State) : Result := .next (watchPulseEnd watch s)

/-- HOST_PULSE_END (R93). -/
def execHostPulseEnd (output : Fin 8) (s : State) : Result := .next (hostPulseEnd output s)

/-- SYNC_PULSE (R111). -/
def execSyncPulse (s : State) : Result := .next (syncPulse s)

/-- ARM_DEADLINE_EXPIRY (R116). -/
def execArmDeadlineExpiry (s : State) : Result := .next (armDeadlineExpiry s)

/-- MISSED_PULSE_EXPIRY (R121). -/
def execMissedPulseExpiry (s : State) : Result := .next (missedPulseExpiry s)

/-- RETRANSMIT_EXPIRY (R133). -/
def execRetransmitExpiry (s : State) : Result := .next (retransmitExpiry s)

/-- OCTET_ARRIVES (R154). -/
def execOctetArrives (data : Octet) (parityBit stopBit : Level) (s : State) : Result := .next (octetArrives data parityBit stopBit s)

/-- INTER_OCTET_TIMEOUT (R161). -/
def execInterOctetTimeout (s : State) : Result := .next (interOctetTimeout s)

/-- REPLY_HAND_OVER (R163). -/
def execReplyHandOver (s : State) : Result := .next (replyHandOver s)

/-- START_NOTICE_HAND_OVER (R198). -/
def execStartNoticeHandOver (s : State) : Result := .next (startNoticeHandOver s)

/-- REPORT_HAND_OVER (R130). -/
def execReportHandOver (s : State) : Result := .next (reportHandOver s)

/-- LAST_OCTET_LEAVES (R163). -/
def execLastOctetLeaves (s : State) : Result := .next (lastOctetLeaves s)

/-- REPETITION_TIMER_EXPIRY (R198). -/
def execRepetitionTimerExpiry (s : State) : Result := .next (repetitionTimerExpiry s)

/-- START_BIT_FOUND (R154, R161). -/
def execStartBitFound (highBefore confirmed : Bool) (s : State) : Result := .next (startBitFound highBefore confirmed s)

end Sys2Proof.Machine
end

