-- ==== Sys2Proof/Machine/Tick.lean ====
section
/-! DEFINITION. The tick (R106): what is still due is taken (log entry 3), and then every block counts one tick. -/

namespace Sys2Proof.Machine

/-- A qualify timer counts one tick (R67). -/
def WatchState.tick : WatchState → WatchState
  | .qualifying onset timer => .qualifying onset timer.tick
  | x => x

/-- A pulse counts one tick (R93, R94). -/
def Owner.tick : Owner → Owner
  | .host (some p) => .host (some { p with timer := p.timer.tick })
  | .pulse w p => .pulse w { p with timer := p.timer.tick }
  | x => x

/-- Every block counts one tick, and the pins are at the given levels: the time base with its sample of SYNC (R106,
R111), the qualify timers (R67), the pulses (R93, R94), the retransmit timer (R132), the repetition timer (R198), and a
sample of the lines to be taken unless the part is held (R25, R43). A new moment begins. -/
def advance (pins : LineMap) (sync : Level) (s : State) : State :=
  { s with
    front := { s.front with pins, sampleDue := !s.isHeld }
    watches := Vector.ofFn fun w => { s.watches[w] with state := s.watches[w].state.tick }
    outputs := Vector.ofFn fun o => { s.outputs[o] with owner := s.outputs[o].owner.tick }
    time := s.time.tick sync
    delivery := { s.delivery with timer := s.delivery.timer.map Countdown.tick }
    announcer := { s.announcer with timer := s.announcer.timer.map Countdown.tick }
    moment := .fresh }

/-- One tick (R106). -/
def tick (pins : LineMap) (sync : Level) (s : State) : State := advance pins sync s.settle

/-- SLEW_TICK: one tick, where it is a slew tick (R118). -/
def slewTick (pins : LineMap) (sync : Level) (s : State) : State :=
  let ready := s.settle
  if ready.time.slewTickNext then advance pins sync ready else s

/-! ## The meanings of the rows -/

/-- TICK (R106). -/
def execTick (pins : LineMap) (sync : Level) (s : State) : Result := .next (tick pins sync s)

/-- SLEW_TICK (R118). -/
def execSlewTick (pins : LineMap) (sync : Level) (s : State) : Result := .next (slewTick pins sync s)

end Sys2Proof.Machine
end

