-- ==== Sys2Proof/Machine/Dispatch.lean ====
section
/-! DEFINITION. One arm per command, each one call of its meaning. -/

namespace Sys2Proof.Machine

def exec (i : Instr) (s : State) : Host.Outcome State Fault Refusal :=
  match i with
  | .powerOn reset => Sys2Proof.Machine.execPowerOn reset s
  | .resetAssertion => Sys2Proof.Machine.execResetAssertion s
  | .resetRelease => Sys2Proof.Machine.execResetRelease s
  | .tick pins sync => Sys2Proof.Machine.execTick pins sync s
  | .sample => Sys2Proof.Machine.execSample s
  | .settleEnd line => Sys2Proof.Machine.execSettleEnd line s
  | .chatterWindowExpiry line => Sys2Proof.Machine.execChatterWindowExpiry line s
  | .recoveryExpiry line => Sys2Proof.Machine.execRecoveryExpiry line s
  | .qualifyExpiry watch => Sys2Proof.Machine.execQualifyExpiry watch s
  | .watchPulseEnd watch => Sys2Proof.Machine.execWatchPulseEnd watch s
  | .hostPulseEnd output => Sys2Proof.Machine.execHostPulseEnd output s
  | .syncPulse => Sys2Proof.Machine.execSyncPulse s
  | .slewTick pins sync => Sys2Proof.Machine.execSlewTick pins sync s
  | .armDeadlineExpiry => Sys2Proof.Machine.execArmDeadlineExpiry s
  | .missedPulseExpiry => Sys2Proof.Machine.execMissedPulseExpiry s
  | .retransmitExpiry => Sys2Proof.Machine.execRetransmitExpiry s
  | .octetArrives data parityBit stopBit => Sys2Proof.Machine.execOctetArrives data parityBit stopBit s
  | .interOctetTimeout => Sys2Proof.Machine.execInterOctetTimeout s
  | .replyHandOver => Sys2Proof.Machine.execReplyHandOver s
  | .startNoticeHandOver => Sys2Proof.Machine.execStartNoticeHandOver s
  | .reportHandOver => Sys2Proof.Machine.execReportHandOver s
  | .lastOctetLeaves => Sys2Proof.Machine.execLastOctetLeaves s
  | .repetitionTimerExpiry => Sys2Proof.Machine.execRepetitionTimerExpiry s
  | .dispatchUnknownKind => Sys2Proof.Machine.execDispatchUnknownKind s
  | .identify => Sys2Proof.Machine.execIdentify s
  | .linkStatus => Sys2Proof.Machine.execLinkStatus s
  | .setLink => Sys2Proof.Machine.execSetLink s
  | .restart => Sys2Proof.Machine.execRestart s
  | .configureLines => Sys2Proof.Machine.execConfigureLines s
  | .readLines => Sys2Proof.Machine.execReadLines s
  | .setWatch => Sys2Proof.Machine.execSetWatch s
  | .enableWatch => Sys2Proof.Machine.execEnableWatch s
  | .disableWatch => Sys2Proof.Machine.execDisableWatch s
  | .rearmWatch => Sys2Proof.Machine.execRearmWatch s
  | .queryWatch => Sys2Proof.Machine.execQueryWatch s
  | .driveOutput => Sys2Proof.Machine.execDriveOutput s
  | .setOutputFunction => Sys2Proof.Machine.execSetOutputFunction s
  | .readOutputs => Sys2Proof.Machine.execReadOutputs s
  | .setTime => Sys2Proof.Machine.execSetTime s
  | .setTimeAtPulse => Sys2Proof.Machine.execSetTimeAtPulse s
  | .setSync => Sys2Proof.Machine.execSetSync s
  | .configureTime => Sys2Proof.Machine.execConfigureTime s
  | .readTime => Sys2Proof.Machine.execReadTime s
  | .fetch => Sys2Proof.Machine.execFetch s
  | .ack => Sys2Proof.Machine.execAck s
  | .setDelivery => Sys2Proof.Machine.execSetDelivery s
  | .resume => Sys2Proof.Machine.execResume s
  | .journalStatus => Sys2Proof.Machine.execJournalStatus s
  | .clearJournal => Sys2Proof.Machine.execClearJournal s
  | .startBitFound highBefore confirmed => Sys2Proof.Machine.execStartBitFound highBefore confirmed s

end Sys2Proof.Machine
end

