-- ==== Sys2Proof/Safety.lean ====
section
/-! DEFINITION. The laws the manual states of the whole part ("This is the law of …"), as predicates on a state that claims
use: capacity, delivery order, numbering and the owed GAP (chapter 1); the window and the resend list (chapter 7);
ownership (chapter 5); chains and qualified dependents (chapters 3 and 4); the queues (chapter 9). -/

namespace Sys2Proof

/-- The command that dispatches a request of a kind. -/
def RequestKind.command : RequestKind → Instr
  | .identify => .identify
  | .linkStatus => .linkStatus
  | .setLink => .setLink
  | .restart => .restart
  | .configureLines => .configureLines
  | .readLines => .readLines
  | .setWatch => .setWatch
  | .enableWatch => .enableWatch
  | .disableWatch => .disableWatch
  | .rearmWatch => .rearmWatch
  | .queryWatch => .queryWatch
  | .driveOutput => .driveOutput
  | .setOutputFunction => .setOutputFunction
  | .readOutputs => .readOutputs
  | .setTime => .setTime
  | .setTimeAtPulse => .setTimeAtPulse
  | .setSync => .setSync
  | .configureTime => .configureTime
  | .readTime => .readTime
  | .fetch => .fetch
  | .ack => .ack
  | .setDelivery => .setDelivery
  | .resume => .resume
  | .journalStatus => .journalStatus
  | .clearJournal => .clearJournal

end Sys2Proof

namespace Sys2Proof.Machine

/-! ## Laws of the journal -/

/-- The law of capacity (R11). -/
def Journal.CapacityLaw (j : Journal) : Prop := j.heldCount ≤ 384

/-- The law of delivery order: every DELIVERED record was entered before every PENDING one (R9). -/
def Journal.OrderLaw (j : Journal) : Prop := j.held.Pairwise fun older newer => newer.delivered → older.delivered

/-- How many numbers the counter has advanced since a held record took its own (R6). -/
def numbersSince (next : SeqNo) (h : Held) : Nat := (next - h.seq).toNat

/-- The law of numbering over held records, oldest first: each number is older than those behind it, counted back from
the next-sequence counter (R7). No more numbers have been given since a record than there are records from it on, and
ALARM records among them that may each have displaced one (R13). -/
def NumberingLaw (next : SeqNo) : List Held → Prop
  | [] => True
  | h :: rest =>
    (∀ newer ∈ rest, numbersSince next newer < numbersSince next h) ∧ 1 ≤ numbersSince next h
      ∧ numbersSince next h ≤ (h :: rest).length + (h :: rest).countP (fun r => decide (r.record.cls = .alarm))
      ∧ NumberingLaw next rest

/-- The law of the owed GAP: a GAP is owed exactly when a count is not 0 (R14); both counts stop at 65535. -/
def Journal.GapLaw (j : Journal) : Prop :=
  (j.gapOwed = true ↔ j.lost ≠ 0 ∨ j.displaced ≠ 0) ∧ j.lost ≤ 65535 ∧ j.displaced ≤ 65535

/-- The laws of the journal together. -/
structure Journal.Laws (j : Journal) : Prop where
  capacity  : j.CapacityLaw
  order     : j.OrderLaw
  numbering : NumberingLaw j.next j.held
  gap       : j.GapLaw

/-! ## Laws of delivery -/

/-- The law of the window: never more than 16 records are DELIVERED; in STREAM mode no more than the window, and in
POLLED mode, while the part is not held, no more than 8 (R131, R138). -/
def State.WindowLaw (s : State) : Prop :=
  s.journal.deliveredCount ≤ 16
    ∧ (s.delivery.settings.mode = .stream → s.journal.deliveredCount ≤ s.delivery.settings.window)
    ∧ (s.delivery.settings.mode = .polled → s.hold = .running → s.journal.deliveredCount ≤ 8)

/-- While the part is held, the delivery engine has its power-on values (R149); a part held from power-on has delivered
nothing (R192). -/
def State.HoldLaw (s : State) : Prop :=
  (s.hold ≠ .running → s.delivery = .powerOn) ∧ (s.hold = .held true → s.journal.deliveredCount = 0)

/-- The resend list holds numbers of held DELIVERED records in entry order (R128, R134), and is empty but in STREAM mode
while RUNNING (R135, R137). -/
def State.ResendLaw (s : State) : Prop :=
  s.delivery.resend.Sublist s.journal.deliveredSeqs
    ∧ (s.delivery.resend ≠ [] → s.delivery.settings.mode = .stream ∧ s.delivery.state = .running)

/-- The settings are in range (R145); the retry count is below the limit while RUNNING and at it while STALLED (R128,
R133); the engine is RUNNING with the count 0 in POLLED mode (R137); and the retransmit timer runs only in STREAM mode
while RUNNING (R132, R135). -/
def Delivery.EngineLaw (d : Delivery) : Prop :=
  d.settings.wellFormed = true
    ∧ (d.state = .running → d.retry < d.settings.retryLimit) ∧ (d.state = .stalled → d.retry = d.settings.retryLimit)
    ∧ (d.settings.mode = .polled → d.state = .running ∧ d.retry = 0)
    ∧ ∀ timer, d.timer = some timer →
        d.settings.mode = .stream ∧ d.state = .running ∧ 1 ≤ timer.left ∧ timer.left ≤ d.settings.interval

/-- The laws of delivery together, with those of the journal they rest on. -/
structure State.DeliveryLaws (s : State) : Prop where
  journal : s.journal.Laws
  window  : s.WindowLaw
  hold    : s.HoldLaw
  resend  : s.ResendLaw
  engine  : s.delivery.EngineLaw

/-! ## Laws of the watches and the outputs -/

/-- While the definition of an entry is absent, the watch is DISABLED (R46); a definition that is present is one that
R58 lets be stored. -/
def State.DefinedLaw (s : State) : Prop :=
  ∀ w : Fin 16, (s.watches[w].definition = none → s.watches[w].state = .disabled)
    ∧ ∀ d, s.watches[w].definition = some d → d.wellFormed = true

/-- What an owner needs to hold an output (R87, R89): a watch under DRIVE is TRIPPED or HELD, and under PULSE enabled, with
an action that names this output; a function is TICK on O6 or ATTN on O7. -/
def State.OwnerFits (s : State) (o : Fin 8) : Owner → Prop
  | .host none => True
  | .host (some p) => 1 ≤ p.timer.left
  | .drive w level =>
    s.watches[w].state.isTripped = true ∧ ∃ d, s.watches[w].definition = some d ∧ d.action = .drive o level
  | .pulse w p =>
    s.watches[w].state ≠ .disabled ∧ 1 ≤ p.timer.left
      ∧ ∃ d duration, s.watches[w].definition = some d ∧ d.action = .pulse o p.level duration ∧ p.timer.left ≤ duration
  | .function (.tick _) => o = 6
  | .function .attn => o = 7

/-- The law of ownership (R89): every owner fits its output. A watch's one action names one output, so a watch owns at
most one. -/
structure State.OwnershipLaw (s : State) : Prop where
  defined : s.DefinedLaw
  fits    : ∀ o : Fin 8, s.OwnerFits o s.outputs[o].owner

/-- The table is free of cycles, and no chain is longer than 4 watches (R52, R57). -/
def State.ChainLaw (s : State) : Prop := ∀ w : Fin 16, chainEnds s.prerequisite 4 w = true

/-- The law of qualified dependents: a watch with a prerequisite is QUALIFYING only while its prerequisite is TRIPPED or
HELD (R69). -/
def State.DependentLaw (s : State) : Prop :=
  ∀ w p : Fin 16, s.prerequisite w = some p → (∃ onset timer, s.watches[w].state = .qualifying onset timer) →
    s.watches[p].state.isTripped = true

/-! ## Laws of the time base and of the request path -/

/-- The ranges of R111, and no slew in FREE and in HOLDOVER (R112, R121). -/
structure TimeBase.RangeLaw (t : TimeBase) : Prop where
  remainder : -8 ≤ t.slewRemainder ∧ t.slewRemainder ≤ 8
  spacing   : t.slewSpacing ≤ 15
  idle      : t.sync = .free ∨ t.sync = .holdover → t.slewRemainder = 0
  deadline  : ∀ r v o c, t.sync = .armed r v o c → 1 ≤ c.left ∧ c.left ≤ 3072
  limit     : ∀ c, t.sync = .tracking c → 1 ≤ c.left ∧ c.left ≤ 1280
  age       : ∀ n, t.lastPulseAge = some n → n ≤ 65535
  ignored   : t.ignored ≤ 65535

/-- The queues hold at most 4 requests and 6 replies, and the reply cache no tag 0 (R174). -/
structure Dispatcher.QueueLaw (d : Dispatcher) : Prop where
  requests : d.requests.length ≤ 4
  replies  : d.replies.length ≤ 6
  cache    : ∀ e, d.cache = some e → e.tag ≠ 0

end Sys2Proof.Machine
end

