-- ==== Sys2Proof/Certificates/Slice0/Obligations.lean ====
section
/-! DEFINITION. The statements for the provers: what each command does, what every step keeps, and what the reset leaves, by
the numbered rules of the manual. -/

namespace Sys2Proof.Claims

open Sys2Proof.Machine

/-! ## Words that the statements share -/

/-- The code of each request kind (R202). -/
def requestOctet : RequestKind → Octet
  | .identify => 0x01
  | .linkStatus => 0x02
  | .setLink => 0x03
  | .restart => 0x04
  | .configureLines => 0x10
  | .readLines => 0x11
  | .setWatch => 0x20
  | .enableWatch => 0x21
  | .disableWatch => 0x22
  | .rearmWatch => 0x23
  | .queryWatch => 0x24
  | .driveOutput => 0x30
  | .setOutputFunction => 0x31
  | .readOutputs => 0x32
  | .setTime => 0x40
  | .setTimeAtPulse => 0x41
  | .setSync => 0x42
  | .configureTime => 0x43
  | .readTime => 0x44
  | .fetch => 0x50
  | .ack => 0x51
  | .setDelivery => 0x52
  | .resume => 0x53
  | .journalStatus => 0x54
  | .clearJournal => 0x55

/-- `f` stands at the front of the request queue, before `rest`, and its dispatch goes past the first step: the part is
not held, a reply slot is free (R178), and `f` does not repeat the cached request (R179). -/
structure Dispatchable (f : Frame) (rest : List Frame) (s : State) : Prop where
  running : s.hold = .running
  front   : s.dispatcher.requests = f :: rest
  slot    : s.dispatcher.replies.length < 6
  fresh   : ∀ e, s.dispatcher.cache = some e → f.tag = 0 ∨ e.tag ≠ f.tag ∨ e.kind ≠ f.kind

/-- A dispatchable request of a kind. -/
structure Waiting (k : RequestKind) (f : Frame) (rest : List Frame) (s : State) : Prop where
  dispatchable : Dispatchable f rest s
  kind         : f.kind = requestOctet k

/-- The reply to `f`: kind REPLY, the tag of the request, its kind as received, the status and the fields (R185). -/
def replyTo (f : Frame) (status : Octet) (fields : List Octet) : Frame :=
  { kind := 0x80, tag := f.tag, payload := f.kind :: status :: fields }

/-- `s` with `f` taken out of the request queue and its reply queued with the deferred effect, and entered in the reply
cache unless the tag is 0 (R178, R180, R185). Nothing else changes. -/
def replied (f : Frame) (rest : List Frame) (status : Octet) (fields : List Octet) (effect : Option Deferred)
    (s : State) : State :=
  { s with dispatcher :=
      { s.dispatcher with
        requests := rest
        replies := s.dispatcher.replies ++ [{ frame := replyTo f status fields, effect }]
        cache :=
          if f.tag = 0 then s.dispatcher.cache
          else some { kind := f.kind, tag := f.tag, frame := replyTo f status fields } } }

/-- The codes of R201: drive levels. -/
def driveOctet : Drive → Octet
  | .low => 0
  | .high => 1
  | .released => 2

/-- Output owners (R201). -/
def ownerOctet : Owner → Octet
  | .host _ => 0x00
  | .function _ => 0x01
  | .drive w _ => 0x10 + BitVec.ofNat 8 w.val
  | .pulse w _ => 0x10 + BitVec.ofNat 8 w.val

/-- Watch states (R201). -/
def stateOctet : WatchState → Octet
  | .disabled => 0
  | .armed => 1
  | .qualifying _ _ => 2
  | .tripped _ => 3
  | .held _ => 4

/-- Sync states (R201). -/
def syncOctet : SyncState → Octet
  | .free => 0
  | .armed _ _ _ _ => 1
  | .acquiring => 2
  | .tracking _ => 3
  | .holdover => 4

/-- Time qualities (R201). -/
def qualityOctet : Quality → Octet
  | .unset => 0
  | .set => 1
  | .synced => 2
  | .holdover => 3

/-- Start causes (R201). -/
def causeOctet : StartCause → Octet
  | .powerOn => 0
  | .resetLine => 1
  | .restartFull => 2

/-- Bit rates (R201). -/
def rateOctet : BitRate → Octet
  | .b9600 => 0
  | .b19200 => 1
  | .b38400 => 2
  | .b57600 => 3
  | .b115200 => 4
  | .b230400 => 5

/-- Parities (R201). -/
def parityOctet : Parity → Octet
  | .none => 0
  | .even => 1
  | .odd => 2

/-- Restart scopes (R201). -/
def scopeOctet : RestartScope → Octet
  | .full => 0
  | .link => 1

/-- A 16-bit counter that stops at 65535 (section 4.4). -/
def saturating (n : Nat) : Nat := if n < 65535 then n + 1 else n

/-- A filtered level agrees with the reference on every line of the set (R48). -/
def AtReference (s : State) (d : WatchDef) : Prop :=
  ∀ i : Fin 32, d.lineSet.getLsbD i.val = true →
    s.front.lines[i].filtered = if d.reference.getLsbD i.val then .high else .low

/-- The pattern condition (R48). -/
def PatternHolds (s : State) (d : WatchDef) : Prop :=
  match d.sense with
  | .matching => AtReference s d
  | .differing => ¬ AtReference s d

/-- The watch condition (R52). -/
def Holds (s : State) (d : WatchDef) : Prop :=
  PatternHolds s d ∧ ∀ p, d.prerequisite = some p → ∃ onset, s.watches[p].state = .tripped onset ∨ s.watches[p].state = .held onset

/-- The line's raw logical level at the sample of the present tick, under the sense that stands at it (R26; log entry 20). -/
def rawLevel (s : State) (i : Fin 32) : Level :=
  match s.front.lines[i].config.sense, s.front.pins.getLsbD i.val with
  | .normal, true => .high
  | .normal, false => .low
  | .inverted, true => .low
  | .inverted, false => .high

/-- The state of the part as the watches see it once line `i` has made its edge. -/
def settled (s : State) (i : Fin 32) : State :=
  { s with front := { s.front with
      lines := s.front.lines.set i.val
        { s.front.lines[i] with raw := rawLevel s i, filtered := rawLevel s i, filter := .stable } i.isLt
      sampleDue := false } }

/-- The part as the watches see it once the suppression of line `i` has ended (R36, R37). -/
def recoveredLine (s : State) (i : Fin 32) : State :=
  { s with front := { s.front with
      lines := s.front.lines.set i.val { s.front.lines[i] with filtered := s.front.lines[i].raw } i.isLt } }

/-- The CONFIGURE_LINES `r` ends the suppression of line `i`, and the line delivers a RECOVERED edge at it (R37). -/
def Recovers (r : ConfigureLines) (s : State) (i : Fin 32) : Prop :=
  r.limit = 0 ∧ r.first ≤ i.val ∧ i.val < r.first + r.count ∧ s.front.lines[i].config.limit ≠ 0
    ∧ (∃ left, s.front.lines[i].chatter = .suppressed left) ∧ s.front.lines[i].raw ≠ s.front.lines[i].filtered

/-- No watch names `w` as its prerequisite. -/
def NoDependents (s : State) (w : Fin 16) : Prop :=
  ∀ (v : Fin 16) (d : WatchDef), s.watches[v].definition = some d → d.prerequisite ≠ some w

/-- A watch that names `w` as its prerequisite is QUALIFYING. -/
def QualifyingUnder (s : State) (w v : Fin 16) : Prop :=
  (∃ d, s.watches[v].definition = some d ∧ d.prerequisite = some w)
    ∧ ∃ onset timer, s.watches[v].state = .qualifying onset timer

/-- `s` with the state of watch `w` replaced. -/
def withState (s : State) (w : Fin 16) (x : WatchState) : State :=
  { s with watches := s.watches.set w.val { s.watches[w] with state := x } w.isLt }

/-- `s` with watch `w` in the state `x` after an enable: its trip count is cleared (R80). -/
def enabledAs (s : State) (w : Fin 16) (x : WatchState) : State :=
  { s with watches := s.watches.set w.val { s.watches[w] with state := x, tripCount := 0 } w.isLt }

/-- A claim of output `o` by watch `w`, by the owner at the claim (R90): the outcome, and the outputs after. -/
def claimed (w : Fin 16) (o : Fin 8) (hold : Owner) (outputs : Vector Output 8) : ActionOutcome × Vector Output 8 :=
  let taken := outputs.set o.val { outputs[o] with owner := hold } o.isLt
  match outputs[o].owner with
  | .host _ => (.done, taken)
  | .drive v _ => if v = w then (.done, taken) else (.blockedOwned, outputs)
  | .pulse v _ => if v = w then (.done, taken) else (.blockedOwned, outputs)
  | .function _ => (.blockedFunction, outputs)

/-- Step 4 of the trip (R70): no claim for NONE, and a hold with the full duration for PULSE. -/
def actedOn (w : Fin 16) (a : Action) (outputs : Vector Output 8) : ActionOutcome × Vector Output 8 :=
  match a with
  | .none => (.none, outputs)
  | .drive o level => claimed w o (.drive w level) outputs
  | .pulse o level duration => claimed w o (.pulse w ⟨level, ⟨duration, false⟩⟩) outputs

/-- Watch `w` as its trip in `s` leaves it (R70): TRIPPED with its onset, its trip count one higher, its trip time now. -/
def trippedWatch (w : Fin 16) (onset : TimeValue) (s : State) : Watch :=
  { s.watches[w] with
    state := .tripped onset, tripCount := saturating s.watches[w].tripCount, tripTime := s.time.time }

/-- The TRIP record of watch `w` at its trip in `s` (R71): class by its definition, stamped now, with the outcome of its claim
on the outputs given, the new count and, where asked for, the snapshot. -/
def tripRecord (w : Fin 16) (d : WatchDef) (onset : TimeValue) (outputs : Vector Output 8) (s : State) : Draft :=
  { cls := d.cls, stamp := s.time.now
    body := .trip w onset (actedOn w d.action outputs).1 (saturating s.watches[w].tripCount)
      (if d.tripSnapshot then some s.front.filteredMap else none) }

/-- What a trip of watch `w` leaves where no watch depends on it (R70, R71): the watch TRIPPED, its claim made, and its TRIP
record arrived. -/
def afterTrip (w : Fin 16) (d : WatchDef) (onset : TimeValue) (s : State) : State :=
  { s with
    watches := s.watches.set w.val (trippedWatch w onset s) w.isLt
    outputs := (actedOn w d.action s.outputs).2
    journal := s.journal.arrive s.time.now (tripRecord w d onset s.outputs s) }

/-- The hold of watch `w` on an output under a DRIVE action. -/
def drivenBy (w : Fin 16) : Owner → Prop
  | .drive v _ => v = w
  | _ => False

/-- An output owned by watch `w` under any action. -/
def ownedBy (w : Fin 16) : Owner → Prop
  | .drive v _ => v = w
  | .pulse v _ => v = w
  | _ => False

/-- A timer one tick further down. That it stays at 1 and becomes due where it would reach 0 is the model's choice (log
entry 11). -/
def counted (c : Countdown) : Countdown := if c.left ≤ 1 then ⟨c.left, true⟩ else ⟨c.left - 1, c.due⟩

/-- The settle times of R27, by settle index. -/
def settleTicks (index : Nat) : Nat := [0, 1, 2, 4, 8, 16, 32, 64].getD index 0

/-- A sample of the present tick can be taken, and it is not the first after a full start. -/
structure Sampling (s : State) : Prop where
  running : s.hold = .running
  due     : s.front.sampleDue = true
  later   : s.front.firstSample = false

/-- No request can come before the sample of the tick: none waits that could take a watch out of TRIPPED and HELD, or no ARMED
watch with a qualify time of 0 has a prerequisite in either state. That such requests come first is the model's choice of an
order that the manual leaves open (R56, R178; log entry 7). -/
def SampleAlone (s : State) : Prop :=
  (∀ f ∈ s.dispatcher.requests, f.kind ≠ requestOctet .disableWatch ∧ f.kind ≠ requestOctet .rearmWatch
    ∧ f.kind ≠ requestOctet .configureLines)
  ∨ ∀ (w p : Fin 16) (d : WatchDef), s.watches[w].definition = some d → s.watches[w].state = .armed → d.qualify = 0 →
      d.prerequisite = some p → ∀ onset, s.watches[p].state ≠ .tripped onset ∧ s.watches[p].state ≠ .held onset

/-- `t` comes from `s` by dispatches of waiting requests, and hand-overs of replies that free a slot for one, one after
another, none or more (R178). -/
inductive Dispatching : State → State → Prop where
  | none (s : State) : Dispatching s s
  | event {s t u : State} (c : Instr) :
      (∃ k : RequestKind, c = k.command) ∨ c = .dispatchUnknownKind ∨ c = .replyHandOver →
      exec c s = .next t → Dispatching t u → Dispatching s u

/-- SAMPLE leads from `s` to `t`, with the sample taken in the state `u`: in `s` itself, or in the state after the requests
that come before it (log entry 7). A CONFIGURE_LINES among those may have taken it. -/
def SampledIn (s u t : State) : Prop :=
  Dispatching s u ∧ (SampleAlone s → u = s) ∧ exec .sample s = .next t ∧ (u.front.sampleDue = false → t = u)

/-- A line on which a sample has nothing to do: QUIET and STABLE, with its level as it was. -/
def Idle (s : State) (i : Fin 32) : Prop :=
  s.front.lines[i].chatter = .quiet ∧ s.front.lines[i].filter = .stable ∧ rawLevel s i = s.front.lines[i].filtered
    ∧ rawLevel s i = s.front.lines[i].raw

/-- The EDGE record of an edge on a line of a recording class: none on a SILENT line (R31). -/
def edgeRecords (recording : Recording) (i : Fin 32) (level : Level) (stamp : Stamp) (recovered : Bool) : List Draft :=
  match recording with
  | .silent => []
  | .routine => [{ cls := .routine, stamp, body := .edge i level recovered }]
  | .alarm => [{ cls := .alarm, stamp, body := .edge i level recovered }]

/-- Every TRIP record that the journal holds in `t` it holds in `s`. -/
def NoNewTrip (s t : State) : Prop :=
  ∀ h ∈ t.journal.held, (∃ v began outcome count snapshot, h.record.body = .trip v began outcome count snapshot) →
    h ∈ s.journal.held

/-- Records reach the journal one after another (R7). -/
def arrived (s : State) (records : List Draft) : Journal :=
  records.foldl (fun j r => j.arrive s.time.now r) s.journal

/-- The commands of other blocks than the time base that may send records at the moment of a pulse (R7). -/
def sendsBeside : Instr → Prop
  | .sample => True
  | .qualifyExpiry _ => True
  | .configureLines => True
  | .enableWatch => True
  | .rearmWatch => True
  | _ => False

/-- `t` comes from `s` by commands of other blocks, one after another, none or more, which send their records; free values
may be used between them (log entry 1). -/
inductive ReachedBeside : State → State → Prop where
  | none (s : State) : ReachedBeside s s
  | choice {s t : State} (n : Nat) : ReachedBeside { s with choices := n } t → ReachedBeside s t
  | event {s t u : State} (c : Instr) : sendsBeside c → exec c s = .next t → ReachedBeside t u → ReachedBeside s u

/-- Nothing that another block would send records for is due: no sample, no qualify expiry and no request. -/
def NothingBeside (s : State) : Prop :=
  (s.hold ≠ .running ∨ s.front.sampleDue = false) ∧ (s.hold ≠ .running ∨ s.dispatcher.requests = [])
    ∧ ∀ (w : Fin 16) onset timer, s.watches[w].state = .qualifying onset timer → timer.due = false

/-- What every tick does, a slew tick too, but for the tick counter, the time value and the slew: the age of the last pulse,
the timers and the pulses count one tick, the pins and SYNC are taken, and a sample is due unless the part is held; the rest
is as it was (R25, R67, R93, R94, R106, R107, R111, R114, R117, R118, R121, R132, R198). That a timer stays at 1 and becomes
due, that the tick carries the pins and SYNC and leaves a pulse due, and the moment are the model's choices (log entries 11, 9
and 3). -/
def CountsOneTick (pins : LineMap) (sync : Level) (s t : State) : Prop :=
  t.front = { s.front with pins, sampleDue := decide (s.hold = .running) }
  ∧ t.time.lastPulseAge = s.time.lastPulseAge.map saturating ∧ t.time.pulseInState = s.time.pulseInState
  ∧ t.time.inForce = s.time.reference ∧ t.time.reference = s.time.reference ∧ t.time.edge = s.time.edge
  ∧ t.time.everSet = s.time.everSet ∧ t.time.ignored = s.time.ignored ∧ t.time.syncLevel = some sync
  ∧ (t.time.pulseDue = true ↔
      (s.time.edge = .rising ∧ s.time.syncLevel = some .low ∧ sync = .high)
        ∨ (s.time.edge = .falling ∧ s.time.syncLevel = some .high ∧ sync = .low))
  ∧ (∀ r v o c, s.time.sync = .armed r v o c → t.time.sync = .armed r v o (counted c))
  ∧ (∀ c, s.time.sync = .tracking c → t.time.sync = .tracking (counted c))
  ∧ (s.time.sync = .free ∨ s.time.sync = .acquiring ∨ s.time.sync = .holdover → t.time.sync = s.time.sync)
  ∧ (∀ w : Fin 16, (∀ onset c, s.watches[w].state = .qualifying onset c →
        t.watches[w] = { s.watches[w] with state := .qualifying onset (counted c) })
      ∧ ((∀ onset c, s.watches[w].state ≠ .qualifying onset c) → t.watches[w] = s.watches[w]))
  ∧ (∀ o : Fin 8,
      (∀ p, s.outputs[o].owner = .host (some p) →
        t.outputs[o] = { s.outputs[o] with owner := .host (some { p with timer := counted p.timer }) })
      ∧ (∀ w p, s.outputs[o].owner = .pulse w p →
        t.outputs[o] = { s.outputs[o] with owner := .pulse w { p with timer := counted p.timer } })
      ∧ ((∀ p, s.outputs[o].owner ≠ .host (some p)) → (∀ w p, s.outputs[o].owner ≠ .pulse w p) →
        t.outputs[o] = s.outputs[o]))
  ∧ t.delivery = { s.delivery with timer := s.delivery.timer.map counted }
  ∧ t.announcer = { s.announcer with timer := s.announcer.timer.map counted }
  ∧ t.hold = s.hold ∧ t.journal = s.journal ∧ t.link = s.link ∧ t.dispatcher = s.dispatcher
  ∧ t.moment = .fresh ∧ t.choices = s.choices ∧ t.pending = s.pending

/-- Two lots of records reach the journal, either of them first (R7). -/
def EitherOrder (s : State) (a b : List Draft) (j : Journal) : Prop := j = arrived s (a ++ b) ∨ j = arrived s (b ++ a)

/-- The RESTORE record of watch `w`, as its restore reporting asks (R75). -/
def restoreRecords (w : Fin 16) (d : WatchDef) (stamp : Stamp) (snapshot : LineMap) : List Draft :=
  match d.restore with
  | .none => []
  | .plain => [{ cls := d.cls, stamp, body := .restore w none }]
  | .withSnapshot => [{ cls := d.cls, stamp, body := .restore w (some snapshot) }]

/-- The chatter state after the chatter window of a sample (R33). -/
def windowAfter : Chatter → Chatter
  | .counting count left => if left ≤ 1 then .quiet else .counting count (left - 1)
  | chatter => chatter

/-- The chatter state of a line whose edge passes chatter supervision at a sample: without a limit QUIET; in QUIET, and in
COUNTING at the end of the window, a new count of one window; in COUNTING one more, up to the limit. None where the edge is
withheld (R32, R33). -/
def passedTo (l : Line) : Option Chatter :=
  if l.config.limit = 0 then (match l.chatter with | .suppressed _ => none | _ => some .quiet)
  else
    match l.chatter with
    | .quiet => some (.counting 1 l.config.window)
    | .counting count left =>
      if left ≤ 1 then some (.counting 1 l.config.window)
      else if count + 1 ≤ l.config.limit then some (.counting (count + 1) (left - 1))
      else none
    | .suppressed _ => none

/-- The present sample makes an edge of line `i`: its settle ends with the level differing, or a differing level is found
on a STABLE line with settle index 0 (R28, R29). -/
def EdgeNow (s : State) (i : Fin 32) : Prop :=
  rawLevel s i ≠ s.front.lines[i].filtered
    ∧ ((∃ captured left, s.front.lines[i].filter = .settling captured left ∧ left ≤ 1)
      ∨ s.front.lines[i].filter = .stable ∧ s.front.lines[i].config.settle = 0)

/-- The stamp of an edge that the settle filter of line `i` makes at the present sample: captured where the settle ends, and
that of the sample itself with settle index 0 (R28, R29). -/
def EdgeStamp (s : State) (i : Fin 32) (captured : Stamp) : Prop :=
  (∃ left, s.front.lines[i].filter = .settling captured left ∧ left ≤ 1)
    ∨ s.front.lines[i].filter = .stable ∧ s.front.lines[i].config.settle = 0 ∧ captured = s.time.now

/-- A command that takes the sample at which line `i` makes an edge: SAMPLE, or SETTLE_END where a settle of the line ends.
That the rows of a line are the whole sample is the model's inference (log entry 10). -/
def TakesEdge (s : State) (i : Fin 32) (c : Instr) : Prop :=
  c = .sample ∨ c = .settleEnd i ∧ s.front.lines[i].filter ≠ .stable

/-- The stamp of the edge that the settle filter of line `i` makes at the present sample, if it makes one (R28, R29). -/
def edgeMade (s : State) (i : Fin 32) : Option Stamp :=
  if rawLevel s i = s.front.lines[i].filtered then none
  else
    match s.front.lines[i].filter with
    | .stable => if s.front.lines[i].config.settle = 0 then some s.time.now else none
    | .settling captured left => if left ≤ 1 then some captured else none

/-- A line that delivers no edge and sends no record at the present sample: SUPPRESSED with its recovery time still to run, or
not SUPPRESSED and without an edge. -/
def Uneventful (s : State) (i : Fin 32) : Prop :=
  match s.front.lines[i].chatter with
  | .suppressed left => rawLevel s i ≠ s.front.lines[i].raw ∨ 1 < left
  | _ => edgeMade s i = none

/-- The records that line `i` sends at the present sample: the EDGE record of an edge that passes chatter supervision; a
CHATTER ON record where the edge is withheld; and at the end of a suppression the RECOVERED EDGE record of a changed level
and then a CHATTER OFF record (R31, R34, R36). -/
def lineRecords (s : State) (i : Fin 32) : List Draft :=
  let line := s.front.lines[i]
  match line.chatter, edgeMade s i with
  | .suppressed left, _ =>
    if rawLevel s i = line.raw ∧ left ≤ 1 then
      (if rawLevel s i = line.filtered then [] else edgeRecords line.config.recording i (rawLevel s i) s.time.now true)
        ++ [{ cls := .routine, stamp := s.time.now, body := .chatterOff i }]
    else []
  | _, none => []
  | .quiet, some stamp => edgeRecords line.config.recording i (rawLevel s i) stamp false
  | .counting count _, some stamp =>
    if (passedTo line).isSome then edgeRecords line.config.recording i (rawLevel s i) stamp false
    else [{ cls := .routine, stamp, body := .chatterOn i (count + 1) }]

/-- The present sample makes an edge of line `i`, on a line without chatter supervision, with every other line idle. -/
structure LoneEdge (s : State) (i : Fin 32) (captured : Stamp) : Prop where
  sampling : Sampling s
  others   : ∀ j, j ≠ i → Idle s j
  stamp    : EdgeStamp s i captured
  differs  : rawLevel s i ≠ s.front.lines[i].filtered
  quiet    : s.front.lines[i].chatter = .quiet
  limit    : s.front.lines[i].config.limit = 0

/-- The new level of line `i` is not the reference level that `d` gives it. -/
def LeavesReference (s : State) (i : Fin 32) (d : WatchDef) : Prop :=
  rawLevel s i ≠ if d.reference.getLsbD i.val then .high else .low

/-- Every watch is DISABLED. -/
def AllDisabled (s : State) : Prop := ∀ w : Fin 16, s.watches[w].state = .disabled

/-- The link's receiver is within an octet, and the part is not held, so that an octet can arrive. -/
structure Receiving (s : State) : Prop where
  running   : s.hold = .running
  receiving : s.link.receiver = .receiving

/-- An octet arrives with a parity error: a parity is selected and the number of HIGH bits, the parity bit's among them,
is odd with EVEN or even with ODD (R153, R154). -/
def parityBad (s : State) (data : Octet) (parityBit : Level) : Bool :=
  let ones := (List.range 8).countP data.getLsbD + (if parityBit = .high then 1 else 0)
  match s.link.settings.parity with
  | .none => false
  | .even => decide (ones % 2 = 1)
  | .odd => decide (ones % 2 = 0)

/-- An octet arrives marked bad (R154). -/
def octetBad (s : State) (data : Octet) (parityBit stopBit : Level) : Bool :=
  parityBad s data parityBit || decide (stopBit = .low)

/-- The receiver after an octet, and the counts of its faults (R154). That it looks for a start bit at once after a stop bit
sampled HIGH is the model's choice (log entry 31). -/
def afterOctet (s : State) (data : Octet) (parityBit stopBit : Level) : Link :=
  { s.link with
    receiver := if stopBit = .low then .waitHigh else .looking
    counters := { s.link.counters with
      parityErrors := if parityBad s data parityBit then saturating s.link.counters.parityErrors else s.link.counters.parityErrors
      framingErrors := if stopBit = .low then saturating s.link.counters.framingErrors else s.link.counters.framingErrors } }

/-- No request that could be dispatched waits, and no reply or notice that could be handed over (R162, R178). -/
def NothingWaits (s : State) : Prop :=
  (s.dispatcher.requests = [] ∨ 6 ≤ s.dispatcher.replies.length)
    ∧ (s.link.line = .free → s.dispatcher.replies = [] ∧ s.announcer.due = .none)

/-- The bit times of an octet on the wire (R152). -/
def bitTimes (parity : Parity) : Nat := if parity = .none then 10 else 11

/-- The level of TXD in bit time `j` of an octet: start bit, data bits least significant first, the parity bit if one is
selected, stop bit (R153). -/
def levelOfBit (parity : Parity) (o : Octet) (j : Nat) : Level :=
  let odd := (List.range 8).countP o.getLsbD % 2 = 1
  if j = 0 then .low
  else if j ≤ 8 then if o.getLsbD (j - 1) then .high else .low
  else if j = 9 then
    match parity with
    | .none => .high
    | .even => if odd then .high else .low
    | .odd => if odd then .low else .high
  else .high

/-- A complete frame arrives at the dispatcher (R175, R176, R199). -/
def afterArrival (f : Frame) (s : State) : State :=
  if s.dispatcher.requests.length < 4 then
    { s with
      dispatcher := { s.dispatcher with requests := s.dispatcher.requests ++ [f] }
      announcer :=
        if s.announcer.answered then s.announcer
        else
          { s.announcer with
            answered := true, timer := none, due := if s.announcer.due = .repeated then .none else s.announcer.due } }
  else if s.dispatcher.replies.length < 6 then
    { s with
      dispatcher := { s.dispatcher with
        replies := s.dispatcher.replies ++ [{ frame := replyTo f 0x04 [], effect := none }] }
      link := { s.link with counters := { s.link.counters with
        busyRefusals := saturating s.link.counters.busyRefusals } } }
  else
    { s with link := { s.link with counters := { s.link.counters with
        droppedFrames := saturating s.link.counters.droppedFrames } } }

/-- The octets of a frame on the wire (R155). -/
def onWire (f : Frame) : List Octet :=
  let checked := BitVec.ofNat 8 (f.payload.length + 2) :: f.kind :: f.tag :: f.payload
  0xC3 :: checked ++ [BitVec.ofNat 8 ((crcOf checked).toNat / 256), BitVec.ofNat 8 (crcOf checked).toNat]

/-- A record as it is carried (R203): length, number, kind, class and quality, time value, and the fields of its kind. -/
def recordOctets (h : Held) : List Octet :=
  let r := h.record
  let two (n : Nat) : List Octet := [BitVec.ofNat 8 (n / 256), BitVec.ofNat 8 n]
  let four (n : Nat) : List Octet := two (n / 65536) ++ two n
  let time (t : TimeValue) : List Octet := four t.sec.toNat ++ two t.tick.toNat
  let map : Option LineMap → List Octet
    | none => []
    | some m => four m.toNat
  let alarm := match r.cls with | .routine => 0 | .alarm => 1
  let quality := match r.stamp.quality with | .unset => 0 | .set => 1 | .synced => 2 | .holdover => 3
  let level : Level → Nat | .low => 0 | .high => 1
  let outcome : ActionOutcome → Octet | .none => 0 | .done => 1 | .blockedOwned => 2 | .blockedFunction => 3
  let laid (kind : Nat) (fields : List Octet) : List Octet :=
    BitVec.ofNat 8 (10 + fields.length) :: two h.seq.toNat ++ BitVec.ofNat 8 (128 * alarm + 32 * quality + kind)
      :: time r.stamp.time ++ fields
  match r.body with
  | .edge line l recovered => laid 1 [BitVec.ofNat 8 line.val, BitVec.ofNat 8 (level l + if recovered then 2 else 0)]
  | .trip watch onset o count snapshot =>
    laid 2 (BitVec.ofNat 8 watch.val :: time onset ++ outcome o :: two count ++ map snapshot)
  | .restore watch snapshot => laid 3 (BitVec.ofNat 8 watch.val :: map snapshot)
  | .chatterOn line count => laid 4 [BitVec.ofNat 8 line.val, 1, BitVec.ofNat 8 count]
  | .chatterOff line => laid 4 [BitVec.ofNat 8 line.val, 0, 0]
  | .time (.step old) => laid 5 (0 :: time old)
  | .time .syncGained => laid 5 [1]
  | .time .holdover => laid 5 [2]
  | .time .syncMissed => laid 5 [3]
  | .restart cause held returned =>
    laid 6 ((match cause with | .powerOn => 0 | .resetLine => 1 | .restartFull => 2) :: two held
      ++ [BitVec.ofNat 8 returned])
  | .gap lost displaced => laid 7 (two lost ++ two displaced)

/-- The rows that a held part turns away: what the lines, the link and the dispatcher do (R191), and the RESET line's
assertion (log entry 22). -/
def shutOut : Instr → Bool
  | .powerOn _ => false
  | .resetAssertion => true
  | .resetRelease => false
  | .tick _ _ => false
  | .sample => true
  | .settleEnd _ => true
  | .chatterWindowExpiry _ => true
  | .recoveryExpiry _ => true
  | .qualifyExpiry _ => false
  | .watchPulseEnd _ => false
  | .hostPulseEnd _ => false
  | .syncPulse => false
  | .slewTick _ _ => false
  | .armDeadlineExpiry => false
  | .missedPulseExpiry => false
  | .retransmitExpiry => false
  | .octetArrives _ _ _ => true
  | .interOctetTimeout => true
  | .replyHandOver => true
  | .startNoticeHandOver => true
  | .reportHandOver => true
  | .lastOctetLeaves => false
  | .repetitionTimerExpiry => false
  | .dispatchUnknownKind => true
  | .startBitFound _ _ => true
  | _ => true

/-- The payload lengths that the length check accepts (R205). -/
def acceptedLengths : RequestKind → List Nat
  | .identify => [0]
  | .linkStatus => [0]
  | .setLink => [2]
  | .restart => [1]
  | .configureLines => [8]
  | .readLines => [0]
  | .setWatch => [24, 2]
  | .enableWatch => [1]
  | .disableWatch => [1]
  | .rearmWatch => [1]
  | .queryWatch => [1]
  | .driveOutput => [5]
  | .setOutputFunction => [4]
  | .readOutputs => [0]
  | .setTime => [6]
  | .setTimeAtPulse => [5]
  | .setSync => [1]
  | .configureTime => [2]
  | .readTime => [0]
  | .fetch => [1]
  | .ack => [2]
  | .setDelivery => [6]
  | .resume => [0]
  | .journalStatus => [0]
  | .clearJournal => [0]

/-- The number that two octets carry (R201). -/
def twoOctets (high low : Octet) : Nat := high.toNat * 256 + low.toNat

/-- The 22 octets of a watch definition carry `d`, with anything at all in the reference bits outside the line set and in the
octets of an unused action output, level or duration and of an absent prerequisite's index (R47, R51, R201, R204). -/
def CarriesDefinition (d : WatchDef) (octets : List Octet) : Prop :=
  ∃ (reference : LineMap) (output level d1 d0 index : Octet),
    octets = octets32 d.lineSet.toNat ++ octets32 reference.toNat
      ++ ([match d.sense with | .matching => 0 | .differing => 1] : List Octet) ++ octets16 d.qualify
      ++ ([match d.rearm with | .auto => 0 | .manual => 1,
          match d.restore with | .none => 0 | .plain => 1 | .withSnapshot => 2,
          if d.tripSnapshot then 1 else 0, match d.cls with | .routine => 0 | .alarm => 1,
          match d.action with | .none => 0 | .drive _ _ => 1 | .pulse _ _ _ => 2, output, level, d1, d0,
          if d.prerequisite.isSome then 1 else 0, index] : List Octet)
    ∧ (∀ i : Fin 32, d.reference.getLsbD i.val = (d.lineSet.getLsbD i.val && reference.getLsbD i.val))
    ∧ (∀ o l, d.action = .drive o l → output = BitVec.ofNat 8 o.val ∧ level = driveOctet l)
    ∧ (∀ o l n, d.action = .pulse o l n →
        output = BitVec.ofNat 8 o.val ∧ level = driveOctet l ∧ [d1, d0] = octets16 n)
    ∧ ∀ p, d.prerequisite = some p → index = BitVec.ofNat 8 p.val

/-- The payload of a SET_WATCH carries `r` (R58, R205). -/
def CarriesSetWatch (r : SetWatch) (payload : List Octet) : Prop :=
  (r.definition = none → payload = [BitVec.ofNat 8 r.watch.val, 0])
    ∧ ∀ d, r.definition = some d →
        ∃ octets, payload = BitVec.ofNat 8 r.watch.val :: 1 :: octets ∧ CarriesDefinition d octets

/-- The payload of a DRIVE_OUTPUT carries `r`, with anything at all as the level and duration of another form than PULSE
(R100, R183). -/
def CarriesDriveOutput (r : DriveOutput) (payload : List Octet) : Prop :=
  ∃ form level d1 d0 : Octet, payload = [BitVec.ofNat 8 r.output.val, form, level, d1, d0]
    ∧ (∀ l, r.form = .level l → form = driveOctet l)
    ∧ ∀ l n, r.form = .pulse l n → form = 3 ∧ level = driveOctet l ∧ [d1, d0] = octets16 n

/-- The payload of a SET_OUTPUT_FUNCTION carries `r`, with anything at all as the frequency of another function than TICK
(R101, R183). -/
def CarriesOutputFunction (r : SetOutputFunction) (payload : List Octet) : Prop :=
  ∃ function hz1 hz0 : Octet, payload = [BitVec.ofNat 8 r.output.val, function, hz1, hz0]
    ∧ (r.function = none → function = 0) ∧ (r.function = some .attn → function = 2)
    ∧ ∀ rate : Fin 10, r.function = some (.tick rate) → function = 1 ∧ [hz1, hz0] = octets16 (2 ^ rate.val)

/-- A watch definition of 22 octets passes the field check (R58, R201, R204). -/
def definitionFits : List Octet → Prop
  | [s3, s2, s1, s0, _, _, _, _, sense, q1, q0, rearm, restore, snapshot, cls, action, output, level, d1, d0, flag, index] =>
    ¬ (s3 = 0 ∧ s2 = 0 ∧ s1 = 0 ∧ s0 = 0) ∧ sense.toNat ≤ 1 ∧ twoOctets q1 q0 ≤ 61440 ∧ rearm.toNat ≤ 1
      ∧ restore.toNat ≤ 2 ∧ snapshot.toNat ≤ 1 ∧ cls.toNat ≤ 1
      ∧ (action = 0 ∨ action = 1 ∧ output.toNat ≤ 7 ∧ level.toNat ≤ 2
        ∨ action = 2 ∧ output.toNat ≤ 7 ∧ level.toNat ≤ 2 ∧ 1 ≤ twoOctets d1 d0 ∧ twoOctets d1 d0 ≤ 61440)
      ∧ (flag = 0 ∨ flag = 1 ∧ index.toNat ≤ 15)
  | _ => False

/-- A payload of a length that its kind has passes the field check: every used field holds an accepted value (R183, R201,
R205, and the ranges of R38, R58, R100, R101, R113, R114, R122, R138, R145, R167, R193). -/
def fieldsFit : RequestKind → List Octet → Prop
  | .setLink, [rate, parity] => rate.toNat ≤ 5 ∧ parity.toNat ≤ 2
  | .restart, [scope] => scope.toNat ≤ 1
  | .configureLines, [first, count, sense, settle, recording, limit, window, recovery] =>
    first.toNat ≤ 31 ∧ 1 ≤ count.toNat ∧ count.toNat ≤ 32 ∧ first.toNat + count.toNat ≤ 32 ∧ sense.toNat ≤ 1
      ∧ settle.toNat ≤ 7 ∧ recording.toNat ≤ 2 ∧ (limit.toNat = 0 ∨ 2 ≤ limit.toNat ∧ limit.toNat ≤ 30)
      ∧ 1 ≤ window.toNat ∧ window.toNat ≤ 60 ∧ 1 ≤ recovery.toNat ∧ recovery.toNat ≤ 60
  | .setWatch, [watch, form] => watch.toNat ≤ 15 ∧ form = 0
  | .setWatch, watch :: form :: definition => watch.toNat ≤ 15 ∧ form = 1 ∧ definitionFits definition
  | .enableWatch, [watch] => watch.toNat ≤ 15
  | .disableWatch, [watch] => watch.toNat ≤ 15
  | .rearmWatch, [watch] => watch.toNat ≤ 15
  | .queryWatch, [watch] => watch.toNat ≤ 15
  | .driveOutput, [output, form, level, d1, d0] =>
    output.toNat ≤ 7
      ∧ (form.toNat ≤ 2 ∨ form = 3 ∧ level.toNat ≤ 2 ∧ 1 ≤ twoOctets d1 d0 ∧ twoOctets d1 d0 ≤ 61440)
  | .setOutputFunction, [output, function, hz1, hz0] =>
    (output = 6 ∧ (function = 0 ∨ function = 1 ∧ ∃ rate : Fin 10, twoOctets hz1 hz0 = 2 ^ rate.val))
      ∨ output = 7 ∧ (function = 0 ∨ function = 2)
  | .setTime, [_, _, _, _, t1, t0] => twoOctets t1 t0 ≤ 1023
  | .setTimeAtPulse, [_, _, _, _, option] => option.toNat ≤ 1
  | .setSync, [setting] => setting.toNat ≤ 1
  | .configureTime, [reference, edge] => reference.toNat ≤ 3 ∧ edge.toNat ≤ 1
  | .fetch, [maximum] => 1 ≤ maximum.toNat ∧ maximum.toNat ≤ 8
  | .setDelivery, [mode, window, perReport, i1, i0, retryLimit] =>
    mode.toNat ≤ 1 ∧ 1 ≤ window.toNat ∧ window.toNat ≤ 16 ∧ 1 ≤ perReport.toNat ∧ perReport.toNat ≤ 4
      ∧ 64 ≤ twoOctets i1 i0 ∧ twoOctets i1 i0 ≤ 8192 ∧ 1 ≤ retryLimit.toNat ∧ retryLimit.toNat ≤ 15
  | _, _ => True

end Sys2Proof.Claims

open Sys2Proof Sys2Proof.Machine Sys2Proof.Claims

/-! ## The queue of commands and the whole part -/

/-- A step takes the command at the front of the queue and runs it on the state with the queue's rest. On an empty queue
the part idles, which is the model's choice (log entry 6). -/
def Obligations.StepRunsFrontCommand : Prop :=
  (∀ (c : Instr) (rest : List Instr) (s : State),
    step { s with pending := c :: rest } = exec c { s with pending := rest })
  ∧ ∀ s : State, s.pending = [] → step s = .next s

/-- Every command answers a next state in every state, one whose event does not come about included (log entry 4), and
leaves the queue of waiting commands alone, POWER_ON and the RESET line's commands too (log entries 22 and 24). The effect of
each command is stated with the command. -/
def Obligations.EveryCommandCompletes : Prop :=
  ∀ (c : Instr) (s : State), ∃ t, exec c s = .next t ∧ t.pending = s.pending

/-- While the part is held it takes no sample, no octet and no request, and hands nothing over (R191). That such a command
answers the same state is the model's choice (log entry 4), and that an assertion of a line already LOW changes nothing its
inference (log entry 22). -/
def Obligations.HeldPartTurnsCommandsAway : Prop :=
  ∀ (c : Instr) (s : State), shutOut c = true → s.hold ≠ .running → exec c s = .next s

/-! ## Starts -/

/-- The journal at power-on, and through the release that ends a power-on start, with both causes POWER_ON (R21, R192, R197);
the first record takes number 0. With the RESET line HIGH at power-on the part runs; a release of a part that runs changes
nothing at all, which is the model's inference (log entry 22). -/
def Obligations.PowerOnEmptiesJournal : Prop :=
  (∀ (reset : Level) (s : State), ∃ t, exec (.powerOn reset) s = .next t
    ∧ t.journal = { held := [], next := 0, lost := 0, displaced := 0, gapOwed := false }
    ∧ (∃ u, exec .resetRelease t = .next u ∧ u.journal = t.journal ∧ u.announcer.cause = .powerOn
        ∧ u.dispatcher.lastStartCause = .powerOn)
    ∧ (reset = .high → t.hold = .running ∧ exec .resetRelease t = .next t)
    ∧ ∀ now r, (t.journal.arrive now r).held = [{ seq := 0, record := r, delivered := false }])
  ∧ ∀ s : State, s.hold = .running → exec .resetRelease s = .next s

/-- The watches at power-on; no watch can be enabled while its definition is absent (R84). -/
def Obligations.PowerOnDisablesWatches : Prop :=
  (∀ (reset : Level) (s : State), ∃ t, exec (.powerOn reset) s = .next t
    ∧ ∀ w : Fin 16, t.watches[w].definition = none ∧ t.watches[w].state = .disabled
      ∧ t.watches[w].state.onset = none ∧ t.watches[w].tripCount = 0 ∧ t.watches[w].tripTime = ⟨0, 0⟩
      ∧ t.ownedOutput w = none ∧ t.pulseRemaining w = none)
  ∧ ∀ (f : Frame) (rest : List Frame) (w : Fin 16) (s : State), Waiting .enableWatch f rest s →
      f.payload = [BitVec.ofNat 8 w.val] → s.watches[w].definition = none →
      exec .enableWatch s = .next (replied f rest 0x10 [] none s)

/-- Every other block at power-on, with the RESET line HIGH or LOW; the first sample of SYNC has no previous one and makes no
pulse (R42, R87, R107, R111, R128, R170, R174, R192, R197). That the pins read LOW and that the tick in progress is divided by
the default reference is the model's choice (log entry 8). Its own fields: the moment begins anew, and the free values used
and the queue of commands are kept (log entries 3 and 22). -/
def Obligations.PowerOnSetsDefaults : Prop :=
  ∀ (reset : Level) (s : State), ∃ t, exec (.powerOn reset) s = .next t
    ∧ t.hold = (if reset = .high then .running else .held true)
    ∧ (∀ i : Fin 32, t.front.lines[i] =
        { config := { sense := .normal, settle := 3, recording := .silent, limit := 0, window := 1024, recovery := 5120 }
          raw := .low, filtered := .low, filter := .stable, chatter := .quiet })
    ∧ t.front.firstSample = true ∧ t.front.sampleDue = false
    ∧ (∀ o : Fin 8, t.outputs[o].hostLevel = .released
        ∧ t.outputs[o].owner = if o = 7 then .function .attn else .host none)
    ∧ t.time.reference = .khz32768 ∧ t.time.edge = .rising ∧ t.time.tickCounter = 0 ∧ t.time.time = ⟨0, 0⟩
    ∧ t.time.everSet = false ∧ t.time.sync = .free ∧ t.time.slewRemainder = 0 ∧ t.time.slewSpacing = 0
    ∧ t.time.lastPulseAge = none ∧ t.time.pulseInState = false ∧ t.time.ignored = 0
    ∧ t.time.syncLevel = none ∧ t.time.pulseDue = false ∧ t.time.inForce = .khz32768 ∧ t.front.pins = 0
    ∧ t.delivery =
        { settings := { mode := .polled, window := 8, perReport := 4, interval := 512, retryLimit := 4 }
          state := .running, retry := 0, timer := none, reportNumber := 0, resend := [] }
    ∧ t.link.settings = { rate := .b19200, parity := .none } ∧ t.link.assembler = .hunt ∧ t.link.line = .free
    ∧ t.link.receiver = .waitHigh
    ∧ t.link.counters =
        { noise := 0, lengthErrors := 0, timeouts := 0, parityErrors := 0, framingErrors := 0, damagedFrames := 0
          crcErrors := 0, busyRefusals := 0, droppedFrames := 0 }
    ∧ t.dispatcher = { requests := [], replies := [], cache := none, lastStartCause := .powerOn }
    ∧ t.announcer =
        { answered := false, due := if reset = .high then .first else .none, timer := none, number := 0
          cause := .powerOn }
    ∧ t.moment = .fresh ∧ t.choices = s.choices ∧ t.pending = s.pending

/-- What the assertion of the RESET line leaves of a running part (R43, R63, R85, R104, R126, R149, R171, R188, R191). That
the notice number and the announced cause stand beside the announcement's state is the model's inference (log entry 23), and
so is the slew spacing of 0, where R126 clears the slew remainder (log entry 28); the moment is its own field (log entry 3). -/
def Obligations.ResetAssertionHoldsPart : Prop :=
  ∀ s : State, s.hold = .running → ∃ t, exec .resetAssertion s = .next t
    ∧ t.hold = .held false
    ∧ (∀ i : Fin 32, t.front.lines[i] = { s.front.lines[i] with filter := .stable, chatter := .quiet })
    ∧ t.front.sampleDue = false ∧ t.front.pins = s.front.pins
    ∧ (∀ w : Fin 16, t.watches[w] = { s.watches[w] with definition := none, state := .disabled })
    ∧ (∀ o : Fin 8, t.outputs[o] = { hostLevel := .released, owner := if o = 7 then .function .attn else .host none }
        ∧ t.pin o = .released)
    ∧ t.time.sync = .free ∧ t.time.slewRemainder = 0 ∧ t.time.slewSpacing = 0 ∧ t.time.lastPulseAge = none
    ∧ t.time.pulseInState = false ∧ t.time.ignored = 0
    ∧ t.time.time = s.time.time ∧ t.time.tickCounter = s.time.tickCounter ∧ t.time.everSet = s.time.everSet
    ∧ t.time.reference = s.time.reference ∧ t.time.inForce = s.time.inForce ∧ t.time.edge = s.time.edge
    ∧ t.time.syncLevel = s.time.syncLevel ∧ t.time.pulseDue = s.time.pulseDue
    ∧ t.journal = s.journal
    ∧ t.delivery =
        { settings := { mode := .polled, window := 8, perReport := 4, interval := 512, retryLimit := 4 }
          state := .running, retry := 0, timer := none, reportNumber := 0, resend := [] }
    ∧ t.link =
        { settings := { rate := .b19200, parity := .none }, receiver := .waitHigh, assembler := .hunt, line := .free
          counters :=
            { noise := 0, lengthErrors := 0, timeouts := 0, parityErrors := 0, framingErrors := 0, damagedFrames := 0
              crcErrors := 0, busyRefusals := 0, droppedFrames := 0 } }
    ∧ t.dispatcher.requests = [] ∧ t.dispatcher.replies = [] ∧ t.dispatcher.cache = none
    ∧ t.dispatcher.lastStartCause = s.dispatcher.lastStartCause
    ∧ t.announcer = { s.announcer with due := .none, timer := none }
    ∧ t.moment = .fresh ∧ t.choices = s.choices ∧ t.pending = s.pending

/-- What the release of the RESET line leaves: a full start with cause RESET_LINE, with its RESTART record; or, of a line
held from power-on, the end of the power-on start (R22, R23, R43, R188, R191, R192, R197). The rest is as it was. -/
def Obligations.ResetReleaseStartsPart : Prop :=
  ∀ (fromPowerOn : Bool) (s : State), s.hold = .held fromPowerOn → ∃ t, exec .resetRelease s = .next t
    ∧ t.hold = .running
    ∧ (∀ i : Fin 32, t.front.lines[i] =
        { s.front.lines[i] with
          config := { sense := .normal, settle := 3, recording := .silent, limit := 0, window := 1024, recovery := 5120 }
          filter := .stable, chatter := .quiet })
    ∧ t.front.firstSample = true ∧ t.front.pins = s.front.pins ∧ t.front.sampleDue = s.front.sampleDue
    ∧ t.announcer =
        { answered := false, due := .first, timer := none, number := 0
          cause := if fromPowerOn then .powerOn else .resetLine }
    ∧ t.dispatcher =
        { s.dispatcher with lastStartCause := if fromPowerOn then s.dispatcher.lastStartCause else .resetLine }
    ∧ t.journal =
        (if fromPowerOn then s.journal
          else
            Journal.arrive { s.journal with held := s.journal.held.map fun h => { h with delivered := false } } s.time.now
              { cls := .alarm, stamp := s.time.now
                body := .restart .resetLine s.journal.held.length (s.journal.held.countP (·.delivered)) })
    ∧ t = { s with
        hold := t.hold, front := t.front, dispatcher := t.dispatcher, announcer := t.announcer, journal := t.journal }

/-- The start a RESTART FULL makes when the last octet of its reply leaves (R22, R23, R44, R63, R85, R105, R127, R150,
R172, R189, R195, R197), in the state `u` in which that event is taken (log entry 3). An octet that arrives together with
the start and is taken after it: a frame it completes is queued after the start and answers the new announcement, and any
other is discarded (R190, R199; log entry 26). An octet whose start bit has been found at the same moment cannot arrive at it, and
the start discards it (R172; log entry 3). That the slew spacing is 0, where R127 clears the slew remainder, is the
model's inference (log entry 28), and that an octet with no octet in progress changes nothing its choice (log entries 4 and
13). -/
def Obligations.RestartFullAtLastOctet : Prop :=
  ∀ (octets : List Octet) (s u : State), s.link.line = .sending (.reply (some (.start .full))) octets →
    u = s.found .transmitter →
    ∃ t, exec .lastOctetLeaves s = .next t
    ∧ t.hold = u.hold
    ∧ (∀ i : Fin 32, t.front.lines[i] =
        { u.front.lines[i] with
          config := { sense := .normal, settle := 3, recording := .silent, limit := 0, window := 1024, recovery := 5120 }
          filter := .stable, chatter := .quiet })
    ∧ t.front.firstSample = true ∧ t.front.pins = u.front.pins ∧ t.front.sampleDue = u.front.sampleDue
    ∧ (∀ w : Fin 16, t.watches[w] = { u.watches[w] with definition := none, state := .disabled })
    ∧ (∀ o : Fin 8, t.outputs[o] = { hostLevel := .released, owner := if o = 7 then .function .attn else .host none })
    ∧ t.time.sync = .free ∧ t.time.slewRemainder = 0 ∧ t.time.slewSpacing = 0 ∧ t.time.lastPulseAge = none
    ∧ t.time.pulseInState = false ∧ t.time.ignored = 0
    ∧ t.time.inForce = u.time.inForce ∧ t.time.syncLevel = u.time.syncLevel ∧ t.time.pulseDue = u.time.pulseDue
    ∧ t.time.time = u.time.time ∧ t.time.tickCounter = u.time.tickCounter ∧ t.time.everSet = u.time.everSet
    ∧ t.time.reference = u.time.reference ∧ t.time.edge = u.time.edge
    ∧ t.journal =
        Journal.arrive { u.journal with held := u.journal.held.map fun h => { h with delivered := false } } t.time.now
          { cls := .alarm, stamp := t.time.now
            body := .restart .restartFull u.journal.held.length (u.journal.held.countP (·.delivered)) }
    ∧ t.delivery =
        { settings := { mode := .polled, window := 8, perReport := 4, interval := 512, retryLimit := 4 }
          state := .running, retry := 0, timer := none, reportNumber := 0, resend := [] }
    ∧ t.link =
        { settings := { rate := .b19200, parity := .none }, receiver := .waitHigh, assembler := .hunt, line := .free
          counters :=
            { noise := 0, lengthErrors := 0, timeouts := 0, parityErrors := 0, framingErrors := 0, damagedFrames := 0
              crcErrors := 0, busyRefusals := 0, droppedFrames := 0 } }
    ∧ t.dispatcher = { requests := [], replies := [], cache := none, lastStartCause := .restartFull }
    ∧ t.announcer = { answered := false, due := .first, timer := none, number := 0, cause := .restartFull }
    ∧ t.choices = u.choices ∧ t.pending = u.pending
    ∧ ∀ (data : Octet) (parityBit stopBit : Level), u.hold = .running →
      (u.link.receiver ≠ .receiving ∨ u.moment.received = true →
        exec (.octetArrives data parityBit stopBit) t = .next t)
      ∧ (u.link.receiver = .receiving → u.moment.received = false →
        (∀ len kind tag payload high,
          u.link.assembler = .check len (kind :: tag :: payload) (high ++ data) false (some high) →
          octetBad u data parityBit stopBit = false →
          exec (.octetArrives data parityBit stopBit) t = .next
            { t with
              moment := { received := true, transmitted := true, cut := none }
              dispatcher := { t.dispatcher with requests := [{ kind, tag, payload }] }
              announcer := { t.announcer with answered := true } })
        ∧ ((∀ len octets crc high, u.link.assembler = .check len octets crc false (some high) →
              octetBad u data parityBit stopBit = true ∨ crc ≠ high ++ data) →
          exec (.octetArrives data parityBit stopBit) t = .next
            { t with moment := { received := true, transmitted := true, cut := none } }))

/-- The leaving of any other frame's last octet, in the state `u` in which that event is taken (log entry 3). RESTART LINK
clears the request path, returns DELIVERED records to PENDING and begins delivery again; lines, watches, outputs, time base,
link settings and counters, the announcement and everything else are as they were (R24, R45, R64, R86, R105, R127, R151,
R173, R189, R196). A plain reply and a START notice make no effect; a REPORT loads the retransmit timer in STREAM mode while
RUNNING; a SET_LINK reply makes the switch, which disturbs reception only where the settings differ. The line is FREE after
each (R132, R163, R168). That a REPORT handed over before a stall loads the timer too where it leaves after a RESUME and before any
resend frame, by R132 over R144, is the model's choice (log entry 30). -/
def Obligations.LastOctetOfOtherFrames : Prop :=
  ∀ (octets : List Octet) (s u : State), u = s.found .transmitter →
    (s.link.line = .sending (.reply (some (.start .link))) octets →
      exec .lastOctetLeaves s = .next
        { u with
          dispatcher := { u.dispatcher with requests := [], replies := [], cache := none }
          journal := { u.journal with held := u.journal.held.map fun h => { h with delivered := false } }
          delivery := { u.delivery with state := .running, retry := 0, timer := none, resend := [] }
          link := { u.link with line := .free } })
    ∧ (s.link.line = .sending (.reply none) octets →
      exec .lastOctetLeaves s = .next { u with link := { u.link with line := .free } })
    ∧ (s.link.line = .sending .notice octets →
      exec .lastOctetLeaves s = .next { u with link := { u.link with line := .free } })
    ∧ (s.link.line = .sending .report octets → u.delivery.settings.mode = .stream → u.delivery.state = .running →
      exec .lastOctetLeaves s = .next
        { u with
          link := { u.link with line := .free }
          delivery := { u.delivery with timer := some ⟨u.delivery.settings.interval, false⟩ } })
    ∧ (s.link.line = .sending .report octets → u.delivery.settings.mode = .polled ∨ u.delivery.state = .stalled →
      exec .lastOctetLeaves s = .next { u with link := { u.link with line := .free } })
    ∧ ∀ settings, s.link.line = .sending (.reply (some (.switch settings))) octets →
      (settings = u.link.settings →
        exec .lastOctetLeaves s = .next { u with link := { u.link with line := .free } })
      ∧ (settings ≠ u.link.settings →
        exec .lastOctetLeaves s = .next
          { u with link :=
              { settings, receiver := .waitHigh, assembler := .hunt, line := .free
                counters :=
                  if u.link.assembler = .hunt then u.link.counters
                  else { u.link.counters with timeouts := saturating u.link.counters.timeouts } } })

/-! ## Lines -/

/-- The first sample after a full start sets each line's raw and filtered levels, with no edge and no record (R42 to R44).
The levels are formed under the sense that stands at the sample, which is the model's inference where a CONFIGURE_LINES came
first (log entry 20). -/
def Obligations.FirstSampleSetsLevels : Prop :=
  ∀ s : State, s.hold = .running → s.front.sampleDue = true → s.front.firstSample = true →
    exec .sample s = .next
      { s with front :=
          { s.front with
            lines := Vector.ofFn fun i =>
              { s.front.lines[i] with raw := rawLevel s i, filtered := rawLevel s i }
            sampleDue := false, firstSample := false } }

/-- What one sample does to a line, whatever the others do. Without chatter supervision: the raw level follows the pin
through the sense, a differing level starts a settle of the configured time, its return abandons it, and its end changes
the filtered level (R25, R26, R28, R29, R30, R32). With it, where the sample makes no edge: the same, while the chatter
window runs (R33). SUPPRESSED: a raw change reloads the recovery count; otherwise it decreases, and at its end the line is
QUIET at its raw level (R35, R36). Nothing outside lines, watches, outputs and journal changes. Where no line delivers an edge
or sends a record, watches, outputs and journal are as they were too; and with every watch DISABLED, watches and outputs are,
and the records of the lines arrive in ascending order of line (R25, R31), without a break, which is the model's choice (log
entry 16). The sample is taken in the state `s` after the requests that come before it, if there are any (log entry 7). -/
def Obligations.SampleFiltersLine : Prop :=
  ∀ a : State, Sampling a → ∃ s t, SampledIn a s t ∧ ∀ i : Fin 32, Sampling s → s.front.lines[i].config.settle ≤ 7 →
      (∀ line raw ticks, line = s.front.lines[i] → raw = rawLevel s i → ticks = settleTicks line.config.settle →
        (line.chatter = .quiet → line.config.limit = 0 → t.front.lines[i] =
          (if raw = line.filtered then { line with raw, filter := .stable }
           else
            match line.filter with
            | .stable =>
              if ticks = 0 then { line with raw, filtered := raw, filter := .stable }
              else { line with raw, filter := .settling s.time.now ticks }
            | .settling captured left =>
              if 1 < left then { line with raw, filter := .settling captured (left - 1) }
              else { line with raw, filtered := raw, filter := .stable }))
        ∧ ((∀ left, line.chatter ≠ .suppressed left) →
          (raw = line.filtered →
            t.front.lines[i] = { line with raw, filter := .stable, chatter := windowAfter line.chatter })
          ∧ (raw ≠ line.filtered → line.filter = .stable → ticks ≠ 0 → t.front.lines[i] =
              { line with raw, filter := .settling s.time.now ticks, chatter := windowAfter line.chatter })
          ∧ ∀ captured left, raw ≠ line.filtered → line.filter = .settling captured left → 1 < left →
              t.front.lines[i] =
                { line with raw, filter := .settling captured (left - 1), chatter := windowAfter line.chatter })
        ∧ ∀ left, line.chatter = .suppressed left →
          (raw ≠ line.raw → t.front.lines[i] = { line with raw, chatter := .suppressed line.config.recovery })
          ∧ (raw = line.raw → 1 < left → t.front.lines[i] = { line with chatter := .suppressed (left - 1) })
          ∧ (raw = line.raw → left ≤ 1 →
              t.front.lines[i] = { line with filtered := raw, filter := .stable, chatter := .quiet }))
      ∧ t.front.sampleDue = false ∧ t.front.pins = s.front.pins ∧ t.front.firstSample = false
      ∧ t = { s with
          front := t.front, watches := t.watches, outputs := t.outputs, journal := t.journal, choices := t.choices }
      ∧ ((∀ j, Uneventful s j) → t = { s with front := t.front })
      ∧ (AllDisabled s →
          t = { s with front := t.front, journal := arrived s ((List.finRange 32).flatMap (lineRecords s)) })

/-- What one sample does to a line with a chatter limit on which it makes an edge, at the end of a settle or at once with
settle index 0: in QUIET the edge passes and starts a count; in COUNTING it passes up to the limit, and beyond it the edge
is withheld and the line is SUPPRESSED with its filtered level frozen; in COUNTING at the end of its window it starts a new
count (R27, R32 to R34). The sample is taken in the state `s` after the requests that come before it, if there are any (log
entry 7). -/
def Obligations.SampleSupervisesEdge : Prop :=
  ∀ a : State, Sampling a →
    ∃ s t, SampledIn a s t ∧ ∀ i : Fin 32, Sampling s → s.front.lines[i].config.limit ≠ 0 → EdgeNow s i →
      (∀ line, line = s.front.lines[i] →
        (line.chatter = .quiet →
          t.front.lines[i] =
            { line with raw := rawLevel s i, filtered := rawLevel s i, filter := .stable
                        chatter := .counting 1 line.config.window })
        ∧ (∀ count left, line.chatter = .counting count left → left ≤ 1 →
          t.front.lines[i] =
            { line with raw := rawLevel s i, filtered := rawLevel s i, filter := .stable
                        chatter := .counting 1 line.config.window })
        ∧ (∀ count left, line.chatter = .counting count left → 1 < left → count + 1 ≤ line.config.limit →
          t.front.lines[i] =
            { line with raw := rawLevel s i, filtered := rawLevel s i, filter := .stable
                        chatter := .counting (count + 1) (left - 1) })
        ∧ ∀ count left, line.chatter = .counting count left → 1 < left → line.config.limit < count + 1 →
          t.front.lines[i] =
            { line with raw := rawLevel s i, filter := .stable, chatter := .suppressed line.config.recovery })
      ∧ t = { s with
          front := t.front, watches := t.watches, outputs := t.outputs, journal := t.journal, choices := t.choices }

/-- An edge at the end of a settle, commanded by SETTLE_END or by SAMPLE, or at once with settle index 0, commanded by SAMPLE,
with every other line idle and every watch DISABLED: where it passes chatter supervision (no limit; QUIET, which starts a
count; COUNTING within the limit, or at the end of its window), the line takes its new level, and its EDGE record, with the
captured stamp or that of the sample, arrives as its recording class says; beyond the chatter limit it is withheld with a
CHATTER ON record of class ROUTINE (R25, R28 to R34). SETTLE_END is the whole sample where a settle of the line ends with an
edge, whatever the other lines and the watches: that is the model's inference (log entry 10). -/
def Obligations.SettleEndRecordsEdge : Prop :=
  (∀ (s : State) (i : Fin 32) (captured : Stamp) (left : Nat), Sampling s →
    s.front.lines[i].filter = .settling captured left → left ≤ 1 → rawLevel s i ≠ s.front.lines[i].filtered →
    (∀ n, s.front.lines[i].chatter ≠ .suppressed n) → exec (.settleEnd i) s = exec .sample s)
  ∧ ∀ (c : Instr) (s : State) (i : Fin 32) (captured : Stamp), TakesEdge s i c → Sampling s → AllDisabled s →
    (∀ j, j ≠ i → Idle s j) → EdgeStamp s i captured → rawLevel s i ≠ s.front.lines[i].filtered →
    (∀ chatter, passedTo s.front.lines[i] = some chatter →
      exec c s = .next
        { s with
          front := { s.front with
            lines := s.front.lines.set i.val
              { s.front.lines[i] with raw := rawLevel s i, filtered := rawLevel s i, filter := .stable, chatter } i.isLt
            sampleDue := false }
          journal := arrived s (edgeRecords s.front.lines[i].config.recording i (rawLevel s i) captured false) })
    ∧ ∀ count left, s.front.lines[i].chatter = .counting count left → 1 < left →
      s.front.lines[i].config.limit ≠ 0 → s.front.lines[i].config.limit < count + 1 →
      exec c s = .next
        { s with
          front := { s.front with
            lines := s.front.lines.set i.val
              { s.front.lines[i] with
                raw := rawLevel s i, filter := .stable
                chatter := .suppressed s.front.lines[i].config.recovery } i.isLt
            sampleDue := false }
          journal := arrived s [{ cls := .routine, stamp := captured, body := .chatterOn i (count + 1) }] }

/-- CHATTER_WINDOW_EXPIRY and RECOVERY_EXPIRY are the whole sample where that happens to the line, whatever the other lines and
the watches: that is the model's inference (log entry 10). With every other line idle and every watch DISABLED, and so for
SAMPLE: at the end of its window a STABLE line in COUNTING is QUIET; at the end of its recovery time a SUPPRESSED line is
QUIET, takes the raw level, and sends a RECOVERED EDGE record where that changes its filtered level and then a CHATTER OFF
record (R25, R31, R33, R35, R36). That no record of another event of the same moment enters between the two is the model's
choice (log entry 16). -/
def Obligations.WindowAndRecoveryExpire : Prop :=
  (∀ (s : State) (i : Fin 32), Sampling s →
    (∀ count left, s.front.lines[i].chatter = .counting count left → left ≤ 1 →
      exec (.chatterWindowExpiry i) s = exec .sample s)
    ∧ ∀ left, s.front.lines[i].chatter = .suppressed left → left ≤ 1 → rawLevel s i = s.front.lines[i].raw →
      exec (.recoveryExpiry i) s = exec .sample s)
  ∧ ∀ (s : State) (i : Fin 32), Sampling s → AllDisabled s → (∀ j, j ≠ i → Idle s j) →
    (∀ count left, s.front.lines[i].chatter = .counting count left → left ≤ 1 → s.front.lines[i].filter = .stable →
      rawLevel s i = s.front.lines[i].filtered →
      exec (.chatterWindowExpiry i) s = .next
        { s with front := { s.front with
            lines := s.front.lines.set i.val
              { s.front.lines[i] with raw := rawLevel s i, chatter := .quiet } i.isLt
            sampleDue := false } })
    ∧ ∀ left, s.front.lines[i].chatter = .suppressed left → left ≤ 1 → rawLevel s i = s.front.lines[i].raw →
      exec (.recoveryExpiry i) s = .next
        { s with
          front := { s.front with
            lines := s.front.lines.set i.val
              { s.front.lines[i] with filtered := rawLevel s i, filter := .stable, chatter := .quiet } i.isLt
            sampleDue := false }
          journal := arrived s
            ((if rawLevel s i = s.front.lines[i].filtered then []
              else edgeRecords s.front.lines[i].config.recording i (rawLevel s i) s.time.now true)
              ++ [{ cls := .routine, stamp := s.time.now, body := .chatterOff i }]) }

/-- What a delivered edge, taken by SETTLE_END or by SAMPLE (log entry 10), does to a watch whose line set holds its line.
With no prerequisite, where no request comes before the sample (log entry 7): ARMED with its
condition true and a qualify time, it enters QUALIFYING with the edge's captured time as its onset; QUALIFYING with its
condition false, it returns to ARMED; TRIPPED with its condition false, it returns to ARMED under AUTO and goes to HELD under
MANUAL; DISABLED and HELD it stays (R30, R53, R54, R66, R68, R73, R74).
With every other watch DISABLED: a qualify time of 0 trips it at the delivery, with its claim and its TRIP record; a restore
sends the RESTORE record it asks for, with the edge's stamp and the levels after the delivery, and under AUTO lets a DRIVE
output go. The record and the EDGE record enter in either order (R7, R66, R70, R71, R73 to R75), without a break, which is the
model's choice (log entry 16).
With a prerequisite that is TRIPPED or HELD and has no edge, and the others DISABLED: the onset is the later of the edge's
captured time and the prerequisite's trip time (R54).
With a prerequisite that the same edge restores under AUTO, and the others DISABLED: ARMED or QUALIFYING, the watch is ARMED
after, and neither trips nor claims, whatever its pattern and its qualify time; the records are the edge's and the
prerequisite's (R56, R69, R73).
With a qualify time of 0 and a prerequisite that has no edge: with no request waiting it trips at the delivery (R66). A
waiting DISABLE_WATCH of it, or REARM_WATCH of a HELD one, is dispatched before the delivery, which then finds the condition
false: the watch is as it was, with no record but the edge's, and no output of another is touched; of a REARM_WATCH this is
said where the prerequisite's own condition is false (R56, R178). A REARM_WATCH of a TRIPPED one that waits alone is refused,
and the watch trips (R66, R82). That the departure comes first is the model's choice of an open order (log entry 7). -/
def Obligations.EdgeReachesWatch : Prop :=
  ∀ (c : Instr) (s : State) (i : Fin 32) (captured : Stamp) (w : Fin 16) (d : WatchDef), LoneEdge s i captured →
    TakesEdge s i c → s.watches[w].definition = some d → d.lineSet.getLsbD i.val = true →
    (d.prerequisite = none → s.ChainLaw → SampleAlone s →
      ∃ t, exec c s = .next t
        ∧ (s.watches[w].state = .armed → d.qualify ≠ 0 → PatternHolds (settled s i) d →
            (d.sense = .matching ∨ LeavesReference s i d) →
            t.watches[w] = { s.watches[w] with state := .qualifying captured.time ⟨d.qualify, false⟩ })
        ∧ (s.watches[w].state = .armed → ¬ PatternHolds (settled s i) d → t.watches[w] = s.watches[w])
        ∧ (∀ onset timer, s.watches[w].state = .qualifying onset timer → ¬ PatternHolds (settled s i) d →
            t.watches[w] = { s.watches[w] with state := .armed })
        ∧ (∀ onset timer, s.watches[w].state = .qualifying onset timer → PatternHolds (settled s i) d →
            t.watches[w] = s.watches[w])
        ∧ (∀ onset, s.watches[w].state = .tripped onset → ¬ PatternHolds (settled s i) d →
            t.watches[w] = { s.watches[w] with state := if d.rearm = .auto then .armed else .held onset })
        ∧ (∀ onset, s.watches[w].state = .tripped onset → PatternHolds (settled s i) d → t.watches[w] = s.watches[w])
        ∧ (∀ onset, s.watches[w].state = .held onset → t.watches[w] = s.watches[w])
        ∧ (s.watches[w].state = .disabled → t.watches[w] = s.watches[w]))
    ∧ (d.prerequisite = none → (∀ v, v ≠ w → s.watches[v].state = .disabled) →
      ∀ edge, edge = edgeRecords s.front.lines[i].config.recording i (rawLevel s i) captured false →
      (s.watches[w].state = .armed → d.qualify = 0 → PatternHolds (settled s i) d →
        (d.sense = .matching ∨ LeavesReference s i d) →
        ∃ t, exec c s = .next t
          ∧ t.watches[w] = trippedWatch w captured.time s
          ∧ t.outputs = (actedOn w d.action s.outputs).2
          ∧ EitherOrder s edge [tripRecord w d captured.time s.outputs (settled s i)] t.journal)
      ∧ ∀ onset, s.watches[w].state = .tripped onset → ¬ PatternHolds (settled s i) d →
        (d.sense = .differing ∨ LeavesReference s i d) →
        ∃ t, exec c s = .next t
          ∧ t.watches[w] = { s.watches[w] with state := if d.rearm = .auto then .armed else .held onset }
          ∧ (∀ o : Fin 8,
              (d.rearm = .auto → drivenBy w s.outputs[o].owner →
                t.outputs[o] = { s.outputs[o] with owner := .host none })
              ∧ (d.rearm = .manual ∨ ¬ drivenBy w s.outputs[o].owner → t.outputs[o] = s.outputs[o]))
          ∧ EitherOrder s edge (restoreRecords w d captured (settled s i).front.filteredMap) t.journal)
    ∧ (∀ (p : Fin 16) (onset : TimeValue), d.prerequisite = some p → p ≠ w →
      (s.watches[p].state = .tripped onset ∨ s.watches[p].state = .held onset) →
      (∀ e, s.watches[p].definition = some e → e.lineSet.getLsbD i.val = false) →
      (∀ v, v ≠ w → v ≠ p → s.watches[v].state = .disabled) →
      s.watches[w].state = .armed → PatternHolds (settled s i) d → (d.sense = .matching ∨ LeavesReference s i d) →
      ∀ began edge,
        began = (if ticksOf captured.time < ticksOf s.watches[p].tripTime then s.watches[p].tripTime else captured.time) →
        edge = edgeRecords s.front.lines[i].config.recording i (rawLevel s i) captured false →
        (d.qualify ≠ 0 →
          ∃ t, exec c s = .next t
            ∧ t.watches[w] = { s.watches[w] with state := .qualifying began ⟨d.qualify, false⟩ })
        ∧ (d.qualify = 0 → NoDependents s w → s.dispatcher.requests = [] →
          ∃ t, exec c s = .next t
            ∧ t.watches[w] = trippedWatch w began s ∧ t.outputs = (actedOn w d.action s.outputs).2
            ∧ EitherOrder s edge [tripRecord w d began s.outputs (settled s i)] t.journal)
        ∧ ∀ f rest, d.qualify = 0 → f.payload = [BitVec.ofNat 8 p.val] →
          (Waiting .disableWatch f rest s →
            ∃ u, exec .disableWatch s = .next (replied f rest 0x00 [stateOctet s.watches[p].state] none u)
              ∧ exec c s = .next
                  (replied f rest 0x00 [stateOctet s.watches[p].state] none { settled u i with journal := arrived u edge })
              ∧ u.watches[w] = s.watches[w] ∧ u.journal = s.journal ∧ u.front = s.front
              ∧ ∀ o : Fin 8, ¬ ownedBy p s.outputs[o].owner → u.outputs[o] = s.outputs[o])
          ∧ (Waiting .rearmWatch f rest s → s.watches[p].state = .held onset →
            (∀ e, s.watches[p].definition = some e → e.prerequisite ≠ some p ∧ ¬ Holds s e) →
            ∃ u, exec .rearmWatch s = .next (replied f rest 0x00 [1] none u)
              ∧ exec c s = .next (replied f rest 0x00 [1] none { settled u i with journal := arrived u edge })
              ∧ u.watches[w] = s.watches[w] ∧ u.journal = s.journal ∧ u.front = s.front
              ∧ ∀ o : Fin 8, ¬ ownedBy p s.outputs[o].owner → u.outputs[o] = s.outputs[o])
          ∧ (Waiting .rearmWatch f [] s → s.watches[p].state = .tripped onset → NoDependents s w →
            ∃ t, exec c s = .next t
              ∧ t.watches[w] = trippedWatch w began s ∧ t.outputs = (actedOn w d.action s.outputs).2
              ∧ EitherOrder s edge [tripRecord w d began s.outputs (settled s i)] t.journal))
    ∧ ∀ (p : Fin 16) (e : WatchDef) (onset : TimeValue), d.prerequisite = some p → p ≠ w →
      s.watches[p].definition = some e → s.watches[p].state = .tripped onset → e.rearm = .auto →
      e.lineSet.getLsbD i.val = true → ¬ PatternHolds (settled s i) e → (e.sense = .differing ∨ LeavesReference s i e) →
      (∀ v, v ≠ w → v ≠ p → s.watches[v].state = .disabled) →
      (s.watches[w].state = .armed ∨ ∃ began timer, s.watches[w].state = .qualifying began timer) →
      ∃ t, exec c s = .next t
        ∧ t.watches[w] = { s.watches[w] with state := .armed }
        ∧ t.watches[p] = { s.watches[p] with state := .armed }
        ∧ (∀ o : Fin 8,
            (drivenBy p s.outputs[o].owner → t.outputs[o] = { s.outputs[o] with owner := .host none })
            ∧ (¬ drivenBy p s.outputs[o].owner → t.outputs[o] = s.outputs[o]))
        ∧ EitherOrder s (edgeRecords s.front.lines[i].config.recording i (rawLevel s i) captured false)
            (restoreRecords p e captured (settled s i).front.filteredMap) t.journal

/-- CONFIGURE_LINES where it ends no suppression: each line of the range takes the new configuration, in ticks, a changed
limit returning it from COUNTING to QUIET; every other line, and everything else, is as it was (R37, R39). -/
def Obligations.ConfigureLinesWritesRange : Prop :=
  ∀ (f : Frame) (rest : List Frame) (r : ConfigureLines) (s : State), Waiting .configureLines f rest s →
    f.payload = encodeConfigureLines r → r.wellFormed = true →
    (r.limit = 0 → ∀ (i : Fin 32) (left : Nat), r.first ≤ i.val → i.val < r.first + r.count →
      s.front.lines[i].chatter = .suppressed left → s.front.lines[i].config.limit = 0) →
    exec .configureLines s = .next (replied f rest 0x00 [] none
      { s with front := { s.front with
          lines := Vector.ofFn fun i =>
            if r.first ≤ i.val ∧ i.val < r.first + r.count then
              { s.front.lines[i] with
                config :=
                  { sense := r.sense, settle := r.settle, recording := r.recording, limit := r.limit
                    window := r.window * 1024, recovery := r.recovery * 1024 }
                chatter :=
                  match s.front.lines[i].chatter with
                  | .counting count left =>
                    if r.limit = s.front.lines[i].config.limit then .counting count left else .quiet
                  | chatter => chatter }
            else s.front.lines[i] } })

/-- CONFIGURE_LINES that sets the limit of one SUPPRESSED line to 0, with every watch DISABLED: suppression ends at once,
with a RECOVERED EDGE record under the new recording class where the level changes, and then a CHATTER OFF record (R31, R37).
That no record of another event of the same moment enters between the two is the model's choice (log entry 16).
A CONFIGURE_LINES whose RECOVERED edge on line `j` makes the pattern of a dependent true, while the departure of its
prerequisite, TRIPPED under AUTO rearm, comes together with that delivery; with the other watches DISABLED. Where a second
RECOVERED edge, on line `i`, restores the prerequisite (R30, R37), with the sample of the tick taken or a qualify time: the
dependent is ARMED as it was, with its trip count, it claims no output, and no TRIP record is entered (R56, R69, R73). Where the
sample of the same tick is still to come: with a qualify time the dependent begins to qualify, with the later of the edge's time
and the prerequisite's trip time as its onset (R54), and a sample whose edge on line `i` restores the prerequisite returns it to
ARMED (R69); with a qualify time of 0 that sample is taken before the CONFIGURE_LINES, and the dependent is ARMED as it was, with
no TRIP record (R56). That the departure is taken first there is the model's choice of an order that the manual leaves open (log
entry 7). -/
def Obligations.ConfigureLinesEndsSuppression : Prop :=
  (∀ (f : Frame) (rest : List Frame) (r : ConfigureLines) (left : Nat) (i : Fin 32) (s : State),
      Waiting .configureLines f rest s → f.payload = encodeConfigureLines r → r.wellFormed = true → AllDisabled s →
      r.first = i.val → r.count = 1 → r.limit = 0 → s.front.lines[i].config.limit ≠ 0 →
      s.front.lines[i].chatter = .suppressed left →
      exec .configureLines s = .next (replied f rest 0x00 [] none
        { s with
          front := { s.front with
            lines := s.front.lines.set i.val
              { s.front.lines[i] with
                config :=
                  { sense := r.sense, settle := r.settle, recording := r.recording, limit := 0
                    window := r.window * 1024, recovery := r.recovery * 1024 }
                filtered := s.front.lines[i].raw, filter := .stable, chatter := .quiet } i.isLt }
          journal := arrived s
            ((if s.front.lines[i].raw = s.front.lines[i].filtered then []
              else edgeRecords r.recording i s.front.lines[i].raw s.time.now true)
              ++ [{ cls := .routine, stamp := s.time.now, body := .chatterOff i }]) }))
  ∧ ∀ (f : Frame) (rest : List Frame) (r : ConfigureLines) (w p : Fin 16) (d e : WatchDef) (onset : TimeValue) (i j : Fin 32)
      (s : State), Waiting .configureLines f rest s → f.payload = encodeConfigureLines r → r.wellFormed = true →
      s.watches[w].definition = some d → s.watches[w].state = .armed → d.prerequisite = some p → p ≠ w →
      s.watches[p].definition = some e → s.watches[p].state = .tripped onset → e.rearm = .auto →
      (∀ v, v ≠ w → v ≠ p → s.watches[v].state = .disabled) →
      d.lineSet.getLsbD j.val = true → d.lineSet.getLsbD i.val = false →
      e.lineSet.getLsbD i.val = true → e.lineSet.getLsbD j.val = false →
      PatternHolds (recoveredLine s j) d → Recovers r s j →
      (s.front.sampleDue = false ∨ d.qualify ≠ 0 → Recovers r s i →
        (∀ k, k ≠ i → k ≠ j → ∀ left, s.front.lines[k].chatter ≠ .suppressed left) →
        ¬ PatternHolds (recoveredLine s i) e →
        ∃ t, exec .configureLines s = .next (replied f rest 0x00 [] none t)
          ∧ t.watches[w] = s.watches[w] ∧ t.watches[p] = { s.watches[p] with state := .armed }
          ∧ (∀ o : Fin 8,
              (drivenBy p s.outputs[o].owner → t.outputs[o] = { s.outputs[o] with owner := .host none })
              ∧ (¬ drivenBy p s.outputs[o].owner → t.outputs[o] = s.outputs[o]))
          ∧ NoNewTrip s t)
      ∧ (d.qualify ≠ 0 → Sampling s → (∀ k, k ≠ j → ∀ left, s.front.lines[k].chatter ≠ .suppressed left) →
        (d.sense = .matching ∨ s.front.lines[j].raw ≠ if d.reference.getLsbD j.val then .high else .low) →
        ∀ began, began =
            (if ticksOf s.time.time < ticksOf s.watches[p].tripTime then s.watches[p].tripTime else s.time.time) →
        ∃ t, exec .configureLines s = .next t
          ∧ t.watches[w] = { s.watches[w] with state := .qualifying began ⟨d.qualify, false⟩ }
          ∧ t.watches[p] = s.watches[p] ∧ t.outputs = s.outputs
          ∧ t.journal = arrived s
              (edgeRecords r.recording j s.front.lines[j].raw s.time.now true
                ++ [{ cls := .routine, stamp := s.time.now, body := .chatterOff j }])
          ∧ ∀ captured, LoneEdge t i captured → ¬ PatternHolds (settled t i) e →
              ∃ u, exec .sample t = .next u
                ∧ u.watches[w] = s.watches[w] ∧ u.watches[p] = { s.watches[p] with state := .armed })
      ∧ (d.qualify = 0 → Sampling s → (∀ k, k ≠ i → k ≠ j → Idle s k) →
        (∃ left, s.front.lines[j].chatter = .suppressed left ∧ 1 < left) → rawLevel s j = s.front.lines[j].raw →
        EdgeNow s i → s.front.lines[i].chatter = .quiet → s.front.lines[i].config.limit = 0 →
        ¬ PatternHolds (settled s i) e →
        ∃ t, exec .configureLines s = .next (replied f rest 0x00 [] none t)
          ∧ t.front.sampleDue = false
          ∧ t.watches[w] = s.watches[w] ∧ t.watches[p] = { s.watches[p] with state := .armed }
          ∧ (∀ o : Fin 8,
              (drivenBy p s.outputs[o].owner → t.outputs[o] = { s.outputs[o] with owner := .host none })
              ∧ (¬ drivenBy p s.outputs[o].owner → t.outputs[o] = s.outputs[o]))
          ∧ NoNewTrip s t)

/-- The field check of CONFIGURE_LINES (R38): on eight octets it answers OK where every field is in its range, and
otherwise BAD_FIELD with nothing else changed. -/
def Obligations.ConfigureLinesFieldCheck : Prop :=
  ∀ (f : Frame) (rest : List Frame) (first count sense settle recording limit window recovery : Octet) (s : State),
    Waiting .configureLines f rest s →
    f.payload = [first, count, sense, settle, recording, limit, window, recovery] →
    (first.toNat ≤ 31 ∧ 1 ≤ count.toNat ∧ count.toNat ≤ 32 ∧ first.toNat + count.toNat ≤ 32 ∧ sense.toNat ≤ 1
        ∧ settle.toNat ≤ 7 ∧ recording.toNat ≤ 2 ∧ (limit.toNat = 0 ∨ 2 ≤ limit.toNat ∧ limit.toNat ≤ 30)
        ∧ 1 ≤ window.toNat ∧ window.toNat ≤ 60 ∧ 1 ≤ recovery.toNat ∧ recovery.toNat ≤ 60 →
      ∃ t, exec .configureLines s = .next t
        ∧ t.dispatcher.replies = s.dispatcher.replies ++ [{ frame := replyTo f 0x00 [], effect := none }])
    ∧ (¬ (first.toNat ≤ 31 ∧ 1 ≤ count.toNat ∧ count.toNat ≤ 32 ∧ first.toNat + count.toNat ≤ 32 ∧ sense.toNat ≤ 1
        ∧ settle.toNat ≤ 7 ∧ recording.toNat ≤ 2 ∧ (limit.toNat = 0 ∨ 2 ≤ limit.toNat ∧ limit.toNat ≤ 30)
        ∧ 1 ≤ window.toNat ∧ window.toNat ≤ 60 ∧ 1 ≤ recovery.toNat ∧ recovery.toNat ≤ 60) →
      exec .configureLines s = .next (replied f rest 0x03 [] none s))

/-! ## Watches -/

/-- SET_WATCH (R59 to R61): IN_USE unless the watch is DISABLED, which comes before BAD_CHAIN where a chain of the table
with the definition in place closes a cycle or has more than 4 watches; otherwise the definition is replaced whole, or made
absent. What the payload holds in the reference bits outside the line set, and in the octets that an action or an absent
prerequisite leaves unused, is not looked at and not kept (R47, R51, R204). Nothing else changes. -/
def Obligations.SetWatchWritesDefinition : Prop :=
  ∀ (f : Frame) (rest : List Frame) (r : SetWatch) (s : State), Waiting .setWatch f rest s →
    CarriesSetWatch r f.payload → r.wellFormed = true →
    (s.watches[r.watch].state ≠ .disabled → exec .setWatch s = .next (replied f rest 0x11 [] none s))
    ∧ (s.watches[r.watch].state = .disabled → r.definition = none →
        exec .setWatch s = .next (replied f rest 0x00 [] none
          { s with watches :=
              s.watches.set r.watch.val { s.watches[r.watch] with definition := none } r.watch.isLt }))
    ∧ ∀ d, s.watches[r.watch].state = .disabled → r.definition = some d →
        (¬ (∀ w, chainEnds (fun v => if v = r.watch then d.prerequisite else s.prerequisite v) 4 w = true) →
          exec .setWatch s = .next (replied f rest 0x14 [] none s))
        ∧ ((∀ w, chainEnds (fun v => if v = r.watch then d.prerequisite else s.prerequisite v) 4 w = true) →
          exec .setWatch s = .next (replied f rest 0x00 [] none
            { s with watches :=
                s.watches.set r.watch.val { s.watches[r.watch] with definition := some d } r.watch.isLt }))

/-- ENABLE_WATCH (R80): refused for a watch with no definition, or one that is not DISABLED; otherwise the trip count is
cleared and the watch evaluated at the taking: ARMED where its condition is false; QUALIFYING with its onset now where it is
true; tripped at once with a qualify time of 0. -/
def Obligations.EnableWatchEvaluates : Prop :=
  ∀ (f : Frame) (rest : List Frame) (w : Fin 16) (s : State), Waiting .enableWatch f rest s →
    f.payload = [BitVec.ofNat 8 w.val] →
    (s.watches[w].definition = none → exec .enableWatch s = .next (replied f rest 0x10 [] none s))
    ∧ (s.watches[w].definition ≠ none → s.watches[w].state ≠ .disabled →
        exec .enableWatch s = .next (replied f rest 0x11 [] none s))
    ∧ ∀ d, s.watches[w].definition = some d → s.watches[w].state = .disabled →
        (¬ Holds s d →
          exec .enableWatch s = .next (replied f rest 0x00 [1] none (enabledAs s w .armed)))
        ∧ (Holds s d → d.qualify ≠ 0 →
          exec .enableWatch s = .next (replied f rest 0x00 [2] none
            (enabledAs s w (.qualifying s.time.time ⟨d.qualify, false⟩))))
        ∧ (Holds s d → d.qualify = 0 → NoDependents s w →
          exec .enableWatch s = .next (replied f rest 0x00 [3] none
            (afterTrip w d s.time.time (enabledAs s w .disabled))))

/-- DISABLE_WATCH (R81, R69): DISABLED from whatever state, with the output it owns released and no record; where it left
TRIPPED or HELD, each dependent that was QUALIFYING is back in ARMED. The reply carries the state before. Only free choices
of order may be used up beside this. -/
def Obligations.DisableWatchReleases : Prop :=
  ∀ (f : Frame) (rest : List Frame) (w : Fin 16) (s : State), Waiting .disableWatch f rest s →
    f.payload = [BitVec.ofNat 8 w.val] →
    ∃ t, exec .disableWatch s = .next (replied f rest 0x00 [stateOctet s.watches[w].state] none t)
      ∧ t.watches[w] = { s.watches[w] with state := .disabled }
      ∧ (∀ v : Fin 16, v ≠ w →
          (s.watches[w].state.isTripped = true → QualifyingUnder s w v →
            t.watches[v] = { s.watches[v] with state := .armed })
          ∧ (s.watches[w].state.isTripped = false ∨ ¬ QualifyingUnder s w v → t.watches[v] = s.watches[v]))
      ∧ (∀ o : Fin 8, (ownedBy w s.outputs[o].owner → t.outputs[o] = { s.outputs[o] with owner := .host none })
          ∧ (¬ ownedBy w s.outputs[o].owner → t.outputs[o] = s.outputs[o]))
      ∧ t = { s with watches := t.watches, outputs := t.outputs, choices := t.choices }

/-- REARM_WATCH (R82): STILL_ACTIVE in TRIPPED; NOT_TRIPPED in DISABLED, ARMED and QUALIFYING; in HELD, with no watch
depending on it, the watch is ARMED, releases an output it owns under a DRIVE action, and is evaluated at the taking as by
an enable, its trip count kept. With dependents, where its condition is false, each of them that was QUALIFYING is back in
ARMED, no other watch changes, and no record is sent (R69); only free choices of order may be used up beside this (log entry 1). -/
def Obligations.RearmWatchEvaluates : Prop :=
  ∀ (f : Frame) (rest : List Frame) (w : Fin 16) (s : State), Waiting .rearmWatch f rest s →
    f.payload = [BitVec.ofNat 8 w.val] →
    (∀ onset, s.watches[w].state = .tripped onset →
        exec .rearmWatch s = .next (replied f rest 0x12 [] none s))
    ∧ (s.watches[w].state.isTripped = false → exec .rearmWatch s = .next (replied f rest 0x13 [] none s))
    ∧ (∀ (onset : TimeValue) (d : WatchDef) (outputs : Vector Output 8),
        s.watches[w].state = .held onset → s.watches[w].definition = some d → NoDependents s w →
        (∀ o : Fin 8, (drivenBy w s.outputs[o].owner → outputs[o] = { s.outputs[o] with owner := .host none })
          ∧ (¬ drivenBy w s.outputs[o].owner → outputs[o] = s.outputs[o])) →
        (¬ Holds s d →
          exec .rearmWatch s = .next (replied f rest 0x00 [1] none
            ({ withState s w .armed with outputs := outputs } : State)))
        ∧ (Holds s d → d.qualify ≠ 0 →
          exec .rearmWatch s = .next (replied f rest 0x00 [2] none
            ({ withState s w (.qualifying s.time.time ⟨d.qualify, false⟩) with outputs := outputs } : State)))
        ∧ (Holds s d → d.qualify = 0 →
          exec .rearmWatch s = .next (replied f rest 0x00 [3] none
            (afterTrip w d s.time.time { s with outputs := outputs }))))
    ∧ ∀ (onset : TimeValue) (d : WatchDef), s.watches[w].state = .held onset → s.watches[w].definition = some d →
        ¬ Holds s d → d.prerequisite ≠ some w →
        ∃ t, exec .rearmWatch s = .next (replied f rest 0x00 [1] none t)
          ∧ t.watches[w] = { s.watches[w] with state := .armed }
          ∧ (∀ v : Fin 16, v ≠ w →
            (QualifyingUnder s w v → t.watches[v] = { s.watches[v] with state := .armed })
            ∧ (¬ QualifyingUnder s w v → t.watches[v] = s.watches[v]))
          ∧ (∀ o : Fin 8, (drivenBy w s.outputs[o].owner → t.outputs[o] = { s.outputs[o] with owner := .host none })
            ∧ (¬ drivenBy w s.outputs[o].owner → t.outputs[o] = s.outputs[o]))
          ∧ t = { s with watches := t.watches, outputs := t.outputs, choices := t.choices }

/-- QUALIFY_EXPIRY of a watch whose timer has reached 0 and on which no other depends: it trips with the onset it holds, claims
its output, and its TRIP record arrives with the outcome, the new count and, where asked for, the snapshot (R67, R70, R71, R90).
With its timer still running, and in every state but QUALIFYING, nothing changes (R67; log entry 4). -/
def Obligations.QualifyExpiryTrips : Prop :=
  ∀ (w : Fin 16) (s : State),
    (∀ (onset : TimeValue) (timer : Countdown) (d : WatchDef),
      s.watches[w].state = .qualifying onset timer → s.watches[w].definition = some d →
      (timer.due = true → NoDependents s w → exec (.qualifyExpiry w) s = .next (afterTrip w d onset s))
      ∧ (timer.due = false → exec (.qualifyExpiry w) s = .next s))
    ∧ ((∀ onset timer, s.watches[w].state ≠ .qualifying onset timer) → exec (.qualifyExpiry w) s = .next s)

/-- A trip reaches the watches that depend on it, with the trip time as their onset: a dependent ARMED with its pattern true is
QUALIFYING with a qualify time, and trips at the same event with a qualify time of 0; one whose pattern is false stays ARMED
(R55, R66, R70). Where the dependent with a qualify time of 0 is the only one, and none depends on it: it claims its output
after the claim of its prerequisite, and each sends its own TRIP record, in either order (R7, R70, R71, R90), without a break,
which is the model's choice (log entry 16); beside the two watches, the outputs and the journal only free choices of order are
used up (log entry 1). -/
def Obligations.TripReachesDependents : Prop :=
  ∀ (w v : Fin 16) (onset : TimeValue) (timer : Countdown) (c d : WatchDef) (s : State),
    s.watches[w].definition = some c → s.watches[w].state = .qualifying onset timer → timer.due = true →
    s.watches[v].definition = some d → d.prerequisite = some w → s.watches[v].state = .armed →
    (s.ChainLaw →
      ∃ t, exec (.qualifyExpiry w) s = .next t
        ∧ t.watches[w] = trippedWatch w onset s
        ∧ (PatternHolds s d → d.qualify ≠ 0 →
            t.watches[v] = { s.watches[v] with state := .qualifying s.time.time ⟨d.qualify, false⟩ })
        ∧ (PatternHolds s d → d.qualify = 0 → t.watches[v] = trippedWatch v s.time.time s)
        ∧ (¬ PatternHolds s d → t.watches[v] = s.watches[v]))
    ∧ (PatternHolds s d → d.qualify = 0 →
        (∀ (x : Fin 16) (e : WatchDef), s.watches[x].definition = some e → e.prerequisite = some w → x = v) →
        NoDependents s v →
        ∃ t, exec (.qualifyExpiry w) s = .next t
          ∧ t = { s with
              watches := (s.watches.set w.val (trippedWatch w onset s) w.isLt).set v.val
                (trippedWatch v s.time.time s) v.isLt
              outputs := (actedOn v d.action (actedOn w c.action s.outputs).2).2
              journal := t.journal, choices := t.choices }
          ∧ EitherOrder s [tripRecord w c onset s.outputs s]
              [tripRecord v d s.time.time (actedOn w c.action s.outputs).2 s] t.journal)

/-- The ends of pulses: WATCH_PULSE_END returns to HOST each output on which a pulse of the watch has reached 0, and
HOST_PULSE_END ends a host pulse that has; host levels and everything else stay (R92 to R94). -/
def Obligations.PulsesEnd : Prop :=
  (∀ (w : Fin 16) (s : State), ∃ t, exec (.watchPulseEnd w) s = .next t ∧ t = { s with outputs := t.outputs }
    ∧ ∀ o : Fin 8,
      (∀ p, s.outputs[o].owner = .pulse w p → p.timer.due = true →
        t.outputs[o] = { s.outputs[o] with owner := .host none })
      ∧ ((∀ p, s.outputs[o].owner = .pulse w p → p.timer.due = false) → t.outputs[o] = s.outputs[o]))
  ∧ ∀ (o : Fin 8) (p : Pulse) (s : State), s.outputs[o].owner = .host (some p) → p.timer.due = true →
      exec (.hostPulseEnd o) s = .next
        { s with outputs := s.outputs.set o.val { s.outputs[o] with owner := .host none } o.isLt }

/-! ## Outputs -/

/-- DRIVE_OUTPUT, by the output's owner (R93, R100): OWNED with the watch's index; FUNCTION_ASSIGNED; under HOST a level
sets the host level and cancels a host pulse, and PULSE starts one and keeps the host level. The reply carries the driven
state after. The pulse level and duration of another form than PULSE are not looked at (R183). -/
def Obligations.DriveOutputByOwner : Prop :=
  ∀ (f : Frame) (rest : List Frame) (r : DriveOutput) (s : State), Waiting .driveOutput f rest s →
    CarriesDriveOutput r f.payload → r.wellFormed = true →
    (∀ w level, s.outputs[r.output].owner = .drive w level →
        exec .driveOutput s = .next (replied f rest 0x20 [BitVec.ofNat 8 w.val] none s))
    ∧ (∀ w p, s.outputs[r.output].owner = .pulse w p →
        exec .driveOutput s = .next (replied f rest 0x20 [BitVec.ofNat 8 w.val] none s))
    ∧ (∀ g, s.outputs[r.output].owner = .function g →
        exec .driveOutput s = .next (replied f rest 0x21 [] none s))
    ∧ (∀ p level, s.outputs[r.output].owner = .host p → r.form = .level level →
        exec .driveOutput s = .next (replied f rest 0x00 [driveOctet level] none
          { s with outputs :=
              s.outputs.set r.output.val { hostLevel := level, owner := .host none } r.output.isLt }))
    ∧ ∀ p level duration, s.outputs[r.output].owner = .host p → r.form = .pulse level duration →
        exec .driveOutput s = .next (replied f rest 0x00 [driveOctet level] none
          { s with
            outputs := s.outputs.set r.output.val
              { s.outputs[r.output] with owner := .host (some ⟨level, ⟨duration, false⟩⟩) } r.output.isLt })

/-- SET_OUTPUT_FUNCTION, by the output's owner (R96, R101): OWNED with the watch's index; otherwise a function is assigned,
which cancels a host pulse and keeps the host level, and GENERAL returns an output to HOST and changes nothing on one that
HOST owns. The reply carries the driven state after. The frequency of another function than TICK is not looked at (R183). -/
def Obligations.SetOutputFunctionByOwner : Prop :=
  ∀ (f : Frame) (rest : List Frame) (r : SetOutputFunction) (s : State), Waiting .setOutputFunction f rest s →
    CarriesOutputFunction r f.payload → r.wellFormed = true →
    (∀ w level, s.outputs[r.output].owner = .drive w level →
        exec .setOutputFunction s = .next (replied f rest 0x20 [BitVec.ofNat 8 w.val] none s))
    ∧ (∀ w p, s.outputs[r.output].owner = .pulse w p →
        exec .setOutputFunction s = .next (replied f rest 0x20 [BitVec.ofNat 8 w.val] none s))
    ∧ (∀ g, (s.outputs[r.output].owner.watch = none) → r.function = some g →
        ∃ t, t = { s with outputs :=
              s.outputs.set r.output.val { s.outputs[r.output] with owner := .function g } r.output.isLt }
          ∧ exec .setOutputFunction s = .next (replied f rest 0x00 [driveOctet (t.functionLevel g)] none t))
    ∧ (∀ g, s.outputs[r.output].owner = .function g → r.function = none →
        exec .setOutputFunction s = .next (replied f rest 0x00 [driveOctet s.outputs[r.output].hostLevel] none
          { s with outputs :=
              s.outputs.set r.output.val { s.outputs[r.output] with owner := .host none } r.output.isLt }))
    ∧ ∀ p, s.outputs[r.output].owner = .host p → r.function = none →
        exec .setOutputFunction s = .next (replied f rest 0x00 [driveOctet (s.driven r.output)] none s)

/-- The driven state of an output by its owner, pulse and host level, with the TICK wave HIGH in the first half of each
period, and ATTN LOW exactly while a term of the attention condition holds; and the pins RELEASED while the part is held
(R88, R97, R98, R104). -/
def Obligations.DrivenStateByOwner : Prop :=
  ∀ (o : Fin 8) (s : State),
    (s.outputs[o].owner = .host none → s.driven o = s.outputs[o].hostLevel)
    ∧ (∀ p, s.outputs[o].owner = .host (some p) → s.driven o = p.level)
    ∧ (∀ w level, s.outputs[o].owner = .drive w level → s.driven o = level)
    ∧ (∀ w p, s.outputs[o].owner = .pulse w p → s.driven o = p.level)
    ∧ (∀ rate, s.outputs[o].owner = .function (.tick rate) → ∀ period, period = 1024 / 2 ^ rate.val →
        (s.time.tickCounter.toNat % period < period / 2 → s.driven o = .high)
        ∧ (period / 2 ≤ s.time.tickCounter.toNat % period → s.driven o = .low))
    ∧ (s.outputs[o].owner = .function .attn →
        ((s.announcer.answered = false ∨ s.delivery.state = .stalled
            ∨ s.delivery.settings.mode = .polled ∧ ∃ h ∈ s.journal.held, h.delivered = false) → s.driven o = .low)
        ∧ (¬ (s.announcer.answered = false ∨ s.delivery.state = .stalled
            ∨ s.delivery.settings.mode = .polled ∧ ∃ h ∈ s.journal.held, h.delivered = false) →
          s.driven o = .released))
    ∧ (s.hold = .running → s.pin o = s.driven o) ∧ (s.hold ≠ .running → s.pin o = .released)

/-! ## Time base -/

/-- A TICK at which nothing is due and which is no slew tick: the tick counter and the time value advance by one, the
quality's state, timers and pulses count one tick, the pins and SYNC are taken, and a sample is due unless the part is
held (R25, R67, R93, R94, R106 to R108, R111, R114, R117, R121, R132, R198). Everything else is as it was, and a new moment
begins. The slew spacing is counted down while a slew runs. That a timer stays at 1 and becomes due, that the tick carries the
pins and SYNC and leaves a pulse due, and the moment are the model's choices (log entries 11, 9 and 3), and that the slew tick is
the one at a spacing of 0 is its inference (log entry 29). -/
def Obligations.TickCounts : Prop :=
  ∀ (pins : LineMap) (sync : Level) (s : State), s.dueEvents = [] →
    (s.time.slewRemainder = 0 ∨ s.time.slewSpacing ≠ 0) →
    ∃ t, exec (.tick pins sync) s = .next t
      ∧ t.time.tickCounter = s.time.tickCounter + 1
      ∧ t.time.time = (if s.time.time.tick = 1023 then ⟨s.time.time.sec + 1, 0⟩ else ⟨s.time.time.sec, s.time.time.tick + 1⟩)
      ∧ t.time.slewRemainder = s.time.slewRemainder
      ∧ (s.time.slewRemainder ≠ 0 → t.time.slewSpacing = s.time.slewSpacing - 1)
      ∧ (s.time.slewRemainder = 0 → t.time.slewSpacing = s.time.slewSpacing)
      ∧ CountsOneTick pins sync s t

/-- In every state a TICK advances the tick counter by one (R106, R108), whatever was due before it, which is taken first (log
entry 3): with no more requests than the queue holds, none that could be dispatched, and no reply or notice that could be
handed over, waits past it (R162, R174, R178). The pins and SYNC are as the tick carries them (log entry 9). It is the same
for a SLEW_TICK where, with what is due taken, the coming tick is a slew tick (R118), the spacing being 0 by the model's inference
(log entry 29); where it is none, the SLEW_TICK changes nothing (log entry 4). -/
def Obligations.TickAdvancesCounter : Prop :=
  ∀ (pins : LineMap) (sync : Level) (s : State),
    (∃ t, exec (.tick pins sync) s = .next t
      ∧ t.time.tickCounter = s.time.tickCounter + 1 ∧ t.front.pins = pins ∧ t.time.syncLevel = some sync
      ∧ t.hold = s.hold ∧ t.front.sampleDue = decide (s.hold = .running)
      ∧ (s.hold = .running → s.dispatcher.requests.length ≤ 4 → NothingWaits t)
      ∧ (s.settle.time.slewRemainder ≠ 0 → s.settle.time.slewSpacing = 0 → exec (.slewTick pins sync) s = .next t))
    ∧ (s.settle.time.slewRemainder = 0 ∨ s.settle.time.slewSpacing ≠ 0 → exec (.slewTick pins sync) s = .next s)

/-- A SLEW_TICK, with nothing due: with a positive remainder the time value is held and the remainder decreases; with a
negative one the time value advances by two ticks and the remainder increases; the spacing starts again (R118). For all the
rest it is a tick like any other: the tick counter advances, every timer, pulse and age counts one tick, the pins and SYNC
are taken, and a sample is due unless the part is held (R25, R67, R93, R94, R106, R107, R111, R114, R118, R121, R132, R198).
That a timer stays at 1 and becomes due, that the tick carries the pins and SYNC, and the moment are the model's choices (log
entries 11, 9 and 3); that the slew tick is at a spacing of 0, that the spacing starts again at 15, and that it stays at 0 where
the slew ends, are its inferences (log entries 28 and 29). -/
def Obligations.SlewTickHoldsOrDoubles : Prop :=
  ∀ (pins : LineMap) (sync : Level) (s : State), s.dueEvents = [] → s.time.slewRemainder ≠ 0 →
    s.time.slewSpacing = 0 →
    ∃ t, exec (.slewTick pins sync) s = .next t ∧ exec (.tick pins sync) s = .next t
      ∧ (0 < s.time.slewRemainder → t.time.time = s.time.time ∧ t.time.slewRemainder = s.time.slewRemainder - 1)
      ∧ (s.time.slewRemainder < 0 → t.time.slewRemainder = s.time.slewRemainder + 1
          ∧ ticksOf t.time.time = (ticksOf s.time.time + 2) % (2 ^ 32 * 1024))
      ∧ t.time.slewSpacing = (if t.time.slewRemainder = 0 then 0 else 15)
      ∧ t.time.tickCounter = s.time.tickCounter + 1
      ∧ CountsOneTick pins sync s t

/-- SYNC_PULSE. In FREE it is ignored and not counted. In ARMED the time value becomes the armed value with tick 0, with a
STEP record of the old time value, and the state TRACKING or FREE by the option. In ACQUIRING, TRACKING and HOLDOVER: less
than 768 ticks after the last accepted pulse it is ignored and counted; otherwise the state is TRACKING, an offset of −8 to
8 starts a slew with no record, any other steps the time value to the nearest second with a STEP record, and a SYNC_GAINED
record follows unless the state was TRACKING. An accepted pulse is shown by its age from then on (R123), and the reference,
the edge and the level of SYNC are kept. Of the two records the STEP is entered first, both with the same stamp; where other
blocks have something due at the same moment, their records may be entered between the two (R112, R115, R117 to R120). That
they enter with the records of their own event, each event whole, is the model's choice (log entry 16). That the slew spacing
is 0 after a step and at an offset of 0, where R118 has no slew, and 15 at the start of a slew, are the model's inferences (log
entries 28 and 29). -/
def Obligations.PulseActsByState : Prop :=
  ∀ s : State, s.time.pulseDue = true →
    (s.time.sync = .free → exec .syncPulse s = .next { s with time := { s.time with pulseDue := false } })
    ∧ (∀ remembered value option deadline, s.time.sync = .armed remembered value option deadline →
      ∃ t, exec .syncPulse s = .next t
        ∧ t.time =
          { s.time with
            time := ⟨value, 0⟩, everSet := true, slewRemainder := 0, slewSpacing := 0
            sync := if option = .track then .tracking ⟨1280, false⟩ else .free
            lastPulseAge := some 0, pulseInState := true, pulseDue := false }
        ∧ t.journal = s.journal.arrive t.time.now
            { cls := .routine
              stamp := ⟨⟨value, 0⟩, if option = .track then .synced else .set⟩
              body := .time (.step s.time.time) }
        ∧ t = { s with time := t.time, journal := t.journal })
    ∧ ((s.time.sync = .acquiring ∨ (∃ limit, s.time.sync = .tracking limit) ∨ s.time.sync = .holdover) →
    (∀ age, s.time.lastPulseAge = some age → age < 768 →
      exec .syncPulse s = .next
        { s with time := { s.time with pulseDue := false, ignored := saturating s.time.ignored } })
    ∧ ((∀ age, s.time.lastPulseAge = some age → 768 ≤ age) →
      ∃ t, exec .syncPulse s = .next t
        ∧ (∀ n : Nat, n = s.time.time.tick.toNat →
          t.time =
            { s.time with
              time :=
                if n ≤ 8 ∨ 1016 ≤ n then s.time.time
                else if n ≤ 511 then ⟨s.time.time.sec, 0⟩
                else ⟨s.time.time.sec + 1, 0⟩
              everSet := if n ≤ 8 ∨ 1016 ≤ n then s.time.everSet else true
              slewRemainder := if n ≤ 8 then n else if 1016 ≤ n then (n : Int) - 1024 else 0
              slewSpacing := if n = 0 ∨ (8 < n ∧ n < 1016) then 0 else 15
              sync := .tracking ⟨1280, false⟩
              lastPulseAge := some 0, pulseInState := true, pulseDue := false }
          ∧ ∀ step gained : Draft,
            step = { cls := .routine, stamp := t.time.now, body := .time (.step s.time.time) } →
            gained = { cls := .routine, stamp := t.time.now, body := .time .syncGained } →
            ((∃ limit, s.time.sync = .tracking limit) →
              t = { s with
                time := t.time
                journal := if n ≤ 8 ∨ 1016 ≤ n then s.journal else s.journal.arrive t.time.now step })
            ∧ ((∀ limit, s.time.sync ≠ .tracking limit) →
              (n ≤ 8 ∨ 1016 ≤ n → t = { s with time := t.time, journal := s.journal.arrive t.time.now gained })
              ∧ (8 < n → n < 1016 →
                (∃ u, ReachedBeside { s with time := t.time, journal := s.journal.arrive t.time.now step } u
                  ∧ t = { u with journal := u.journal.arrive t.time.now gained })
                ∧ (NothingBeside s →
                  t = { s with
                    time := t.time
                    journal := (s.journal.arrive t.time.now step).arrive t.time.now gained }))))))

/-- ARM_DEADLINE_EXPIRY returns to the remembered state with a SYNC_MISSED record; MISSED_PULSE_EXPIRY goes to HOLDOVER with
the slew ended and a HOLDOVER record. Both records are ALARM and carry the quality after; the time value, the reference, the
edge, the ignored count and the rest of the time base are as they were, and the age of the last pulse, which runs on, is no
longer shown (R112, R116, R121, R123). That the return of an arm is an entry (log entry 19), and that the slew spacing is 0
where R121 clears the slew remainder (log entry 28), are the model's inferences. -/
def Obligations.SyncTimersExpire : Prop :=
  ∀ s : State,
    (∀ remembered value option deadline, s.time.sync = .armed remembered value option deadline → deadline.due = true →
      ∃ t, exec .armDeadlineExpiry s = .next t
        ∧ t.time.sync =
          (match remembered with
            | .free => .free
            | .acquiring => .acquiring
            | .tracking => .tracking ⟨1280, false⟩
            | .holdover => .holdover)
        ∧ t.time =
          { s.time with
            sync := t.time.sync, pulseInState := false
            slewRemainder := t.time.slewRemainder, slewSpacing := t.time.slewSpacing }
        ∧ (remembered = .free → t.time.slewRemainder = 0)
        ∧ (remembered = .acquiring ∨ remembered = .tracking →
          t.time.slewRemainder = s.time.slewRemainder ∧ t.time.slewSpacing = s.time.slewSpacing)
        ∧ (s.time.slewRemainder = 0 → t.time.slewRemainder = 0)
        ∧ t.journal = s.journal.arrive t.time.now { cls := .alarm, stamp := t.time.now, body := .time .syncMissed }
        ∧ t = { s with time := t.time, journal := t.journal })
    ∧ ∀ limit, s.time.sync = .tracking limit → limit.due = true →
      ∃ t, exec .missedPulseExpiry s = .next t
        ∧ t.time =
          { s.time with sync := .holdover, pulseInState := false, slewRemainder := 0, slewSpacing := 0 }
        ∧ t.journal = s.journal.arrive t.time.now { cls := .alarm, stamp := t.time.now, body := .time .holdover }
        ∧ t = { s with time := t.time, journal := t.journal }

/-- SET_TIME: the time value and the ever-set flag are set and the slew cleared, an arm is cancelled and its remembered
state returned to; a STEP record with the old time value arrives, and the reply carries that time value. The rest of the time
base is as it was (R116, R122, R123). That the return of an arm is an entry (log entry 19), and that the slew spacing is 0
where R122 clears the slew remainder (log entry 28), are the model's inferences. -/
def Obligations.SetTimeSteps : Prop :=
  ∀ (f : Frame) (rest : List Frame) (time : TimeValue) (s : State), Waiting .setTime f rest s →
    f.payload = encodeSetTime time →
    ∃ t, exec .setTime s = .next (replied f rest 0x00 (timeOctets s.time.time) none t)
      ∧ (∀ remembered value option deadline, s.time.sync = .armed remembered value option deadline →
          t.time.sync =
            (match remembered with
              | .free => .free
              | .acquiring => .acquiring
              | .tracking => .tracking ⟨1280, false⟩
              | .holdover => .holdover)
          ∧ t.time.pulseInState = false)
      ∧ ((∀ remembered value option deadline, s.time.sync ≠ .armed remembered value option deadline) →
          t.time.sync = s.time.sync ∧ t.time.pulseInState = s.time.pulseInState)
      ∧ t.time =
        { s.time with
          time, everSet := true, slewRemainder := 0, slewSpacing := 0
          sync := t.time.sync, pulseInState := t.time.pulseInState }
      ∧ t.journal = s.journal.arrive t.time.now
          { cls := .routine, stamp := t.time.now, body := .time (.step s.time.time) }
      ∧ t = { s with time := t.time, journal := t.journal }

/-- SET_TIME_AT_PULSE arms the step with a deadline of 3072 ticks, remembering the present state, or in ARMED the one
remembered before, with no record; the age of the last pulse is not shown in a state newly entered (R123). CONFIGURE_TIME
writes the reference and the SYNC edge and nothing else (R107, R114). -/
def Obligations.TimeIsArmedAndConfigured : Prop :=
  (∀ (f : Frame) (rest : List Frame) (r : SetTimeAtPulse) (s : State), Waiting .setTimeAtPulse f rest s →
    f.payload = encodeSetTimeAtPulse r →
    ∃ t, (∀ remembered value option deadline, s.time.sync = .armed remembered value option deadline →
          exec .setTimeAtPulse s = .next (replied f rest 0x00 [1] none t)
            ∧ t.time.sync = .armed remembered r.sec r.option ⟨3072, false⟩)
      ∧ (s.time.sync = .free → exec .setTimeAtPulse s = .next (replied f rest 0x00 [0] none t)
            ∧ t.time.sync = .armed .free r.sec r.option ⟨3072, false⟩)
      ∧ (s.time.sync = .acquiring → exec .setTimeAtPulse s = .next (replied f rest 0x00 [0] none t)
            ∧ t.time.sync = .armed .acquiring r.sec r.option ⟨3072, false⟩)
      ∧ (∀ limit, s.time.sync = .tracking limit → exec .setTimeAtPulse s = .next (replied f rest 0x00 [0] none t)
            ∧ t.time.sync = .armed .tracking r.sec r.option ⟨3072, false⟩)
      ∧ (s.time.sync = .holdover → exec .setTimeAtPulse s = .next (replied f rest 0x00 [0] none t)
            ∧ t.time.sync = .armed .holdover r.sec r.option ⟨3072, false⟩)
      ∧ ((∀ remembered value option deadline, s.time.sync ≠ .armed remembered value option deadline) →
          t.time.pulseInState = false)
      ∧ t = { s with time := { s.time with sync := t.time.sync, pulseInState := t.time.pulseInState } })
  ∧ ∀ (f : Frame) (rest : List Frame) (r : ConfigureTime) (s : State), Waiting .configureTime f rest s →
    f.payload = encodeConfigureTime r →
    exec .configureTime s = .next (replied f rest 0x00 [] none
      ({ s with time := { s.time with reference := r.reference, edge := r.edge } } : State))

/-- SET_SYNC (R113): the field check refuses any setting but OFF and TRACK; TRACK leaves FREE and ARMED for ACQUIRING and
changes nothing in the other states; OFF makes the state FREE from any and clears the slew. There is no record, and the last
pulse's age runs on. -/
def Obligations.SetSyncChangesState : Prop :=
  ∀ (f : Frame) (rest : List Frame) (setting : Octet) (s : State), Waiting .setSync f rest s → f.payload = [setting] →
    (1 < setting.toNat → exec .setSync s = .next (replied f rest 0x03 [] none s))
    ∧ (setting = 1 → (s.time.sync = .acquiring → exec .setSync s = .next (replied f rest 0x00 [2] none s))
        ∧ (∀ limit, s.time.sync = .tracking limit → exec .setSync s = .next (replied f rest 0x00 [3] none s))
        ∧ (s.time.sync = .holdover → exec .setSync s = .next (replied f rest 0x00 [4] none s))
        ∧ (s.time.sync = .free ∨ (∃ r v o c, s.time.sync = .armed r v o c) →
          exec .setSync s = .next (replied f rest 0x00 [2] none
            { s with time := { s.time with sync := .acquiring, pulseInState := false } })))
    ∧ (setting = 0 → ∃ t, exec .setSync s = .next (replied f rest 0x00 [0] none t)
        ∧ t = { s with time :=
            { s.time with
              sync := .free, slewRemainder := 0, slewSpacing := t.time.slewSpacing
              pulseInState := t.time.pulseInState } })

/-! ## Requests that read -/

/-- The fields of the replies to IDENTIFY, LINK_STATUS and JOURNAL_STATUS (R18, R166, R187, R205); to READ_LINES: four
maps, in which each line's bit says its raw level HIGH, its filtered level HIGH, its filter SETTLING, and its chatter state
SUPPRESSED (R41, R201); and to READ_TIME: those of the time base, the quality UNSET while the time value has never been set,
and otherwise SET, SYNCED or HOLDOVER by the sync state (R110, R123, R201). LINK_STATUS clears the counters it reads; nothing
else changes. -/
def Obligations.StatusReplies : Prop :=
  ∀ (f : Frame) (rest : List Frame) (s : State), f.payload = [] →
    (Waiting .identify f rest s →
      exec .identify s = .next (replied f rest 0x00
        [0x3A, 0x01, 0x20, 0x08, 0x10, 0x01, 0x80, 0x10, causeOctet s.dispatcher.lastStartCause] none s))
    ∧ (Waiting .linkStatus f rest s → ∀ c, c = s.link.counters →
      exec .linkStatus s = .next (replied f rest 0x00
        (octets16 c.noise ++ octets16 c.lengthErrors ++ octets16 c.timeouts ++ octets16 c.parityErrors
          ++ octets16 c.framingErrors ++ octets16 c.damagedFrames ++ octets16 c.crcErrors ++ octets16 c.busyRefusals
          ++ octets16 c.droppedFrames ++ [rateOctet s.link.settings.rate, parityOctet s.link.settings.parity]) none
        { s with link := { s.link with counters :=
            { noise := 0, lengthErrors := 0, timeouts := 0, parityErrors := 0, framingErrors := 0, damagedFrames := 0
              crcErrors := 0, busyRefusals := 0, droppedFrames := 0 } } }))
    ∧ (Waiting .journalStatus f rest s → ∀ held, held = s.journal.held →
      exec .journalStatus s = .next (replied f rest 0x00
        (octets16 held.length ++ octets16 (held.countP (!·.delivered)) ++ octets8 (held.countP (·.delivered))
          ++ octets16 (held.countP fun h => decide (h.record.cls = .alarm))
          ++ (match held with | [] => [0] | oldest :: _ => 1 :: octets16 oldest.seq.toNat)
          ++ octets16 s.journal.next.toNat ++ [if s.journal.gapOwed then 1 else 0] ++ octets16 s.journal.lost
          ++ octets16 s.journal.displaced ++ octets16 (384 - held.length)) none s))
    ∧ (Waiting .readLines f rest s → ∃ raw filtered settling suppressed : LineMap,
      exec .readLines s = .next (replied f rest 0x00
        (octets32 raw.toNat ++ octets32 filtered.toNat ++ octets32 settling.toNat ++ octets32 suppressed.toNat) none s)
      ∧ ∀ i : Fin 32, (raw.getLsbD i.val = true ↔ s.front.lines[i].raw = .high)
        ∧ (filtered.getLsbD i.val = true ↔ s.front.lines[i].filtered = .high)
        ∧ (settling.getLsbD i.val = true ↔ ∃ captured left, s.front.lines[i].filter = .settling captured left)
        ∧ (suppressed.getLsbD i.val = true ↔ ∃ left, s.front.lines[i].chatter = .suppressed left))
    ∧ (Waiting .readTime f rest s → ∃ quality arm age,
      exec .readTime s = .next (replied f rest 0x00
        (octets32 s.time.time.sec.toNat ++ octets16 s.time.time.tick.toNat ++ [quality, syncOctet s.time.sync]
          ++ arm ++ [BitVec.ofInt 8 s.time.slewRemainder] ++ age ++ octets16 s.time.ignored) none s)
      ∧ (s.time.everSet = false → quality = 0)
      ∧ (s.time.everSet = true →
          (s.time.sync = .free ∨ s.time.sync = .acquiring → quality = 1)
          ∧ ((∃ remembered value option deadline, s.time.sync = .armed remembered value option deadline) → quality = 1)
          ∧ ((∃ limit, s.time.sync = .tracking limit) → quality = 2)
          ∧ (s.time.sync = .holdover → quality = 3))
      ∧ (∀ remembered value option deadline, s.time.sync = .armed remembered value option deadline →
          arm = 1 :: octets32 value.toNat ++ 1 :: octets16 deadline.left)
      ∧ ((∀ remembered value option deadline, s.time.sync ≠ .armed remembered value option deadline) → arm = [0, 0])
      ∧ (∀ n, s.time.lastPulseAge = some n → s.time.pulseInState = true → age = 1 :: octets16 n)
      ∧ (s.time.lastPulseAge = none ∨ s.time.pulseInState = false → age = [0]))

/-- QUERY_WATCH: definition, state, trip count, owned output, pulse remaining, onset and qualify ticks, each present as
R83 gives; READ_OUTPUTS: for each output its host level, owner, driven state, pulse remaining, and for O6 and O7 the
function; all with the codes of R201 (R83, R102, R205). Neither changes anything else. -/
def Obligations.WatchAndOutputReplies : Prop :=
  ∀ (f : Frame) (rest : List Frame) (s : State),
    (∀ w : Fin 16, Waiting .queryWatch f rest s → f.payload = [BitVec.ofNat 8 w.val] →
      ∃ definition hold pulse onset qualify,
        exec .queryWatch s = .next (replied f rest 0x00
          (definition ++ [stateOctet s.watches[w].state] ++ octets16 s.watches[w].tripCount ++ hold ++ pulse ++ onset ++ qualify)
          none s)
        ∧ (s.watches[w].definition = none → definition = [0])
        ∧ (∀ d, s.watches[w].definition = some d → definition = 1 :: definitionOctets d)
        ∧ ((∀ o : Fin 8, ¬ ownedBy w s.outputs[o].owner) → hold = [0] ∧ pulse = [0])
        ∧ (∀ o : Fin 8, ownedBy w s.outputs[o].owner → (∀ q : Fin 8, ownedBy w s.outputs[q].owner → q = o) →
            hold = [1, BitVec.ofNat 8 o.val]
            ∧ (∀ level, s.outputs[o].owner = .drive w level → pulse = [0])
            ∧ (∀ p, s.outputs[o].owner = .pulse w p → pulse = 1 :: octets16 p.timer.left))
        ∧ (∀ t, s.watches[w].state.onset = some t → onset = 1 :: timeOctets t)
        ∧ (s.watches[w].state.onset = none → onset = [0])
        ∧ (∀ t timer, s.watches[w].state = .qualifying t timer → qualify = 1 :: octets16 timer.left)
        ∧ ((∀ t timer, s.watches[w].state ≠ .qualifying t timer) → qualify = [0]))
    ∧ (Waiting .readOutputs f rest s → f.payload = [] → ∃ each : Fin 8 → List Octet,
      exec .readOutputs s = .next (replied f rest 0x00
        (each 0 ++ each 1 ++ each 2 ++ each 3 ++ each 4 ++ each 5 ++ each 6 ++ each 7) none s)
      ∧ ∀ o : Fin 8, ∃ pulse function,
        each o = [driveOctet s.outputs[o].hostLevel, ownerOctet s.outputs[o].owner, driveOctet (s.driven o)] ++ pulse ++ function
        ∧ (s.outputs[o].owner.runningPulse = none → pulse = [0])
        ∧ (∀ p, s.outputs[o].owner.runningPulse = some p → pulse = 1 :: octets16 p.timer.left)
        ∧ (o.val < 6 → function = [])
        ∧ (6 ≤ o.val → (∀ rate, s.outputs[o].owner = .function (.tick rate) → function = 1 :: octets16 (2 ^ rate.val))
          ∧ (s.outputs[o].owner = .function .attn → function = [2, 0, 0])
          ∧ ((∀ g, s.outputs[o].owner ≠ .function g) → function = [0, 0, 0])))

/-! ## Journal and delivery -/

/-- What an arrival does to the journal (R6, R9, R11 to R13, R15): entered at the back, PENDING, with the next number,
after an owed GAP record where a slot is free; in a full journal a ROUTINE record is lost, and an ALARM record displaces the
oldest PENDING ROUTINE record or, if there is none, is lost. With one slot free and a GAP owed, the GAP record fills the slot
with the counts so far, and the arrival is then handled as in a full journal, the counts beginning again. -/
def Obligations.JournalTakesArrival : Prop :=
  ∀ (j : Journal) (now : Stamp) (r : Draft),
    (j.held.length < 384 → j.gapOwed = false →
      j.arrive now r = { j with held := j.held ++ [{ seq := j.next, record := r, delivered := false }], next := j.next + 1 })
    ∧ (j.held.length < 383 → j.gapOwed = true →
      j.arrive now r =
        { held := j.held ++
            [{ seq := j.next, record := { cls := .alarm, stamp := now, body := .gap j.lost j.displaced }, delivered := false },
             { seq := j.next + 1, record := r, delivered := false }]
          next := j.next + 2, lost := 0, displaced := 0, gapOwed := false })
    ∧ (j.held.length = 383 → j.gapOwed = true → ∀ gap : Held,
      gap = { seq := j.next, record := { cls := .alarm, stamp := now, body := .gap j.lost j.displaced }, delivered := false } →
      (r.cls = .routine ∨ (∀ h ∈ j.held, h.delivered = true ∨ h.record.cls = .alarm) →
        j.arrive now r = { held := j.held ++ [gap], next := j.next + 1, lost := 1, displaced := 0, gapOwed := true })
      ∧ ∀ before h behind, j.held = before ++ h :: behind → r.cls = .alarm →
        (∀ x ∈ before, x.delivered = true ∨ x.record.cls = .alarm) → h.delivered = false → h.record.cls = .routine →
        j.arrive now r =
          { held := before ++ behind ++ [gap, { seq := j.next + 1, record := r, delivered := false }], next := j.next + 2
            lost := 0, displaced := 1, gapOwed := true })
    ∧ (j.held.length = 384 → r.cls = .routine →
      j.arrive now r = { j with lost := saturating j.lost, gapOwed := true })
    ∧ (j.held.length = 384 → r.cls = .alarm → (∀ h ∈ j.held, h.delivered = true ∨ h.record.cls = .alarm) →
      j.arrive now r = { j with lost := saturating j.lost, gapOwed := true })
    ∧ ∀ before h behind, j.held = before ++ h :: behind → j.held.length = 384 → r.cls = .alarm →
      (∀ x ∈ before, x.delivered = true ∨ x.record.cls = .alarm) → h.delivered = false → h.record.cls = .routine →
      j.arrive now r =
        { held := before ++ behind ++ [{ seq := j.next, record := r, delivered := false }], next := j.next + 1
          lost := j.lost, displaced := saturating j.displaced, gapOwed := true }

/-- REPORT_HAND_OVER onto a FREE line with no reply waiting and no notice due: a resend frame takes the first entries of the
resend list; a new report takes the oldest PENDING records, up to the records per report and what the window leaves, and marks
them DELIVERED. The report number stands in the tag and advances; the line is SENDING (R129, R130, R162, R202), and the moment
has had its frame (log entry 3). -/
def Obligations.ReportIsHandedOver : Prop :=
  ∀ (s : State) (delivered waiting : List Held), s.hold = .running → s.link.line = .free → s.dispatcher.replies = [] →
    s.announcer.due = .none → s.announcer.answered = true → s.delivery.settings.mode = .stream →
    s.delivery.state = .running → s.journal.held = delivered ++ waiting → (∀ h ∈ delivered, h.delivered = true) →
    (∀ h ∈ waiting, h.delivered = false) →
    (s.delivery.resend = [] → delivered.length < s.delivery.settings.window → waiting ≠ [] →
      1 ≤ s.delivery.settings.perReport → ∀ n,
      n = min waiting.length (min s.delivery.settings.perReport (s.delivery.settings.window - delivered.length)) →
      exec .reportHandOver s = .next
        { s with
          journal := { s.journal with held :=
            delivered ++ (waiting.take n).map (fun h => { h with delivered := true }) ++ waiting.drop n }
          delivery := { s.delivery with reportNumber := s.delivery.reportNumber + 1 }
          moment := { s.moment with transmitted := true }
          link := { s.link with line := .sending .report (onWire
            { kind := 0x81, tag := s.delivery.reportNumber
              payload := octets16 s.journal.held.length ++ [if s.journal.gapOwed then 1 else 0] ++ octets8 n
                ++ (waiting.take n).flatMap Held.octets }) } })
    ∧ ∀ resent : List Held, resent ≠ [] → resent.Sublist delivered → (s.journal.held.map (·.seq)).Nodup →
      s.delivery.resend = resent.map (·.seq) →
      exec .reportHandOver s = .next
        { s with
          delivery := { s.delivery with
            reportNumber := s.delivery.reportNumber + 1
            resend := (resent.drop s.delivery.settings.perReport).map (·.seq) }
          moment := { s.moment with transmitted := true }
          link := { s.link with line := .sending .report (onWire
            { kind := 0x81, tag := s.delivery.reportNumber
              payload := octets16 s.journal.held.length ++ [if s.journal.gapOwed then 1 else 0]
                ++ octets8 (resent.take s.delivery.settings.perReport).length
                ++ (resent.take s.delivery.settings.perReport).flatMap Held.octets }) } }

/-- RETRANSMIT_EXPIRY stops the timer: with no DELIVERED record held that is all; else the retry count is one higher, and
the engine goes back over every DELIVERED record, or at the retry limit is STALLED with the resend list empty (R133). -/
def Obligations.RetransmitExpiryActs : Prop :=
  ∀ (timer : Countdown) (s : State), s.delivery.timer = some timer → timer.due = true →
    ((∀ h ∈ s.journal.held, h.delivered = false) →
      exec .retransmitExpiry s = .next { s with delivery := { s.delivery with timer := none } })
    ∧ ((∃ h ∈ s.journal.held, h.delivered = true) →
      (s.delivery.retry + 1 < s.delivery.settings.retryLimit →
        exec .retransmitExpiry s = .next
          { s with delivery :=
              { s.delivery with
                timer := none, retry := s.delivery.retry + 1
                resend := (s.journal.held.filter (·.delivered)).map (·.seq) } })
      ∧ (s.delivery.settings.retryLimit ≤ s.delivery.retry + 1 →
        exec .retransmitExpiry s = .next
          { s with delivery :=
              { s.delivery with
                timer := none, retry := s.delivery.retry + 1, state := .stalled, resend := [] } }))

/-- FETCH: refused in STREAM mode with nothing changed; in POLLED mode it returns the oldest held records, up to the
maximum, with the held count, the GAP owed and more flags, and marks them DELIVERED (R138, R205). A record of each kind is
laid out as R203 gives, in a FETCH reply and in a REPORT. That the other six bits of the flags octet are 0 is the model's
choice (log entry 27). -/
def Obligations.FetchReturnsOldest : Prop :=
  (∀ h : Held, h.octets = recordOctets h)
  ∧ ∀ (f : Frame) (rest : List Frame) (maximum : Nat) (s : State), Waiting .fetch f rest s →
    f.payload = [BitVec.ofNat 8 maximum] → 1 ≤ maximum → maximum ≤ 8 →
    (s.delivery.settings.mode = .stream → exec .fetch s = .next (replied f rest 0x30 [] none s))
    ∧ (s.delivery.settings.mode = .polled →
      exec .fetch s = .next (replied f rest 0x00
        (octets16 s.journal.held.length
          ++ [BitVec.ofNat 8 ((if s.journal.gapOwed then 1 else 0) + (if maximum < s.journal.held.length then 2 else 0))]
          ++ octets8 (min maximum s.journal.held.length) ++ (s.journal.held.take maximum).flatMap Held.octets) none
        { s with journal := { s.journal with held :=
            (s.journal.held.take maximum).map (fun h => { h with delivered := true }) ++ s.journal.held.drop maximum } }))

/-- ACK (R140, R141): of a number that no DELIVERED record has, ACK_RANGE and nothing changed; of a DELIVERED record, it and
every record before it are removed, the retry count is 0 and the engine RUNNING, the entries of removed records leave the
resend list, and in STREAM mode the timer is loaded while DELIVERED records remain and else stopped. An owed GAP record
enters the first freed slot (R15, R142). -/
def Obligations.AckRemovesThrough : Prop :=
  ∀ (f : Frame) (rest : List Frame) (n : SeqNo) (s : State), Waiting .ack f rest s →
    f.payload = [BitVec.ofNat 8 (n.toNat / 256), BitVec.ofNat 8 n.toNat] →
    ((∀ h ∈ s.journal.held, h.seq = n → h.delivered = false) →
      exec .ack s = .next (replied f rest 0x31 [] none s))
    ∧ ∀ before h behind, s.journal.held = before ++ h :: behind → h.seq = n → h.delivered = true →
      (∀ x ∈ before, x.seq ≠ n) → s.journal.held.length ≤ 384 →
      ∃ t, exec .ack s = .next (replied f rest 0x00 [BitVec.ofNat 8 (before.length + 1)] none t)
        ∧ t.journal =
          (if s.journal.gapOwed then
            { held := behind ++
                [{ seq := s.journal.next
                   record := { cls := .alarm, stamp := s.time.now, body := .gap s.journal.lost s.journal.displaced }
                   delivered := false }]
              next := s.journal.next + 1, lost := 0, displaced := 0, gapOwed := false }
          else { s.journal with held := behind })
        ∧ t.delivery.retry = 0 ∧ t.delivery.state = .running ∧ t.delivery.settings = s.delivery.settings
        ∧ t.delivery.reportNumber = s.delivery.reportNumber
        ∧ t.delivery.resend =
          s.delivery.resend.filter (fun m => behind.any fun x => x.delivered && decide (x.seq = m))
        ∧ (s.delivery.settings.mode = .polled ∨ (∀ x ∈ behind, x.delivered = false) → t.delivery.timer = none)
        ∧ (s.delivery.settings.mode = .stream → (∃ x ∈ behind, x.delivered = true) →
            t.delivery.timer = some ⟨s.delivery.settings.interval, false⟩)
        ∧ t = { s with journal := t.journal, delivery := t.delivery }

/-- SET_DELIVERY writes the five settings, returns every DELIVERED record to PENDING, empties the resend list, stops the
timer, and makes the retry count 0 and the state RUNNING; it keeps the report number (R146). Outside the ranges of R145 it is
BAD_FIELD and changes nothing. -/
def Obligations.SetDeliveryBeginsAgain : Prop :=
  ∀ (f : Frame) (rest : List Frame) (s : State), Waiting .setDelivery f rest s →
    (∀ r : DeliverySettings, f.payload = encodeSetDelivery r → 1 ≤ r.window → r.window ≤ 16 → 1 ≤ r.perReport →
      r.perReport ≤ 4 → 64 ≤ r.interval → r.interval ≤ 8192 → 1 ≤ r.retryLimit → r.retryLimit ≤ 15 →
      exec .setDelivery s = .next (replied f rest 0x00 [BitVec.ofNat 8 (s.journal.held.countP (·.delivered))] none
        { s with
          journal := { s.journal with held := s.journal.held.map fun h => { h with delivered := false } }
          delivery :=
            { settings := r, state := .running, retry := 0, timer := none, reportNumber := s.delivery.reportNumber
              resend := [] } }))
    ∧ ∀ mode window perReport i1 i0 retryLimit : Octet, f.payload = [mode, window, perReport, i1, i0, retryLimit] →
      (1 < mode.toNat ∨ window.toNat < 1 ∨ 16 < window.toNat ∨ perReport.toNat < 1 ∨ 4 < perReport.toNat
        ∨ i1.toNat * 256 + i0.toNat < 64 ∨ 8192 < i1.toNat * 256 + i0.toNat ∨ retryLimit.toNat < 1
        ∨ 15 < retryLimit.toNat) →
      exec .setDelivery s = .next (replied f rest 0x03 [] none s)

/-- RESUME ends a stall: RUNNING, retry count 0, and a go-back over the DELIVERED records; in RUNNING it changes nothing.
CLEAR_JOURNAL removes every record, clears the counts and the GAP owed flag, and keeps the counter and the delivery engine,
its resend list emptied (R19, R134, R144). -/
def Obligations.ResumeAndClear : Prop :=
  ∀ (f : Frame) (rest : List Frame) (s : State), f.payload = [] →
    (Waiting .resume f rest s →
      (s.delivery.state = .running → exec .resume s = .next (replied f rest 0x00 [0] none s))
      ∧ (s.delivery.state = .stalled → exec .resume s = .next (replied f rest 0x00 [1] none
          { s with delivery :=
              { s.delivery with
                state := .running, retry := 0
                resend := (s.journal.held.filter (·.delivered)).map (·.seq) } })))
    ∧ (Waiting .clearJournal f rest s →
      exec .clearJournal s = .next (replied f rest 0x00
        [BitVec.ofNat 8 (s.journal.held.length / 256), BitVec.ofNat 8 s.journal.held.length] none
        { s with
          journal := { held := [], next := s.journal.next, lost := 0, displaced := 0, gapOwed := false }
          delivery := { s.delivery with resend := [] } }))

/-! ## The host link -/

/-- START_BIT_FOUND: a confirmed start bit begins an octet, once RXD has been HIGH; a false one does not (R154).
INTER_OCTET_TIMEOUT abandons the frame in progress and counts a timeout, unless a start bit has been found (R161). Each acts
on the state `u` in which it is taken (log entry 3). That a start bit before RXD has been HIGH, and a timeout in HUNT or after
a start bit has been found, come about not at all and answer the same state, and that a false start is itself the HIGH after which
the receiver looks anew, are the model's choices (log entries 4, 13, 14 and 31). -/
def Obligations.StartBitAndTimeout : Prop :=
  ∀ s u : State, s.hold = .running → u = s.found .receiver →
    (s.link.receiver = .looking → ∀ high,
      exec (.startBitFound high true) s = .next { u with link := { u.link with receiver := .receiving } }
      ∧ exec (.startBitFound high false) s = .next s)
    ∧ (s.link.receiver = .waitHigh →
      exec (.startBitFound true true) s = .next { u with link := { u.link with receiver := .receiving } }
      ∧ exec (.startBitFound true false) s = .next { u with link := { u.link with receiver := .looking } }
      ∧ ∀ confirmed, exec (.startBitFound false confirmed) s = .next s)
    ∧ (s.link.receiver ≠ .receiving → s.link.assembler ≠ .hunt →
      exec .interOctetTimeout s = .next
        { u with link :=
            { u.link with
              assembler := .hunt
              counters := { u.link.counters with timeouts := saturating u.link.counters.timeouts } } })
    ∧ (s.link.receiver = .receiving ∨ s.link.assembler = .hunt → exec .interOctetTimeout s = .next s)

/-- An octet in LENGTH (R158): 2 to 252 is LEN and begins a body of that many octets, with the damaged flag set if the octet
is bad; any other value abandons the frame, uncounted but for the length error and the octet's own faults. It acts on the
state `u` in which it is taken, and the receiver then looks for a start bit after a HIGH stop bit (log entries 3 and 31). -/
def Obligations.LengthOctet : Prop :=
  ∀ (data : Octet) (parityBit stopBit : Level) (s u : State), Receiving s → s.link.assembler = .length →
    u = s.found .receiver →
    (2 ≤ data.toNat → data.toNat ≤ 252 →
      exec (.octetArrives data parityBit stopBit) s = .next
        { u with link := { afterOctet u data parityBit stopBit with
            assembler := .body data.toNat data.toNat [] (crcOctet 0xFFFF data) (octetBad u data parityBit stopBit) } })
    ∧ (data.toNat < 2 ∨ 252 < data.toNat → ∀ after, after = afterOctet u data parityBit stopBit →
      exec (.octetArrives data parityBit stopBit) s = .next
        { u with link :=
            { after with
              assembler := .hunt
              counters := { after.counters with lengthErrors := saturating after.counters.lengthErrors } } })

/-- An octet in HUNT, BODY and the first half of CHECK (R157, R159): a good 0xC3 begins a frame and anything else in HUNT is
noise; in BODY the octet is collected and enters the running check, the last one leading to CHECK; the first check octet is
kept as the high octet. A bad octet sets the damaged flag. It acts on the state `u` in which it is taken, and the receiver then
looks for a start bit after a HIGH stop bit (log entries 3 and 31). -/
def Obligations.OctetIsCollected : Prop :=
  ∀ (data : Octet) (parityBit stopBit : Level) (s u : State), Receiving s → u = s.found .receiver → ∀ after bad,
    after = afterOctet u data parityBit stopBit → bad = octetBad u data parityBit stopBit →
    (s.link.assembler = .hunt → data = 0xC3 → bad = false →
      exec (.octetArrives data parityBit stopBit) s = .next { u with link := { after with assembler := .length } })
    ∧ (s.link.assembler = .hunt → data ≠ 0xC3 ∨ bad = true →
      exec (.octetArrives data parityBit stopBit) s = .next
        { u with link :=
            { after with counters := { after.counters with noise := saturating after.counters.noise } } })
    ∧ (∀ len toCome octets crc damaged, s.link.assembler = .body len toCome octets crc damaged →
      (1 < toCome → exec (.octetArrives data parityBit stopBit) s = .next
        { u with link := { after with
            assembler := .body len (toCome - 1) (octets ++ [data]) (crcOctet crc data) (damaged || bad) } })
      ∧ (toCome ≤ 1 → exec (.octetArrives data parityBit stopBit) s = .next
        { u with link := { after with
            assembler := .check len (octets ++ [data]) (crcOctet crc data) (damaged || bad) none } }))
    ∧ ∀ len octets crc damaged, s.link.assembler = .check len octets crc damaged none →
      exec (.octetArrives data parityBit stopBit) s = .next
        { u with link := { after with assembler := .check len octets crc (damaged || bad) (some data) } }

/-- The second check octet ends the frame (R160): damaged, it is discarded and counted; with a check that differs, it is
discarded and counted; otherwise it goes to the dispatcher, which queues it, refuses it with BUSY or drops it, and a queued
frame answers the announcement (R175, R176, R199). The assembler is in HUNT after each. It acts on the state `u` in which it
is taken: an event of the receiver at a moment that has had one comes later, so what was due is taken first, and no request
that could be dispatched before it still waits, nor a reply or a notice that could be handed over (R162, R175, R178). At a
moment that has had none, an event that is due can come together with it and be taken after it (log entry 3). That
the receiver looks for a start bit at once after a HIGH stop bit is the model's choice (log entry 31). -/
def Obligations.FrameIsJudged : Prop :=
  (∀ (data : Octet) (parityBit stopBit : Level) (len : Nat) (kind tag : Octet) (payload : List Octet) (crc : BitVec 16)
    (damaged : Bool) (high : Octet) (s u : State), Receiving s →
    s.link.assembler = .check len (kind :: tag :: payload) crc damaged (some high) → u = s.found .receiver →
    ∀ after bad, after = { afterOctet u data parityBit stopBit with assembler := .hunt } →
    bad = (damaged || octetBad u data parityBit stopBit) →
    (bad = true →
      exec (.octetArrives data parityBit stopBit) s = .next
        { u with link :=
            { after with counters := { after.counters with damagedFrames := saturating after.counters.damagedFrames } } })
    ∧ (bad = false → crc ≠ high ++ data →
      exec (.octetArrives data parityBit stopBit) s = .next
        { u with link :=
            { after with counters := { after.counters with crcErrors := saturating after.counters.crcErrors } } })
    ∧ (bad = false → crc = high ++ data →
      exec (.octetArrives data parityBit stopBit) s = .next
        (afterArrival { kind, tag, payload } { u with link := after })))
  ∧ ∀ (s u : State) (p : Party), s.hold = .running → s.dispatcher.requests.length ≤ 4 → u = s.found p →
    (s.moment.had p = true ∨ s.dueEvents = [] → NothingWaits u ∧ u.dueEvents = [])
    ∧ (s.moment.had p = false → s.dueEvents ≠ [] → u = { s with moment := u.moment })
    ∧ u.moment.had p = true
    ∧ u.link = { s.link with counters := u.link.counters, line := u.link.line }

/-- A reply is handed over onto a FREE line before anything else, and its slot is free; a START notice that is due goes when
no reply waits, nor a request that is dispatched at its arrival, whose reply goes first (R175, R199), with the cause,
revision, held count, next number and quality as they stand, its number in the tag, and starts the repetition timer while
unanswered; and at that timer's expiry a REPEAT notice is due (R162, R163, R197, R198). While a reply or such a request waits
no notice is handed over, while a reply waits or a notice is due no report, and while the line is SENDING nothing (R162); such
a command changes nothing (log entry 4). That the hand-over is the transmitter's event of its moment is the model's choice (log
entry 3). TXD carries the octets of the frame one after another, each as start bit, data bits,
parity bit and stop bit, and is HIGH while no frame is sent (R153). -/
def Obligations.ReplyAndNoticeHandOver : Prop :=
  ∀ s : State,
    (∀ reply replies, s.hold = .running → s.link.line = .free → s.dispatcher.replies = reply :: replies →
      exec .replyHandOver s = .next
        { s with
          dispatcher := { s.dispatcher with replies := replies }
          moment := { s.moment with transmitted := true }
          link := { s.link with line := .sending (.reply reply.effect) (onWire reply.frame) } })
    ∧ (s.hold = .running → s.link.line = .free → s.dispatcher.replies = [] → s.dispatcher.requests = [] →
      s.announcer.due ≠ .none →
      exec .startNoticeHandOver s = .next
        { s with
          announcer :=
            { s.announcer with
              due := .none
              number := if s.announcer.number < 255 then s.announcer.number + 1 else s.announcer.number
              timer := if s.announcer.answered then s.announcer.timer else some ⟨2048, false⟩ }
          moment := { s.moment with transmitted := true }
          link := { s.link with line := .sending .notice (onWire
            { kind := 0x82, tag := BitVec.ofNat 8 s.announcer.number
              payload := [causeOctet s.announcer.cause, 0x01] ++ octets16 s.journal.held.length
                ++ octets16 s.journal.next.toNat ++ [qualityOctet s.time.quality] }) } })
    ∧ (∀ timer, s.announcer.timer = some timer → timer.due = true →
      exec .repetitionTimerExpiry s = .next
        { s with announcer := { s.announcer with timer := none, due := .repeated } })
    ∧ (s.dispatcher.replies ≠ [] → exec .startNoticeHandOver s = .next s ∧ exec .reportHandOver s = .next s)
    ∧ (s.announcer.due ≠ .none → exec .reportHandOver s = .next s)
    ∧ (s.hold = .running → s.dispatcher.requests ≠ [] → s.dispatcher.replies.length < 6 →
      exec .startNoticeHandOver s = .next s)
    ∧ (s.link.line ≠ .free →
      exec .replyHandOver s = .next s ∧ exec .startNoticeHandOver s = .next s ∧ exec .reportHandOver s = .next s)
    ∧ (s.link.line = .free → ∀ n, s.link.txd n = .high)
    ∧ ∀ source octets bits, s.link.line = .sending source octets → bits = bitTimes s.link.settings.parity →
      (∀ n, octets.length * bits ≤ n → s.link.txd n = .high)
      ∧ ∀ k o j, octets[k]? = some o → j < bits → s.link.txd (k * bits + j) = levelOfBit s.link.settings.parity o j

/-- SET_LINK and RESTART change nothing at their taking: the settings, or the pending start, travel with the reply (R167,
R193). -/
def Obligations.DeferredEffectsTravel : Prop :=
  ∀ (f : Frame) (rest : List Frame) (s : State),
    (∀ settings : LinkSettings, Waiting .setLink f rest s → f.payload = [rateOctet settings.rate, parityOctet settings.parity] →
      exec .setLink s = .next
        (replied f rest 0x00 [rateOctet settings.rate, parityOctet settings.parity] (some (.switch settings)) s))
    ∧ (∀ scope : RestartScope, Waiting .restart f rest s → f.payload = [scopeOctet scope] →
      exec .restart s = .next (replied f rest 0x00 [scopeOctet scope] (some (.start scope)) s))

/-! ## The dispatcher -/

/-- DISPATCH_UNKNOWN_KIND (R181): every kind but the 25 request codes is refused with UNKNOWN_KIND, those of REPLY, REPORT
and START among them, with the kind echoed and nothing else changed. -/
def Obligations.UnknownKindIsRefused : Prop :=
  ∀ (f : Frame) (rest : List Frame) (s : State), Dispatchable f rest s → (∀ k : RequestKind, f.kind ≠ requestOctet k) →
    exec .dispatchUnknownKind s = .next (replied f rest 0x01 [] none s)

/-- The length check and the field check (R182, R183): a payload of a length that the kind does not have is refused with
BAD_LENGTH; one of a length that it has, with a used field outside its accepted values, is refused with BAD_FIELD, for every
request that carries fields; one that passes both is answered with neither status. A SET_WATCH of one of its two lengths whose
form is not that length's is refused with BAD_FIELD. A refusal changes nothing else, and is answered and cached. -/
def Obligations.WrongLengthIsRefused : Prop :=
  ∀ (k : RequestKind) (f : Frame) (rest : List Frame) (s : State), Waiting k f rest s →
    (f.payload.length ∉ acceptedLengths k → exec k.command s = .next (replied f rest 0x02 [] none s))
    ∧ (f.payload.length ∈ acceptedLengths k → ¬ fieldsFit k f.payload →
        exec k.command s = .next (replied f rest 0x03 [] none s))
    ∧ (f.payload.length ∈ acceptedLengths k → fieldsFit k f.payload →
        ∃ status fields effect t, status ≠ 0x02 ∧ status ≠ 0x03
          ∧ exec k.command s = .next (replied f rest status fields effect t))
    ∧ ∀ watch form tail, k = .setWatch → f.payload = watch :: form :: tail →
      (tail.length = 22 ∧ form ≠ 1 ∨ tail = [] ∧ form ≠ 0) →
      exec .setWatch s = .next (replied f rest 0x03 [] none s)

/-- A repeat of the cached request (same non-zero tag and kind) is answered with a copy of the cached reply that carries no
deferred effect; it is not checked or executed and changes nothing else (R179, R180). So is a repeated frame of an unknown
kind, whose refusal was cached. -/
def Obligations.RepeatIsAnsweredFromCache : Prop :=
  ∀ (f : Frame) (rest : List Frame) (e : CacheEntry) (s t : State), s.hold = .running →
    s.dispatcher.requests = f :: rest → s.dispatcher.replies.length < 6 →
    s.dispatcher.cache = some e → f.tag ≠ 0 → e.tag = f.tag → e.kind = f.kind →
    t = { s with dispatcher :=
          { s.dispatcher with
            requests := rest, replies := s.dispatcher.replies ++ [{ frame := e.frame, effect := none }] } } →
    (∀ k : RequestKind, f.kind = requestOctet k → exec k.command s = .next t)
    ∧ ((∀ k : RequestKind, f.kind ≠ requestOctet k) → exec .dispatchUnknownKind s = .next t)

/-- Reading the payload that the encoder writes gives back the request, for every request that passes its field check, with
every field at every value (R204, R205). -/
def Obligations.PayloadsRoundTrip : Prop :=
  (∀ r : LinkSettings, parseSetLink (encodeSetLink r) = .ok r)
  ∧ (∀ r : RestartScope, parseRestart (encodeRestart r) = .ok r)
  ∧ (∀ r : ConfigureLines, r.wellFormed = true → parseConfigureLines (encodeConfigureLines r) = .ok r)
  ∧ (∀ r : SetWatch, r.wellFormed = true → parseSetWatch (encodeSetWatch r) = .ok r)
  ∧ (∀ w : Fin 16, parseWatchIndex (encodeWatchIndex w) = .ok w)
  ∧ (∀ r : DriveOutput, r.wellFormed = true → parseDriveOutput (encodeDriveOutput r) = .ok r)
  ∧ (∀ r : SetOutputFunction, r.wellFormed = true → parseSetOutputFunction (encodeSetOutputFunction r) = .ok r)
  ∧ (∀ t : TimeValue, parseSetTime (encodeSetTime t) = .ok t)
  ∧ (∀ r : SetTimeAtPulse, parseSetTimeAtPulse (encodeSetTimeAtPulse r) = .ok r)
  ∧ (∀ r : SyncSetting, parseSetSync (encodeSetSync r) = .ok r)
  ∧ (∀ r : ConfigureTime, parseConfigureTime (encodeConfigureTime r) = .ok r)
  ∧ (∀ n : Nat, fetchMaximumInRange n = true → parseFetch (encodeFetch n) = .ok n)
  ∧ (∀ n : SeqNo, parseAck (encodeAck n) = .ok n)
  ∧ (∀ r : DeliverySettings, r.wellFormed = true → parseSetDelivery (encodeSetDelivery r) = .ok r)

/-! ## Laws that every step keeps -/

/-- Every step keeps the laws of the journal and of delivery: capacity, delivery order, numbering, the owed GAP; the window,
the resend list and the ranges of the engine (R7, R9, R11, R14, R128, R131, R134, R135, R137). -/
def Obligations.StepKeepsDeliveryLaws : Prop :=
  ∀ s t : State, s.DeliveryLaws → step s = .next t → t.DeliveryLaws

/-- Every step keeps the law of ownership (every owner fits its output, and every definition is one that R58 lets be stored);
and the chains short and free of cycles, with the law of qualified dependents (R46, R52, R57, R69, R87, R89). -/
def Obligations.StepKeepsWatchLaws : Prop :=
  ∀ s t : State, step s = .next t →
    (s.OwnershipLaw → t.OwnershipLaw) ∧ (s.ChainLaw → s.DependentLaw → t.ChainLaw ∧ t.DependentLaw)

/-- Every step keeps the ranges of the time base, and the bounds of the dispatcher's queues and cache (R111, R112, R121,
R174). That a running deadline or missed-pulse limit shows at least 1, where R111 gives 0 as the end of its range, is the
model's choice (log entry 11). -/
def Obligations.StepKeepsRanges : Prop :=
  ∀ s t : State, step s = .next t →
    (s.time.RangeLaw → t.time.RangeLaw) ∧ (s.dispatcher.QueueLaw → t.dispatcher.QueueLaw)

/-- Every law holds right after power-on, with the RESET line HIGH. -/
def Obligations.LawsHoldAtReset : Prop :=
  State.reset.DeliveryLaws ∧ State.reset.OwnershipLaw ∧ State.reset.ChainLaw ∧ State.reset.DependentLaw
    ∧ State.reset.time.RangeLaw ∧ State.reset.dispatcher.QueueLaw
end

