-- ==== Sys2Proof/Laws/State.lean ====
section
/-! SUPPORT. For each update of the state, what every field is after it. -/

namespace Sys2Proof.Machine

/-! ## `setLine` -/

@[simp] theorem State.setLine_hold (s : State) (i : Fin 32) (l : Line) : (s.setLine i l).hold = s.hold := rfl
@[simp] theorem State.setLine_front (s : State) (i : Fin 32) (l : Line) :
    (s.setLine i l).front =
      { s.front with lines := s.front.lines.set i.val l i.isLt } := rfl
@[simp] theorem State.setLine_watches (s : State) (i : Fin 32) (l : Line) : (s.setLine i l).watches = s.watches := rfl
@[simp] theorem State.setLine_outputs (s : State) (i : Fin 32) (l : Line) : (s.setLine i l).outputs = s.outputs := rfl
@[simp] theorem State.setLine_time (s : State) (i : Fin 32) (l : Line) : (s.setLine i l).time = s.time := rfl
@[simp] theorem State.setLine_journal (s : State) (i : Fin 32) (l : Line) : (s.setLine i l).journal = s.journal := rfl
@[simp] theorem State.setLine_delivery (s : State) (i : Fin 32) (l : Line) :
    (s.setLine i l).delivery =
      s.delivery := rfl
@[simp] theorem State.setLine_link (s : State) (i : Fin 32) (l : Line) : (s.setLine i l).link = s.link := rfl
@[simp] theorem State.setLine_dispatcher (s : State) (i : Fin 32) (l : Line) :
    (s.setLine i l).dispatcher =
      s.dispatcher := rfl
@[simp] theorem State.setLine_announcer (s : State) (i : Fin 32) (l : Line) :
    (s.setLine i l).announcer =
      s.announcer := rfl
@[simp] theorem State.setLine_moment (s : State) (i : Fin 32) (l : Line) : (s.setLine i l).moment = s.moment := rfl
@[simp] theorem State.setLine_choices (s : State) (i : Fin 32) (l : Line) : (s.setLine i l).choices = s.choices := rfl
@[simp] theorem State.setLine_pending (s : State) (i : Fin 32) (l : Line) : (s.setLine i l).pending = s.pending := rfl

/-! ## `setWatch` -/

@[simp] theorem State.setWatch_hold (s : State) (w : Fin 16) (x : Watch) : (s.setWatch w x).hold = s.hold := rfl
@[simp] theorem State.setWatch_front (s : State) (w : Fin 16) (x : Watch) : (s.setWatch w x).front = s.front := rfl
@[simp] theorem State.setWatch_watches (s : State) (w : Fin 16) (x : Watch) :
    (s.setWatch w x).watches =
      s.watches.set w.val x w.isLt := rfl
@[simp] theorem State.setWatch_outputs (s : State) (w : Fin 16) (x : Watch) :
    (s.setWatch w x).outputs =
      s.outputs := rfl
@[simp] theorem State.setWatch_time (s : State) (w : Fin 16) (x : Watch) : (s.setWatch w x).time = s.time := rfl
@[simp] theorem State.setWatch_journal (s : State) (w : Fin 16) (x : Watch) :
    (s.setWatch w x).journal =
      s.journal := rfl
@[simp] theorem State.setWatch_delivery (s : State) (w : Fin 16) (x : Watch) :
    (s.setWatch w x).delivery =
      s.delivery := rfl
@[simp] theorem State.setWatch_link (s : State) (w : Fin 16) (x : Watch) : (s.setWatch w x).link = s.link := rfl
@[simp] theorem State.setWatch_dispatcher (s : State) (w : Fin 16) (x : Watch) :
    (s.setWatch w x).dispatcher =
      s.dispatcher := rfl
@[simp] theorem State.setWatch_announcer (s : State) (w : Fin 16) (x : Watch) :
    (s.setWatch w x).announcer =
      s.announcer := rfl
@[simp] theorem State.setWatch_moment (s : State) (w : Fin 16) (x : Watch) : (s.setWatch w x).moment = s.moment := rfl
@[simp] theorem State.setWatch_choices (s : State) (w : Fin 16) (x : Watch) :
    (s.setWatch w x).choices =
      s.choices := rfl
@[simp] theorem State.setWatch_pending (s : State) (w : Fin 16) (x : Watch) :
    (s.setWatch w x).pending =
      s.pending := rfl

/-! ## `setWatchState` -/

@[simp] theorem State.setWatchState_hold (s : State) (w : Fin 16) (x : WatchState) :
    (s.setWatchState w x).hold =
      s.hold := rfl
@[simp] theorem State.setWatchState_front (s : State) (w : Fin 16) (x : WatchState) :
    (s.setWatchState w x).front =
      s.front := rfl
@[simp] theorem State.setWatchState_watches (s : State) (w : Fin 16) (x : WatchState) :
    (s.setWatchState w x).watches =
      s.watches.set w.val { s.watches[w] with state := x } w.isLt := rfl
@[simp] theorem State.setWatchState_outputs (s : State) (w : Fin 16) (x : WatchState) :
    (s.setWatchState w x).outputs =
      s.outputs := rfl
@[simp] theorem State.setWatchState_time (s : State) (w : Fin 16) (x : WatchState) :
    (s.setWatchState w x).time =
      s.time := rfl
@[simp] theorem State.setWatchState_journal (s : State) (w : Fin 16) (x : WatchState) :
    (s.setWatchState w x).journal =
      s.journal := rfl
@[simp] theorem State.setWatchState_delivery (s : State) (w : Fin 16) (x : WatchState) :
    (s.setWatchState w x).delivery =
      s.delivery := rfl
@[simp] theorem State.setWatchState_link (s : State) (w : Fin 16) (x : WatchState) :
    (s.setWatchState w x).link =
      s.link := rfl
@[simp] theorem State.setWatchState_dispatcher (s : State) (w : Fin 16) (x : WatchState) :
    (s.setWatchState w x).dispatcher =
      s.dispatcher := rfl
@[simp] theorem State.setWatchState_announcer (s : State) (w : Fin 16) (x : WatchState) :
    (s.setWatchState w x).announcer =
      s.announcer := rfl
@[simp] theorem State.setWatchState_moment (s : State) (w : Fin 16) (x : WatchState) :
    (s.setWatchState w x).moment =
      s.moment := rfl
@[simp] theorem State.setWatchState_choices (s : State) (w : Fin 16) (x : WatchState) :
    (s.setWatchState w x).choices =
      s.choices := rfl
@[simp] theorem State.setWatchState_pending (s : State) (w : Fin 16) (x : WatchState) :
    (s.setWatchState w x).pending =
      s.pending := rfl

/-! ## `setOutput` -/

@[simp] theorem State.setOutput_hold (s : State) (o : Fin 8) (x : Output) : (s.setOutput o x).hold = s.hold := rfl
@[simp] theorem State.setOutput_front (s : State) (o : Fin 8) (x : Output) : (s.setOutput o x).front = s.front := rfl
@[simp] theorem State.setOutput_watches (s : State) (o : Fin 8) (x : Output) :
    (s.setOutput o x).watches =
      s.watches := rfl
@[simp] theorem State.setOutput_outputs (s : State) (o : Fin 8) (x : Output) :
    (s.setOutput o x).outputs =
      s.outputs.set o.val x o.isLt := rfl
@[simp] theorem State.setOutput_time (s : State) (o : Fin 8) (x : Output) : (s.setOutput o x).time = s.time := rfl
@[simp] theorem State.setOutput_journal (s : State) (o : Fin 8) (x : Output) :
    (s.setOutput o x).journal =
      s.journal := rfl
@[simp] theorem State.setOutput_delivery (s : State) (o : Fin 8) (x : Output) :
    (s.setOutput o x).delivery =
      s.delivery := rfl
@[simp] theorem State.setOutput_link (s : State) (o : Fin 8) (x : Output) : (s.setOutput o x).link = s.link := rfl
@[simp] theorem State.setOutput_dispatcher (s : State) (o : Fin 8) (x : Output) :
    (s.setOutput o x).dispatcher =
      s.dispatcher := rfl
@[simp] theorem State.setOutput_announcer (s : State) (o : Fin 8) (x : Output) :
    (s.setOutput o x).announcer =
      s.announcer := rfl
@[simp] theorem State.setOutput_moment (s : State) (o : Fin 8) (x : Output) : (s.setOutput o x).moment = s.moment := rfl
@[simp] theorem State.setOutput_choices (s : State) (o : Fin 8) (x : Output) :
    (s.setOutput o x).choices =
      s.choices := rfl
@[simp] theorem State.setOutput_pending (s : State) (o : Fin 8) (x : Output) :
    (s.setOutput o x).pending =
      s.pending := rfl

/-! ## `setOwner` -/

@[simp] theorem State.setOwner_hold (s : State) (o : Fin 8) (x : Owner) : (s.setOwner o x).hold = s.hold := rfl
@[simp] theorem State.setOwner_front (s : State) (o : Fin 8) (x : Owner) : (s.setOwner o x).front = s.front := rfl
@[simp] theorem State.setOwner_watches (s : State) (o : Fin 8) (x : Owner) : (s.setOwner o x).watches = s.watches := rfl
@[simp] theorem State.setOwner_outputs (s : State) (o : Fin 8) (x : Owner) :
    (s.setOwner o x).outputs =
      s.outputs.set o.val { s.outputs[o] with owner := x } o.isLt := rfl
@[simp] theorem State.setOwner_time (s : State) (o : Fin 8) (x : Owner) : (s.setOwner o x).time = s.time := rfl
@[simp] theorem State.setOwner_journal (s : State) (o : Fin 8) (x : Owner) : (s.setOwner o x).journal = s.journal := rfl
@[simp] theorem State.setOwner_delivery (s : State) (o : Fin 8) (x : Owner) :
    (s.setOwner o x).delivery =
      s.delivery := rfl
@[simp] theorem State.setOwner_link (s : State) (o : Fin 8) (x : Owner) : (s.setOwner o x).link = s.link := rfl
@[simp] theorem State.setOwner_dispatcher (s : State) (o : Fin 8) (x : Owner) :
    (s.setOwner o x).dispatcher =
      s.dispatcher := rfl
@[simp] theorem State.setOwner_announcer (s : State) (o : Fin 8) (x : Owner) :
    (s.setOwner o x).announcer =
      s.announcer := rfl
@[simp] theorem State.setOwner_moment (s : State) (o : Fin 8) (x : Owner) : (s.setOwner o x).moment = s.moment := rfl
@[simp] theorem State.setOwner_choices (s : State) (o : Fin 8) (x : Owner) : (s.setOwner o x).choices = s.choices := rfl
@[simp] theorem State.setOwner_pending (s : State) (o : Fin 8) (x : Owner) : (s.setOwner o x).pending = s.pending := rfl

/-! ## `releaseWhere` -/

@[simp] theorem releaseWhere_hold (p : Owner → Bool) (s : State) : (releaseWhere p s).hold = s.hold := rfl
@[simp] theorem releaseWhere_front (p : Owner → Bool) (s : State) : (releaseWhere p s).front = s.front := rfl
@[simp] theorem releaseWhere_watches (p : Owner → Bool) (s : State) : (releaseWhere p s).watches = s.watches := rfl
@[simp] theorem releaseWhere_outputs (p : Owner → Bool) (s : State) :
    (releaseWhere p s).outputs =
      Vector.ofFn fun o => if p s.outputs[o].owner = true then { s.outputs[o] with owner := .host none } else s.outputs[o] := rfl
@[simp] theorem releaseWhere_time (p : Owner → Bool) (s : State) : (releaseWhere p s).time = s.time := rfl
@[simp] theorem releaseWhere_journal (p : Owner → Bool) (s : State) : (releaseWhere p s).journal = s.journal := rfl
@[simp] theorem releaseWhere_delivery (p : Owner → Bool) (s : State) : (releaseWhere p s).delivery = s.delivery := rfl
@[simp] theorem releaseWhere_link (p : Owner → Bool) (s : State) : (releaseWhere p s).link = s.link := rfl
@[simp] theorem releaseWhere_dispatcher (p : Owner → Bool) (s : State) :
    (releaseWhere p s).dispatcher =
      s.dispatcher := rfl
@[simp] theorem releaseWhere_announcer (p : Owner → Bool) (s : State) :
    (releaseWhere p s).announcer =
      s.announcer := rfl
@[simp] theorem releaseWhere_moment (p : Owner → Bool) (s : State) : (releaseWhere p s).moment = s.moment := rfl
@[simp] theorem releaseWhere_choices (p : Owner → Bool) (s : State) : (releaseWhere p s).choices = s.choices := rfl
@[simp] theorem releaseWhere_pending (p : Owner → Bool) (s : State) : (releaseWhere p s).pending = s.pending := rfl

/-! ## `arrive` -/

@[simp] theorem State.arrive_hold (s : State) (r : Draft) : (s.arrive r).hold = s.hold := rfl
@[simp] theorem State.arrive_front (s : State) (r : Draft) : (s.arrive r).front = s.front := rfl
@[simp] theorem State.arrive_watches (s : State) (r : Draft) : (s.arrive r).watches = s.watches := rfl
@[simp] theorem State.arrive_outputs (s : State) (r : Draft) : (s.arrive r).outputs = s.outputs := rfl
@[simp] theorem State.arrive_time (s : State) (r : Draft) : (s.arrive r).time = s.time := rfl
@[simp] theorem State.arrive_journal (s : State) (r : Draft) :
    (s.arrive r).journal =
      s.journal.arrive s.time.now r := rfl
@[simp] theorem State.arrive_delivery (s : State) (r : Draft) : (s.arrive r).delivery = s.delivery := rfl
@[simp] theorem State.arrive_link (s : State) (r : Draft) : (s.arrive r).link = s.link := rfl
@[simp] theorem State.arrive_dispatcher (s : State) (r : Draft) : (s.arrive r).dispatcher = s.dispatcher := rfl
@[simp] theorem State.arrive_announcer (s : State) (r : Draft) : (s.arrive r).announcer = s.announcer := rfl
@[simp] theorem State.arrive_moment (s : State) (r : Draft) : (s.arrive r).moment = s.moment := rfl
@[simp] theorem State.arrive_choices (s : State) (r : Draft) : (s.arrive r).choices = s.choices := rfl
@[simp] theorem State.arrive_pending (s : State) (r : Draft) : (s.arrive r).pending = s.pending := rfl

/-! ## `countLink` -/

@[simp] theorem State.countLink_hold (s : State) (f : LinkCounters → LinkCounters) :
    (s.countLink f).hold =
      s.hold := rfl
@[simp] theorem State.countLink_front (s : State) (f : LinkCounters → LinkCounters) :
    (s.countLink f).front =
      s.front := rfl
@[simp] theorem State.countLink_watches (s : State) (f : LinkCounters → LinkCounters) :
    (s.countLink f).watches =
      s.watches := rfl
@[simp] theorem State.countLink_outputs (s : State) (f : LinkCounters → LinkCounters) :
    (s.countLink f).outputs =
      s.outputs := rfl
@[simp] theorem State.countLink_time (s : State) (f : LinkCounters → LinkCounters) :
    (s.countLink f).time =
      s.time := rfl
@[simp] theorem State.countLink_journal (s : State) (f : LinkCounters → LinkCounters) :
    (s.countLink f).journal =
      s.journal := rfl
@[simp] theorem State.countLink_delivery (s : State) (f : LinkCounters → LinkCounters) :
    (s.countLink f).delivery =
      s.delivery := rfl
@[simp] theorem State.countLink_link (s : State) (f : LinkCounters → LinkCounters) :
    (s.countLink f).link =
      { s.link with counters := f s.link.counters } := rfl
@[simp] theorem State.countLink_dispatcher (s : State) (f : LinkCounters → LinkCounters) :
    (s.countLink f).dispatcher =
      s.dispatcher := rfl
@[simp] theorem State.countLink_announcer (s : State) (f : LinkCounters → LinkCounters) :
    (s.countLink f).announcer =
      s.announcer := rfl
@[simp] theorem State.countLink_moment (s : State) (f : LinkCounters → LinkCounters) :
    (s.countLink f).moment =
      s.moment := rfl
@[simp] theorem State.countLink_choices (s : State) (f : LinkCounters → LinkCounters) :
    (s.countLink f).choices =
      s.choices := rfl
@[simp] theorem State.countLink_pending (s : State) (f : LinkCounters → LinkCounters) :
    (s.countLink f).pending =
      s.pending := rfl

/-! ## `setReceiver` -/

@[simp] theorem State.setReceiver_hold (s : State) (r : Receiver) : (s.setReceiver r).hold = s.hold := rfl
@[simp] theorem State.setReceiver_front (s : State) (r : Receiver) : (s.setReceiver r).front = s.front := rfl
@[simp] theorem State.setReceiver_watches (s : State) (r : Receiver) : (s.setReceiver r).watches = s.watches := rfl
@[simp] theorem State.setReceiver_outputs (s : State) (r : Receiver) : (s.setReceiver r).outputs = s.outputs := rfl
@[simp] theorem State.setReceiver_time (s : State) (r : Receiver) : (s.setReceiver r).time = s.time := rfl
@[simp] theorem State.setReceiver_journal (s : State) (r : Receiver) : (s.setReceiver r).journal = s.journal := rfl
@[simp] theorem State.setReceiver_delivery (s : State) (r : Receiver) : (s.setReceiver r).delivery = s.delivery := rfl
@[simp] theorem State.setReceiver_link (s : State) (r : Receiver) :
    (s.setReceiver r).link =
      { s.link with receiver := r } := rfl
@[simp] theorem State.setReceiver_dispatcher (s : State) (r : Receiver) :
    (s.setReceiver r).dispatcher =
      s.dispatcher := rfl
@[simp] theorem State.setReceiver_announcer (s : State) (r : Receiver) :
    (s.setReceiver r).announcer =
      s.announcer := rfl
@[simp] theorem State.setReceiver_moment (s : State) (r : Receiver) : (s.setReceiver r).moment = s.moment := rfl
@[simp] theorem State.setReceiver_choices (s : State) (r : Receiver) : (s.setReceiver r).choices = s.choices := rfl
@[simp] theorem State.setReceiver_pending (s : State) (r : Receiver) : (s.setReceiver r).pending = s.pending := rfl

/-! ## `setAssembler` -/

@[simp] theorem State.setAssembler_hold (s : State) (a : Assembler) : (s.setAssembler a).hold = s.hold := rfl
@[simp] theorem State.setAssembler_front (s : State) (a : Assembler) : (s.setAssembler a).front = s.front := rfl
@[simp] theorem State.setAssembler_watches (s : State) (a : Assembler) : (s.setAssembler a).watches = s.watches := rfl
@[simp] theorem State.setAssembler_outputs (s : State) (a : Assembler) : (s.setAssembler a).outputs = s.outputs := rfl
@[simp] theorem State.setAssembler_time (s : State) (a : Assembler) : (s.setAssembler a).time = s.time := rfl
@[simp] theorem State.setAssembler_journal (s : State) (a : Assembler) : (s.setAssembler a).journal = s.journal := rfl
@[simp] theorem State.setAssembler_delivery (s : State) (a : Assembler) :
    (s.setAssembler a).delivery =
      s.delivery := rfl
@[simp] theorem State.setAssembler_link (s : State) (a : Assembler) :
    (s.setAssembler a).link =
      { s.link with assembler := a } := rfl
@[simp] theorem State.setAssembler_dispatcher (s : State) (a : Assembler) :
    (s.setAssembler a).dispatcher =
      s.dispatcher := rfl
@[simp] theorem State.setAssembler_announcer (s : State) (a : Assembler) :
    (s.setAssembler a).announcer =
      s.announcer := rfl
@[simp] theorem State.setAssembler_moment (s : State) (a : Assembler) : (s.setAssembler a).moment = s.moment := rfl
@[simp] theorem State.setAssembler_choices (s : State) (a : Assembler) : (s.setAssembler a).choices = s.choices := rfl
@[simp] theorem State.setAssembler_pending (s : State) (a : Assembler) : (s.setAssembler a).pending = s.pending := rfl

/-! ## `startSending` -/

@[simp] theorem State.startSending_hold (s : State) (source : TxSource) (f : Frame) :
    (s.startSending source f).hold =
      s.hold := rfl
@[simp] theorem State.startSending_front (s : State) (source : TxSource) (f : Frame) :
    (s.startSending source f).front =
      s.front := rfl
@[simp] theorem State.startSending_watches (s : State) (source : TxSource) (f : Frame) :
    (s.startSending source f).watches =
      s.watches := rfl
@[simp] theorem State.startSending_outputs (s : State) (source : TxSource) (f : Frame) :
    (s.startSending source f).outputs =
      s.outputs := rfl
@[simp] theorem State.startSending_time (s : State) (source : TxSource) (f : Frame) :
    (s.startSending source f).time =
      s.time := rfl
@[simp] theorem State.startSending_journal (s : State) (source : TxSource) (f : Frame) :
    (s.startSending source f).journal =
      s.journal := rfl
@[simp] theorem State.startSending_delivery (s : State) (source : TxSource) (f : Frame) :
    (s.startSending source f).delivery =
      s.delivery := rfl
@[simp] theorem State.startSending_link (s : State) (source : TxSource) (f : Frame) :
    (s.startSending source f).link =
      { s.link with line := .sending source f.wire } := rfl
@[simp] theorem State.startSending_dispatcher (s : State) (source : TxSource) (f : Frame) :
    (s.startSending source f).dispatcher =
      s.dispatcher := rfl
@[simp] theorem State.startSending_announcer (s : State) (source : TxSource) (f : Frame) :
    (s.startSending source f).announcer =
      s.announcer := rfl
@[simp] theorem State.startSending_moment (s : State) (source : TxSource) (f : Frame) :
    (s.startSending source f).moment =
      { s.moment with transmitted := true } := rfl
@[simp] theorem State.startSending_choices (s : State) (source : TxSource) (f : Frame) :
    (s.startSending source f).choices =
      s.choices := rfl
@[simp] theorem State.startSending_pending (s : State) (source : TxSource) (f : Frame) :
    (s.startSending source f).pending =
      s.pending := rfl

/-! ## `queueReply` -/

@[simp] theorem State.queueReply_hold (s : State) (r : Reply) : (s.queueReply r).hold = s.hold := rfl
@[simp] theorem State.queueReply_front (s : State) (r : Reply) : (s.queueReply r).front = s.front := rfl
@[simp] theorem State.queueReply_watches (s : State) (r : Reply) : (s.queueReply r).watches = s.watches := rfl
@[simp] theorem State.queueReply_outputs (s : State) (r : Reply) : (s.queueReply r).outputs = s.outputs := rfl
@[simp] theorem State.queueReply_time (s : State) (r : Reply) : (s.queueReply r).time = s.time := rfl
@[simp] theorem State.queueReply_journal (s : State) (r : Reply) : (s.queueReply r).journal = s.journal := rfl
@[simp] theorem State.queueReply_delivery (s : State) (r : Reply) : (s.queueReply r).delivery = s.delivery := rfl
@[simp] theorem State.queueReply_link (s : State) (r : Reply) : (s.queueReply r).link = s.link := rfl
@[simp] theorem State.queueReply_dispatcher (s : State) (r : Reply) :
    (s.queueReply r).dispatcher =
      { s.dispatcher with replies := s.dispatcher.replies ++ [r] } := rfl
@[simp] theorem State.queueReply_announcer (s : State) (r : Reply) : (s.queueReply r).announcer = s.announcer := rfl
@[simp] theorem State.queueReply_moment (s : State) (r : Reply) : (s.queueReply r).moment = s.moment := rfl
@[simp] theorem State.queueReply_choices (s : State) (r : Reply) : (s.queueReply r).choices = s.choices := rfl
@[simp] theorem State.queueReply_pending (s : State) (r : Reply) : (s.queueReply r).pending = s.pending := rfl

/-! ## `popRequest` -/

@[simp] theorem State.popRequest_hold (s : State) : (s.popRequest).hold = s.hold := rfl
@[simp] theorem State.popRequest_front (s : State) : (s.popRequest).front = s.front := rfl
@[simp] theorem State.popRequest_watches (s : State) : (s.popRequest).watches = s.watches := rfl
@[simp] theorem State.popRequest_outputs (s : State) : (s.popRequest).outputs = s.outputs := rfl
@[simp] theorem State.popRequest_time (s : State) : (s.popRequest).time = s.time := rfl
@[simp] theorem State.popRequest_journal (s : State) : (s.popRequest).journal = s.journal := rfl
@[simp] theorem State.popRequest_delivery (s : State) : (s.popRequest).delivery = s.delivery := rfl
@[simp] theorem State.popRequest_link (s : State) : (s.popRequest).link = s.link := rfl
@[simp] theorem State.popRequest_dispatcher (s : State) :
    (s.popRequest).dispatcher =
      { s.dispatcher with requests := s.dispatcher.requests.tail } := rfl
@[simp] theorem State.popRequest_announcer (s : State) : (s.popRequest).announcer = s.announcer := rfl
@[simp] theorem State.popRequest_moment (s : State) : (s.popRequest).moment = s.moment := rfl
@[simp] theorem State.popRequest_choices (s : State) : (s.popRequest).choices = s.choices := rfl
@[simp] theorem State.popRequest_pending (s : State) : (s.popRequest).pending = s.pending := rfl

/-! ## `State.unstated` -/

@[simp] theorem State.unstated_hold (s : State) : s.unstated.2.hold = s.hold := rfl
@[simp] theorem State.unstated_front (s : State) : s.unstated.2.front = s.front := rfl
@[simp] theorem State.unstated_watches (s : State) : s.unstated.2.watches = s.watches := rfl
@[simp] theorem State.unstated_outputs (s : State) : s.unstated.2.outputs = s.outputs := rfl
@[simp] theorem State.unstated_time (s : State) : s.unstated.2.time = s.time := rfl
@[simp] theorem State.unstated_journal (s : State) : s.unstated.2.journal = s.journal := rfl
@[simp] theorem State.unstated_delivery (s : State) : s.unstated.2.delivery = s.delivery := rfl
@[simp] theorem State.unstated_link (s : State) : s.unstated.2.link = s.link := rfl
@[simp] theorem State.unstated_dispatcher (s : State) : s.unstated.2.dispatcher = s.dispatcher := rfl
@[simp] theorem State.unstated_announcer (s : State) : s.unstated.2.announcer = s.announcer := rfl
@[simp] theorem State.unstated_moment (s : State) : s.unstated.2.moment = s.moment := rfl
@[simp] theorem State.unstated_choices (s : State) : s.unstated.2.choices = s.choices + 1 := rfl
@[simp] theorem State.unstated_pending (s : State) : s.unstated.2.pending = s.pending := rfl

/-! ## `State.choose` and `State.cacheReply`, which change one field or none -/

/-- A choice changes the count of free values alone. -/
theorem State.choose_eq (s : State) (n : Nat) : ∃ k, (s.choose n).2 = { s with choices := k } := by
  unfold State.choose
  split
  · exact ⟨s.choices, rfl⟩
  · exact ⟨s.choices + 1, rfl⟩

/-- A choice is one of the things to choose from. -/
theorem State.choose_lt (s : State) {n : Nat} (h : 0 < n) : (s.choose n).1 < n := by
  unfold State.choose
  split
  · exact h
  · exact Nat.mod_lt _ h

/-- Among one thing or none there is no choice. -/
theorem State.choose_one (s : State) {n : Nat} (h : n ≤ 1) : s.choose n = (0, s) := by simp [State.choose, h]

/-- The reply cache alone may change. -/
theorem State.cacheReply_eq (s : State) (q r : Frame) :
    s.cacheReply q r =
      { s with dispatcher :=
          { s.dispatcher with
            cache := if q.tag = 0 then s.dispatcher.cache else some { kind := q.kind, tag := q.tag, frame := r } } } := by
  unfold State.cacheReply
  split <;> rfl

@[simp] theorem State.choose_hold (s : State) (n : Nat) : (s.choose n).2.hold = s.hold := by
  obtain ⟨k, h⟩ := s.choose_eq n; rw [h]
@[simp] theorem State.choose_front (s : State) (n : Nat) : (s.choose n).2.front = s.front := by
  obtain ⟨k, h⟩ := s.choose_eq n; rw [h]
@[simp] theorem State.choose_watches (s : State) (n : Nat) : (s.choose n).2.watches = s.watches := by
  obtain ⟨k, h⟩ := s.choose_eq n; rw [h]
@[simp] theorem State.choose_outputs (s : State) (n : Nat) : (s.choose n).2.outputs = s.outputs := by
  obtain ⟨k, h⟩ := s.choose_eq n; rw [h]
@[simp] theorem State.choose_time (s : State) (n : Nat) : (s.choose n).2.time = s.time := by
  obtain ⟨k, h⟩ := s.choose_eq n; rw [h]
@[simp] theorem State.choose_journal (s : State) (n : Nat) : (s.choose n).2.journal = s.journal := by
  obtain ⟨k, h⟩ := s.choose_eq n; rw [h]
@[simp] theorem State.choose_delivery (s : State) (n : Nat) : (s.choose n).2.delivery = s.delivery := by
  obtain ⟨k, h⟩ := s.choose_eq n; rw [h]
@[simp] theorem State.choose_link (s : State) (n : Nat) : (s.choose n).2.link = s.link := by
  obtain ⟨k, h⟩ := s.choose_eq n; rw [h]
@[simp] theorem State.choose_dispatcher (s : State) (n : Nat) : (s.choose n).2.dispatcher = s.dispatcher := by
  obtain ⟨k, h⟩ := s.choose_eq n; rw [h]
@[simp] theorem State.choose_announcer (s : State) (n : Nat) : (s.choose n).2.announcer = s.announcer := by
  obtain ⟨k, h⟩ := s.choose_eq n; rw [h]
@[simp] theorem State.choose_moment (s : State) (n : Nat) : (s.choose n).2.moment = s.moment := by
  obtain ⟨k, h⟩ := s.choose_eq n; rw [h]
@[simp] theorem State.choose_pending (s : State) (n : Nat) : (s.choose n).2.pending = s.pending := by
  obtain ⟨k, h⟩ := s.choose_eq n; rw [h]
@[simp] theorem State.cacheReply_hold (s : State) (q r : Frame) : (s.cacheReply q r).hold = s.hold := by
  rw [State.cacheReply_eq]
@[simp] theorem State.cacheReply_front (s : State) (q r : Frame) : (s.cacheReply q r).front = s.front := by
  rw [State.cacheReply_eq]
@[simp] theorem State.cacheReply_watches (s : State) (q r : Frame) : (s.cacheReply q r).watches = s.watches := by
  rw [State.cacheReply_eq]
@[simp] theorem State.cacheReply_outputs (s : State) (q r : Frame) : (s.cacheReply q r).outputs = s.outputs := by
  rw [State.cacheReply_eq]
@[simp] theorem State.cacheReply_time (s : State) (q r : Frame) : (s.cacheReply q r).time = s.time := by
  rw [State.cacheReply_eq]
@[simp] theorem State.cacheReply_journal (s : State) (q r : Frame) : (s.cacheReply q r).journal = s.journal := by
  rw [State.cacheReply_eq]
@[simp] theorem State.cacheReply_delivery (s : State) (q r : Frame) : (s.cacheReply q r).delivery = s.delivery := by
  rw [State.cacheReply_eq]
@[simp] theorem State.cacheReply_link (s : State) (q r : Frame) : (s.cacheReply q r).link = s.link := by
  rw [State.cacheReply_eq]
@[simp] theorem State.cacheReply_announcer (s : State) (q r : Frame) : (s.cacheReply q r).announcer = s.announcer := by
  rw [State.cacheReply_eq]
@[simp] theorem State.cacheReply_moment (s : State) (q r : Frame) : (s.cacheReply q r).moment = s.moment := by
  rw [State.cacheReply_eq]
@[simp] theorem State.cacheReply_choices (s : State) (q r : Frame) : (s.cacheReply q r).choices = s.choices := by
  rw [State.cacheReply_eq]
@[simp] theorem State.cacheReply_pending (s : State) (q r : Frame) : (s.cacheReply q r).pending = s.pending := by
  rw [State.cacheReply_eq]

end Sys2Proof.Machine
end

