-- ==== Sys2Proof/Laws/Watches.lean ====
section
/-! SUPPORT. What the watch engine can do: it changes the watches, the outputs and the free values' count and nothing else
before its records reach the journal; and a property that every task keeps is kept by all of them. -/

namespace Sys2Proof.Machine

/-- Two states that differ in the watches, the outputs and the count of free values at most. -/
def SameOutside (s t : State) : Prop :=
  t = { s with watches := t.watches, outputs := t.outputs, choices := t.choices }

theorem SameOutside.refl (s : State) : SameOutside s s := rfl

theorem SameOutside.trans {s t u : State} (h : SameOutside s t) (k : SameOutside t u) : SameOutside s u := by
  unfold SameOutside at *
  rw [k, h]

theorem sameOutside_of {s : State} (w : Vector Watch 16) (o : Vector Output 8) (n : Nat) :
    SameOutside s { s with watches := w, outputs := o, choices := n } := rfl

theorem setWatch_sameOutside (s : State) (w : Fin 16) (x : Watch) : SameOutside s (s.setWatch w x) := rfl

theorem setOwner_sameOutside (s : State) (o : Fin 8) (x : Owner) : SameOutside s (s.setOwner o x) := rfl

theorem releaseWhere_sameOutside (p : Owner → Bool) (s : State) : SameOutside s (releaseWhere p s) := rfl

theorem SameOutside.hold {s t : State} (h : SameOutside s t) : t.hold = s.hold := by rw [h]
theorem SameOutside.front {s t : State} (h : SameOutside s t) : t.front = s.front := by rw [h]
theorem SameOutside.time {s t : State} (h : SameOutside s t) : t.time = s.time := by rw [h]
theorem SameOutside.journal {s t : State} (h : SameOutside s t) : t.journal = s.journal := by rw [h]
theorem SameOutside.delivery {s t : State} (h : SameOutside s t) : t.delivery = s.delivery := by rw [h]
theorem SameOutside.link {s t : State} (h : SameOutside s t) : t.link = s.link := by rw [h]
theorem SameOutside.dispatcher {s t : State} (h : SameOutside s t) : t.dispatcher = s.dispatcher := by rw [h]
theorem SameOutside.announcer {s t : State} (h : SameOutside s t) : t.announcer = s.announcer := by rw [h]
theorem SameOutside.pending {s t : State} (h : SameOutside s t) : t.pending = s.pending := by rw [h]

/-- A claim changes the owner of one output, or nothing. -/
theorem claim_eq (w : Fin 16) (a : Action) (s : State) :
    (claim w a s).2 = s ∨ ∃ o x, (claim w a s).2 = s.setOwner o x := by
  unfold claim claimOutput
  split
  · exact .inl rfl
  all_goals
    split
    · exact .inr ⟨_, _, rfl⟩
    · split
      · exact .inr ⟨_, _, rfl⟩
      · exact .inl rfl
    · split
      · exact .inr ⟨_, _, rfl⟩
      · exact .inl rfl
    · exact .inl rfl

theorem claim_sameOutside (w : Fin 16) (a : Action) (s : State) : SameOutside s (claim w a s).2 := by
  rcases claim_eq w a s with h | ⟨o, x, h⟩ <;> rw [h] <;> rfl

theorem choose_sameOutside (s : State) (n : Nat) : SameOutside s (s.choose n).2 := by
  obtain ⟨k, h⟩ := s.choose_eq n
  rw [h]
  rfl

theorem pickStamp_sameOutside (s : State) (stamps : List Stamp) : SameOutside s (s.pickStamp stamps).2 := by
  unfold State.pickStamp
  dsimp only
  split
  · exact choose_sameOutside s _
  · exact (choose_sameOutside s _).trans rfl

/-- The state a RESTORE record leaves: at most free values are used. -/
theorem sendRestore_state (w : Fin 16) (d : WatchDef) (stamps : List Stamp) (k : Work) :
    (sendRestore w d stamps k).state = k.state ∨
      (sendRestore w d stamps k).state = (k.state.pickStamp stamps).2 := by
  unfold sendRestore
  split
  · exact .inl rfl
  · exact .inr rfl

theorem sendRestore_sameOutside (w : Fin 16) (d : WatchDef) (stamps : List Stamp) (k : Work) :
    SameOutside k.state (sendRestore w d stamps k).state := by
  rcases sendRestore_state w d stamps k with h | h <;> rw [h]
  · exact .refl _
  · exact pickStamp_sameOutside _ _

theorem trip_sameOutside (w : Fin 16) (onset : TimeValue) (k : Work) :
    SameOutside k.state (trip w onset k).1.state := by
  unfold trip
  split
  · exact .refl _
  · exact (show SameOutside k.state (k.state.setWatch w _) from rfl).trans (claim_sameOutside ..)

theorem restore_sameOutside (w : Fin 16) (onset : TimeValue) (d : WatchDef) (stamps : List Stamp) (k : Work) :
    SameOutside k.state (restore w onset d stamps k).1.state := by
  unfold restore
  split
  · exact (show SameOutside k.state (releaseDrive w (k.state.setWatchState w .armed)) from rfl).trans
      (sendRestore_sameOutside ..)
  · exact (show SameOutside k.state (k.state.setWatchState w (.held onset)) from rfl).trans
      (sendRestore_sameOutside ..)

theorem pickOnset_sameOutside (s : State) (onset : Option TimeValue) : SameOutside s (s.pickOnset onset).2 := by
  cases onset <;> rfl

@[simp] theorem pickOnset_watches (s : State) (onset : Option TimeValue) : (s.pickOnset onset).2.watches = s.watches := by
  cases onset <;> rfl

@[simp] theorem pickOnset_outputs (s : State) (onset : Option TimeValue) : (s.pickOnset onset).2.outputs = s.outputs := by
  cases onset <;> rfl

theorem becomeTrue_sameOutside (w : Fin 16) (d : WatchDef) (onset : Option TimeValue) (k : Work) :
    SameOutside k.state (becomeTrue w d onset k).1.state := by
  have picked := pickOnset_sameOutside k.state onset
  unfold becomeTrue
  dsimp only
  split
  · exact picked.trans (trip_sameOutside w _ { k with state := (k.state.pickOnset onset).2 })
  · exact picked.trans rfl

theorem act_sameOutside (w : Fin 16) (e : Evaluation) (k : Work) : SameOutside k.state (act w e k).1.state := by
  unfold act
  split
  · exact .refl _
  · split
    · split
      · exact becomeTrue_sameOutside ..
      · exact .refl _
    · rfl
    · rfl
    · exact restore_sameOutside ..
    · exact .refl _

theorem runTask_sameOutside (t : Task) (k : Work) : SameOutside k.state (runTask t k).1.state := by
  unfold runTask
  split
  · exact act_sameOutside ..
  · exact .refl _
  · exact .refl _

/-- A property of states that no free choice and no task ends is kept by the run of any tasks. -/
theorem runTasks_keeps (P : State → Prop) (choice : ∀ s n, P s → P { s with choices := n })
    (task : ∀ t k, P k.state → P (runTask t k).1.state) :
    ∀ fuel ts k, P k.state → P (runTasks fuel ts k).state := by
  intro fuel
  induction fuel with
  | zero => intro ts k h; exact h
  | succ fuel ih =>
    intro ts k h
    unfold runTasks
    dsimp only
    split
    · exact h
    · split
      · exact h
      · apply ih
        apply task
        obtain ⟨n, hn⟩ := k.state.choose_eq (k.state.ready ts).length
        dsimp only
        rw [hn]
        exact choice _ _ h

theorem run_keeps (P : State → Prop) (choice : ∀ s n, P s → P { s with choices := n })
    (task : ∀ t k, P k.state → P (runTask t k).1.state) (ts : List Task) (k : Work) (h : P k.state) :
    P (k.run ts).state := runTasks_keeps P choice task _ _ _ h

theorem run_sameOutside (ts : List Task) (k : Work) : SameOutside k.state (k.run ts).state :=
  run_keeps (SameOutside k.state) (fun _ _ h => h.trans rfl) (fun t k h => h.trans (runTask_sameOutside t k)) ts k
    (.refl _)

theorem deliver_sameOutside (edges : List Edge) (k : Work) :
    SameOutside k.state (deliver edges k).state :=
  run_sameOutside _ _

/-! ## The evaluation of a delivery -/

/-- What the evaluation of a delivery can be (R53, R54, R56). -/
theorem evaluateDelivery_cases (s : State) (d : WatchDef) (edges : List Edge) :
    (s.condition d = true ∧ d.prerequisite.any (s.departsAt edges) = false
        ∧ s.evaluateDelivery d edges = .holds ((patternOnset d (edgesOn d edges)).map (s.onsetFrom d)))
    ∨ (s.condition d = true ∧ d.prerequisite.any (s.departsAt edges) = true ∧ s.evaluateDelivery d edges = .departure)
    ∨ (s.condition d = false ∧ s.evaluateDelivery d edges = .fails (restoreStamps s d (edgesOn d edges))) := by
  unfold State.evaluateDelivery
  cases s.condition d <;> cases d.prerequisite.any (s.departsAt edges) <;> simp

/-- A watch whose prerequisite, if it names one, does not depart at the delivery is evaluated on its condition alone. -/
theorem evaluateDelivery_plain {s : State} {d : WatchDef} {edges : List Edge}
    (stays : d.prerequisite.any (s.departsAt edges) = false) :
    s.evaluateDelivery d edges =
      if s.condition d then .holds ((patternOnset d (edgesOn d edges)).map (s.onsetFrom d))
      else .fails (restoreStamps s d (edgesOn d edges)) := by
  unfold State.evaluateDelivery
  rw [stays]
  simp

end Sys2Proof.Machine
end

