-- ==== Sys2Proof/Laws/Journal.lean ====
section
/-! SUPPORT. What the arrivals of records can do: they change the journal, by one arrival after another, and the count of
free values. -/

namespace Sys2Proof.Machine

/-- A journal reached from another by arrivals, all stamped at one moment (R7). -/
inductive Arrivals (now : Stamp) : Journal → Journal → Prop
  | done (j : Journal) : Arrivals now j j
  | more {j k : Journal} (r : Draft) (h : Arrivals now (j.arrive now r) k) : Arrivals now j k

theorem Arrivals.trans {now : Stamp} {i j k : Journal} (h : Arrivals now i j) (g : Arrivals now j k) :
    Arrivals now i k := by
  induction h with
  | done => exact g
  | more r _ ih => exact .more r (ih g)

/-- A property that every arrival keeps is kept by arrivals. -/
theorem Arrivals.keeps {now : Stamp} {j k : Journal} (h : Arrivals now j k) {P : Journal → Prop}
    (arrive : ∀ j r, P j → P (j.arrive now r)) : P j → P k := by
  induction h with
  | done => exact id
  | more r _ ih => exact fun hj => ih (arrive _ r hj)

/-- Records that arrive together change the journal by arrivals, and the count of free values. -/
theorem arriveTogether_eq (fuel : Nat) (streams : List (List Draft)) (s : State) :
    ∃ j n, arriveTogether fuel streams s = { s with journal := j, choices := n } ∧ Arrivals s.time.now s.journal j := by
  induction fuel generalizing streams s with
  | zero => exact ⟨_, _, rfl, .done _⟩
  | succ fuel ih =>
    unfold arriveTogether
    dsimp only
    obtain ⟨c, hc⟩ := s.choose_eq (streams.filter fun rs => !rs.isEmpty).length
    split
    · rename_i r rest _
      obtain ⟨j, n, h, g⟩ := ih _ _
      refine ⟨j, n, h.trans ?_, ?_⟩
      · simp [hc, State.arrive]
      · refine .more r ?_
        simpa [hc] using g
    · exact ⟨_, _, hc, .done _⟩

/-- What a sending of records does. -/
theorem send_eq (s : State) (streams : List (List Draft)) :
    ∃ j n, s.send streams = { s with journal := j, choices := n } ∧ Arrivals s.time.now s.journal j :=
  arriveTogether_eq _ _ _

/-- The end of an event at the watch engine changes the journal by arrivals, and the count of free values. -/
theorem finish_eq (k : Work) :
    ∃ j n, k.finish = { k.state with journal := j, choices := n } ∧ Arrivals k.state.time.now k.state.journal j :=
  send_eq _ _

/-- One stream of records enters in its own order, with no choice made. -/
theorem arriveTogether_single (rs : List Draft) (s : State) :
    arriveTogether rs.length [rs] s = rs.foldl State.arrive s := by
  induction rs generalizing s with
  | nil => rfl
  | cons r rest ih =>
    simp only [List.length_cons, List.foldl_cons]
    rw [← ih (s.arrive r)]
    conv => lhs; unfold arriveTogether
    simp [State.choose]

/-- One stream of records enters in its own order, with no choice made. -/
theorem send_single (rs : List Draft) (s : State) : s.send [rs] = rs.foldl State.arrive s := by
  simpa [State.send] using arriveTogether_single rs s

/-- Two records sent apart enter in either order (R7). -/
theorem send_pair (a b : Draft) (s : State) :
    ∃ n, s.send [[a], [b]] = { (s.arrive a).arrive b with choices := n }
      ∨ s.send [[a], [b]] = { (s.arrive b).arrive a with choices := n } := by
  have first : s.choose 2 = (Config.choice s.choices % 2, { s with choices := s.choices + 1 }) := rfl
  refine ⟨s.choices + 1, ?_⟩
  show arriveTogether (1 + 1) [[a], [b]] s = _ ∨ arriveTogether (1 + 1) [[a], [b]] s = _
  unfold arriveTogether
  simp only [List.filter_cons, List.filter_nil, List.isEmpty_cons, Bool.not_false, if_true, List.length_cons,
    List.length_nil, Nat.zero_add, Nat.reduceAdd, first]
  rcases Nat.mod_two_eq_zero_or_one (Config.choice s.choices) with h | h <;> rw [h]
  · exact .inl rfl
  · exact .inr rfl

/-- Nothing is sent. -/
@[simp] theorem send_nil (s : State) : s.send [] = s := rfl

/-- A moment's arrivals leave the time as it is. -/
theorem foldl_arrive_eq (rs : List Draft) (s : State) :
    rs.foldl State.arrive s = { s with journal := rs.foldl (fun j r => j.arrive s.time.now r) s.journal } := by
  induction rs generalizing s with
  | nil => rfl
  | cons r rest ih => rw [List.foldl_cons, ih]; rfl

/-- The journal after a single stream of records. -/
theorem send_single_eq (rs : List Draft) (s : State) :
    s.send [rs] = { s with journal := rs.foldl (fun j r => j.arrive s.time.now r) s.journal } := by
  rw [send_single, foldl_arrive_eq]

/-! ## The laws of the journal -/

theorem countTo_le {max n : Nat} (h : n ≤ max) : countTo max n ≤ max := by
  unfold countTo
  split <;> omega

theorem countTo_ne_zero {max n : Nat} (h : 0 < max) : countTo max n ≠ 0 := by
  unfold countTo
  split <;> omega

theorem numbersSince_succ {next : SeqNo} {h : Held} (g : numbersSince next h < 65535) :
    numbersSince (next + 1) h = numbersSince next h + 1 := by
  unfold numbersSince at *
  have : next + 1 - h.seq = (next - h.seq) + 1 := by bv_omega
  rw [this]
  bv_omega

theorem numberingLaw_mem {next : SeqNo} {held : List Held} (h : NumberingLaw next held) :
    ∀ r ∈ held, 1 ≤ numbersSince next r ∧
      numbersSince next r ≤ held.length + held.countP (fun r => decide (r.record.cls = .alarm)) := by
  induction held with
  | nil => simp
  | cons a rest ih =>
    obtain ⟨_, h1, h2, h3⟩ := h
    intro r hr
    rcases List.mem_cons.mp hr with rfl | hr
    · exact ⟨h1, h2⟩
    · have := ih h3 r hr
      refine ⟨this.1, this.2.trans ?_⟩
      simp only [List.length_cons, List.countP_cons]
      omega

/-- One more number is given: to a record that joins the back, and to no record that stays. -/
theorem numberingLaw_enter {next : SeqNo} {held : List Held} (h : NumberingLaw next held) (r : Held)
    (room : held.length ≤ 384) (hr : r.seq = next) : NumberingLaw (next + 1) (held ++ [r]) := by
  have hcount : ∀ l : List Held, l.countP (fun r => decide (r.record.cls = .alarm)) ≤ l.length :=
    fun l => List.countP_le_length
  have hnew : numbersSince (next + 1) r = 1 := by
    unfold numbersSince
    rw [hr]
    bv_omega
  induction held with
  | nil =>
    show NumberingLaw (next + 1) [r]
    refine ⟨by simp, by omega, ?_, trivial⟩
    simp only [List.length_cons, List.length_nil]
    omega
  | cons a rest ih =>
    obtain ⟨h0, h1, h2, h3⟩ := h
    have hlen : (a :: rest).length ≤ 384 := room
    have hc := hcount (a :: rest)
    have ha : numbersSince (next + 1) a = numbersSince next a + 1 := numbersSince_succ (by omega)
    show NumberingLaw (next + 1) (a :: (rest ++ [r]))
    refine ⟨?_, by omega, ?_, ih h3 (by simp at hlen; omega)⟩
    · intro n hn
      rcases List.mem_append.mp hn with hn | hn
      · have := h0 n hn
        rw [numbersSince_succ (by omega)]
        omega
      · have : n = r := by simpa using hn
        subst this
        omega
    · simp only [List.length_cons, List.countP_cons, List.length_append, List.countP_append,
        List.length_nil] at *
      omega

/-- A ROUTINE record leaves from within and an ALARM record joins the back. -/
theorem numberingLaw_displace {next : SeqNo} {held : List Held} (h : NumberingLaw next held) (r : Held)
    (room : held.length ≤ 384) (hr : r.seq = next) (alarm : r.record.cls = .alarm)
    (any : held.any Held.displaceable = true) :
    NumberingLaw (next + 1) (held.eraseP Held.displaceable ++ [r]) := by
  induction held with
  | nil => simp at any
  | cons a rest ih =>
    obtain ⟨h0, h1, h2, h3⟩ := h
    have hlen : (a :: rest).length ≤ 384 := room
    have hc : (a :: rest).countP (fun r => decide (r.record.cls = .alarm)) ≤ (a :: rest).length :=
      List.countP_le_length
    have ha : numbersSince (next + 1) a = numbersSince next a + 1 := numbersSince_succ (by omega)
    by_cases hd : Held.displaceable a = true
    · rw [List.eraseP_cons_of_pos hd]
      exact numberingLaw_enter h3 r (by simp at hlen; omega) hr
    · have hany : rest.any Held.displaceable = true := by simpa [hd] using any
      rw [List.eraseP_cons_of_neg hd]
      show NumberingLaw (next + 1) (a :: (rest.eraseP Held.displaceable ++ [r]))
      refine ⟨?_, by omega, ?_, ih h3 (by simp at hlen; omega) hany⟩
      · intro n hn
        rcases List.mem_append.mp hn with hn | hn
        · have := h0 n (List.mem_of_mem_eraseP hn)
          rw [numbersSince_succ (by omega)]
          omega
        · have hn : n = r := by simpa using hn
          subst hn
          have : numbersSince (next + 1) n = 1 := by
            unfold numbersSince
            rw [hr]
            bv_omega
          omega
      · have h4 : ∀ l : List Held, l.any Held.displaceable = true →
            (l.eraseP Held.displaceable).length + 1 = l.length ∧
            (l.eraseP Held.displaceable).countP (fun r => decide (r.record.cls = .alarm)) =
              l.countP (fun r => decide (r.record.cls = .alarm)) := by
          intro l hl
          induction l with
          | nil => simp at hl
          | cons b l ihl =>
            by_cases hb : Held.displaceable b = true
            · rw [List.eraseP_cons_of_pos hb]
              have : b.record.cls = .routine := by
                unfold Held.displaceable at hb
                simp_all
              simp [this]
            · rw [List.eraseP_cons_of_neg hb]
              have := ihl (by simpa [hb] using hl)
              simp only [List.length_cons, List.countP_cons]
              omega
        have := h4 rest hany
        simp only [List.length_cons, List.countP_cons, List.length_append, List.countP_append,
          List.length_nil, alarm, decide_true, if_true] at *
        omega

theorem orderLaw_enter {held : List Held} (h : held.Pairwise fun a b => b.delivered → a.delivered) (r : Held)
    (pending : r.delivered = false) : (held ++ [r]).Pairwise fun a b => b.delivered → a.delivered := by
  rw [List.pairwise_append]
  refine ⟨h, by simp, ?_⟩
  intro a _ b hb
  have : b = r := by simpa using hb
  simp [this, pending]

theorem Journal.full_eq_false {j : Journal} (h : j.full = false) : j.held.length < 384 := by
  have : ¬384 ≤ j.held.length := of_decide_eq_false h
  omega

/-- An entry keeps the laws of capacity, order and numbering, where there is room. -/
theorem Journal.Laws.enter {j : Journal} (h : j.Laws) (room : j.full = false) (r : Draft) : (j.enter r).Laws := by
  have := Journal.full_eq_false room
  refine ⟨?_, orderLaw_enter h.order _ rfl, numberingLaw_enter h.numbering _ (by omega) rfl, h.gap⟩
  simp only [Journal.CapacityLaw, Journal.heldCount, Journal.enter, List.length_append, List.length_cons,
    List.length_nil]
  omega

theorem Journal.Laws.enterGap {j : Journal} (h : j.Laws) (room : j.full = false) (now : Stamp) :
    (j.enterGap now).Laws := by
  have := h.enter room { cls := .alarm, stamp := now, body := .gap j.lost j.displaced }
  exact ⟨this.capacity, this.order, this.numbering, by simp [Journal.GapLaw, Journal.enterGap]⟩

theorem Journal.Laws.lose {j : Journal} (h : j.Laws) : j.lose.Laws := by
  refine ⟨h.capacity, h.order, h.numbering, ?_, countTo_le h.gap.2.1, h.gap.2.2⟩
  have : count16 j.lost ≠ 0 := countTo_ne_zero (by omega)
  simp [Journal.lose, this]

theorem Journal.Laws.arriveFull {j : Journal} (h : j.Laws) (r : Draft) : (j.arriveFull r).Laws := by
  unfold Journal.arriveFull
  split
  · exact h.lose
  · rename_i alarm
    split
    · rename_i any
      have hc := h.capacity
      unfold Journal.CapacityLaw Journal.heldCount at hc
      have hl : (j.held.eraseP Held.displaceable).length = j.held.length - 1 := by
        obtain ⟨a, ha, hd⟩ := List.any_eq_true.mp any
        exact List.length_eraseP_of_mem ha hd
      refine ⟨?_, ?_, ?_, ?_, h.gap.2.1, countTo_le h.gap.2.2⟩
      · simp only [Journal.CapacityLaw, Journal.heldCount, Journal.enter, List.length_append, List.length_cons,
          List.length_nil, hl]
        have : 0 < j.held.length := by
          cases hj : j.held with
          | nil => simp [hj] at any
          | cons => simp
        omega
      · exact orderLaw_enter (h.order.sublist List.eraseP_sublist) _ rfl
      · exact numberingLaw_displace h.numbering _ (by omega) rfl alarm any
      · have : count16 j.displaced ≠ 0 := countTo_ne_zero (by omega)
        simp [Journal.enter, this]
    · exact h.lose

theorem Journal.Laws.arrivePlain {j : Journal} (h : j.Laws) (r : Draft) : (j.arrivePlain r).Laws := by
  unfold Journal.arrivePlain
  split
  · exact h.arriveFull r
  · exact h.enter (Bool.eq_false_iff.mpr ‹_›) r

/-- An arrival keeps the laws of the journal (R16). -/
theorem Journal.Laws.arrive {j : Journal} (h : j.Laws) (now : Stamp) (r : Draft) : (j.arrive now r).Laws := by
  unfold Journal.arrive
  split
  · rename_i hg
    simp only [Bool.and_eq_true, Bool.not_eq_true'] at hg
    exact (h.enterGap hg.2 now).arrivePlain r
  · exact h.arrivePlain r

theorem Journal.Laws.arrivals {now : Stamp} {j k : Journal} (h : j.Laws) (g : Arrivals now j k) : k.Laws :=
  g.keeps (fun _ r h => h.arrive now r) h

theorem NumberingLaw.drop {next : SeqNo} {held : List Held} (h : NumberingLaw next held) (n : Nat) :
    NumberingLaw next (held.drop n) := by
  induction held generalizing n with
  | nil => simpa using h
  | cons a rest ih =>
    cases n with
    | zero => exact h
    | succ n => exact ih h.2.2.2 n

theorem Journal.Laws.drop {j : Journal} (h : j.Laws) (n : Nat) : ({ j with held := j.held.drop n } : Journal).Laws := by
  refine ⟨?_, h.order.drop, h.numbering.drop n, h.gap⟩
  have := h.capacity
  simp only [Journal.CapacityLaw, Journal.heldCount, List.length_drop] at *
  omega

/-- A removal by an ACK keeps the laws of the journal (R16). -/
theorem Journal.Laws.removeThrough {j : Journal} (h : j.Laws) (now : Stamp) (n : SeqNo) :
    (j.removeThrough now n).Laws := by
  unfold Journal.removeThrough
  dsimp only
  split
  · rename_i hg
    simp only [Bool.and_eq_true, Bool.not_eq_true'] at hg
    exact (h.drop _).enterGap hg.2 now
  · exact h.drop _

theorem Journal.Laws.clear {j : Journal} (_ : j.Laws) : j.clear.Laws :=
  ⟨by simp [Journal.CapacityLaw, Journal.heldCount, Journal.clear], by simp [Journal.OrderLaw, Journal.clear], trivial,
    by simp [Journal.GapLaw, Journal.clear]⟩

/-- Numbering looks at numbers and classes alone. -/
theorem NumberingLaw.map {next : SeqNo} {held : List Held} (h : NumberingLaw next held) (f : Held → Held)
    (seq : ∀ r, (f r).seq = r.seq) (record : ∀ r, (f r).record = r.record) : NumberingLaw next (held.map f) := by
  have age : ∀ r, numbersSince next (f r) = numbersSince next r := fun r => by simp [numbersSince, seq]
  induction held with
  | nil => trivial
  | cons a rest ih =>
    obtain ⟨h0, h1, h2, h3⟩ := h
    refine ⟨?_, by simpa [age] using h1, ?_, ih h3⟩
    · intro r hr
      obtain ⟨r', hr', rfl⟩ := List.mem_map.mp hr
      simpa [age] using h0 r' hr'
    · have : ∀ l : List Held, (l.map f).countP (fun r => decide (r.record.cls = .alarm)) =
          l.countP (fun r => decide (r.record.cls = .alarm)) := fun l => by
        rw [List.countP_map]; congr 1; funext r; simp [record]
      have h4 := this (a :: rest)
      simp only [List.map_cons] at h4
      rw [age, h4]
      simpa using h2

/-- A change of delivery states that keeps the run of DELIVERED records at the front keeps the laws. -/
theorem Journal.Laws.remark {j : Journal} (h : j.Laws) (f : Nat → Held → Held)
    (seq : ∀ n r, (f n r).seq = r.seq) (record : ∀ n r, (f n r).record = r.record)
    (order : ({ j with held := j.held.mapIdx f } : Journal).OrderLaw) :
    ({ j with held := j.held.mapIdx f } : Journal).Laws := by
  refine ⟨by simpa [Journal.CapacityLaw, Journal.heldCount] using h.capacity, order, ?_, h.gap⟩
  have : ∀ (l : List Held) (f : Nat → Held → Held), (∀ n r, (f n r).seq = r.seq) → (∀ n r, (f n r).record = r.record) →
      NumberingLaw j.next l → NumberingLaw j.next (l.mapIdx f) := by
    intro l
    induction l with
    | nil => intros; trivial
    | cons a rest ih =>
      intro f seq record h
      obtain ⟨h0, h1, h2, h3⟩ := h
      have age : ∀ n r, numbersSince j.next (f n r) = numbersSince j.next r := fun n r => by simp [numbersSince, seq]
      rw [List.mapIdx_cons]
      refine ⟨?_, by simpa [age] using h1, ?_, ih _ (fun n r => seq _ r) (fun n r => record _ r) h3⟩
      · intro r hr
        obtain ⟨i, hi, rfl⟩ := List.mem_mapIdx.mp hr
        simpa [age] using h0 _ (List.getElem_mem hi)
      · have hc : ∀ (l : List Held) (f : Nat → Held → Held), (∀ n r, (f n r).record = r.record) →
            (l.mapIdx f).countP (fun r => decide (r.record.cls = .alarm)) =
              l.countP (fun r => decide (r.record.cls = .alarm)) := by
          intro l
          induction l with
          | nil => intros; rfl
          | cons b l ihl =>
            intro f hf
            rw [List.mapIdx_cons, List.countP_cons, List.countP_cons, ihl _ (fun n r => hf _ r), hf]
        rw [age]
        simp only [List.length_cons, List.length_mapIdx, List.countP_cons, record, hc rest _ (fun n r => record _ r)] at *
        omega
  exact this _ f seq record h.numbering

theorem Journal.Laws.returnAll {j : Journal} (h : j.Laws) : j.returnAll.Laws :=
  ⟨by simpa [Journal.CapacityLaw, Journal.heldCount, Journal.returnAll] using h.capacity,
    by simp [Journal.OrderLaw, Journal.returnAll, List.pairwise_map, List.pairwise_of_forall],
    h.numbering.map _ (fun _ => rfl) (fun _ => rfl), h.gap⟩

/-- The first `n` records DELIVERED, as a list by index. -/
theorem Journal.markFirst_eq (j : Journal) (n : Nat) :
    j.markFirst n =
      { j with held := j.held.mapIdx fun i h => { h with delivered := h.delivered || decide (i < n) } } := by
  unfold Journal.markFirst
  congr 1
  apply List.ext_getElem
  · simp; omega
  · intro i h1 h2
    simp only [List.length_mapIdx] at h2
    by_cases hi : i < n
    · rw [List.getElem_append_left (by simp; omega)]
      simp [hi]
    · rw [List.getElem_append_right (by simp; omega)]
      simp only [List.length_map, List.length_take, List.getElem_drop, List.getElem_mapIdx]
      have : n + (i - min n j.held.length) = i := by omega
      simp [this, hi]

theorem Journal.Laws.markFirst {j : Journal} (h : j.Laws) (n : Nat) : (j.markFirst n).Laws := by
  rw [Journal.markFirst_eq]
  refine h.remark (fun i h => { h with delivered := h.delivered || decide (i < n) }) (fun _ _ => rfl) (fun _ _ => rfl) ?_
  unfold Journal.OrderLaw
  rw [List.pairwise_iff_getElem]
  intro a b ha hb hab
  have := List.pairwise_iff_getElem.mp h.order a b (by simpa using ha) (by simpa using hb) hab
  simp only [List.getElem_mapIdx, Bool.or_eq_true, decide_eq_true_eq]
  rintro (h | h)
  · exact .inl (this h)
  · exact .inr (by omega)

end Sys2Proof.Machine
end

