-- ==== Sys2Proof/Laws/Requests.lean ====
section
/-! SUPPORT. What a dispatch can do, once for all 25 request kinds. -/

namespace Sys2Proof.Machine

/-- What the owning block of a request kind answers to a payload, or the refusal of the length or the field check. -/
def serve (k : RequestKind) (payload : List Octet) (s : State) : Except Status Taken :=
  match k with
  | .identify => (parseEmpty payload).map fun _ => takeIdentify s
  | .linkStatus => (parseEmpty payload).map fun _ => takeLinkStatus s
  | .setLink => (parseSetLink payload).map fun a => takeSetLink a s
  | .restart => (parseRestart payload).map fun a => takeRestart a s
  | .configureLines => (parseConfigureLines payload).map fun a => takeConfigureLines a s
  | .readLines => (parseEmpty payload).map fun _ => takeReadLines s
  | .setWatch => (parseSetWatch payload).map fun a => takeSetWatch a s
  | .enableWatch => (parseWatchIndex payload).map fun a => takeEnableWatch a s
  | .disableWatch => (parseWatchIndex payload).map fun a => takeDisableWatch a s
  | .rearmWatch => (parseWatchIndex payload).map fun a => takeRearmWatch a s
  | .queryWatch => (parseWatchIndex payload).map fun a => takeQueryWatch a s
  | .driveOutput => (parseDriveOutput payload).map fun a => takeDriveOutput a s
  | .setOutputFunction => (parseSetOutputFunction payload).map fun a => takeSetOutputFunction a s
  | .readOutputs => (parseEmpty payload).map fun _ => takeReadOutputs s
  | .setTime => (parseSetTime payload).map fun a => takeSetTime a s
  | .setTimeAtPulse => (parseSetTimeAtPulse payload).map fun a => takeSetTimeAtPulse a s
  | .setSync => (parseSetSync payload).map fun a => takeSetSync a s
  | .configureTime => (parseConfigureTime payload).map fun a => takeConfigureTime a s
  | .readTime => (parseEmpty payload).map fun _ => takeReadTime s
  | .fetch => (parseFetch payload).map fun a => takeFetch a s
  | .ack => (parseAck payload).map fun a => takeAck a s
  | .setDelivery => (parseSetDelivery payload).map fun a => takeSetDelivery a s
  | .resume => (parseEmpty payload).map fun _ => takeResume s
  | .journalStatus => (parseEmpty payload).map fun _ => takeJournalStatus s
  | .clearJournal => (parseEmpty payload).map fun _ => takeClearJournal s

/-- An owning block's answer is the taking of a payload that passed the checks. -/
theorem map_ok {α : Type} {p : Except Status α} {f : α → Taken} {u : Taken} (h : p.map f = .ok u) :
    ∃ a, p = .ok a ∧ f a = u := by
  cases p with
  | error => cases h
  | ok a => exact ⟨a, rfl, by cases h; rfl⟩

/-- The dispatch of a frame, by what the owning block answers to its payload. -/
def dispatched (f : Frame) (answer : Except Status Taken) (s : State) : State :=
  match s.dispatcher.repeatOf f with
  | some copy => s.popRequest.queueReply { frame := copy, effect := none }
  | none =>
    match answer with
    | .error status => (Taken.refuse status s.popRequest).answer f
    | .ok taken => taken.answer f

/-- A dispatch of a frame, by its checks and its owning block. -/
theorem dispatchFrame_eq {α : Type} (f : Frame) (parse : List Octet → Except Status α) (take : α → State → Taken)
    (s : State) : dispatchFrame f parse take s = dispatched f ((parse f.payload).map fun a => take a s.popRequest) s := by
  unfold dispatchFrame dispatched
  cases s.dispatcher.repeatOf f
  · cases parse f.payload <;> rfl
  · rfl

/-- A dispatch of a kind: nothing, or the front of the request queue is dispatched. -/
theorem dispatch_cases {α : Type} (kind : RequestKind) (parse : List Octet → Except Status α) (take : α → State → Taken)
    (s : State) :
    dispatch kind parse take s = s ∨
      ∃ f rest, s.dispatcher.requests = f :: rest ∧ s.canDispatch = true ∧ RequestKind.ofCode f.kind = some kind ∧
        dispatch kind parse take s = dispatched f ((parse f.payload).map fun a => take a s.popRequest) s := by
  unfold dispatch
  split
  · rename_i can
    split
    · exact .inl rfl
    · rename_i f rest hq
      split
      · rename_i hk
        exact .inr ⟨f, rest, hq, can, hk, dispatchFrame_eq f parse take s⟩
      · exact .inl rfl
  · exact .inl rfl

/-- The command of a request kind: nothing, or the front of the request queue is dispatched. -/
theorem exec_command_cases (k : RequestKind) (s : State) :
    exec k.command s = .next s ∨
      ∃ f rest, s.dispatcher.requests = f :: rest ∧ s.canDispatch = true ∧ RequestKind.ofCode f.kind = some k ∧
        exec k.command s = .next (dispatched f (serve k f.payload s.popRequest) s) := by
  have lift : ∀ {α : Type} (parse : List Octet → Except Status α) (take : α → State → Taken),
      (∀ p s, (parse p).map (fun a => take a s) = serve k p s) →
      exec k.command s = .next (dispatch k parse take s) →
      (exec k.command s = .next s ∨
        ∃ f rest, s.dispatcher.requests = f :: rest ∧ s.canDispatch = true ∧ RequestKind.ofCode f.kind = some k ∧
          exec k.command s = .next (dispatched f (serve k f.payload s.popRequest) s)) := by
    intro α parse take h he
    rcases dispatch_cases k parse take s with hd | ⟨f, rest, hq, hc, hk, hd⟩
    · exact .inl (by rw [he, hd])
    · exact .inr ⟨f, rest, hq, hc, hk, by rw [he, hd, h]⟩
  cases k <;> exact lift _ _ (fun _ _ => rfl) rfl

/-- The dispatch of an unknown kind: nothing, or the front of the request queue is refused. -/
theorem dispatchUnknown_cases (s : State) :
    dispatchUnknown s = s ∨
      ∃ f rest, s.dispatcher.requests = f :: rest ∧ s.canDispatch = true ∧ RequestKind.ofCode f.kind = none ∧
        dispatchUnknown s = dispatched f (.error .unknownKind) s := by
  unfold dispatchUnknown
  split
  · rename_i can
    split
    · exact .inl rfl
    · rename_i f rest hq
      split
      · rename_i hk
        exact .inr ⟨f, rest, hq, can, hk, dispatchFrame_eq f _ _ s⟩
      · exact .inl rfl
  · exact .inl rfl

/-- The dispatch of the oldest request is that of its kind. -/
theorem dispatchOldest_cases (s : State) :
    dispatchOldest s = s ∨ dispatchOldest s = dispatchUnknown s ∨
      ∃ k : RequestKind, exec k.command s = .next (dispatchOldest s) := by
  unfold dispatchOldest
  split
  · exact .inl rfl
  · rename_i f rest _
    rcases RequestKind.ofCode f.kind with _ | k
    · exact .inr (.inl rfl)
    · exact .inr (.inr ⟨k, by cases k <;> rfl⟩)

/-- A property that the request path's own changes keep is kept by a dispatch whose owning block keeps it. -/
theorem dispatched_keeps (P : State → Prop)
    (path : ∀ s d, P s → P { s with dispatcher := d })
    (f : Frame) (answer : Except Status Taken) (s : State) (h : P s) (taken : ∀ u, answer = .ok u → P u.state) :
    P (dispatched f answer s) := by
  have close : ∀ (u : Taken), P u.state → P (u.answer f) := by
    intro u hu
    unfold Taken.answer
    rw [State.cacheReply_eq]
    exact path u.state _ hu
  unfold dispatched
  split
  · exact path s _ h
  · split
    · exact close _ (path s _ h)
    · exact close _ (taken _ rfl)

end Sys2Proof.Machine
end

