-- ==== Sys2Proof/Laws/Step.lean ====
section
/-! SUPPORT. How to show that a property of states is kept by every command: it is enough that each of the part's own
operations keeps it. A tick is made of them. -/

namespace Sys2Proof.Machine

/-- At each choice one of the events beside the pulse is taken, or no more of them. -/
theorem takeBesides_succ (fuel : Nat) (s : State) :
    takeBesides (fuel + 1) s =
      match s.besides[(s.choose (s.besides.length + 1)).1]? with
      | none => (s.choose (s.besides.length + 1)).2
      | some e => takeBesides fuel (takeBeside e (s.choose (s.besides.length + 1)).2) := rfl

/-- What a pulse does: nothing where none is due; the time base's change with its records; or, where these are a STEP and
a SYNC_GAINED record, events of other blocks between the arrivals of the two (R120). -/
theorem syncPulse_cases (s : State) :
    (s.time.pulseDue = false ∧ syncPulse s = s)
      ∨ (s.time.pulseDue = true ∧ (∀ time step gained, s.time.takePulse ≠ (time, [step, gained]))
        ∧ syncPulse s = s.withTime s.time.takePulse)
      ∨ ∃ time step gained, s.time.pulseDue = true ∧ s.time.takePulse = (time, [step, gained])
        ∧ syncPulse s = (takeBesides besideFuel (s.withTime (time, [step]))).arrive gained := by
  unfold syncPulse
  split
  · rename_i h
    split
    · rename_i time step gained e
      exact .inr (.inr ⟨time, step, gained, h, e, rfl⟩)
    · rename_i e
      exact .inr (.inl ⟨h, fun time step gained g => e time step gained g, rfl⟩)
  · rename_i h
    exact .inl ⟨by simpa using h, rfl⟩

/-- Each operation of the part keeps a property of states, in the states in which it comes about. -/
structure Keeps (P : State → Prop) : Prop where
  choice : ∀ s n, P s → P { s with choices := n }
  moment : ∀ s m, P s → P { s with moment := m }
  advance : ∀ pins sync s, P s → P (Machine.advance pins sync s)
  powerOn : ∀ level s, P s → P (Machine.powerOn level s)
  resetAssertion : ∀ s, P s → P (Machine.resetAssertion s)
  resetRelease : ∀ s, P s → P (Machine.resetRelease s)
  takeSample : ∀ s, s.sampleReady = true → P s → P (Machine.takeSample s)
  qualifyExpiry : ∀ w s, P s → P (Machine.qualifyExpiry w s)
  watchPulseEnd : ∀ w s, P s → P (Machine.watchPulseEnd w s)
  hostPulseEnd : ∀ o s, P s → P (Machine.hostPulseEnd o s)
  pulse : ∀ s records, P s → P (s.withTime (s.time.takePulse.1, records))
  arrive : ∀ s r, P s → P (s.arrive r)
  armDeadlineExpiry : ∀ s, P s → P (Machine.armDeadlineExpiry s)
  missedPulseExpiry : ∀ s, P s → P (Machine.missedPulseExpiry s)
  retransmitExpiry : ∀ s, P s → P (Machine.retransmitExpiry s)
  takeOctet : ∀ data parity stop s, P s → P (Machine.takeOctet data parity stop s)
  frameArrives : ∀ f s, P s → P (Machine.frameArrives f s)
  abandonFrame : ∀ s, P s → P (Machine.abandonFrame s)
  foundStart : ∀ confirmed s, P s → P (Machine.foundStart confirmed s)
  replyHandOver : ∀ s, P s → P (Machine.replyHandOver s)
  startNoticeHandOver : ∀ s, P s → P (Machine.startNoticeHandOver s)
  reportHandOver : ∀ s, P s → P (Machine.reportHandOver s)
  frameLeaves : ∀ source s, P s → P (Machine.frameLeaves source s)
  repetitionTimerExpiry : ∀ s, P s → P (Machine.repetitionTimerExpiry s)
  request : ∀ k f rest s, s.dispatcher.requests = f :: rest → s.canDispatch = true → P s →
    P (dispatched f (serve k f.payload s.popRequest) s)
  unknown : ∀ f rest s, s.dispatcher.requests = f :: rest → s.canDispatch = true → P s →
    P (dispatched f (.error .unknownKind) s)

namespace Keeps

theorem command {P : State → Prop} (h : Keeps P) (k : RequestKind) {s t : State} (hs : P s)
    (he : exec k.command s = .next t) : P t := by
  rcases exec_command_cases k s with g | ⟨f, rest, hq, hc, _, g⟩
  · rw [g] at he
    cases he
    exact hs
  · rw [g] at he
    cases he
    exact h.request k f rest s hq hc hs

theorem unknownKind {P : State → Prop} (h : Keeps P) {s : State} (hs : P s) : P (dispatchUnknown s) := by
  rcases dispatchUnknown_cases s with g | ⟨f, rest, hq, hc, _, g⟩ <;> rw [g]
  · exact hs
  · exact h.unknown f rest s hq hc hs

theorem oldest {P : State → Prop} (h : Keeps P) {s : State} (hs : P s) : P (dispatchOldest s) := by
  rcases dispatchOldest_cases s with g | g | ⟨k, g⟩
  · rw [g]
    exact hs
  · rw [g]
    exact h.unknownKind hs
  · exact h.command k hs g

theorem dispatcherEvent {P : State → Prop} (h : Keeps P) {s : State} (hs : P s) : P (Machine.dispatcherEvent s) := by
  unfold Machine.dispatcherEvent
  split
  · exact h.oldest hs
  · split
    · exact h.replyHandOver s hs
    · exact hs

theorem departFirst {P : State → Prop} (h : Keeps P) (fuel : Nat) {s : State} (hs : P s) :
    P (Machine.departFirst fuel s) := by
  induction fuel generalizing s with
  | zero => exact hs
  | succ fuel ih =>
    unfold Machine.departFirst
    split
    · exact ih (h.dispatcherEvent hs)
    · exact hs

theorem sampleBehind {P : State → Prop} (h : Keeps P) {s : State} (hs : P s) : P (Machine.sampleBehind s) := by
  have first := h.departFirst departFuel hs
  unfold Machine.sampleBehind
  dsimp only
  split
  · exact h.takeSample _ ‹_› first
  · exact first

theorem sample {P : State → Prop} (h : Keeps P) {s : State} (hs : P s) : P (Machine.sample s) := by
  unfold Machine.sample
  split
  · exact h.sampleBehind hs
  · exact hs

theorem takeBesides {P : State → Prop} (h : Keeps P) (fuel : Nat) {s : State} (hs : P s) :
    P (Machine.takeBesides fuel s) := by
  induction fuel generalizing s with
  | zero => exact hs
  | succ fuel ih =>
    unfold Machine.takeBesides
    obtain ⟨n, hn⟩ := s.choose_eq (s.besides.length + 1)
    dsimp only
    rw [hn]
    have hc := h.choice s n hs
    split
    · exact hc
    · rename_i e _
      refine ih ?_
      cases e with
      | sample => exact h.sample hc
      | qualify w => exact h.qualifyExpiry w _ hc
      | dispatch => exact h.oldest hc

theorem syncPulse {P : State → Prop} (h : Keeps P) {s : State} (hs : P s) : P (Machine.syncPulse s) := by
  rcases syncPulse_cases s with ⟨-, e⟩ | ⟨-, -, e⟩ | ⟨time, step, gained, -, ht, e⟩ <;> rw [e]
  · exact hs
  · exact h.pulse s _ hs
  · have := h.pulse s [step] hs
    rw [ht] at this
    exact h.arrive _ gained (h.takeBesides _ this)

theorem takeDue {P : State → Prop} (h : Keeps P) (e : Due) {s : State} (hs : P s) : P (Machine.takeDue e s) := by
  cases e
  case sample => exact h.sample hs
  case pulse => exact h.syncPulse hs
  case qualify w => exact h.qualifyExpiry w s hs
  case watchPulse w => exact h.watchPulseEnd w s hs
  case hostPulse o => exact h.hostPulseEnd o s hs
  case deadline => exact h.armDeadlineExpiry s hs
  case missedPulse => exact h.missedPulseExpiry s hs
  case retransmit => exact h.retransmitExpiry s hs
  case repetition => exact h.repetitionTimerExpiry s hs
  case dispatch => exact h.oldest hs
  case handOver =>
    show P (Machine.handOver s)
    unfold handOver
    split
    · exact h.replyHandOver s hs
    · split
      · exact h.startNoticeHandOver s hs
      · exact h.reportHandOver s hs

theorem takeDueEvents {P : State → Prop} (h : Keeps P) (fuel : Nat) {s : State} (hs : P s) :
    P (Machine.takeDueEvents fuel s) := by
  induction fuel generalizing s with
  | zero => exact hs
  | succ fuel ih =>
    unfold Machine.takeDueEvents
    obtain ⟨n, hn⟩ := s.choose_eq s.dueEvents.length
    dsimp only
    rw [hn]
    split
    · exact h.choice s n hs
    · exact ih (h.takeDue _ (h.choice s n hs))

theorem settle {P : State → Prop} (h : Keeps P) {s : State} (hs : P s) : P s.settle := h.takeDueEvents _ hs

theorem found {P : State → Prop} (h : Keeps P) (p : Party) {s : State} (hs : P s) : P (s.found p) := by
  unfold State.found
  split
  · exact h.moment _ _ (h.settle hs)
  · exact h.moment _ _ hs

theorem octetArrives {P : State → Prop} (h : Keeps P) (data : Octet) (parity stop : Level) {s : State} (hs : P s) :
    P (Machine.octetArrives data parity stop s) := by
  unfold Machine.octetArrives
  split
  · exact hs
  · split
    · exact h.takeOctet data parity stop _ (h.found .receiver hs)
    · split
      · exact hs
      · unfold arriveAfterStart
        split
        · exact h.frameArrives _ _ (h.moment s _ hs)
        · exact h.moment s _ hs

theorem startBitFound {P : State → Prop} (h : Keeps P) (high confirmed : Bool) {s : State} (hs : P s) :
    P (Machine.startBitFound high confirmed s) := by
  unfold Machine.startBitFound
  split
  · exact h.foundStart confirmed _ (h.found .receiver hs)
  · exact hs

theorem interOctetTimeout {P : State → Prop} (h : Keeps P) {s : State} (hs : P s) :
    P (Machine.interOctetTimeout s) := by
  unfold Machine.interOctetTimeout
  split
  · exact h.abandonFrame _ (h.found .receiver hs)
  · exact hs

theorem lastOctetLeaves {P : State → Prop} (h : Keeps P) {s : State} (hs : P s) : P (Machine.lastOctetLeaves s) := by
  unfold Machine.lastOctetLeaves
  split
  · exact hs
  · exact h.frameLeaves _ _ (h.found .transmitter hs)

/-- Every command keeps a property that every operation keeps. -/
theorem exec {P : State → Prop} (h : Keeps P) (c : Instr) {s t : State} (hs : P s)
    (he : Machine.exec c s = .next t) : P t := by
  have ofEq : ∀ {u : State}, P u → (Host.Outcome.next u : Result) = .next t → P t := by
    intro u hu e
    cases e
    exact hu
  have ofSample : ∀ (b : Bool), P (if (s.sampleReady && b) = true then Machine.sampleBehind s else s) := by
    intro b
    split
    · exact h.sampleBehind hs
    · exact hs
  cases c
  case powerOn l => exact ofEq (h.powerOn l s hs) he
  case resetAssertion => exact ofEq (h.resetAssertion s hs) he
  case resetRelease => exact ofEq (h.resetRelease s hs) he
  case tick pins sync => exact ofEq (h.advance pins sync _ (h.settle hs)) he
  case slewTick pins sync =>
    refine ofEq ?_ he
    unfold Machine.slewTick
    dsimp only
    split
    · exact h.advance pins sync _ (h.settle hs)
    · exact hs
  case sample => exact ofEq (h.sample hs) he
  case settleEnd i => exact ofEq (ofSample _) he
  case chatterWindowExpiry i => exact ofEq (ofSample _) he
  case recoveryExpiry i => exact ofEq (ofSample _) he
  case qualifyExpiry w => exact ofEq (h.qualifyExpiry w s hs) he
  case watchPulseEnd w => exact ofEq (h.watchPulseEnd w s hs) he
  case hostPulseEnd o => exact ofEq (h.hostPulseEnd o s hs) he
  case syncPulse => exact ofEq (h.syncPulse hs) he
  case armDeadlineExpiry => exact ofEq (h.armDeadlineExpiry s hs) he
  case missedPulseExpiry => exact ofEq (h.missedPulseExpiry s hs) he
  case retransmitExpiry => exact ofEq (h.retransmitExpiry s hs) he
  case octetArrives d p q => exact ofEq (h.octetArrives d p q hs) he
  case interOctetTimeout => exact ofEq (h.interOctetTimeout hs) he
  case startBitFound a b => exact ofEq (h.startBitFound a b hs) he
  case replyHandOver => exact ofEq (h.replyHandOver s hs) he
  case startNoticeHandOver => exact ofEq (h.startNoticeHandOver s hs) he
  case reportHandOver => exact ofEq (h.reportHandOver s hs) he
  case lastOctetLeaves => exact ofEq (h.lastOctetLeaves hs) he
  case repetitionTimerExpiry => exact ofEq (h.repetitionTimerExpiry s hs) he
  case dispatchUnknownKind => exact ofEq (h.unknownKind hs) he
  case identify => exact h.command .identify hs he
  case linkStatus => exact h.command .linkStatus hs he
  case setLink => exact h.command .setLink hs he
  case restart => exact h.command .restart hs he
  case configureLines => exact h.command .configureLines hs he
  case readLines => exact h.command .readLines hs he
  case setWatch => exact h.command .setWatch hs he
  case enableWatch => exact h.command .enableWatch hs he
  case disableWatch => exact h.command .disableWatch hs he
  case rearmWatch => exact h.command .rearmWatch hs he
  case queryWatch => exact h.command .queryWatch hs he
  case driveOutput => exact h.command .driveOutput hs he
  case setOutputFunction => exact h.command .setOutputFunction hs he
  case readOutputs => exact h.command .readOutputs hs he
  case setTime => exact h.command .setTime hs he
  case setTimeAtPulse => exact h.command .setTimeAtPulse hs he
  case setSync => exact h.command .setSync hs he
  case configureTime => exact h.command .configureTime hs he
  case readTime => exact h.command .readTime hs he
  case fetch => exact h.command .fetch hs he
  case ack => exact h.command .ack hs he
  case setDelivery => exact h.command .setDelivery hs he
  case resume => exact h.command .resume hs he
  case journalStatus => exact h.command .journalStatus hs he
  case clearJournal => exact h.command .clearJournal hs he

/-- Every step keeps a property that every operation and the taking of a command from the queue keep. -/
theorem step {P : State → Prop} (h : Keeps P) (queue : ∀ s cs, P s → P { s with pending := cs }) {s t : State}
    (hs : P s) (he : Machine.step s = .next t) : P t := by
  unfold Machine.step at he
  split at he
  · cases he
    exact hs
  · exact h.exec _ (queue s _ hs) he

end Keeps

end Sys2Proof.Machine
end

