-- ==== Sys2Proof/Laws/Field.lean ====
section
/-! SUPPORT. What the events of the field side can do: the samples, the watches' expiries and the requests to lines and
watches change lines, watches, outputs and the count of free values, and their records arrive at the journal. The events
of the time base change it, and their records arrive. -/

namespace Sys2Proof.Machine

/-- The field side has changed from `s` to `t`, and records have arrived. -/
def FieldChange (s t : State) : Prop :=
  t = { s with front := t.front, watches := t.watches, outputs := t.outputs, choices := t.choices, journal := t.journal }
    ∧ Arrivals s.time.now s.journal t.journal

namespace FieldChange

theorem refl (s : State) : FieldChange s s := ⟨rfl, .done _⟩

theorem trans {s t u : State} (h : FieldChange s t) (g : FieldChange t u) : FieldChange s u := by
  obtain ⟨h1, h2⟩ := h
  obtain ⟨g1, g2⟩ := g
  refine ⟨by rw [g1, h1], h2.trans ?_⟩
  rwa [show s.time = t.time by rw [h1]]

theorem hold {s t : State} (h : FieldChange s t) : t.hold = s.hold := by rw [h.1]
theorem time {s t : State} (h : FieldChange s t) : t.time = s.time := by rw [h.1]
theorem delivery {s t : State} (h : FieldChange s t) : t.delivery = s.delivery := by rw [h.1]
theorem link {s t : State} (h : FieldChange s t) : t.link = s.link := by rw [h.1]
theorem dispatcher {s t : State} (h : FieldChange s t) : t.dispatcher = s.dispatcher := by rw [h.1]
theorem announcer {s t : State} (h : FieldChange s t) : t.announcer = s.announcer := by rw [h.1]
theorem pending {s t : State} (h : FieldChange s t) : t.pending = s.pending := by rw [h.1]

theorem laws {s t : State} (h : FieldChange s t) (hj : s.journal.Laws) : t.journal.Laws := hj.arrivals h.2

theorem ofSame {s t : State} (h : SameOutside s t) : FieldChange s t := by
  refine ⟨?_, ?_⟩
  · conv => lhs; rw [h]
    simp [h.front, h.journal]
  · rw [h.journal]
    exact .done _

theorem lines {s : State} (f : FrontEnd) : FieldChange s { s with front := f } := ⟨rfl, .done _⟩

theorem finish {s : State} {k : Work} (h : FieldChange s k.state) : FieldChange s k.finish := by
  obtain ⟨j, n, e, g⟩ := finish_eq k
  refine h.trans ⟨?_, ?_⟩ <;> rw [e]
  exact g

end FieldChange

theorem run_finish_change {s : State} {k : Work} (h : FieldChange s k.state) (ts : List Task) :
    FieldChange s (k.run ts).finish :=
  (h.trans (.ofSame (run_sameOutside ts k))).finish

@[simp] theorem sampled_watches (s : State) : s.sampled.watches = s.watches := by simp only [State.sampled]
@[simp] theorem sampled_outputs (s : State) : s.sampled.outputs = s.outputs := by simp only [State.sampled]
@[simp] theorem sampled_time (s : State) : s.sampled.time = s.time := by simp only [State.sampled]
@[simp] theorem sampled_sampleDue (s : State) : s.sampled.front.sampleDue = false := by simp only [State.sampled]

/-- A sample changes the field side. -/
theorem takeSample_change (s : State) : FieldChange s (takeSample s) := by
  unfold takeSample
  split
  · exact .lines _
  · exact .finish (.trans (.lines _) (.ofSame (deliver_sameOutside _ _)))

theorem qualifyExpiry_change (w : Fin 16) (s : State) : FieldChange s (qualifyExpiry w s) := by
  unfold qualifyExpiry
  split
  · split
    · exact run_finish_change (.ofSame (trip_sameOutside w _ _)) _
    · exact .refl s
  · exact .refl s

theorem watchPulseEnd_change (w : Fin 16) (s : State) : FieldChange s (watchPulseEnd w s) :=
  .ofSame (releaseWhere_sameOutside _ s)

theorem hostPulseEnd_change (o : Fin 8) (s : State) : FieldChange s (hostPulseEnd o s) := by
  unfold hostPulseEnd
  split
  · exact .ofSame rfl
  · exact .refl s

theorem evaluateAtTaking_change (w : Fin 16) (before : List Task) (s : State) :
    FieldChange s (evaluateAtTaking w before s) := by
  unfold evaluateAtTaking
  exact run_finish_change (.ofSame (run_sameOutside before _)) _

theorem endAtTaking_change (i : Fin 32) (k : Work) : FieldChange k.state (endAtTaking i k).state := by
  unfold endAtTaking
  generalize endSuppression i k.state.time.now k.state.front.lines[i] = result
  dsimp only
  exact (FieldChange.lines (k.state.setLine i result.line).front).trans
    (.ofSame (deliver_sameOutside result.edge.toList { state := k.state.setLine i result.line, sent := _ }))

theorem endSuppressions_change (fuel : Nat) (lines : List (Fin 32)) (k : Work) :
    FieldChange k.state (endSuppressions fuel lines k).state := by
  induction fuel generalizing lines k with
  | zero => exact .refl _
  | succ fuel ih =>
    unfold endSuppressions
    dsimp only
    split
    · exact .refl _
    · rename_i i _
      refine .trans (.trans (.ofSame (choose_sameOutside k.state (k.state.endsNext lines).length)) ?_) (ih _ _)
      exact endAtTaking_change i { k with state := (k.state.choose (k.state.endsNext lines).length).2 }

theorem configureLines_change (r : ConfigureLines) (s : State) : FieldChange s (configureLines r s) := by
  unfold configureLines
  exact .finish (.trans (.lines _) (endSuppressions_change _ _ { state := _, sent := [] }))

theorem takeConfigureLines_change (r : ConfigureLines) (s : State) :
    FieldChange s (takeConfigureLines r s).state := by
  show FieldChange s (configureLines r (if s.sampleFirst r = true then takeSample s else s))
  split
  · exact (takeSample_change s).trans (configureLines_change r _)
  · exact configureLines_change r s

theorem takeSetWatch_change (r : SetWatch) (s : State) : FieldChange s (takeSetWatch r s).state := by
  unfold takeSetWatch
  split
  · exact .refl s
  · split
    · exact .ofSame (setWatch_sameOutside s r.watch _)
    · split
      · exact .ofSame (setWatch_sameOutside s r.watch _)
      · exact .refl s

theorem takeEnableWatch_change (w : Fin 16) (s : State) : FieldChange s (takeEnableWatch w s).state := by
  unfold takeEnableWatch
  split
  · exact .refl s
  · split
    · exact .refl s
    · exact .trans (.ofSame (setWatch_sameOutside s w _)) (evaluateAtTaking_change w [] _)

theorem takeDisableWatch_change (w : Fin 16) (s : State) : FieldChange s (takeDisableWatch w s).state := by
  have h : FieldChange s (releaseAll w (s.setWatchState w .disabled)) :=
    .ofSame ((setWatch_sameOutside s w _).trans (releaseWhere_sameOutside _ _))
  unfold takeDisableWatch
  dsimp only
  split
  · exact h.trans (run_finish_change (k := { state := _, sent := [] }) (.refl _) [.departed w])
  · exact h

theorem takeRearmWatch_change (w : Fin 16) (s : State) : FieldChange s (takeRearmWatch w s).state := by
  unfold takeRearmWatch
  split
  · have h : FieldChange s (releaseDrive w (s.setWatchState w .armed)) :=
      .ofSame ((setWatch_sameOutside s w _).trans (releaseWhere_sameOutside _ _))
    exact h.trans (evaluateAtTaking_change w [.departed w] _)
  · exact .refl s
  · exact .refl s

theorem takeDriveOutput_change (r : DriveOutput) (s : State) : FieldChange s (takeDriveOutput r s).state := by
  unfold takeDriveOutput
  split
  · exact .refl s
  · exact .refl s
  · exact .refl s
  · dsimp only [Taken.ok]
    split <;> exact .ofSame rfl

theorem takeSetOutputFunction_change (r : SetOutputFunction) (s : State) :
    FieldChange s (takeSetOutputFunction r s).state := by
  unfold takeSetOutputFunction
  split
  · exact .refl s
  · exact .refl s
  · dsimp only [Taken.ok]
    split <;> exact .ofSame rfl
  · dsimp only [Taken.ok]
    split
    · exact .ofSame rfl
    · exact .refl s

/-- The time base has changed from `s` to `t`, and records have arrived. -/
def TimeChange (s t : State) : Prop :=
  t = { s with time := t.time, choices := t.choices, journal := t.journal } ∧ ∃ now, Arrivals now s.journal t.journal

namespace TimeChange

theorem refl (s : State) : TimeChange s s := ⟨rfl, s.time.now, .done _⟩

theorem hold {s t : State} (h : TimeChange s t) : t.hold = s.hold := by rw [h.1]
theorem front {s t : State} (h : TimeChange s t) : t.front = s.front := by rw [h.1]
theorem watches {s t : State} (h : TimeChange s t) : t.watches = s.watches := by rw [h.1]
theorem outputs {s t : State} (h : TimeChange s t) : t.outputs = s.outputs := by rw [h.1]
theorem delivery {s t : State} (h : TimeChange s t) : t.delivery = s.delivery := by rw [h.1]
theorem link {s t : State} (h : TimeChange s t) : t.link = s.link := by rw [h.1]
theorem dispatcher {s t : State} (h : TimeChange s t) : t.dispatcher = s.dispatcher := by rw [h.1]
theorem announcer {s t : State} (h : TimeChange s t) : t.announcer = s.announcer := by rw [h.1]
theorem pending {s t : State} (h : TimeChange s t) : t.pending = s.pending := by rw [h.1]

theorem laws {s t : State} (h : TimeChange s t) (hj : s.journal.Laws) : t.journal.Laws := by
  obtain ⟨_, g⟩ := h.2
  exact hj.arrivals g

end TimeChange

/-- The time base changes as given, and its records arrive in their order. -/
theorem withTime_eq (s : State) (r : TimeBase × List Draft) :
    s.withTime r = { s with time := r.1, journal := r.2.foldl (fun j d => j.arrive r.1.now d) s.journal } :=
  send_single_eq r.2 { s with time := r.1 }

theorem foldl_arrivals (now : Stamp) (rs : List Draft) (j : Journal) :
    Arrivals now j (rs.foldl (fun j r => j.arrive now r) j) := by
  induction rs generalizing j with
  | nil => exact .done j
  | cons r rest ih => exact .more r (ih _)

theorem withTime_change (s : State) (r : TimeBase × List Draft) : TimeChange s (s.withTime r) := by
  rw [withTime_eq]
  exact ⟨rfl, r.1.now, foldl_arrivals _ _ _⟩

/-- A record arrives. -/
theorem arrive_change (s : State) (r : Draft) : FieldChange s (s.arrive r) := ⟨rfl, .more r (.done _)⟩

theorem armDeadlineExpiry_change (s : State) : TimeChange s (armDeadlineExpiry s) := by
  unfold armDeadlineExpiry
  split
  · split
    · exact withTime_change s _
    · exact .refl s
  · exact .refl s

theorem missedPulseExpiry_change (s : State) : TimeChange s (missedPulseExpiry s) := by
  unfold missedPulseExpiry
  split
  · exact withTime_change s _
  · exact .refl s

theorem takeSetTime_change (t : TimeValue) (s : State) : TimeChange s (takeSetTime t s).state := withTime_change s _

theorem takeSetTimeAtPulse_change (r : SetTimeAtPulse) (s : State) : TimeChange s (takeSetTimeAtPulse r s).state :=
  ⟨rfl, s.time.now, .done _⟩

theorem takeSetSync_change (r : SyncSetting) (s : State) : TimeChange s (takeSetSync r s).state :=
  ⟨rfl, s.time.now, .done _⟩

theorem takeConfigureTime_change (r : ConfigureTime) (s : State) : TimeChange s (takeConfigureTime r s).state :=
  ⟨rfl, s.time.now, .done _⟩

end Sys2Proof.Machine
end

