-- ==== Sys2Proof/Laws/Link.lean ====
section
/-! SUPPORT. What reception, hand-overs and the leaving of a frame can do, and what a start leaves in each field. -/

namespace Sys2Proof.Machine

/-- Reception changes the link, and at the end of a frame the dispatcher, the announcer, or nothing more. -/
def ReceptionChange (s t : State) : Prop :=
  t = { s with link := t.link, dispatcher := t.dispatcher, announcer := t.announcer, moment := t.moment }

namespace ReceptionChange

theorem refl (s : State) : ReceptionChange s s := rfl

theorem trans {s t u : State} (h : ReceptionChange s t) (g : ReceptionChange t u) : ReceptionChange s u := by
  unfold ReceptionChange at *
  rw [g, h]

theorem moment (s : State) (m : Moment) : ReceptionChange s { s with moment := m } := rfl

theorem link {s : State} (l : Link) : ReceptionChange s { s with link := l } := rfl

theorem countLink (s : State) (f : LinkCounters → LinkCounters) : ReceptionChange s (s.countLink f) := rfl
theorem setReceiver (s : State) (r : Receiver) : ReceptionChange s (s.setReceiver r) := rfl
theorem setAssembler (s : State) (a : Assembler) : ReceptionChange s (s.setAssembler a) := rfl

theorem hold {s t : State} (h : ReceptionChange s t) : t.hold = s.hold := by rw [h]
theorem front {s t : State} (h : ReceptionChange s t) : t.front = s.front := by rw [h]
theorem watches {s t : State} (h : ReceptionChange s t) : t.watches = s.watches := by rw [h]
theorem outputs {s t : State} (h : ReceptionChange s t) : t.outputs = s.outputs := by rw [h]
theorem time {s t : State} (h : ReceptionChange s t) : t.time = s.time := by rw [h]
theorem journal {s t : State} (h : ReceptionChange s t) : t.journal = s.journal := by rw [h]
theorem delivery {s t : State} (h : ReceptionChange s t) : t.delivery = s.delivery := by rw [h]
theorem choices {s t : State} (h : ReceptionChange s t) : t.choices = s.choices := by rw [h]
theorem pending {s t : State} (h : ReceptionChange s t) : t.pending = s.pending := by rw [h]

end ReceptionChange

theorem abandonFrame_change (s : State) : ReceptionChange s (abandonFrame s) := by
  unfold abandonFrame
  split
  · exact .refl s
  · exact (ReceptionChange.setAssembler s _).trans (.countLink _ _)

theorem frameArrives_change (f : Frame) (s : State) : ReceptionChange s (frameArrives f s) := by
  unfold frameArrives
  split
  · exact rfl
  · split
    · exact (show ReceptionChange s (s.queueReply _) from rfl).trans (.countLink _ _)
    · exact .countLink s _

theorem frameEnds_change (octets : List Octet) (running received : BitVec 16) (damaged : Bool) (s : State) :
    ReceptionChange s (frameEnds octets running received damaged s) := by
  unfold frameEnds
  refine (ReceptionChange.setAssembler s .hunt).trans ?_
  generalize s.setAssembler .hunt = t
  dsimp only
  split
  · exact .countLink t _
  · split
    · exact .countLink t _
    · split
      · exact frameArrives_change _ t
      · exact .refl t

theorem assemble_change (o : Octet) (bad : Bool) (s : State) : ReceptionChange s (assemble o bad s) := by
  unfold assemble
  split
  · split
    · exact .setAssembler s _
    · exact .countLink s _
  · split
    · exact .setAssembler s _
    · exact (ReceptionChange.setAssembler s _).trans (.countLink _ _)
  · exact .setAssembler s _
  · exact .setAssembler s _
  · exact frameEnds_change ..

theorem takeOctet_change (data : Octet) (parity stop : Level) (s : State) :
    ReceptionChange s (takeOctet data parity stop s) :=
  ((ReceptionChange.countLink s _).trans (.setReceiver _ _)).trans (assemble_change ..)

theorem foundStart_change (confirmed : Bool) (s : State) : ReceptionChange s (foundStart confirmed s) :=
  .setReceiver s _

theorem arriveAfterStart_change (r : Reception) (data : Octet) (parity stop : Level) (s : State) :
    ReceptionChange s (arriveAfterStart r data parity stop s) := by
  unfold arriveAfterStart
  split
  · exact frameArrives_change _ s
  · exact .refl s

theorem switchLink_change (settings : LinkSettings) (s : State) : ReceptionChange s (switchLink settings s) := by
  unfold switchLink
  split
  · exact .refl s
  · exact ((abandonFrame_change s).trans (.setReceiver _ _)).trans (.link _)

theorem replyHandOver_change (s : State) : ReceptionChange s (replyHandOver s) := by
  unfold replyHandOver
  split
  · split
    · exact .refl s
    · exact rfl
  · exact .refl s

theorem startNoticeHandOver_change (s : State) : ReceptionChange s (startNoticeHandOver s) := by
  unfold startNoticeHandOver
  split
  · exact rfl
  · exact .refl s

theorem repetitionTimerExpiry_change (s : State) : ReceptionChange s (repetitionTimerExpiry s) := by
  unfold repetitionTimerExpiry
  split
  · exact rfl
  · exact .refl s

/-! ## Starts -/

/-- A RESTART FULL, field by field. -/
theorem restartFull_eq (s : State) :
    restartFull s =
      { s with
        front := s.front.fullStart
        watches := fullStartWatches s.watches
        outputs := Vector.ofFn Output.default
        time := s.time.fullStart
        journal := s.journal.returnAll.arrive s.time.fullStart.now
          { cls := .alarm, stamp := s.time.fullStart.now
            body := .restart .restartFull s.journal.heldCount s.journal.deliveredCount }
        delivery := .powerOn
        link := s.link.fullStart
        dispatcher := { s.dispatcher.emptied with lastStartCause := .restartFull }
        announcer := .started .restartFull
        moment := { s.moment with cut := s.cutOff } } := rfl

/-- A RESTART LINK, field by field. -/
theorem restartLink_eq (s : State) :
    restartLink s =
      { s with
        dispatcher := s.dispatcher.emptied, journal := s.journal.returnAll, delivery := s.delivery.restarted } := rfl

/-- What the leaving of a last octet does before the line becomes FREE: the whole of it. -/
theorem leavingEffect_cases (source : TxSource) (s : State) :
    leavingEffect source s = s ∨ (∃ settings, leavingEffect source s = switchLink settings s) ∨
      leavingEffect source s = restartFull s ∨ leavingEffect source s = restartLink s ∨
      leavingEffect source s = { s with delivery := s.delivery.reportLeft } := by
  rcases source with (_ | _ | _ | _) | _ | _
  · exact .inl rfl
  · exact .inr (.inl ⟨_, rfl⟩)
  · exact .inr (.inr (.inl rfl))
  · exact .inr (.inr (.inr (.inl rfl)))
  · exact .inl rfl
  · exact .inr (.inr (.inr (.inr rfl)))

end Sys2Proof.Machine
end

