-- ==== Sys2Proof/Laws/Delivery.lean ====
section
/-! SUPPORT. Which held records are DELIVERED after each change of the journal. -/

namespace Sys2Proof.Machine

/-- The DELIVERED count is the number of DELIVERED records' numbers. -/
theorem Journal.deliveredCount_eq (j : Journal) : j.deliveredCount = j.deliveredSeqs.length := by
  simp [Journal.deliveredCount, Journal.deliveredSeqs, List.countP_eq_length_filter]

theorem Journal.deliveredSeqs_enter (j : Journal) (r : Draft) : (j.enter r).deliveredSeqs = j.deliveredSeqs := by
  simp [Journal.deliveredSeqs, Journal.enter]

theorem Journal.deliveredSeqs_enterGap (j : Journal) (now : Stamp) :
    (j.enterGap now).deliveredSeqs = j.deliveredSeqs := j.deliveredSeqs_enter _

/-- A displacement takes no DELIVERED record. -/
theorem filter_eraseP_displaceable (held : List Held) :
    (held.eraseP Held.displaceable).filter (·.delivered) = held.filter (·.delivered) := by
  induction held with
  | nil => rfl
  | cons a rest ih =>
    by_cases ha : Held.displaceable a = true
    · rw [List.eraseP_cons_of_pos ha]
      have : a.delivered = false := by
        unfold Held.displaceable at ha
        simp_all
      simp [this]
    · rw [List.eraseP_cons_of_neg ha, List.filter_cons, List.filter_cons, ih]

theorem Journal.deliveredSeqs_arrivePlain (j : Journal) (r : Draft) :
    (j.arrivePlain r).deliveredSeqs = j.deliveredSeqs := by
  unfold Journal.arrivePlain Journal.arriveFull
  split
  · split
    · rfl
    · split
      · rw [Journal.deliveredSeqs_enter]
        simp only [Journal.deliveredSeqs, filter_eraseP_displaceable]
      · rfl
  · exact j.deliveredSeqs_enter r

/-- An arrival leaves the DELIVERED records as they are. -/
theorem Journal.deliveredSeqs_arrive (j : Journal) (now : Stamp) (r : Draft) :
    (j.arrive now r).deliveredSeqs = j.deliveredSeqs := by
  unfold Journal.arrive
  split
  · rw [Journal.deliveredSeqs_arrivePlain, Journal.deliveredSeqs_enterGap]
  · exact j.deliveredSeqs_arrivePlain r

theorem Arrivals.deliveredSeqs {now : Stamp} {j k : Journal} (h : Arrivals now j k) :
    k.deliveredSeqs = j.deliveredSeqs := by
  induction h with
  | done => rfl
  | more r _ ih => rw [ih, Journal.deliveredSeqs_arrive]

theorem FieldChange.deliveredSeqs {s t : State} (h : FieldChange s t) :
    t.journal.deliveredSeqs = s.journal.deliveredSeqs := h.2.deliveredSeqs

theorem TimeChange.deliveredSeqs {s t : State} (h : TimeChange s t) :
    t.journal.deliveredSeqs = s.journal.deliveredSeqs := by
  obtain ⟨_, g⟩ := h.2
  exact g.deliveredSeqs

@[simp] theorem Journal.deliveredSeqs_returnAll (j : Journal) : j.returnAll.deliveredSeqs = [] := by
  simp [Journal.deliveredSeqs, Journal.returnAll]

@[simp] theorem Journal.deliveredSeqs_clear (j : Journal) : j.clear.deliveredSeqs = [] := rfl

/-- By the law of delivery order, the DELIVERED records are the first ones held. -/
theorem filter_delivered_eq_take {held : List Held} (h : held.Pairwise fun a b => b.delivered → a.delivered) :
    held.filter (·.delivered) = held.take (held.countP (·.delivered)) := by
  induction held with
  | nil => rfl
  | cons a rest ih =>
    rw [List.pairwise_cons] at h
    by_cases ha : a.delivered = true
    · simp [ha, ih h.2]
    · have hn : ∀ b ∈ rest, ¬b.delivered = true := fun b hb hh => ha (h.1 b hb hh)
      have : rest.countP (·.delivered) = 0 := List.countP_eq_zero.mpr hn
      simp only [List.filter_cons, ha, List.countP_cons, this, Bool.false_eq_true, if_false]
      simpa using hn

/-- The first `n` records are DELIVERED, and those that were. -/
theorem Journal.deliveredSeqs_markFirst {j : Journal} (h : j.OrderLaw) (n : Nat) :
    (j.markFirst n).deliveredSeqs = (j.held.take (max j.deliveredCount (min n j.heldCount))).map (·.seq) := by
  have key : ∀ (held : List Held) (n : Nat), (held.Pairwise fun a b => b.delivered → a.delivered) →
      ((held.take n).map (fun h : Held => { h with delivered := true }) ++ held.drop n).filter (·.delivered) =
        (held.take (max (held.countP (·.delivered)) (min n held.length))).map
          (fun h : Held => { h with delivered := true }) := by
    intro held
    induction held with
    | nil => simp
    | cons a rest ih =>
      intro n h
      rw [List.pairwise_cons] at h
      cases n with
      | zero =>
        simp only [List.take_zero, List.map_nil, List.nil_append, List.drop_zero, Nat.zero_min, Nat.max_zero]
        rw [filter_delivered_eq_take (List.pairwise_cons.mpr h)]
        have hd : ∀ b ∈ (a :: rest).take ((a :: rest).countP (·.delivered)), b.delivered = true := by
          rw [← filter_delivered_eq_take (List.pairwise_cons.mpr h)]
          intro b hb
          simpa using (List.mem_filter.mp hb).2
        conv => lhs; rw [← List.map_id ((a :: rest).take _)]
        apply List.map_congr_left
        intro b hb
        have := hd b hb
        cases b
        simp_all
      | succ n =>
        have := ih n h.2
        have hm : max ((a :: rest).countP (·.delivered)) (min (n + 1) (a :: rest).length) =
            max (rest.countP (·.delivered)) (min n rest.length) + 1 := by
          simp only [List.countP_cons, List.length_cons]
          by_cases ha : a.delivered = true
          · simp only [ha, if_true]
            omega
          · have hn : ∀ b ∈ rest, ¬b.delivered = true := fun b hb hh => ha (h.1 b hb hh)
            have : rest.countP (·.delivered) = 0 := List.countP_eq_zero.mpr hn
            simp only [ha, this, Bool.false_eq_true, if_false]
            omega
        rw [hm]
        simp only [List.take_succ_cons, List.map_cons, List.drop_succ_cons, List.cons_append, List.filter_cons, if_true]
        rw [this]
  unfold Journal.deliveredSeqs Journal.markFirst
  rw [key _ _ h, List.map_map]
  rfl

/-- Marking the oldest PENDING records is marking the first ones held (R9). -/
theorem markPending_eq {j : Journal} (h : j.OrderLaw) (n : Nat) :
    ({ j with held := Journal.markPending n j.held } : Journal) = j.markFirst (j.deliveredCount + n) := by
  have key : ∀ (held : List Held) (n : Nat), (held.Pairwise fun a b => b.delivered → a.delivered) →
      Journal.markPending n held =
        (held.take (held.countP (·.delivered) + n)).map (fun h : Held => { h with delivered := true })
          ++ held.drop (held.countP (·.delivered) + n) := by
    intro held
    induction held with
    | nil => intro n _; cases n <;> rfl
    | cons a rest ih =>
      intro n h
      rw [List.pairwise_cons] at h
      by_cases ha : a.delivered = true
      · have e : Journal.markPending n (a :: rest) = a :: Journal.markPending n rest := by
          cases n with
          | zero => cases rest <;> rfl
          | succ n => simp [Journal.markPending, ha]
        have hc : (a :: rest).countP (·.delivered) + n = (rest.countP (·.delivered) + n) + 1 := by
          simp only [List.countP_cons, ha, if_true]
          omega
        rw [e, ih n h.2, hc]
        cases a
        simp_all
      · have hn : ∀ b ∈ rest, ¬b.delivered = true := fun b hb hh => ha (h.1 b hb hh)
        have h0 : rest.countP (·.delivered) = 0 := List.countP_eq_zero.mpr hn
        cases n with
        | zero => simp [Journal.markPending, ha, h0]
        | succ n =>
          have := ih n h.2
          simp only [h0, Nat.zero_add] at this
          simp [Journal.markPending, ha, h0, this]
  unfold Journal.markFirst
  rw [key _ _ h]
  rfl

/-- The numbers of held records are distinct (R7). -/
theorem NumberingLaw.nodup {next : SeqNo} {held : List Held} (h : NumberingLaw next held) :
    (held.map (·.seq)).Nodup := by
  induction held with
  | nil => simp
  | cons a rest ih =>
    obtain ⟨h0, _, _, h3⟩ := h
    rw [List.map_cons, List.nodup_cons]
    refine ⟨?_, ih h3⟩
    intro hm
    obtain ⟨b, hb, e⟩ := List.mem_map.mp hm
    have := h0 b hb
    simp [numbersSince, e] at this

theorem Journal.Laws.deliveredSeqs_nodup {j : Journal} (h : j.Laws) : j.deliveredSeqs.Nodup :=
  h.numbering.nodup.sublist (List.filter_sublist.map _)

/-- A removal by an ACK takes the oldest DELIVERED records, and no other (R140). -/
theorem Journal.deliveredSeqs_removeThrough {j : Journal} (now : Stamp) (n : SeqNo) :
    (j.removeThrough now n).deliveredSeqs = ((j.held.drop (j.through n)).filter (·.delivered)).map (·.seq) := by
  unfold Journal.removeThrough
  dsimp only
  split
  · rw [Journal.deliveredSeqs_enterGap]
    rfl
  · rfl

end Sys2Proof.Machine
end

