-- ==== Sys2Proof/Laws/Tasks.lean ====
section
/-! SUPPORT. The tasks of one event at the watch engine: they leave every definition as it is, and where no chain is longer
than 4 watches they are done to the end. So a property of the state and the tasks still to be done, which every task
keeps, holds of the state with no task left. -/

namespace Sys2Proof.Machine

/-! ## Definitions are left as they are -/

/-- Every definition is the same in two states. -/
def SameDefinitions (s t : State) : Prop := ∀ w : Fin 16, t.watches[w].definition = s.watches[w].definition

theorem SameDefinitions.refl (s : State) : SameDefinitions s s := fun _ => rfl

theorem SameDefinitions.trans {s t u : State} (h : SameDefinitions s t) (g : SameDefinitions t u) :
    SameDefinitions s u := fun w => (g w).trans (h w)

theorem SameDefinitions.ofWatches {s t : State} (h : t.watches = s.watches) : SameDefinitions s t := fun w => by rw [h]

theorem SameDefinitions.prerequisite {s t : State} (h : SameDefinitions s t) : t.prerequisite = s.prerequisite := by
  funext w
  unfold State.prerequisite
  rw [h w]

theorem SameDefinitions.dependents {s t : State} (h : SameDefinitions s t) (w : Fin 16) :
    t.dependents w = s.dependents w := by
  simp [State.dependents, h.prerequisite]

/-- Replacing one watch of the table. -/
theorem getElem_setWatch (s : State) (w v : Fin 16) (x : Watch) :
    (s.setWatch w x).watches[v] = if w = v then x else s.watches[v] := by
  simp [Vector.getElem_set, Fin.ext_iff]

theorem setWatch_definitions {s : State} {w : Fin 16} {x : Watch} (h : x.definition = s.watches[w].definition) :
    SameDefinitions s (s.setWatch w x) := by
  intro v
  rw [getElem_setWatch]
  split
  · rename_i e
    subst e
    exact h
  · rfl

theorem claim_watches (w : Fin 16) (a : Action) (s : State) : (claim w a s).2.watches = s.watches := by
  rcases claim_eq w a s with h | ⟨o, x, h⟩ <;> rw [h]
  rfl

theorem pickStamp_watches (s : State) (stamps : List Stamp) : (s.pickStamp stamps).2.watches = s.watches := by
  unfold State.pickStamp
  dsimp only
  split <;> simp

theorem sendRestore_watches (w : Fin 16) (d : WatchDef) (stamps : List Stamp) (k : Work) :
    (sendRestore w d stamps k).state.watches = k.state.watches := by
  rcases sendRestore_state w d stamps k with h | h <;> rw [h]
  exact pickStamp_watches _ _

/-- What a trip does to the table: the watch is TRIPPED, with its count and its time (R70). -/
theorem trip_watches (w : Fin 16) (onset : TimeValue) (k : Work) :
    (trip w onset k).1.state.watches =
      if k.state.watches[w].definition = none then k.state.watches
      else (k.state.setWatch w { k.state.watches[w] with
        state := .tripped onset, tripCount := count16 k.state.watches[w].tripCount
        tripTime := k.state.time.time }).watches := by
  unfold trip
  split
  · rename_i h
    rw [if_pos h]
  · rename_i d h
    rw [if_neg (by rw [h]; exact Option.some_ne_none d)]
    exact claim_watches ..

theorem trip_watches_of {w : Fin 16} {onset : TimeValue} {k : Work} {d : WatchDef}
    (h : k.state.watches[w].definition = some d) :
    (trip w onset k).1.state.watches =
      (k.state.setWatch w { k.state.watches[w] with
        state := .tripped onset, tripCount := count16 k.state.watches[w].tripCount
        tripTime := k.state.time.time }).watches := by
  rw [trip_watches, if_neg (by rw [h]; exact Option.some_ne_none d)]

/-- What a restore does to the table: the watch is ARMED or HELD (R73, R74). -/
theorem restore_watches (w : Fin 16) (onset : TimeValue) (d : WatchDef) (stamps : List Stamp) (k : Work) :
    (restore w onset d stamps k).1.state.watches =
      (k.state.setWatchState w (match d.rearm with | .auto => .armed | .manual => .held onset)).watches := by
  unfold restore
  cases d.rearm <;> simp [sendRestore_watches, releaseDrive]

/-- What a condition that becomes true does to the table: the watch changes, and its definition stays (R66). -/
theorem becomeTrue_watches {w : Fin 16} {k : Work} {c : WatchDef} (h : k.state.watches[w].definition = some c)
    (d : WatchDef) (onset : Option TimeValue) :
    ∃ x : Watch, x.definition = k.state.watches[w].definition ∧
      (becomeTrue w d onset k).1.state.watches = (k.state.setWatch w x).watches := by
  unfold becomeTrue
  dsimp only
  split
  · cases onset
    · refine ⟨_, ?_, trip_watches_of (k := { k with state := k.state.unstated.2 }) h⟩
      rfl
    · refine ⟨_, ?_, trip_watches_of h⟩
      rfl
  · cases onset <;>
    · refine ⟨_, ?_, rfl⟩
      rfl

/-- What an act does to the table: nothing, or one watch changes, and its definition stays. -/
theorem act_watches (w : Fin 16) (e : Evaluation) (k : Work) :
    (act w e k).1.state.watches = k.state.watches ∨
      ∃ x : Watch, x.definition = k.state.watches[w].definition ∧
        (act w e k).1.state.watches = (k.state.setWatch w x).watches := by
  unfold act
  split
  · exact .inl rfl
  · rename_i d hd
    split
    · split
      · exact .inr (becomeTrue_watches hd d _)
      · exact .inl rfl
    · refine .inr ⟨_, ?_, rfl⟩
      rfl
    · refine .inr ⟨_, ?_, rfl⟩
      rfl
    · refine .inr ⟨_, ?_, restore_watches ..⟩
      rfl
    · exact .inl rfl

theorem act_definitions (w : Fin 16) (e : Evaluation) (k : Work) : SameDefinitions k.state (act w e k).1.state := by
  rcases act_watches w e k with h | ⟨x, hx, h⟩
  · exact .ofWatches h
  · exact (setWatch_definitions hx).trans (.ofWatches h)

theorem runTask_definitions (t : Task) (k : Work) : SameDefinitions k.state (runTask t k).1.state := by
  unfold runTask
  split
  · exact act_definitions _ _ k
  · exact .refl _
  · exact .refl _

theorem run_definitions (ts : List Task) (k : Work) : SameDefinitions k.state (k.run ts).state :=
  run_keeps (SameDefinitions k.state) (fun _ _ h => h.trans (.refl _))
    (fun t k h => h.trans (runTask_definitions t k)) ts k (.refl _)

/-! ## The tasks end -/

/-- The chain from a watch within the whole table, at most 4 watches long, ends within `n`. -/
def endsWithin (s : State) (n : Nat) (w : Fin 16) : Bool := chainEnds s.prerequisite n w

/-- How many tasks, at most, follow from an act of a watch whose own chain has `4 - n` watches before it, that act
included. -/
def actCost : Nat → Nat
  | 0 => 2
  | n + 1 => 2 + 16 * actCost n

/-- How many watches may still follow in a chain behind a watch. -/
def room (s : State) (w : Fin 16) : Nat :=
  if endsWithin s 1 w then 3 else if endsWithin s 2 w then 2 else if endsWithin s 3 w then 1 else 0

/-- How many tasks, at most, follow from a task, that task included. -/
def taskCost (s : State) : Task → Nat
  | .act w _ => actCost (room s w)
  | .tripped w => actCost (room s w) - 1
  | .departed w => actCost (room s w) - 1

/-- How many tasks, at most, follow from some tasks, themselves included. -/
def tasksCost (s : State) (ts : List Task) : Nat := (ts.map (taskCost s)).sum

theorem chainEnds_mono {pre : Fin 16 → Option (Fin 16)} {n : Nat} {w : Fin 16} (h : chainEnds pre n w = true) :
    chainEnds pre (n + 1) w = true := by
  induction n generalizing w with
  | zero => cases h
  | succ n ih =>
    unfold chainEnds at h ⊢
    split
    · rfl
    · rename_i p hp
      rw [hp] at h
      exact ih h

/-- Behind a prerequisite there is room for one watch more than behind its dependent. -/
theorem room_dependent {s : State} (chain : s.ChainLaw) {w p : Fin 16} (h : s.prerequisite w = some p) :
    room s w + 1 ≤ room s p := by
  have step : ∀ n, endsWithin s (n + 1) w = endsWithin s n p := by
    intro n
    unfold endsWithin
    conv => lhs; unfold chainEnds
    rw [h]
  have h4 : endsWithin s 4 w = true := chain w
  have z : endsWithin s 0 p = false := rfl
  have m1 : endsWithin s 1 p = true → endsWithin s 2 p = true := chainEnds_mono
  have m2 : endsWithin s 2 p = true → endsWithin s 3 p = true := chainEnds_mono
  rw [step] at h4
  unfold room
  rw [step, step, step, z]
  by_cases h1 : endsWithin s 1 p = true
  · simp [h1]
  · by_cases h2 : endsWithin s 2 p = true
    · simp [h1, h2]
    · simp [h1, h2, h4]

theorem actCost_mono {m n : Nat} (h : m ≤ n) : actCost m ≤ actCost n := by
  induction h with
  | refl => exact Nat.le_refl _
  | step _ ih =>
    refine Nat.le_trans ih ?_
    rename_i n _
    show actCost n ≤ 2 + 16 * actCost n
    omega

theorem two_le_actCost (n : Nat) : 2 ≤ actCost n := by
  cases n <;> simp [actCost]

theorem room_le (s : State) (w : Fin 16) : room s w ≤ 3 := by
  unfold room
  repeat' split
  all_goals omega

theorem actCost_le (s : State) (w : Fin 16) : actCost (room s w) ≤ 8738 + 1000 := by
  have := actCost_mono (room_le s w)
  have : actCost 3 = 8738 := rfl
  omega

/-- The tasks of the dependents of a watch cost less than the event that raised them. -/
theorem dependentTasks_cost {s : State} (chain : s.ChainLaw) (w : Fin 16) (evaluate : WatchDef → Evaluation) :
    tasksCost s (s.dependentTasks w evaluate) + 1 ≤ actCost (room s w) - 1 := by
  have hlen : (s.dependentTasks w evaluate).length ≤ 16 := by
    unfold State.dependentTasks
    refine (List.length_filterMap_le _ _).trans ?_
    unfold State.dependents
    exact (List.length_filter_le _ _).trans (by simp)
  by_cases h0 : s.dependents w = []
  · have := two_le_actCost (room s w)
    simp [State.dependentTasks, h0, tasksCost]
    omega
  · obtain ⟨d, hd⟩ := List.exists_mem_of_ne_nil _ h0
    have hd : s.prerequisite d = some w := by
      simpa [State.dependents] using hd
    have hr := room_dependent chain hd
    obtain ⟨m, hm⟩ : ∃ m, room s w = m + 1 := ⟨room s w - 1, by omega⟩
    have each : ∀ t ∈ s.dependentTasks w evaluate, taskCost s t ≤ actCost m := by
      intro t ht
      obtain ⟨v, hv, e⟩ := List.mem_filterMap.mp ht
      have hv : s.prerequisite v = some w := by simpa [State.dependents] using hv
      have := room_dependent chain hv
      have et : ∃ x, t = .act v x := by
        unfold State.evaluation at e
        split at e
        · cases e
        · split at e
          · cases e
          · cases e
            exact ⟨_, rfl⟩
      obtain ⟨x, rfl⟩ := et
      exact actCost_mono (by omega)
    have : tasksCost s (s.dependentTasks w evaluate) ≤ (s.dependentTasks w evaluate).length * actCost m := by
      unfold tasksCost
      refine (List.sum_le_card_nsmul _ (actCost m) ?_).trans (by simp)
      intro x hx
      obtain ⟨t, ht, rfl⟩ := List.mem_map.mp hx
      exact each t ht
    have h16 : (s.dependentTasks w evaluate).length * actCost m ≤ 16 * actCost m := Nat.mul_le_mul_right _ hlen
    rw [hm]
    show _ ≤ 2 + 16 * actCost m - 1
    omega

theorem SameDefinitions.room {s t : State} (h : SameDefinitions s t) (w : Fin 16) : room t w = room s w := by
  unfold Machine.room endsWithin
  rw [h.prerequisite]

theorem SameDefinitions.tasksCost {s t : State} (h : SameDefinitions s t) (ts : List Task) :
    Machine.tasksCost t ts = Machine.tasksCost s ts := by
  unfold Machine.tasksCost
  congr 1
  apply List.map_congr_left
  intro x _
  cases x <;> simp [taskCost, h.room]

theorem SameDefinitions.chainLaw {s t : State} (h : SameDefinitions s t) (g : s.ChainLaw) : t.ChainLaw := by
  unfold State.ChainLaw
  rw [h.prerequisite]
  exact g

theorem trip_more (w : Fin 16) (onset : TimeValue) (k : Work) :
    (trip w onset k).2 = [] ∨ (trip w onset k).2 = [.tripped w] := by
  unfold trip
  split
  · exact .inl rfl
  · exact .inr rfl

/-- What follows from an act: nothing, the trip or the departure of that watch. -/
theorem act_more (w : Fin 16) (e : Evaluation) (k : Work) :
    (act w e k).2 = [] ∨ (act w e k).2 = [.tripped w] ∨ (act w e k).2 = [.departed w] := by
  unfold act
  split
  · exact .inl rfl
  · split
    · split
      · unfold becomeTrue
        dsimp only
        split
        · rcases trip_more w _ _ with h | h
          · exact .inl h
          · exact .inr (.inl h)
        · exact .inl rfl
      · exact .inl rfl
    · exact .inl rfl
    · exact .inl rfl
    · unfold restore
      split
      · exact .inr (.inr rfl)
      · exact .inl rfl
    · exact .inl rfl

/-- What follows from a task costs less than the task. -/
theorem runTask_cost (t : Task) (k : Work) (chain : k.state.ChainLaw) :
    tasksCost k.state (runTask t k).2 + 1 ≤ taskCost k.state t := by
  have h2 := fun w => two_le_actCost (room k.state w)
  cases t with
  | act w e =>
    have := h2 w
    show tasksCost k.state (act w e k).2 + 1 ≤ actCost _
    rcases act_more w e k with h | h | h <;> rw [h] <;> simp [tasksCost, taskCost] <;> omega
  | tripped w => exact dependentTasks_cost chain w _
  | departed w => exact dependentTasks_cost chain w _

theorem tasksCost_eraseIdx (s : State) (ts : List Task) (i : Nat) (t : Task) (h : ts[i]? = some t) :
    tasksCost s (ts.eraseIdx i) + taskCost s t = tasksCost s ts := by
  induction ts generalizing i with
  | nil => cases h
  | cons a rest ih =>
    cases i with
    | zero =>
      cases h
      simp [tasksCost]
      omega
    | succ i =>
      have := ih i h
      simp [tasksCost] at *
      omega

/-- The first task may always be done next. -/
theorem ready_ne_nil (s : State) {ts : List Task} (h : ts ≠ []) : s.ready ts ≠ [] := by
  intro e
  have : 0 ∈ s.ready ts := by
    cases ts with
    | nil => exact absurd rfl h
    | cons a rest => simp [State.ready]
  rw [e] at this
  cases this

/-- A property of the state and of the tasks still to be done, which each task keeps, holds at the end with no task
left. -/
theorem runTasks_done (P : State → List Task → Prop) (choice : ∀ s ts n, P s ts → P { s with choices := n } ts)
    (task : ∀ t ts k i, ts[i]? = some t → P k.state ts →
      P (runTask t k).1.state (ts.eraseIdx i ++ (runTask t k).2)) :
    ∀ fuel ts k, k.state.ChainLaw → tasksCost k.state ts ≤ fuel → P k.state ts → P (runTasks fuel ts k).state [] := by
  intro fuel
  induction fuel with
  | zero =>
    intro ts k _ hf h
    have : ts = [] := by
      cases ts with
      | nil => rfl
      | cons a rest =>
        have : 1 ≤ taskCost k.state a := by
          have := fun w => two_le_actCost (room k.state w)
          cases a with
          | act w _ => simp only [taskCost]; have := this w; omega
          | tripped w => simp only [taskCost]; have := this w; omega
          | departed w => simp only [taskCost]; have := this w; omega
        simp [tasksCost] at hf
        omega
    subst this
    exact h
  | succ fuel ih =>
    intro ts k chain hf h
    unfold runTasks
    dsimp only
    obtain ⟨n, hn⟩ := k.state.choose_eq (k.state.ready ts).length
    rw [hn]
    split
    · rename_i hnone
      have : ts = [] := by
        by_contra hne
        have hpos : 0 < (k.state.ready ts).length := List.length_pos_of_ne_nil (ready_ne_nil _ hne)
        have := List.getElem?_eq_none_iff.mp hnone
        have := k.state.choose_lt hpos
        omega
      subst this
      exact h
    · rename_i i hi
      split
      · rename_i hnone
        have hm := List.mem_of_getElem? hi
        have : i < ts.length := by
          have := (List.mem_filter.mp hm).1
          simpa using this
        rw [List.getElem?_eq_none_iff] at hnone
        omega
      · rename_i t ht
        have chain' : ({ k.state with choices := n } : State).ChainLaw := chain
        have hc := runTask_cost t { k with state := { k.state with choices := n } } chain'
        have hsame := runTask_definitions t { k with state := { k.state with choices := n } }
        have hcost : tasksCost { k.state with choices := n } ts = tasksCost k.state ts :=
          SameDefinitions.tasksCost (s := k.state) (t := { k.state with choices := n }) (.refl _) ts
        refine ih _ _ (hsame.chainLaw chain') ?_ (task t ts _ i ht (choice _ _ n h))
        rw [hsame.tasksCost]
        have he := tasksCost_eraseIdx { k.state with choices := n } ts i t ht
        simp only [tasksCost, List.map_append, List.sum_append] at *
        omega

/-- The tasks of one event are done to the end, where they are acts of at most 16 watches, or one trip or departure. -/
theorem run_done (P : State → List Task → Prop) (choice : ∀ s ts n, P s ts → P { s with choices := n } ts)
    (task : ∀ t ts k i, ts[i]? = some t → P k.state ts →
      P (runTask t k).1.state (ts.eraseIdx i ++ (runTask t k).2))
    (ts : List Task) (k : Work) (chain : k.state.ChainLaw) (few : ts.length ≤ 16) (h : P k.state ts) :
    P (k.run ts).state [] := by
  refine runTasks_done P choice task taskFuel ts k chain ?_ h
  have each : ∀ t ∈ ts, taskCost k.state t ≤ 9738 := by
    intro t _
    have := fun w => actCost_le k.state w
    cases t with
    | act w _ => simp only [taskCost]; have := this w; omega
    | tripped w => simp only [taskCost]; have := this w; omega
    | departed w => simp only [taskCost]; have := this w; omega
  have : tasksCost k.state ts ≤ ts.length * 9738 := by
    unfold tasksCost
    refine (List.sum_le_card_nsmul _ 9738 ?_).trans (by simp)
    intro x hx
    obtain ⟨t, ht, rfl⟩ := List.mem_map.mp hx
    exact each t ht
  have h16 : ts.length * 9738 ≤ 16 * 9738 := Nat.mul_le_mul_right _ few
  show _ ≤ 1000000
  omega

end Sys2Proof.Machine
end

