-- ==== Sys2Proof/Laws/Answers.lean ====
section
/-! SUPPORT. What a dispatch answers where the part is not held, a reply slot is free and the request is no repeat; and the
shortest runs of tasks. -/

namespace Sys2Proof.Machine

/-! ## A dispatch that goes past its first step -/

theorem ofCode_code (k : RequestKind) : RequestKind.ofCode k.code = some k := by
  cases k <;> decide

/-- A request that does not repeat the cached one (R179). -/
theorem repeatOf_fresh {d : Dispatcher} {f : Frame}
    (fresh : ∀ e, d.cache = some e → f.tag = 0 ∨ e.tag ≠ f.tag ∨ e.kind ≠ f.kind) : d.repeatOf f = none := by
  unfold Dispatcher.repeatOf
  split
  · rfl
  · rename_i e he
    have := fresh e he
    split
    · simp_all
    · rfl

theorem canDispatch_of {s : State} {f : Frame} {rest : List Frame} (hr : s.hold = .running)
    (hq : s.dispatcher.requests = f :: rest) (hl : s.dispatcher.replies.length < 6) : s.canDispatch = true := by
  simp [State.canDispatch, State.isHeld, hr, hq, Config.replyCapacity, hl]

/-- The queue without its front (R178). -/
theorem popRequest_of_front {s : State} {f : Frame} {rest : List Frame} (h : s.dispatcher.requests = f :: rest) :
    s.popRequest = { s with dispatcher := { s.dispatcher with requests := rest } } := by
  simp [State.popRequest, h]

/-- The command of a request kind, at a front of its kind that goes past the first step: the owning block's answer, or the
refusal of a check. -/
theorem exec_command_answers (k : RequestKind) (f : Frame) (rest : List Frame) (s : State) (hr : s.hold = .running)
    (hq : s.dispatcher.requests = f :: rest) (hl : s.dispatcher.replies.length < 6)
    (fresh : ∀ e, s.dispatcher.cache = some e → f.tag = 0 ∨ e.tag ≠ f.tag ∨ e.kind ≠ f.kind) (hk : f.kind = k.code) :
    exec k.command s = .next
      (match serve k f.payload s.popRequest with
      | .error status => (Taken.refuse status s.popRequest).answer f
      | .ok taken => taken.answer f) := by
  have can := canDispatch_of hr hq hl
  have code : RequestKind.ofCode f.kind = some k := by rw [hk, ofCode_code]
  have key : ∀ {α : Type} (parse : List Octet → Except Status α) (take : α → State → Taken),
      dispatch k parse take s =
        match (parse f.payload).map fun a => take a s.popRequest with
        | .error status => (Taken.refuse status s.popRequest).answer f
        | .ok taken => taken.answer f := by
    intro α parse take
    unfold dispatch
    rw [if_pos can, hq]
    simp only [code, if_true]
    unfold dispatchFrame
    rw [repeatOf_fresh fresh]
    cases parse f.payload <;> rfl
  cases k <;> exact congrArg Host.Outcome.next (key _ _)

/-- An answer queues the reply, and enters it in the cache unless the tag is 0 (R180, R185). -/
theorem answer_eq (taken : Taken) (f : Frame) :
    taken.answer f =
      { taken.state with dispatcher :=
        { taken.state.dispatcher with
          replies := taken.state.dispatcher.replies
            ++ [{ frame := replyFrame f taken.status taken.fields, effect := taken.effect }]
          cache :=
            if f.tag = 0 then taken.state.dispatcher.cache
            else some { kind := f.kind, tag := f.tag, frame := replyFrame f taken.status taken.fields } } } := by
  unfold Taken.answer State.cacheReply
  dsimp only
  split <;> simp_all [State.queueReply]

/-! ## Short runs -/

@[simp] theorem runTasks_nil (fuel : Nat) (k : Work) : runTasks fuel [] k = k := by
  cases fuel <;> rfl

@[simp] theorem run_nil (k : Work) : k.run [] = k := by
  unfold Work.run
  exact runTasks_nil _ _

/-- A single task is taken, and then those it leads to. -/
theorem runTasks_single (fuel : Nat) (t : Task) (k : Work) :
    runTasks (fuel + 1) [t] k = runTasks fuel (runTask t k).2 (runTask t k).1 := by
  rw [runTasks]
  have : k.state.ready [t] = [0] := rfl
  rw [this]
  rfl

/-- A single task that leads to no other. -/
theorem run_single {t : Task} {k : Work} (h : (runTask t k).2 = []) : k.run [t] = (runTask t k).1 := by
  have : taskFuel = 999999 + 1 := rfl
  unfold Work.run
  rw [this, runTasks_single, h, runTasks_nil]

/-- Where no watch depends on a watch, its trip and its departure lead to no task. -/
theorem dependentTasks_nil {s : State} {w : Fin 16} (h : s.dependents w = []) (evaluate : WatchDef → Evaluation) :
    s.dependentTasks w evaluate = [] := by
  unfold State.dependentTasks
  rw [h]
  rfl

/-! ## The starts, block by block -/

/-- An element of a table given by a function. -/
theorem getElem_ofFn_fin {α : Type} {n : Nat} (g : Fin n → α) (i : Fin n) : (Vector.ofFn g)[i] = g i :=
  Vector.getElem_ofFn ..

@[simp] theorem FrontEnd.assertReset_lines (f : FrontEnd) (i : Nat) (h : i < 32) :
    f.assertReset.lines[i] = f.lines[i].abandon := Vector.getElem_ofFn ..
@[simp] theorem FrontEnd.assertReset_pins (f : FrontEnd) : f.assertReset.pins = f.pins := by
  simp only [FrontEnd.assertReset]
@[simp] theorem FrontEnd.assertReset_sampleDue (f : FrontEnd) : f.assertReset.sampleDue = false := by
  simp only [FrontEnd.assertReset]
@[simp] theorem FrontEnd.assertReset_firstSample (f : FrontEnd) : f.assertReset.firstSample = f.firstSample := by
  simp only [FrontEnd.assertReset]
@[simp] theorem FrontEnd.fullStart_lines (f : FrontEnd) (i : Nat) (h : i < 32) :
    f.fullStart.lines[i] = { f.lines[i].abandon with config := LineConfig.default } := Vector.getElem_ofFn ..
@[simp] theorem FrontEnd.fullStart_pins (f : FrontEnd) : f.fullStart.pins = f.pins := by
  simp only [FrontEnd.fullStart]
@[simp] theorem FrontEnd.fullStart_sampleDue (f : FrontEnd) : f.fullStart.sampleDue = f.sampleDue := by
  simp only [FrontEnd.fullStart]
@[simp] theorem FrontEnd.fullStart_firstSample (f : FrontEnd) : f.fullStart.firstSample = true := by
  simp only [FrontEnd.fullStart]
@[simp] theorem fullStartWatches_getElem (ws : Vector Watch 16) (w : Nat) (h : w < 16) :
    (fullStartWatches ws)[w] = { ws[w] with definition := none, state := .disabled } := Vector.getElem_ofFn ..

end Sys2Proof.Machine
end

