-- ==== Sys2Proof/Laws/Dependents.lean ====
section
/-! SUPPORT. The law of qualified dependents while the tasks of an event are still to be done: where a prerequisite has
left TRIPPED and HELD, a task for the dependent is still to come. Every task keeps this, so the law holds when none is
left (R54, R69). -/

namespace Sys2Proof.Machine

/-- The law of qualified dependents, with tasks still to be done. -/
def DependentsOwed (s : State) (ts : List Task) : Prop :=
  ∀ w p : Fin 16, s.prerequisite w = some p → (∃ onset timer, s.watches[w].state = .qualifying onset timer) →
    s.watches[p].state.isTripped = true ∨ .departed p ∈ ts ∨ .act w .departure ∈ ts

theorem dependentLaw_iff (s : State) : s.DependentLaw ↔ DependentsOwed s [] := by
  simp [State.DependentLaw, DependentsOwed]

/-- A change that makes no watch QUALIFYING, and owes the dependents of each watch that it takes out of TRIPPED and HELD. -/
theorem DependentsOwed.mono {s t : State} {ts us : List Task} (h : DependentsOwed s ts) (same : SameDefinitions s t)
    (qualifying : ∀ w : Fin 16, (∃ onset timer, t.watches[w].state = .qualifying onset timer) →
      ∃ onset timer, s.watches[w].state = .qualifying onset timer)
    (tripped : ∀ p : Fin 16, s.watches[p].state.isTripped = true →
      t.watches[p].state.isTripped = true ∨ .departed p ∈ us)
    (kept : ∀ x ∈ ts, x ∈ us) : DependentsOwed t us := by
  intro w p hp hw
  rw [same.prerequisite] at hp
  rcases h w p hp (qualifying w hw) with a | a | a
  · exact (tripped p a).imp_right .inl
  · exact .inr (.inl (kept _ a))
  · exact .inr (.inr (kept _ a))

/-- The law itself owes nothing. -/
theorem DependentsOwed.ofLaw {s : State} {ts : List Task} (h : s.DependentLaw) : DependentsOwed s ts :=
  ((dependentLaw_iff s).mp h).mono (.refl _) (fun _ h => h) (fun _ h => .inl h) (by simp)

theorem DependentsOwed.congr {s t : State} {ts : List Task} (h : DependentsOwed s ts) (e : t.watches = s.watches) :
    DependentsOwed t ts :=
  h.mono (.ofWatches e) (fun w => by rw [e]; exact id) (fun p hp => by rw [e]; exact .inl hp) (fun _ h => h)

/-- One watch changes to a state other than QUALIFYING, with its definition as it was. -/
theorem DependentsOwed.setWatch {s : State} {w : Fin 16} {x : Watch} {ts : List Task} (h : DependentsOwed s ts)
    (definition : x.definition = s.watches[w].definition) (notQualifying : ¬ ∃ onset timer, x.state = .qualifying onset timer)
    (tripped : s.watches[w].state.isTripped = true → x.state.isTripped = true ∨ .departed w ∈ ts) :
    DependentsOwed (s.setWatch w x) ts := by
  refine h.mono (setWatch_definitions definition) ?_ ?_ (fun _ h => h)
  · intro v
    rw [getElem_setWatch]
    split
    · exact fun h => absurd h notQualifying
    · exact id
  · intro p hp
    rw [getElem_setWatch]
    split
    · rename_i e
      subst e
      exact tripped hp
    · exact .inl hp

/-! ## What one task does -/

/-- What an act does to its own watch: nothing, unless a QUALIFYING watch takes a departure; TRIPPED or HELD after; out of
TRIPPED into ARMED, with its departure to come; into ARMED; or from ARMED into QUALIFYING while its prerequisite is TRIPPED
or HELD. -/
inductive ActMove (w : Fin 16) (e : Evaluation) (k : Work) : Prop
  | none
      (same : (act w e k).1.state.watches[w].state = k.state.watches[w].state)
      (idle : ¬ ((∃ onset timer, k.state.watches[w].state = .qualifying onset timer) ∧ e = .departure
        ∧ k.state.watches[w].definition ≠ none))
  | tripped (after : (act w e k).1.state.watches[w].state.isTripped = true)
  | departed (owed : (act w e k).2 = [.departed w]) (after : (act w e k).1.state.watches[w].state = .armed)
  | armed (before : k.state.watches[w].state.isTripped = false) (after : (act w e k).1.state.watches[w].state = .armed)
  | qualifies (before : k.state.watches[w].state = .armed) (d : WatchDef) (hd : k.state.watches[w].definition = some d)
      (prerequisite : k.state.prerequisiteTripped d = true)

theorem act_move (w : Fin 16) (e : Evaluation) (k : Work) : ActMove w e k := by
  cases hd : k.state.watches[w].definition with
  | none =>
    refine .none ?_ fun h => h.2.2 hd
    unfold act
    rw [hd]
  | some d =>
    have stays : (act w e k).1.state = k.state →
        (∀ onset timer, k.state.watches[w].state = .qualifying onset timer → e ≠ .departure) → ActMove w e k :=
      fun hs hq => .none (by rw [hs]) fun ⟨⟨onset, timer, q⟩, he, _⟩ => hq onset timer q he
    have unfolded := act.eq_def w e k
    rw [hd] at unfolded
    dsimp only at unfolded
    cases hs : k.state.watches[w].state with
    | disabled => exact stays (by rw [unfolded, hs]) (by rw [hs]; rintro _ _ ⟨⟩)
    | held onset => exact stays (by rw [unfolded, hs]) (by rw [hs]; rintro _ _ ⟨⟩)
    | armed =>
      cases e with
      | fails stamps => exact stays (by rw [unfolded, hs]) (by rw [hs]; rintro _ _ ⟨⟩)
      | departure => exact stays (by rw [unfolded, hs]) (by rw [hs]; rintro _ _ ⟨⟩)
      | holds onset =>
        by_cases hp : k.state.prerequisiteTripped d = true
        · exact .qualifies hs d hd hp
        · refine stays ?_ (by rw [hs]; rintro _ _ ⟨⟩)
          rw [unfolded, hs]
          dsimp only
          rw [if_neg hp]
    | qualifying onset timer =>
      have armed : (act w e k).1.state = k.state.setWatchState w .armed → ActMove w e k := by
        intro hs'
        refine .armed (by rw [hs]; rfl) ?_
        rw [hs']
        unfold State.setWatchState
        rw [getElem_setWatch, if_pos rfl]
      cases e with
      | holds onset => exact stays (by rw [unfolded, hs]) (by rintro _ _ _ ⟨⟩)
      | fails stamps => exact armed (by rw [unfolded, hs])
      | departure => exact armed (by rw [unfolded, hs])
    | tripped onset =>
      cases e with
      | holds onset => exact stays (by rw [unfolded, hs]) (by rintro _ _ _ ⟨⟩)
      | departure => exact stays (by rw [unfolded, hs]) (by rw [hs]; rintro _ _ ⟨⟩)
      | fails stamps =>
        have restored : act w (.fails stamps) k = restore w onset d stamps k := by rw [unfolded, hs]
        have after := restore_watches w onset d stamps k
        cases hr : d.rearm with
        | auto =>
          refine .departed ?_ ?_
          · rw [restored]
            unfold restore
            rw [hr]
          · rw [restored, after, hr]
            unfold State.setWatchState
            rw [getElem_setWatch, if_pos rfl]
        | manual =>
          refine .tripped ?_
          rw [restored, after, hr]
          unfold State.setWatchState
          rw [getElem_setWatch, if_pos rfl]
          rfl

theorem act_watch_of_ne {w v : Fin 16} {e : Evaluation} {k : Work} (h : w ≠ v) :
    (act w e k).1.state.watches[v] = k.state.watches[v] := by
  rcases act_watches w e k with g | ⟨x, -, g⟩ <;> rw [g]
  rw [getElem_setWatch, if_neg h]

theorem prerequisite_isTripped {s : State} {w p : Fin 16} {d : WatchDef} (hd : s.watches[w].definition = some d)
    (hp : s.prerequisite w = some p) (h : s.prerequisiteTripped d = true) : s.watches[p].state.isTripped = true := by
  unfold State.prerequisite at hp
  rw [hd] at hp
  dsimp only at hp
  unfold State.prerequisiteTripped at h
  rw [hp] at h
  exact h

/-- No watch is its own prerequisite (R57). -/
theorem prerequisite_ne {s : State} (chain : s.ChainLaw) {w p : Fin 16} (h : s.prerequisite w = some p) : w ≠ p := by
  rintro rfl
  have := room_dependent chain h
  omega

/-- Taking one task leaves every other to be done. -/
theorem mem_eraseIdx_of_ne {ts : List Task} {i : Nat} {t x : Task} (h : ts[i]? = some t) (hx : x ∈ ts) :
    x = t ∨ x ∈ ts.eraseIdx i := by
  induction ts generalizing i with
  | nil => cases hx
  | cons a r ih =>
    cases i with
    | zero =>
      cases h
      simpa using hx
    | succ i =>
      simp only [List.getElem?_cons_succ, List.mem_cons, List.eraseIdx_cons_succ] at h hx ⊢
      rcases hx with rfl | hx
      · exact .inr (.inl rfl)
      · exact (ih h hx).imp_right .inr

/-- A QUALIFYING dependent is evaluated at its prerequisite's departure (R54). -/
theorem departure_mem {s : State} {w v : Fin 16} (hp : s.prerequisite w = some v)
    (hw : ∃ onset timer, s.watches[w].state = .qualifying onset timer) :
    Task.act w .departure ∈ s.dependentTasks v fun _ => .departure := by
  refine List.mem_filterMap.mpr ⟨w, by simpa [State.dependents] using hp, ?_⟩
  obtain ⟨onset, timer, hs⟩ := hw
  unfold State.evaluation
  split
  · rename_i hn
    unfold State.prerequisite at hp
    rw [hn] at hp
    cases hp
  · rw [if_neg (by rw [hs]; simp)]

/-- Every task keeps the owed law. -/
theorem DependentsOwed.task {ts : List Task} {k : Work} {i : Nat} {t : Task} (h : DependentsOwed k.state ts)
    (chain : k.state.ChainLaw) (hi : ts[i]? = some t) :
    DependentsOwed (runTask t k).1.state (ts.eraseIdx i ++ (runTask t k).2) := by
  intro w p hp hw
  cases t with
  | tripped v =>
    rcases h w p hp hw with a | a | a
    · exact .inl a
    · exact .inr (.inl (List.mem_append_left _ ((mem_eraseIdx_of_ne hi a).resolve_left (by rintro ⟨⟩))))
    · exact .inr (.inr (List.mem_append_left _ ((mem_eraseIdx_of_ne hi a).resolve_left (by rintro ⟨⟩))))
  | departed v =>
    rcases h w p hp hw with a | a | a
    · exact .inl a
    · rcases mem_eraseIdx_of_ne hi a with b | b
      · cases b
        exact .inr (.inr (List.mem_append_right _ (departure_mem (s := k.state) hp hw)))
      · exact .inr (.inl (List.mem_append_left _ b))
    · exact .inr (.inr (List.mem_append_left _ ((mem_eraseIdx_of_ne hi a).resolve_left (by rintro ⟨⟩))))
  | act v e =>
    have same := act_definitions v e k
    change (act v e k).1.state.prerequisite w = _ at hp
    rw [same.prerequisite] at hp
    change ∃ onset timer, (act v e k).1.state.watches[w].state = _ at hw
    show (act v e k).1.state.watches[p].state.isTripped = true ∨ _ ∈ _ ++ (act v e k).2 ∨ _ ∈ _ ++ (act v e k).2
    have prerequisiteSide : k.state.watches[p].state.isTripped = true →
        (act v e k).1.state.watches[p].state.isTripped = true
          ∨ Task.departed p ∈ ts.eraseIdx i ++ (act v e k).2 := by
      intro before
      by_cases hv : v = p
      · subst hv
        cases act_move v e k with
        | none same => exact .inl (by rw [same]; exact before)
        | tripped after => exact .inl after
        | departed owed => exact .inr (by rw [owed]; simp)
        | armed no => rw [no] at before; cases before
        | qualifies armed => rw [armed] at before; cases before
      · exact .inl (by rw [act_watch_of_ne hv]; exact before)
    have old : (∃ onset timer, k.state.watches[w].state = .qualifying onset timer) → ¬ (v = w ∧ e = .departure) →
        (act v e k).1.state.watches[p].state.isTripped = true
          ∨ Task.departed p ∈ ts.eraseIdx i ++ (act v e k).2
          ∨ Task.act w .departure ∈ ts.eraseIdx i ++ (act v e k).2 := by
      intro hq hne
      rcases h w p hp hq with a | a | a
      · exact (prerequisiteSide a).imp_right .inl
      · exact .inr (.inl (List.mem_append_left _ ((mem_eraseIdx_of_ne hi a).resolve_left (by rintro ⟨⟩))))
      · rcases mem_eraseIdx_of_ne hi a with b | b
        · cases b
          exact absurd ⟨rfl, rfl⟩ hne
        · exact .inr (.inr (List.mem_append_left _ b))
    by_cases hv : v = w
    · subst hv
      obtain ⟨onset, timer, hs⟩ := hw
      have present : k.state.watches[v].definition ≠ none := by
        intro hn
        unfold State.prerequisite at hp
        rw [hn] at hp
        cases hp
      cases act_move v e k with
      | none same idle =>
        have hq : k.state.watches[v].state = .qualifying onset timer := by rw [← same]; exact hs
        exact old ⟨onset, timer, hq⟩ fun ⟨_, he⟩ => idle ⟨⟨onset, timer, hq⟩, he, present⟩
      | tripped after => rw [hs] at after; cases after
      | departed _ after => rw [hs] at after; cases after
      | armed _ after => rw [hs] at after; cases after
      | qualifies _ d hd tripped =>
        rw [act_watch_of_ne (prerequisite_ne chain hp)]
        exact .inl (prerequisite_isTripped hd hp tripped)
    · rw [act_watch_of_ne hv] at hw
      exact old hw fun h => hv h.1

/-- The tasks of an event are done, and the law holds. -/
theorem run_dependentLaw {ts : List Task} {k : Work} (chain : k.state.ChainLaw) (h : DependentsOwed k.state ts)
    (few : ts.length ≤ 16) : (k.run ts).state.ChainLaw ∧ (k.run ts).state.DependentLaw := by
  refine ⟨(run_definitions ts k).chainLaw chain, (dependentLaw_iff _).mpr ?_⟩
  refine (run_done (fun s ts => s.ChainLaw ∧ DependentsOwed s ts) (fun s ts n h => h) ?_ ts k chain few ⟨chain, h⟩).2
  rintro t ts k i hi ⟨chain, owed⟩
  exact ⟨(runTask_definitions t k).chainLaw chain, owed.task chain hi⟩

end Sys2Proof.Machine
end

