-- ==== Sys2Proof/Laws/Ownership.lean ====
section
/-! SUPPORT. The law of ownership, as a property of the watch table and the outputs alone, and what the operations of the
watch engine on them do to it. -/

namespace Sys2Proof.Machine

/-- `State.OwnerFits`, by the watch table alone. -/
def FitsTable (ws : Vector Watch 16) (o : Fin 8) : Owner → Prop
  | .host none => True
  | .host (some p) => 1 ≤ p.timer.left
  | .drive w level => ws[w].state.isTripped = true ∧ ∃ d, ws[w].definition = some d ∧ d.action = .drive o level
  | .pulse w p =>
    ws[w].state ≠ .disabled ∧ 1 ≤ p.timer.left
      ∧ ∃ d duration, ws[w].definition = some d ∧ d.action = .pulse o p.level duration ∧ p.timer.left ≤ duration
  | .function (.tick _) => o = 6
  | .function .attn => o = 7

/-- `State.OwnershipLaw`, by the watch table and the outputs alone. -/
structure Owned (ws : Vector Watch 16) (os : Vector Output 8) : Prop where
  defined : ∀ w : Fin 16, (ws[w].definition = none → ws[w].state = .disabled)
    ∧ ∀ d, ws[w].definition = some d → d.wellFormed = true
  fits    : ∀ o : Fin 8, FitsTable ws o os[o].owner

theorem ownerFits_iff (s : State) (o : Fin 8) (x : Owner) : s.OwnerFits o x ↔ FitsTable s.watches o x := by
  unfold State.OwnerFits FitsTable
  rcases x with (_ | _) | _ | _ | (_ | _) <;> exact Iff.rfl

theorem ownershipLaw_iff (s : State) : s.OwnershipLaw ↔ Owned s.watches s.outputs :=
  ⟨fun h => ⟨h.defined, fun o => (ownerFits_iff s o _).mp (h.fits o)⟩,
    fun h => ⟨h.defined, fun o => (ownerFits_iff s o _).mpr (h.fits o)⟩⟩

/-- One watch changes, with its definition as it was, and outputs may be released: the law holds after if the watch may
still have what it owns. -/
theorem Owned.setWatch {s : State} {w : Fin 16} {x : Watch} {os : Vector Output 8} (h : Owned s.watches s.outputs)
    (definition : x.definition = s.watches[w].definition)
    (absent : s.watches[w].definition = none → x.state = .disabled)
    (outputs : ∀ o : Fin 8, os[o].owner = .host none ∨ os[o].owner = s.outputs[o].owner
      ∧ (∀ level, os[o].owner = .drive w level → x.state.isTripped = true)
      ∧ (∀ p, os[o].owner = .pulse w p → x.state ≠ .disabled)) :
    Owned (s.setWatch w x).watches os := by
  refine ⟨fun v => ?_, fun o => ?_⟩
  · have := h.defined v
    rw [getElem_setWatch]
    split
    · rename_i e
      subst e
      rw [definition]
      exact ⟨absent, this.2⟩
    · exact this
  · rcases outputs o with e | ⟨e, drives, pulses⟩
    · rw [e]
      trivial
    · have fits := h.fits o
      rw [e] at drives pulses
      rw [e]
      generalize s.outputs[o].owner = y at *
      rcases y with (_ | _) | ⟨v, level⟩ | ⟨v, p⟩ | (_ | _)
      · trivial
      · exact fits
      · simp only [FitsTable] at *
        rw [getElem_setWatch]
        by_cases hv : w = v
        · subst hv
          rw [if_pos rfl, definition]
          exact ⟨drives _ rfl, fits.2⟩
        · rw [if_neg hv]
          exact fits
      · simp only [FitsTable] at *
        rw [getElem_setWatch]
        by_cases hv : w = v
        · subst hv
          rw [if_pos rfl, definition]
          exact ⟨pulses _ rfl, fits.2⟩
        · rw [if_neg hv]
          exact fits
      · exact fits
      · exact fits

/-- An output passes to an owner that fits it. -/
theorem Owned.setOwner {s : State} {o : Fin 8} {x : Owner} (h : Owned s.watches s.outputs)
    (fits : FitsTable s.watches o x) : Owned (s.setOwner o x).watches (s.setOwner o x).outputs := by
  refine ⟨h.defined, fun p => ?_⟩
  show FitsTable s.watches p (s.outputs.set o.val _ o.isLt)[p].owner
  simp only [Fin.getElem_fin, Vector.getElem_set, Fin.val_inj]
  split
  · rename_i e
    subst e
    exact fits
  · exact h.fits p

/-- A release leaves each output with HOST or as it was. -/
theorem releaseWhere_cases (p : Owner → Bool) (s : State) (o : Fin 8) :
    (releaseWhere p s).outputs[o].owner = .host none
      ∨ (releaseWhere p s).outputs[o].owner = s.outputs[o].owner ∧ p s.outputs[o].owner = false := by
  have e : (releaseWhere p s).outputs
      = Vector.ofFn fun o : Fin 8 =>
          if p s.outputs[o].owner = true then { s.outputs[o] with owner := .host none } else s.outputs[o] := rfl
  rw [e, getElem_ofFn_fin]
  by_cases h : p s.outputs[o].owner = true
  · rw [if_pos h]
    exact .inl rfl
  · rw [if_neg h]
    exact .inr ⟨rfl, by simpa using h⟩

/-- A release under DRIVE (R74, R82): after it the watch drives no output. -/
theorem releaseDrive_cases (w : Fin 16) (s : State) (o : Fin 8) :
    (releaseDrive w s).outputs[o].owner = .host none
      ∨ (releaseDrive w s).outputs[o].owner = s.outputs[o].owner ∧ ∀ level, s.outputs[o].owner ≠ .drive w level := by
  rcases releaseWhere_cases _ s o with e | ⟨e, h⟩
  · exact .inl e
  · refine .inr ⟨e, fun level g => ?_⟩
    rw [g] at h
    simp at h

theorem Owned.release {p : Owner → Bool} {s : State} (h : Owned s.watches s.outputs) :
    Owned (releaseWhere p s).watches (releaseWhere p s).outputs := by
  refine ⟨h.defined, fun o => ?_⟩
  show FitsTable s.watches o (releaseWhere p s).outputs[o].owner
  rcases releaseWhere_cases p s o with e | ⟨e, -⟩ <;> rw [e]
  · trivial
  · exact h.fits o

/-- A TRIPPED or HELD watch claims the output of its action (R90). -/
theorem Owned.claim {s : State} {w : Fin 16} {d : WatchDef} (h : Owned s.watches s.outputs)
    (hd : s.watches[w].definition = some d) (ht : s.watches[w].state.isTripped = true) :
    Owned (Machine.claim w d.action s).2.watches (Machine.claim w d.action s).2.outputs := by
  have formed := (h.defined w).2 d hd
  have taken : ∀ o hold, FitsTable s.watches o hold →
      Owned (claimOutput w o hold s).2.watches (claimOutput w o hold s).2.outputs := by
    intro o hold fits
    unfold claimOutput
    split
    · exact h.setOwner fits
    · split
      · exact h.setOwner fits
      · exact h
    · split
      · exact h.setOwner fits
      · exact h
    · exact h
  have enabled : s.watches[w].state ≠ .disabled := by
    intro e
    rw [e] at ht
    cases ht
  unfold Machine.claim
  split
  · exact h
  · rename_i o level ha
    exact taken _ _ ⟨ht, d, hd, ha⟩
  · rename_i o level duration ha
    have : 1 ≤ duration := by
      unfold WatchDef.wellFormed at formed
      rw [ha] at formed
      simp [Action.wellFormed, durationInRange] at formed
      omega
    exact taken _ _ ⟨enabled, this, d, duration, hd, ha, Nat.le_refl _⟩

/-- A watch that is not yet TRIPPED trips (R70). -/
theorem Owned.trip {w : Fin 16} {onset : TimeValue} {k : Work} (h : Owned k.state.watches k.state.outputs) :
    Owned (Machine.trip w onset k).1.state.watches (Machine.trip w onset k).1.state.outputs := by
  unfold Machine.trip
  split
  · exact h
  · rename_i d hd
    dsimp only
    apply Owned.claim
    · refine h.setWatch (by rfl) ?_ fun o => .inr ⟨rfl, fun _ _ => rfl, fun p _ e => by cases e⟩
      intro e
      rw [e] at hd
      cases hd
    · rw [getElem_setWatch, if_pos rfl]
      exact hd
    · rw [getElem_setWatch, if_pos rfl]
      rfl

theorem sendRestore_outputs (w : Fin 16) (d : WatchDef) (stamps : List Stamp) (k : Work) :
    (sendRestore w d stamps k).state.outputs = k.state.outputs := by
  rcases sendRestore_state w d stamps k with e | e <;> rw [e]
  unfold State.pickStamp
  dsimp only
  split <;> simp

/-- A watch acts on an evaluation. -/
theorem Owned.act {w : Fin 16} {e : Evaluation} {k : Work} (h : Owned k.state.watches k.state.outputs) :
    Owned (Machine.act w e k).1.state.watches (Machine.act w e k).1.state.outputs := by
  unfold Machine.act
  split
  · exact h
  · rename_i d hd
    have present : ∀ {P : Prop}, k.state.watches[w].definition = none → P := by
      intro P e
      rw [e] at hd
      cases hd
    have notDriving : k.state.watches[w].state.isTripped = false →
        ∀ (o : Fin 8) level, k.state.outputs[o].owner ≠ Owner.drive w level := by
      intro hn o level e
      have fits := h.fits o
      rw [e] at fits
      rw [fits.1] at hn
      cases hn
    have moves : ∀ x : WatchState, x ≠ .disabled → k.state.watches[w].state.isTripped = false →
        Owned (k.state.setWatchState w x).watches k.state.outputs := by
      intro x hx hn
      exact h.setWatch (by rfl) (fun e => present e)
        fun o => .inr ⟨rfl, fun level e => absurd e (notDriving hn o level), fun _ _ => hx⟩
    split
    · rename_i onset hs
      split
      · unfold becomeTrue
        dsimp only
        split
        · exact Owned.trip (k := { k with state := (k.state.pickOnset onset).2 }) (by simpa using h)
        · cases onset <;> exact moves _ (by rintro ⟨⟩) (by rw [hs]; rfl)
      · exact h
    · rename_i hs
      exact moves _ (by rintro ⟨⟩) (by rw [hs]; rfl)
    · rename_i hs
      exact moves _ (by rintro ⟨⟩) (by rw [hs]; rfl)
    · rename_i onset stamps hs
      unfold restore
      split
      · dsimp only
        rw [sendRestore_watches, sendRestore_outputs]
        have released := fun o => releaseDrive_cases w (k.state.setWatchState w .armed) o
        dsimp only
        generalize (releaseDrive w (k.state.setWatchState w .armed)).outputs = os at released ⊢
        refine h.setWatch (by rfl) (fun e => present e) fun o => ?_
        rcases released o with e | ⟨e, hn⟩
        · exact .inl e
        · exact .inr ⟨e, fun level g => absurd (e.symm.trans g) (hn level), fun p _ e => by cases e⟩
      · dsimp only
        rw [sendRestore_watches, sendRestore_outputs]
        exact h.setWatch (by rfl) (fun e => present e) fun o => .inr ⟨rfl, fun _ _ => rfl, fun p _ e => by cases e⟩
    · exact h

/-- The tasks of an event are done. -/
theorem Owned.run {ts : List Task} {k : Work} (h : Owned k.state.watches k.state.outputs) :
    Owned (k.run ts).state.watches (k.run ts).state.outputs :=
  run_keeps (fun s => Owned s.watches s.outputs) (fun _ _ h => h)
    (fun t k h => by
      cases t with
      | act w e => exact Owned.act h
      | tripped w => exact h
      | departed w => exact h)
    ts k h

theorem Owned.finish {k : Work} (h : Owned k.state.watches k.state.outputs) :
    Owned k.finish.watches k.finish.outputs := by
  obtain ⟨j, n, e, -⟩ := finish_eq k
  rw [e]
  exact h

end Sys2Proof.Machine
end

