-- ==== Sys2Proof/Laws/Moments.lean ====
section
/-! SUPPORT. Due events end: each event that is taken leaves fewer due, so that none is due once all are taken (log entries 3
and 5). -/

namespace Sys2Proof.Machine

/-! ## What is due, counted -/

/-- A watch's qualify timer has reached 0. -/
def watchDue (x : Watch) : Bool :=
  x.definition.isSome
    && match x.state with
      | .qualifying _ timer => timer.due
      | _ => false

/-- A pulse on an output has reached 0. -/
def ownerDue (x : Owner) : Bool := isDue (x.runningPulse.map (·.timer))

/-- A timer of the synchronisation machine has reached 0. -/
def syncDue (x : SyncState) : Bool := x.deadlineDue || x.limitDue

/-- No more is due in `t` than in `s`, of each kind of event. -/
structure NoMoreDue (s t : State) : Prop where
  sample     : t.sampleReady = true → s.sampleReady = true
  pulse      : t.time.pulseDue = true → s.time.pulseDue = true
  watches    : ∀ w : Fin 16, watchDue t.watches[w] = true → watchDue s.watches[w] = true
  outputs    : ∀ o : Fin 8, ownerDue t.outputs[o].owner = true → ownerDue s.outputs[o].owner = true
  sync       : syncDue t.time.sync = true → syncDue s.time.sync = true
  retransmit : isDue t.delivery.timer = true → isDue s.delivery.timer = true
  repetition : isDue t.announcer.timer = true → isDue s.announcer.timer = true
  requests   : t.dispatcher.requests.length ≤ s.dispatcher.requests.length
  line       : t.lineFree = true → s.lineFree = true

namespace NoMoreDue

theorem refl (s : State) : NoMoreDue s s := ⟨id, id, fun _ => id, fun _ => id, id, id, id, Nat.le_refl _, id⟩

theorem trans {s t u : State} (h : NoMoreDue s t) (g : NoMoreDue t u) : NoMoreDue s u :=
  ⟨fun x => h.1 (g.1 x), fun x => h.2 (g.2 x), fun w x => h.3 w (g.3 w x), fun o x => h.4 o (g.4 o x),
    fun x => h.5 (g.5 x), fun x => h.6 (g.6 x), fun x => h.7 (g.7 x), Nat.le_trans g.8 h.8, fun x => h.9 (g.9 x)⟩

/-- The field side changes, with no more due in it. -/
theorem ofField {s t : State} (h : FieldChange s t) (sample : t.front.sampleDue = true → s.front.sampleDue = true)
    (watches : ∀ w : Fin 16, watchDue t.watches[w] = true → watchDue s.watches[w] = true)
    (outputs : ∀ o : Fin 8, ownerDue t.outputs[o].owner = true → ownerDue s.outputs[o].owner = true) :
    NoMoreDue s t where
  sample := by
    simp only [State.sampleReady, State.isHeld, h.hold, Bool.and_eq_true]
    exact fun x => ⟨x.1, sample x.2⟩
  pulse := by rw [h.time]; exact id
  watches := watches
  outputs := outputs
  sync := by rw [h.time]; exact id
  retransmit := by rw [h.delivery]; exact id
  repetition := by rw [h.announcer]; exact id
  requests := by rw [h.dispatcher]
  line := by
    simp only [State.lineFree, State.isHeld, h.hold, h.link]
    exact id

/-- The time base changes, with no more due in it. -/
theorem ofTime {s t : State} (h : TimeChange s t) (pulse : t.time.pulseDue = true → s.time.pulseDue = true)
    (sync : syncDue t.time.sync = true → syncDue s.time.sync = true) : NoMoreDue s t where
  sample := by
    simp only [State.sampleReady, State.isHeld, h.hold, h.front]
    exact id
  pulse := pulse
  watches := by rw [h.watches]; exact fun _ => id
  outputs := by rw [h.outputs]; exact fun _ => id
  sync := sync
  retransmit := by rw [h.delivery]; exact id
  repetition := by rw [h.announcer]; exact id
  requests := by rw [h.dispatcher]
  line := by
    simp only [State.lineFree, State.isHeld, h.hold, h.link]
    exact id

end NoMoreDue

/-! ## The watch engine makes nothing due -/

/-- No more watches and outputs are due in `t` than in `s`. -/
def Calm (s t : State) : Prop :=
  (∀ w : Fin 16, watchDue t.watches[w] = true → watchDue s.watches[w] = true)
    ∧ ∀ o : Fin 8, ownerDue t.outputs[o].owner = true → ownerDue s.outputs[o].owner = true

theorem watchDue_of_state {x : Watch} (h : ∀ onset timer, x.state = .qualifying onset timer → timer.due = false) :
    watchDue x = false := by
  unfold watchDue
  split
  · rename_i onset timer e
    simp [h onset timer e]
  · simp

namespace Calm

theorem refl (s : State) : Calm s s := ⟨fun _ => id, fun _ => id⟩

theorem trans {s t u : State} (h : Calm s t) (g : Calm t u) : Calm s u :=
  ⟨fun w x => h.1 w (g.1 w x), fun o x => h.2 o (g.2 o x)⟩

theorem ofEq {s t : State} (hw : t.watches = s.watches) (ho : t.outputs = s.outputs) : Calm s t := by
  unfold Calm
  rw [hw, ho]
  exact refl s

/-- One watch is replaced by one that is not due. -/
theorem setWatch (s : State) (w : Fin 16) (x : Watch) (h : watchDue x = true → watchDue s.watches[w] = true) :
    Calm s (s.setWatch w x) := by
  refine ⟨fun v => ?_, fun _ => id⟩
  rw [getElem_setWatch]
  split
  · rename_i e
    subst e
    exact h
  · exact id

theorem setWatchState (s : State) (w : Fin 16) (x : WatchState) (h : ∀ onset timer, x = .qualifying onset timer →
    timer.due = false) : Calm s (s.setWatchState w x) := by
  refine setWatch s w _ ?_
  rw [watchDue_of_state h]
  rintro ⟨⟩

/-- One output is replaced by one that is not due. -/
theorem setOutput (s : State) (o : Fin 8) (x : Output) (h : ownerDue x.owner = false) : Calm s (s.setOutput o x) := by
  refine ⟨fun _ => id, fun p => ?_⟩
  show ownerDue (s.outputs.set o.val x o.isLt)[p].owner = true → _
  simp only [Fin.getElem_fin, Vector.getElem_set, Fin.val_inj]
  split
  · rw [h]
    rintro ⟨⟩
  · exact id

theorem release (p : Owner → Bool) (s : State) : Calm s (releaseWhere p s) := by
  refine ⟨fun _ => id, fun o => ?_⟩
  rcases releaseWhere_cases p s o with e | ⟨e, -⟩ <;> rw [e]
  · rintro ⟨⟩
  · exact id

theorem claim (w : Fin 16) (a : Action) (s : State) : Calm s (Machine.claim w a s).2 := by
  have taken : ∀ o hold, ownerDue hold = false → Calm s (claimOutput w o hold s).2 := by
    intro o hold h
    unfold claimOutput
    split
    · exact setOutput s o _ h
    · split
      · exact setOutput s o _ h
      · exact refl s
    · split
      · exact setOutput s o _ h
      · exact refl s
    · exact refl s
  unfold Machine.claim
  split
  · exact refl s
  · exact taken _ _ rfl
  · exact taken _ _ rfl

theorem trip (w : Fin 16) (onset : TimeValue) (k : Work) : Calm k.state (Machine.trip w onset k).1.state := by
  unfold Machine.trip
  split
  · exact refl _
  · refine trans (setWatch k.state w _ ?_) (claim w _ _)
    rw [watchDue_of_state (by rintro _ _ ⟨⟩)]
    rintro ⟨⟩

theorem sendRestore (w : Fin 16) (d : WatchDef) (stamps : List Stamp) (k : Work) :
    Calm k.state (Machine.sendRestore w d stamps k).state :=
  ofEq (sendRestore_watches ..) (sendRestore_outputs ..)

theorem restore (w : Fin 16) (onset : TimeValue) (d : WatchDef) (stamps : List Stamp) (k : Work) :
    Calm k.state (Machine.restore w onset d stamps k).1.state := by
  unfold Machine.restore
  split
  · have released : Calm k.state (releaseDrive w (k.state.setWatchState w .armed)) :=
      (setWatchState k.state w .armed (by rintro _ _ ⟨⟩)).trans (release _ _)
    dsimp only
    generalize releaseDrive w (k.state.setWatchState w .armed) = t at released ⊢
    exact released.trans (sendRestore w d stamps { k with state := t })
  · have held : Calm k.state (k.state.setWatchState w (.held onset)) := setWatchState _ w _ (by rintro _ _ ⟨⟩)
    dsimp only
    generalize k.state.setWatchState w (.held onset) = t at held ⊢
    exact held.trans (sendRestore w d stamps { k with state := t })

theorem act (w : Fin 16) (e : Evaluation) (k : Work) : Calm k.state (Machine.act w e k).1.state := by
  have armed : Calm k.state (k.state.setWatchState w .armed) := setWatchState _ w _ (by rintro _ _ ⟨⟩)
  unfold Machine.act
  split
  · exact refl _
  · split
    · split
      · unfold becomeTrue
        dsimp only
        generalize onset_def : k.state.pickOnset _ = picked
        have same : Calm k.state picked.2 := by
          rw [← onset_def]
          exact ofEq (pickOnset_watches ..) (pickOnset_outputs ..)
        split
        · exact same.trans (trip w _ { k with state := picked.2 })
        · exact same.trans (setWatchState picked.2 w _ (by rintro _ _ ⟨⟩; rfl))
      · exact refl _
    · exact armed
    · exact armed
    · exact restore ..
    · exact refl _

theorem run (ts : List Task) (k : Work) : Calm k.state (k.run ts).state :=
  run_keeps (Calm k.state) (fun _ _ h => h)
    (fun t k h => by
      cases t with
      | act w e => exact h.trans (act w e k)
      | tripped w => exact h
      | departed w => exact h)
    ts k (refl _)

theorem finish (k : Work) : Calm k.state k.finish := by
  obtain ⟨j, n, e, -⟩ := finish_eq k
  rw [e]
  exact refl _

theorem runFinish (ts : List Task) (k : Work) : Calm k.state (k.run ts).finish := (run ts k).trans (finish _)

end Calm

theorem runFinish_front (ts : List Task) (k : Work) : (k.run ts).finish.front = k.state.front := by
  obtain ⟨j, n, e, -⟩ := finish_eq (k.run ts)
  rw [e]
  exact (run_sameOutside ts k).front

namespace NoMoreDue

theorem ofCalm {s t : State} (h : FieldChange s t) (sample : t.front.sampleDue = true → s.front.sampleDue = true)
    (calm : Calm s t) : NoMoreDue s t := .ofField h sample calm.1 calm.2

theorem ofDispatcher {s : State} (d : Dispatcher) (h : d.requests.length ≤ s.dispatcher.requests.length) :
    NoMoreDue s { s with dispatcher := d } := { refl s with requests := h }

end NoMoreDue

/-! ## Each event that is taken -/

theorem takeSample_noMore (s : State) :
    NoMoreDue s (takeSample s) ∧ (takeSample s).front.sampleDue = false := by
  have main : (takeSample s).front.sampleDue = false ∧ Calm s (takeSample s) := by
    unfold takeSample
    split
    · exact ⟨rfl, .ofEq rfl rfl⟩
    · dsimp only
      unfold deliver
      rw [runFinish_front]
      exact ⟨sampled_sampleDue s, (Calm.ofEq (sampled_watches s) (sampled_outputs s)).trans (.runFinish _ { state := s.sampled, sent := _ })⟩
  exact ⟨.ofCalm (takeSample_change s) (by rw [main.1]; rintro ⟨⟩) main.2, main.1⟩

theorem qualifyExpiry_noMore (w : Fin 16) (s : State) :
    NoMoreDue s (qualifyExpiry w s) ∧ watchDue (qualifyExpiry w s).watches[w] = false := by
  unfold qualifyExpiry
  cases hs : s.watches[w].state with
  | qualifying onset timer =>
    dsimp only
    by_cases ht : timer.due = true
    · rw [if_pos ht]
      generalize hk : trip w onset { state := s, sent := [] } = r
      obtain ⟨k, ts⟩ := r
      have calm : Calm s k.state := by
        have := Calm.trip w onset { state := s, sent := [] }
        rwa [hk] at this
      have same : SameOutside s k.state := by
        have := trip_sameOutside w onset { state := s, sent := [] }
        rwa [hk] at this
      have off : watchDue k.state.watches[w] = false := by
        have := trip_watches w onset { state := s, sent := [] }
        rw [hk] at this
        dsimp only at this
        rw [this]
        split
        · rename_i hn
          have : s.watches[w].definition.isSome = false := by
            rw [hn]
            rfl
          unfold watchDue
          rw [this]
          rfl
        · rw [getElem_setWatch, if_pos rfl]
          exact watchDue_of_state (by rintro _ _ ⟨⟩)
      refine ⟨.ofCalm (run_finish_change (.ofSame same) ts) ?_ (calm.trans (.runFinish ts k)), ?_⟩
      · dsimp only
        rw [runFinish_front, same.front]
        exact id
      · by_contra h
        rw [Bool.not_eq_false] at h
        have := (Calm.runFinish ts k).1 w h
        rw [off] at this
        cases this
    · rw [if_neg ht]
      exact ⟨.refl s, watchDue_of_state fun _ _ e => by cases hs.symm.trans e; simpa using ht⟩
  | _ => exact ⟨.refl s, watchDue_of_state fun _ _ e => by cases hs.symm.trans e⟩

theorem watchPulseEnd_noMore (w : Fin 16) (s : State) : NoMoreDue s (watchPulseEnd w s) :=
  .ofCalm (watchPulseEnd_change w s) id (.release _ s)

theorem hostPulseEnd_noMore (o : Fin 8) (s : State) : NoMoreDue s (hostPulseEnd o s) := by
  refine .ofCalm (hostPulseEnd_change o s) ?_ ?_ <;> unfold hostPulseEnd <;> split
  · exact id
  · exact id
  · exact .setOutput s o _ rfl
  · exact .refl s

/-- A pulse, once taken, is not due, and makes no timer due. -/
theorem takePulse_calm (t : TimeBase) :
    t.takePulse.1.pulseDue = false ∧ (syncDue t.takePulse.1.sync = true → syncDue t.sync = true) := by
  unfold TimeBase.takePulse TimeBase.pulse
  split
  · exact ⟨rfl, id⟩
  · rename_i option _ _
    refine ⟨rfl, ?_⟩
    cases option <;> (rintro ⟨⟩)
  · unfold TimeBase.trackedPulse
    split
    · exact ⟨rfl, id⟩
    · refine ⟨?_, by rintro ⟨⟩⟩
      unfold TimeBase.corrected
      dsimp only [TimeBase.accepted]
      split <;> rfl

theorem pulse_noMore (s : State) (records : List Draft) :
    NoMoreDue s (s.withTime (s.time.takePulse.1, records))
      ∧ (s.withTime (s.time.takePulse.1, records)).time.pulseDue = false := by
  have := takePulse_calm s.time
  refine ⟨.ofTime (withTime_change s _) ?_ ?_, ?_⟩ <;> rw [withTime_eq]
  · rw [this.1]
    rintro ⟨⟩
  · exact this.2
  · exact this.1

theorem enter_pulseDue (t : TimeBase) (x : SyncState) : (t.enter x).pulseDue = t.pulseDue := by
  cases x <;> rfl

theorem enter_sync (t : TimeBase) (x : SyncState) : (t.enter x).sync = x := by
  cases x <;> rfl

theorem returnFromArm_calm (t : TimeBase) (r : Remembered) :
    (t.returnFromArm r).pulseDue = t.pulseDue ∧ syncDue (t.returnFromArm r).sync = false := by
  unfold TimeBase.returnFromArm
  rw [enter_pulseDue, enter_sync]
  cases r <;> exact ⟨rfl, rfl⟩

theorem armDeadlineExpiry_noMore (s : State) :
    NoMoreDue s (armDeadlineExpiry s)
      ∧ (s.time.sync.deadlineDue = true → syncDue (armDeadlineExpiry s).time.sync = false) := by
  unfold armDeadlineExpiry
  split
  · rename_i r _ _ deadline h
    split
    · have := returnFromArm_calm s.time r
      refine ⟨.ofTime (withTime_change s _) ?_ ?_, ?_⟩ <;> rw [withTime_eq]
      · rw [this.1]
        exact id
      · rw [this.2]
        rintro ⟨⟩
      · exact fun _ => this.2
    · rename_i hd
      exact ⟨.refl s, by rw [h]; exact fun g => absurd g hd⟩
  · rename_i h
    refine ⟨.refl s, ?_⟩
    unfold SyncState.deadlineDue
    split
    · rename_i e
      exact absurd e (h _ _ _ _)
    · rintro ⟨⟩

theorem missedPulseExpiry_noMore (s : State) :
    NoMoreDue s (missedPulseExpiry s)
      ∧ (s.time.sync.limitDue = true → syncDue (missedPulseExpiry s).time.sync = false) := by
  unfold missedPulseExpiry
  split
  · refine ⟨.ofTime (withTime_change s _) ?_ ?_, ?_⟩ <;> rw [withTime_eq]
    · exact id
    · rintro ⟨⟩
    · exact fun _ => rfl
  · rename_i h
    exact ⟨.refl s, fun g => absurd g h⟩

theorem retransmitExpiry_noMore (s : State) :
    NoMoreDue s (retransmitExpiry s) ∧ isDue (retransmitExpiry s).delivery.timer = false := by
  have stopped : ∀ d : Delivery, d.timer = none → NoMoreDue s { s with delivery := d } := fun d h =>
    { NoMoreDue.refl s with
      retransmit := by
        show isDue d.timer = true → _
        rw [h]
        rintro ⟨⟩ }
  unfold retransmitExpiry
  split
  · dsimp only
    split
    · exact ⟨stopped _ rfl, rfl⟩
    · split
      · exact ⟨stopped _ rfl, rfl⟩
      · exact ⟨stopped _ rfl, rfl⟩
  · rename_i h
    exact ⟨.refl s, by simpa using h⟩

theorem repetitionTimerExpiry_noMore (s : State) :
    NoMoreDue s (repetitionTimerExpiry s) ∧ isDue (repetitionTimerExpiry s).announcer.timer = false := by
  unfold repetitionTimerExpiry
  split
  · exact ⟨{ NoMoreDue.refl s with repetition := by rintro ⟨⟩ }, rfl⟩
  · rename_i h
    exact ⟨.refl s, by simpa using h⟩

/-! ## Hand-overs -/

theorem startSending_noMore {s u : State} (h : NoMoreDue s u) (source : TxSource) (f : Frame) :
    NoMoreDue s (u.startSending source f) ∧ (u.startSending source f).lineFree = false := by
  have off : (u.startSending source f).lineFree = false := by
    unfold State.lineFree State.startSending
    simp
  exact ⟨{ h with line := by rw [off]; rintro ⟨⟩ }, off⟩

theorem handOver_noMore {s : State} (h : s.canHandOver = true) :
    NoMoreDue s (handOver s) ∧ (handOver s).lineFree = false := by
  unfold handOver
  by_cases h1 : s.replyWaits = true
  · rw [if_pos h1]
    unfold replyHandOver
    rw [if_pos h1]
    have : s.dispatcher.replies ≠ [] := by
      unfold State.replyWaits at h1
      simp_all
    split
    · contradiction
    · refine startSending_noMore ?_ _ _
      exact .ofDispatcher _ (Nat.le_refl _)
  · rw [if_neg h1]
    by_cases h2 : s.noticeWaits = true
    · rw [if_pos h2]
      unfold startNoticeHandOver
      rw [if_pos h2]
      have := startSending_noMore (NoMoreDue.refl s) .notice (noticeFrame s)
      refine ⟨this.1.trans { NoMoreDue.refl _ with repetition := ?_ }, this.2⟩
      show isDue s.announcer.sent.timer = true → isDue s.announcer.timer = true
      unfold Announcer.sent
      dsimp only
      split
      · exact id
      · rintro ⟨⟩
    · rw [if_neg h2]
      have h3 : s.reportWaits = true := by
        unfold State.canHandOver at h
        simp_all
      unfold reportHandOver
      rw [if_pos h3]
      refine startSending_noMore ?_ _ _
      exact ⟨id, id, fun _ => id, fun _ => id, id, id, id, Nat.le_refl _, id⟩

/-! ## Dispatches -/

theorem evaluateAtTaking_calm (w : Fin 16) (before : List Task) (s : State) :
    Calm s (evaluateAtTaking w before s) ∧ (evaluateAtTaking w before s).front = s.front := by
  unfold evaluateAtTaking
  have first := Calm.run before { state := s, sent := [] }
  have front := (run_sameOutside before { state := s, sent := [] }).front
  generalize ({ state := s, sent := [] } : Work).run before = k at first front ⊢
  exact ⟨first.trans (.runFinish _ k), (runFinish_front _ k).trans front⟩

theorem endAtTaking_calm (i : Fin 32) (k : Work) :
    Calm k.state (endAtTaking i k).state ∧ (endAtTaking i k).state.front.sampleDue = k.state.front.sampleDue := by
  unfold endAtTaking deliver
  generalize endSuppression i k.state.time.now k.state.front.lines[i] = result
  generalize hu : ({ state := k.state.setLine i result.line, sent := k.sent ++ [result.sent] } : Work) = u
  have : Calm k.state u.state ∧ u.state.front.sampleDue = k.state.front.sampleDue := by
    rw [← hu]
    exact ⟨.ofEq rfl rfl, rfl⟩
  dsimp only
  rw [hu]
  exact ⟨this.1.trans (.run _ u), (congrArg FrontEnd.sampleDue (run_sameOutside _ u).front).trans this.2⟩

theorem endSuppressions_calm (fuel : Nat) (lines : List (Fin 32)) (k : Work) :
    Calm k.state (endSuppressions fuel lines k).state
      ∧ (endSuppressions fuel lines k).state.front.sampleDue = k.state.front.sampleDue := by
  induction fuel generalizing lines k with
  | zero => exact ⟨.refl _, rfl⟩
  | succ fuel ih =>
    unfold endSuppressions
    dsimp only
    split
    · exact ⟨.refl _, rfl⟩
    · rename_i i _
      obtain ⟨n, hn⟩ := k.state.choose_eq (k.state.endsNext lines).length
      rw [hn]
      have one := endAtTaking_calm i { k with state := { k.state with choices := n } }
      generalize endAtTaking i { k with state := { k.state with choices := n } } = u at one ⊢
      have rest := ih (lines.erase i) u
      exact ⟨Calm.trans one.1 rest.1, rest.2.trans one.2⟩

theorem configureLines_calm (r : ConfigureLines) (s : State) :
    Calm s (configureLines r s) ∧ (configureLines r s).front.sampleDue = s.front.sampleDue := by
  unfold configureLines
  dsimp only
  generalize hu : ({ state := _, sent := [] } : Work) = u
  have : Calm s u.state ∧ u.state.front.sampleDue = s.front.sampleDue := by
    rw [← hu]
    exact ⟨.ofEq rfl rfl, rfl⟩
  have ends := endSuppressions_calm (s.endedBy r).length (s.endedBy r) u
  generalize endSuppressions _ _ u = v at ends ⊢
  refine ⟨(this.1.trans ends.1).trans (.finish v), ?_⟩
  obtain ⟨j, n, e, -⟩ := finish_eq v
  rw [e]
  exact ends.2.trans this.2

theorem takeConfigureLines_noMore (r : ConfigureLines) (s : State) : NoMoreDue s (takeConfigureLines r s).state := by
  have configured : ∀ u : State, NoMoreDue u (configureLines r u) := fun u =>
    .ofCalm (configureLines_change r u) (by rw [(configureLines_calm r u).2]; exact id) (configureLines_calm r u).1
  show NoMoreDue s (configureLines r (if s.sampleFirst r = true then takeSample s else s))
  split
  · exact (takeSample_noMore s).1.trans (configured _)
  · exact configured s

theorem takeEnableWatch_calm (w : Fin 16) (s : State) :
    Calm s (takeEnableWatch w s).state ∧ (takeEnableWatch w s).state.front = s.front := by
  unfold takeEnableWatch
  split
  · exact ⟨.refl s, rfl⟩
  · split
    · exact ⟨.refl s, rfl⟩
    · dsimp only [Taken.ok]
      have armed : Calm s (s.setWatch w { s.watches[w] with state := .armed, tripCount := 0 }) :=
        .setWatch s w _ (by rw [watchDue_of_state (by rintro _ _ ⟨⟩)]; rintro ⟨⟩)
      have ends := evaluateAtTaking_calm w [] (s.setWatch w { s.watches[w] with state := .armed, tripCount := 0 })
      exact ⟨armed.trans ends.1, ends.2⟩

theorem takeDisableWatch_calm (w : Fin 16) (s : State) :
    Calm s (takeDisableWatch w s).state ∧ (takeDisableWatch w s).state.front = s.front := by
  have off : Calm s (releaseAll w (s.setWatchState w .disabled)) :=
    (Calm.setWatchState s w .disabled (by rintro _ _ ⟨⟩)).trans (.release _ _)
  have front : (releaseAll w (s.setWatchState w .disabled)).front = s.front := rfl
  unfold takeDisableWatch
  dsimp only [Taken.ok]
  generalize releaseAll w (s.setWatchState w .disabled) = t at off front ⊢
  split
  · exact ⟨off.trans (.runFinish _ { state := t, sent := [] }), (runFinish_front _ { state := t, sent := [] }).trans front⟩
  · exact ⟨off, front⟩

theorem takeRearmWatch_calm (w : Fin 16) (s : State) :
    Calm s (takeRearmWatch w s).state ∧ (takeRearmWatch w s).state.front = s.front := by
  unfold takeRearmWatch
  split
  · have off : Calm s (releaseDrive w (s.setWatchState w .armed)) :=
      (Calm.setWatchState s w .armed (by rintro _ _ ⟨⟩)).trans (.release _ _)
    have front : (releaseDrive w (s.setWatchState w .armed)).front = s.front := rfl
    dsimp only [Taken.ok]
    generalize releaseDrive w (s.setWatchState w .armed) = t at off front ⊢
    have ends := evaluateAtTaking_calm w [.departed w] t
    exact ⟨off.trans ends.1, ends.2.trans front⟩
  · exact ⟨.refl s, rfl⟩
  · exact ⟨.refl s, rfl⟩

theorem takeSetWatch_calm (r : SetWatch) (s : State) :
    Calm s (takeSetWatch r s).state ∧ (takeSetWatch r s).state.front = s.front := by
  unfold takeSetWatch
  split
  · exact ⟨.refl s, rfl⟩
  · rename_i h
    rw [Decidable.not_not] at h
    have set : ∀ x : Option WatchDef, Calm s (s.setWatch r.watch { s.watches[r.watch] with definition := x }) := by
      intro x
      refine .setWatch s _ _ ?_
      rw [watchDue_of_state (fun _ _ e => by cases h.symm.trans e)]
      rintro ⟨⟩
    split
    · exact ⟨set _, rfl⟩
    · split
      · exact ⟨set _, rfl⟩
      · exact ⟨.refl s, rfl⟩

theorem takeDriveOutput_calm (r : DriveOutput) (s : State) :
    Calm s (takeDriveOutput r s).state ∧ (takeDriveOutput r s).state.front = s.front := by
  unfold takeDriveOutput
  split
  · exact ⟨.refl s, rfl⟩
  · exact ⟨.refl s, rfl⟩
  · exact ⟨.refl s, rfl⟩
  · dsimp only [Taken.ok]
    split
    · exact ⟨.setOutput s _ _ rfl, rfl⟩
    · exact ⟨.setOutput s _ _ rfl, rfl⟩

theorem takeSetOutputFunction_calm (r : SetOutputFunction) (s : State) :
    Calm s (takeSetOutputFunction r s).state ∧ (takeSetOutputFunction r s).state.front = s.front := by
  unfold takeSetOutputFunction
  split
  · exact ⟨.refl s, rfl⟩
  · exact ⟨.refl s, rfl⟩
  · dsimp only [Taken.ok]
    split
    · exact ⟨.setOutput s _ _ rfl, rfl⟩
    · exact ⟨.setOutput s _ _ rfl, rfl⟩
  · dsimp only [Taken.ok]
    split
    · exact ⟨.setOutput s _ _ rfl, rfl⟩
    · exact ⟨.refl s, rfl⟩

/-- The time requests make nothing due. -/
theorem takeSetTime_noMore (time : TimeValue) (s : State) : NoMoreDue s (takeSetTime time s).state := by
  refine .ofTime (takeSetTime_change time s) ?_ ?_ <;> unfold takeSetTime <;> dsimp only [Taken.ok] <;> rw [withTime_eq]
    <;> cases h : s.time.sync with
    | armed r v o d =>
      have := returnFromArm_calm s.time r
      simp_all [TimeBase.setTo, TimeBase.clearSlew]
    | _ => simp [TimeBase.setTo, TimeBase.clearSlew, h]

theorem takeSetSync_noMore (setting : SyncSetting) (s : State) : NoMoreDue s (takeSetSync setting s).state := by
  have h : (s.time.setSync setting).pulseDue = s.time.pulseDue
      ∧ (syncDue (s.time.setSync setting).sync = true → syncDue s.time.sync = true) := by
    unfold TimeBase.setSync
    split
    · exact ⟨rfl, by rintro ⟨⟩⟩
    · exact ⟨rfl, by rintro ⟨⟩⟩
    · exact ⟨rfl, id⟩
    · exact ⟨rfl, id⟩
    · exact ⟨rfl, by rintro ⟨⟩⟩
  exact .ofTime (takeSetSync_change setting s) (fun x => h.1 ▸ x) h.2

/-- What an owning block takes makes nothing due. -/
theorem serve_noMore {k : RequestKind} {payload : List Octet} {s : State} {taken : Taken}
    (h : serve k payload s = .ok taken) : NoMoreDue s taken.state := by
  have field : ∀ {t : State}, FieldChange s t → Calm s t ∧ t.front = s.front → NoMoreDue s t :=
    fun c g => .ofCalm c (by rw [g.2]; exact id) g.1
  cases k <;> obtain ⟨a, _, rfl⟩ := map_ok h
  case setWatch => exact field (takeSetWatch_change a s) (takeSetWatch_calm a s)
  case enableWatch => exact field (takeEnableWatch_change a s) (takeEnableWatch_calm a s)
  case disableWatch => exact field (takeDisableWatch_change a s) (takeDisableWatch_calm a s)
  case rearmWatch => exact field (takeRearmWatch_change a s) (takeRearmWatch_calm a s)
  case driveOutput => exact field (takeDriveOutput_change a s) (takeDriveOutput_calm a s)
  case setOutputFunction => exact field (takeSetOutputFunction_change a s) (takeSetOutputFunction_calm a s)
  case configureLines => exact takeConfigureLines_noMore a s
  case setTime => exact takeSetTime_noMore a s
  case setSync => exact takeSetSync_noMore a s
  case setTimeAtPulse => exact .ofTime (takeSetTimeAtPulse_change a s) id (by rintro ⟨⟩)
  case configureTime => exact .ofTime (takeConfigureTime_change a s) id id
  case fetch =>
    unfold takeFetch
    split <;> exact ⟨id, id, fun _ => id, fun _ => id, id, id, id, Nat.le_refl _, id⟩
  case ack =>
    unfold takeAck
    split
    · refine ⟨id, id, fun _ => id, fun _ => id, id, ?_, id, Nat.le_refl _, id⟩
      show isDue (s.delivery.acknowledged _).timer = true → _
      unfold Delivery.acknowledged
      dsimp only
      split
      · rintro ⟨⟩
      · split <;> rintro ⟨⟩
    · exact .refl s
  case setDelivery => exact ⟨id, id, fun _ => id, fun _ => id, id, by rintro ⟨⟩, id, Nat.le_refl _, id⟩
  case resume =>
    unfold takeResume
    split <;> exact ⟨id, id, fun _ => id, fun _ => id, id, id, id, Nat.le_refl _, id⟩
  all_goals exact ⟨id, id, fun _ => id, fun _ => id, id, id, id, Nat.le_refl _, id⟩

/-- A dispatch makes nothing due, and takes its request from the queue (R178). -/
theorem dispatched_noMore {f : Frame} {rest : List Frame} {answer : Except Status Taken} {s : State}
    (front : s.dispatcher.requests = f :: rest)
    (taken : ∀ u, answer = .ok u → NoMoreDue s.popRequest u.state) :
    NoMoreDue s (dispatched f answer s)
      ∧ (dispatched f answer s).dispatcher.requests.length < s.dispatcher.requests.length := by
  have pop : s.popRequest = { s with dispatcher := { s.dispatcher with requests := rest } } := popRequest_of_front front
  have less : rest.length < s.dispatcher.requests.length := by
    rw [front]
    exact Nat.lt_succ_self _
  have finish : ∀ {t u : State}, NoMoreDue s.popRequest t → u = { t with dispatcher := u.dispatcher } →
      u.dispatcher.requests = t.dispatcher.requests →
      NoMoreDue s u ∧ u.dispatcher.requests.length < s.dispatcher.requests.length := by
    intro t u h e r
    have len : u.dispatcher.requests.length ≤ rest.length := by
      have := h.requests
      rw [pop] at this
      rwa [r]
    have first : NoMoreDue s s.popRequest := by
      rw [pop]
      exact .ofDispatcher _ (Nat.le_of_lt less)
    refine ⟨(first.trans h).trans ?_, Nat.lt_of_le_of_lt len less⟩
    rw [e]
    exact .ofDispatcher u.dispatcher (Nat.le_of_eq (congrArg List.length r))
  have close : ∀ u : Taken, NoMoreDue s.popRequest u.state →
      NoMoreDue s (u.answer f) ∧ (u.answer f).dispatcher.requests.length < s.dispatcher.requests.length := by
    intro u h
    rw [answer_eq]
    exact finish h rfl rfl
  unfold dispatched
  split
  · exact finish (.refl _) rfl rfl
  · split
    · exact close _ (.refl _)
    · exact close _ (taken _ rfl)

theorem dispatchOldest_noMore {s : State} (h : s.canDispatch = true) :
    NoMoreDue s (dispatchOldest s) ∧ (dispatchOldest s).dispatcher.requests.length < s.dispatcher.requests.length := by
  obtain ⟨f, rest, front⟩ : ∃ f rest, s.dispatcher.requests = f :: rest := by
    cases e : s.dispatcher.requests with
    | nil => simp [State.canDispatch, e] at h
    | cons f rest => exact ⟨f, rest, rfl⟩
  rcases hk : RequestKind.ofCode f.kind with _ | k
  · have e : dispatchOldest s = dispatched f (.error .unknownKind) s := by
      unfold dispatchOldest
      rw [front]
      simp only [hk]
      unfold dispatchUnknown
      rw [if_pos h, front]
      simp only [hk, if_true]
      exact dispatchFrame_eq f _ _ s
    rw [e]
    exact dispatched_noMore front (by rintro _ ⟨⟩)
  · have e : dispatchOldest s = dispatched f (serve k f.payload s.popRequest) s := by
      have key : ∀ {α : Type} (parse : List Octet → Except Status α) (take : α → State → Taken),
          dispatch k parse take s = dispatched f ((parse f.payload).map fun a => take a s.popRequest) s := by
        intro α parse take
        unfold dispatch
        rw [if_pos h, front]
        simp only [hk, if_true]
        exact dispatchFrame_eq f parse take s
      unfold dispatchOldest
      rw [front]
      simp only [hk]
      cases k <;> exact key _ _
    rw [e]
    exact dispatched_noMore front fun u hu => serve_noMore hu

/-! ## The sample behind requests -/

/-- The dispatcher's next event makes nothing due. -/
theorem dispatcherEvent_noMore (s : State) : NoMoreDue s (dispatcherEvent s) := by
  unfold dispatcherEvent
  split
  · exact (dispatchOldest_noMore ‹_›).1
  · split
    · rename_i h
      have e : handOver s = replyHandOver s := by
        unfold handOver
        rw [if_pos h]
      rw [← e]
      exact (handOver_noMore (by simp [State.canHandOver, h])).1
    · exact .refl s

theorem departFirst_noMore (fuel : Nat) (s : State) : NoMoreDue s (departFirst fuel s) := by
  induction fuel generalizing s with
  | zero => exact .refl s
  | succ fuel ih =>
    unfold departFirst
    split
    · exact (dispatcherEvent_noMore s).trans (ih _)
    · exact .refl s

/-- The sample is not due once it is taken, and neither it nor what comes before it makes anything due. -/
theorem sample_noMore (s : State) : NoMoreDue s (sample s) ∧ (sample s).sampleReady = false := by
  have first := departFirst_noMore departFuel s
  unfold sample sampleBehind
  dsimp only
  generalize departFirst departFuel s = t at first ⊢
  split
  · split
    · have := takeSample_noMore t
      exact ⟨first.trans this.1, by simp [State.sampleReady, this.2]⟩
    · rename_i h
      exact ⟨first, by simpa using h⟩
  · rename_i h
    exact ⟨.refl s, by simpa using h⟩

/-- With no request before it, the sample is all that is taken. -/
theorem sampleBehind_alone {s : State} (ready : s.sampleReady = true) (h : s.requestsFirst = false) :
    sampleBehind s = takeSample s := by
  have : departFirst departFuel s = s := by
    unfold departFirst departFuel
    simp [h]
  unfold sampleBehind
  rw [this]
  simp [ready]

theorem sample_alone {s : State} (ready : s.sampleReady = true) (h : s.requestsFirst = false) : sample s = takeSample s := by
  unfold sample
  rw [if_pos ready, sampleBehind_alone ready h]

/-! ## All due events are taken -/

/-- How many events can be due, at most, before none is. -/
def State.dueCount (s : State) : Nat :=
  s.sampleReady.toNat + s.time.pulseDue.toNat + (List.finRange 16).countP (fun w => watchDue s.watches[w])
    + (List.finRange 8).countP (fun o => ownerDue s.outputs[o].owner) + (syncDue s.time.sync).toNat
    + (isDue s.delivery.timer).toNat + (isDue s.announcer.timer).toNat + s.dispatcher.requests.length
    + s.lineFree.toNat

theorem toNat_le {a b : Bool} (h : a = true → b = true) : a.toNat ≤ b.toNat := by
  cases a <;> cases b <;> simp_all

theorem toNat_lt {a b : Bool} (ha : a = false) (hb : b = true) : a.toNat < b.toNat := by
  subst ha hb
  decide

theorem countP_lt {n : Nat} {p q : Fin n → Bool} (h : ∀ i, p i = true → q i = true) {i : Fin n} (hp : p i = false)
    (hq : q i = true) : (List.finRange n).countP p < (List.finRange n).countP q := by
  obtain ⟨a, b, e⟩ := List.append_of_mem (List.mem_finRange i)
  rw [e, List.countP_append, List.countP_append, List.countP_cons, List.countP_cons]
  have ha : a.countP p ≤ a.countP q := List.countP_mono_left fun j _ => h j
  have hb : b.countP p ≤ b.countP q := List.countP_mono_left fun j _ => h j
  simp only [hp, hq, if_true, Bool.false_eq_true, if_false]
  omega

/-- No more due of each kind, and less of one, is fewer due. -/
theorem dueCount_lt {s t : State} (h : NoMoreDue s t)
    (less : (t.sampleReady = false ∧ s.sampleReady = true) ∨ (t.time.pulseDue = false ∧ s.time.pulseDue = true)
      ∨ (∃ w : Fin 16, watchDue t.watches[w] = false ∧ watchDue s.watches[w] = true)
      ∨ (∃ o : Fin 8, ownerDue t.outputs[o].owner = false ∧ ownerDue s.outputs[o].owner = true)
      ∨ (syncDue t.time.sync = false ∧ syncDue s.time.sync = true)
      ∨ (isDue t.delivery.timer = false ∧ isDue s.delivery.timer = true)
      ∨ (isDue t.announcer.timer = false ∧ isDue s.announcer.timer = true)
      ∨ t.dispatcher.requests.length < s.dispatcher.requests.length
      ∨ (t.lineFree = false ∧ s.lineFree = true)) : t.dueCount < s.dueCount := by
  have h1 := toNat_le h.sample
  have h2 := toNat_le h.pulse
  have h3 : (List.finRange 16).countP (fun w => watchDue t.watches[w])
      ≤ (List.finRange 16).countP (fun w => watchDue s.watches[w]) := List.countP_mono_left fun w _ => h.watches w
  have h4 : (List.finRange 8).countP (fun o => ownerDue t.outputs[o].owner)
      ≤ (List.finRange 8).countP (fun o => ownerDue s.outputs[o].owner) := List.countP_mono_left fun o _ => h.outputs o
  have h5 := toNat_le h.sync
  have h6 := toNat_le h.retransmit
  have h7 := toNat_le h.repetition
  have h8 := h.requests
  have h9 := toNat_le h.line
  unfold State.dueCount
  rcases less with ⟨a, b⟩ | ⟨a, b⟩ | ⟨w, a, b⟩ | ⟨o, a, b⟩ | ⟨a, b⟩ | ⟨a, b⟩ | ⟨a, b⟩ | a | ⟨a, b⟩
  · have := toNat_lt a b
    omega
  · have := toNat_lt a b
    omega
  · have := countP_lt h.watches a b
    omega
  · have := countP_lt h.outputs a b
    omega
  · have := toNat_lt a b
    omega
  · have := toNat_lt a b
    omega
  · have := toNat_lt a b
    omega
  · omega
  · have := toNat_lt a b
    omega

/-- The pulses of a watch that have reached 0 have ended. -/
theorem watchPulseEnd_less {w : Fin 16} {s : State} (h : s.watchPulseEnds w = true) :
    ∃ o : Fin 8, ownerDue (watchPulseEnd w s).outputs[o].owner = false ∧ ownerDue s.outputs[o].owner = true := by
  unfold State.watchPulseEnds at h
  obtain ⟨o, -, ho⟩ := List.any_eq_true.mp h
  have due : ∀ x : Owner, watchPulseDue w x = true → ownerDue x = true := by
    intro x hx
    unfold watchPulseDue at hx
    split at hx
    · simp only [Bool.and_eq_true] at hx
      exact hx.2
    · cases hx
  refine ⟨o, ?_, due _ ho⟩
  rcases releaseWhere_cases (watchPulseDue w) s o with e | ⟨-, e⟩
  · unfold watchPulseEnd
    rw [e]
    rfl
  · rw [ho] at e
    cases e

theorem hostPulseEnd_less {o : Fin 8} {s : State} (h : hostPulseDue s.outputs[o].owner = true) :
    ownerDue (hostPulseEnd o s).outputs[o].owner = false ∧ ownerDue s.outputs[o].owner = true := by
  constructor
  · unfold hostPulseEnd
    rw [if_pos h]
    show ownerDue (s.outputs.set o.val _ o.isLt)[o].owner = false
    simp only [Fin.getElem_fin, Vector.getElem_set_self]
    rfl
  · unfold hostPulseDue at h
    split at h
    · rename_i p e
      rw [e]
      exact h
    · cases h

theorem choose_noMore (s : State) (n : Nat) : NoMoreDue s (s.choose n).2 := by
  obtain ⟨m, hm⟩ := s.choose_eq n
  rw [hm]
  exact ⟨id, id, fun _ => id, fun _ => id, id, id, id, Nat.le_refl _, id⟩

theorem dispatchSends_can {s : State} (h : s.dispatchSends = true) : s.canDispatch = true := by
  unfold State.dispatchSends at h
  rw [Bool.and_eq_true] at h
  exact h.1

theorem takeBeside_noMore {e : Beside} {s : State} (h : e ∈ s.besides) : NoMoreDue s (takeBeside e s) := by
  unfold State.besides at h
  simp only [List.mem_append, List.mem_ite_nil_right, List.mem_singleton, List.mem_map] at h
  rcases h with (⟨hd, rfl⟩ | ⟨w, _, rfl⟩) | ⟨hd, rfl⟩
  · exact (sample_noMore s).1
  · exact (qualifyExpiry_noMore w s).1
  · exact (dispatchOldest_noMore (dispatchSends_can hd)).1

theorem takeBesides_noMore (fuel : Nat) (s : State) : NoMoreDue s (takeBesides fuel s) := by
  induction fuel generalizing s with
  | zero => exact .refl s
  | succ fuel ih =>
    unfold takeBesides
    dsimp only
    have chosen := choose_noMore s (s.besides.length + 1)
    split
    · exact chosen
    · rename_i e he
      refine .trans (.trans chosen (takeBeside_noMore ?_)) (ih _)
      have := List.mem_of_getElem? he
      obtain ⟨m, hm⟩ := s.choose_eq (s.besides.length + 1)
      rw [hm]
      exact this

/-- A pulse is not due once it is taken, and what comes between its records makes nothing due. -/
theorem syncPulse_noMore (s : State) : NoMoreDue s (syncPulse s) ∧ (syncPulse s).time.pulseDue = false := by
  rcases syncPulse_cases s with ⟨h, e⟩ | ⟨-, -, e⟩ | ⟨time, step, gained, -, ht, e⟩ <;> rw [e]
  · exact ⟨.refl s, h⟩
  · exact pulse_noMore s _
  · have pulse := pulse_noMore s [step]
    rw [ht] at pulse
    have besides := takeBesides_noMore besideFuel (s.withTime (time, [step]))
    have arrives : NoMoreDue _ ((takeBesides besideFuel (s.withTime (time, [step]))).arrive gained) :=
      .trans besides (.ofField (arrive_change _ gained) id (fun _ => id) (fun _ => id))
    refine ⟨pulse.1.trans arrives, ?_⟩
    have := arrives.pulse
    rw [pulse.2] at this
    simpa using this

/-- A due event that is taken leaves fewer due. -/
theorem takeDue_less {e : Due} {s : State} (h : e ∈ s.dueEvents) : (takeDue e s).dueCount < s.dueCount := by
  unfold State.dueEvents at h
  simp only [List.mem_append, List.mem_ite_nil_right, List.mem_singleton, List.mem_map, List.mem_filter,
    List.mem_finRange, true_and] at h
  rcases h with (((((((((⟨hd, rfl⟩ | ⟨hd, rfl⟩) | ⟨w, hd, rfl⟩) | ⟨w, hd, rfl⟩) | ⟨o, hd, rfl⟩) | ⟨hd, rfl⟩)
    | ⟨hd, rfl⟩) | ⟨hd, rfl⟩) | ⟨hd, rfl⟩) | ⟨hd, rfl⟩) | ⟨hd, rfl⟩
  · have := sample_noMore s
    exact dueCount_lt this.1 (.inl ⟨this.2, hd⟩)
  · have := syncPulse_noMore s
    exact dueCount_lt this.1 (.inr (.inl ⟨this.2, hd⟩))
  · have := qualifyExpiry_noMore w s
    exact dueCount_lt this.1 (.inr (.inr (.inl ⟨w, this.2, hd⟩)))
  · exact dueCount_lt (watchPulseEnd_noMore w s) (.inr (.inr (.inr (.inl (watchPulseEnd_less hd)))))
  · exact dueCount_lt (hostPulseEnd_noMore o s) (.inr (.inr (.inr (.inl ⟨o, hostPulseEnd_less hd⟩))))
  · have := armDeadlineExpiry_noMore s
    exact dueCount_lt this.1 (.inr (.inr (.inr (.inr (.inl ⟨this.2 hd, by simp [syncDue, hd]⟩)))))
  · have := missedPulseExpiry_noMore s
    exact dueCount_lt this.1 (.inr (.inr (.inr (.inr (.inl ⟨this.2 hd, by simp [syncDue, hd]⟩)))))
  · have := retransmitExpiry_noMore s
    exact dueCount_lt this.1 (.inr (.inr (.inr (.inr (.inr (.inl ⟨this.2, hd⟩))))))
  · have := repetitionTimerExpiry_noMore s
    exact dueCount_lt this.1 (.inr (.inr (.inr (.inr (.inr (.inr (.inl ⟨this.2, hd⟩)))))))
  · have := dispatchOldest_noMore hd
    exact dueCount_lt this.1 (.inr (.inr (.inr (.inr (.inr (.inr (.inr (.inl this.2))))))))
  · have := handOver_noMore hd
    refine dueCount_lt this.1 (.inr (.inr (.inr (.inr (.inr (.inr (.inr (.inr ⟨this.2, ?_⟩))))))))
    unfold State.canHandOver State.replyWaits State.noticeWaits State.reportWaits at hd
    simp only [Bool.or_eq_true, Bool.and_eq_true] at hd
    rcases hd with (hd | hd) | hd
    · exact hd.1
    · exact hd.1.1.1
    · exact hd.1.1.1

/-- A choice takes nothing and makes nothing due. -/
theorem choose_due (s : State) (n : Nat) : (s.choose n).2.dueEvents = s.dueEvents ∧ (s.choose n).2.dueCount = s.dueCount
    ∧ (n ≠ 0 → (s.choose n).1 < n) := by
  unfold State.choose
  split
  · exact ⟨rfl, rfl, fun _ => by omega⟩
  · exact ⟨rfl, rfl, fun _ => Nat.mod_lt _ (by omega)⟩

theorem takeDueEvents_done (fuel : Nat) (s : State) (h : s.dueCount < fuel) : (takeDueEvents fuel s).dueEvents = [] := by
  induction fuel generalizing s with
  | zero => omega
  | succ fuel ih =>
    unfold takeDueEvents
    have chosen := choose_due s s.dueEvents.length
    dsimp only
    split
    · rename_i hn
      rw [List.getElem?_eq_none_iff] at hn
      by_contra hne
      have : s.dueEvents.length ≠ 0 := by
        rw [chosen.1] at hne
        simpa using hne
      have := chosen.2.2 this
      omega
    · rename_i e hn
      apply ih
      have mem : e ∈ (s.choose s.dueEvents.length).2.dueEvents := by
        rw [chosen.1]
        exact List.mem_of_getElem? hn
      have := takeDue_less mem
      omega

/-- Once every due event has been taken, none is due: with no more than 4 requests queued (R174), 100 are more than can
come about. -/
theorem settle_done {s : State} (h : s.dispatcher.requests.length ≤ 4) : s.settle.dueEvents = [] := by
  apply takeDueEvents_done
  have b : ∀ x : Bool, x.toNat ≤ 1 := fun x => by cases x <;> decide
  have w : (List.finRange 16).countP (fun w => watchDue s.watches[w]) ≤ 16 := List.countP_le_length.trans (by simp)
  have o : (List.finRange 8).countP (fun o => ownerDue s.outputs[o].owner) ≤ 8 := List.countP_le_length.trans (by simp)
  have := b s.sampleReady
  have := b s.time.pulseDue
  have := b (syncDue s.time.sync)
  have := b (isDue s.delivery.timer)
  have := b (isDue s.announcer.timer)
  have := b s.lineFree
  unfold State.dueCount dueFuel
  omega

/-- What is due does not depend on the moment. -/
@[simp] theorem dueEvents_moment (s : State) (m : Moment) : ({ s with moment := m } : State).dueEvents = s.dueEvents := rfl

/-- An event of the link that cannot come together with what is due finds nothing due (R162, R175, R178). -/
theorem found_done {p : Party} {s : State} (h : s.dispatcher.requests.length ≤ 4)
    (later : s.dueEvents = [] ∨ s.moment.had p = true) : (s.found p).dueEvents = [] := by
  unfold State.found
  rw [if_pos later, dueEvents_moment]
  exact settle_done h

/-- One that can come together with what is due is taken first. -/
theorem found_together {p : Party} {s : State} (h : s.dueEvents ≠ []) (had : s.moment.had p = false) :
    s.found p = { s with moment := s.moment.join p } := by
  unfold State.found
  rw [if_neg (by simp [h, had])]

theorem found_had (p : Party) (s : State) : (s.found p).moment.had p = true := by
  unfold State.found
  split <;> cases p <;> rfl

/-! ## What due events leave as it is -/

/-- The part is held or not as it was, the link is as it was but for its counters and its line, and no tick has passed. -/
structure Untouched (s t : State) : Prop where
  hold : t.hold = s.hold
  link : t.link = { s.link with counters := t.link.counters, line := t.link.line }
  tick : t.time.tickCounter = s.time.tickCounter

namespace Untouched

theorem refl (s : State) : Untouched s s := ⟨rfl, rfl, rfl⟩

theorem trans {s t u : State} (h : Untouched s t) (g : Untouched t u) : Untouched s u :=
  ⟨g.hold.trans h.hold, by rw [g.link, h.link], g.tick.trans h.tick⟩

theorem ofField {s t : State} (h : FieldChange s t) : Untouched s t := ⟨h.hold, by rw [h.link], by rw [h.time]⟩

theorem ofTime {s t : State} (h : TimeChange s t) (tick : t.time.tickCounter = s.time.tickCounter) : Untouched s t :=
  ⟨h.hold, by rw [h.link], tick⟩

end Untouched

theorem enter_tickCounter (t : TimeBase) (x : SyncState) : (t.enter x).tickCounter = t.tickCounter := by
  cases x <;> rfl

theorem pulse_tickCounter (t : TimeBase) : t.pulse.1.tickCounter = t.tickCounter := by
  unfold TimeBase.pulse
  split
  · rfl
  · rfl
  · unfold TimeBase.trackedPulse TimeBase.corrected
    split
    · rfl
    · dsimp only [TimeBase.accepted]
      split <;> rfl

theorem setSync_tickCounter (t : TimeBase) (setting : SyncSetting) : (t.setSync setting).tickCounter = t.tickCounter := by
  unfold TimeBase.setSync
  split <;> rfl

theorem takeSetTime_tickCounter (time : TimeValue) (s : State) :
    (takeSetTime time s).state.time.tickCounter = s.time.tickCounter := by
  unfold takeSetTime
  dsimp only [Taken.ok]
  rw [withTime_eq]
  split
  · exact enter_tickCounter ..
  · rfl

theorem serve_untouched {k : RequestKind} {payload : List Octet} {s : State} {taken : Taken}
    (h : serve k payload s = .ok taken) : Untouched s taken.state := by
  cases k <;> obtain ⟨a, _, rfl⟩ := map_ok h
  case setWatch => exact .ofField (takeSetWatch_change a s)
  case enableWatch => exact .ofField (takeEnableWatch_change a s)
  case disableWatch => exact .ofField (takeDisableWatch_change a s)
  case rearmWatch => exact .ofField (takeRearmWatch_change a s)
  case driveOutput => exact .ofField (takeDriveOutput_change a s)
  case setOutputFunction => exact .ofField (takeSetOutputFunction_change a s)
  case configureLines => exact .ofField (takeConfigureLines_change a s)
  case setTime => exact .ofTime (takeSetTime_change a s) (takeSetTime_tickCounter a s)
  case setSync => exact .ofTime (takeSetSync_change a s) (setSync_tickCounter s.time a)
  case fetch =>
    unfold takeFetch
    split <;> exact ⟨rfl, rfl, rfl⟩
  case ack =>
    unfold takeAck
    split <;> exact ⟨rfl, rfl, rfl⟩
  case resume =>
    unfold takeResume
    split <;> exact ⟨rfl, rfl, rfl⟩
  all_goals exact ⟨rfl, rfl, rfl⟩

theorem dispatched_untouched {f : Frame} {answer : Except Status Taken} {s : State}
    (taken : ∀ u, answer = .ok u → Untouched s.popRequest u.state) : Untouched s (dispatched f answer s) := by
  have close : ∀ u : Taken, Untouched s.popRequest u.state → Untouched s (u.answer f) := by
    intro u h
    rw [answer_eq]
    have pop : Untouched s u.state := Untouched.trans (t := s.popRequest) ⟨rfl, rfl, rfl⟩ h
    exact pop.trans ⟨rfl, rfl, rfl⟩
  unfold dispatched
  split
  · exact ⟨rfl, rfl, rfl⟩
  · split
    · exact close _ (.refl _)
    · exact close _ (taken _ rfl)

theorem dispatchUnknown_untouched (s : State) : Untouched s (dispatchUnknown s) := by
  rcases dispatchUnknown_cases s with e | ⟨f, _, _, _, _, e⟩ <;> rw [e]
  · exact .refl s
  · exact dispatched_untouched (by rintro _ ⟨⟩)

theorem command_untouched {k : RequestKind} {s t : State} (h : exec k.command s = .next t) : Untouched s t := by
  rcases exec_command_cases k s with e | ⟨f, _, _, _, _, e⟩ <;> rw [e] at h <;> cases h
  · exact .refl s
  · exact dispatched_untouched fun u hu => serve_untouched hu

theorem dispatchOldest_untouched (s : State) : Untouched s (dispatchOldest s) := by
  rcases dispatchOldest_cases s with e | e | ⟨k, e⟩
  · rw [e]
    exact .refl s
  · rw [e]
    exact dispatchUnknown_untouched s
  · exact command_untouched e

/-- A reply that is handed over leaves reception and the tick counter as they are. -/
theorem replyHandOver_untouched (s : State) : Untouched s (replyHandOver s) := by
  unfold replyHandOver
  split
  · split <;> exact ⟨rfl, rfl, rfl⟩
  · exact .refl s

theorem departFirst_untouched (fuel : Nat) (s : State) : Untouched s (departFirst fuel s) := by
  have event : ∀ u, Untouched u (dispatcherEvent u) := by
    intro u
    unfold dispatcherEvent
    split
    · exact dispatchOldest_untouched u
    · split
      · exact replyHandOver_untouched u
      · exact .refl u
  induction fuel generalizing s with
  | zero => exact .refl s
  | succ fuel ih =>
    unfold departFirst
    split
    · exact (event s).trans (ih _)
    · exact .refl s

theorem sample_untouched (s : State) : Untouched s (sample s) := by
  have first := departFirst_untouched departFuel s
  unfold sample sampleBehind
  dsimp only
  generalize departFirst departFuel s = t at first ⊢
  split
  · split
    · exact first.trans (.ofField (takeSample_change t))
    · exact first
  · exact .refl s

theorem choose_untouched (s : State) (n : Nat) : Untouched s (s.choose n).2 := by
  obtain ⟨m, hm⟩ := s.choose_eq n
  rw [hm]
  exact ⟨rfl, rfl, rfl⟩

theorem takeBeside_untouched (e : Beside) (s : State) : Untouched s (takeBeside e s) := by
  cases e with
  | sample => exact sample_untouched s
  | qualify w => exact .ofField (qualifyExpiry_change w s)
  | dispatch => exact dispatchOldest_untouched s

theorem takeBesides_untouched (fuel : Nat) (s : State) : Untouched s (takeBesides fuel s) := by
  induction fuel generalizing s with
  | zero => exact .refl s
  | succ fuel ih =>
    unfold takeBesides
    dsimp only
    have chosen := choose_untouched s (s.besides.length + 1)
    split
    · exact chosen
    · exact (chosen.trans (takeBeside_untouched _ _)).trans (ih _)

theorem pulse_untouched (s : State) (records : List Draft) :
    Untouched s (s.withTime (s.time.takePulse.1, records)) := by
  refine .ofTime (withTime_change s _) ?_
  rw [withTime_eq]
  exact pulse_tickCounter _

theorem syncPulse_untouched (s : State) : Untouched s (syncPulse s) := by
  rcases syncPulse_cases s with ⟨-, e⟩ | ⟨-, -, e⟩ | ⟨time, step, gained, -, ht, e⟩ <;> rw [e]
  · exact .refl s
  · exact pulse_untouched s _
  · have := pulse_untouched s [step]
    rw [ht] at this
    exact (this.trans (takeBesides_untouched _ _)).trans (.ofField (arrive_change _ gained))

/-! ## What comes beside a pulse -/

/-- The dispatch of the oldest request is the command of its kind. -/
theorem dispatchOldest_exec {k : RequestKind} {s : State} {f : Frame} {rest : List Frame}
    (h : s.dispatcher.requests = f :: rest) (hk : RequestKind.ofCode f.kind = some k) :
    exec k.command s = .next (dispatchOldest s) := by
  unfold dispatchOldest
  rw [h]
  dsimp only
  rw [hk]
  cases k <;> rfl

/-- A dispatch beside a pulse is of a request whose taking may send records. -/
theorem dispatchSends_kind {s : State} (h : s.dispatchSends = true) :
    ∃ (k : RequestKind) (f : Frame) (rest : List Frame), s.dispatcher.requests = f :: rest ∧ sendsRecords k = true
      ∧ exec k.command s = .next (dispatchOldest s) := by
  unfold State.dispatchSends at h
  rw [Bool.and_eq_true] at h
  replace h := h.2
  split at h
  · cases h
  · rename_i f rest hq
    cases hk : RequestKind.ofCode f.kind with
    | none =>
      rw [hk] at h
      cases h
    | some k =>
      rw [hk] at h
      exact ⟨k, f, rest, hq, h, dispatchOldest_exec hq hk⟩

theorem dispatched_time {f : Frame} {answer : Except Status Taken} {s : State}
    (taken : ∀ u, answer = .ok u → u.state.time = s.time) : (dispatched f answer s).time = s.time := by
  unfold dispatched
  split
  · rfl
  · split
    · rw [answer_eq]
      rfl
    · rw [answer_eq]
      exact taken _ rfl

/-- An event beside a pulse leaves the time base as it is. -/
theorem takeBeside_time {e : Beside} {s : State} (h : e ∈ s.besides) : (takeBeside e s).time = s.time := by
  unfold State.besides at h
  simp only [List.mem_append, List.mem_ite_nil_right, List.mem_singleton, List.mem_map] at h
  rcases h with (⟨hd, rfl⟩ | ⟨w, _, rfl⟩) | ⟨hd, rfl⟩
  · rw [Bool.and_eq_true, Bool.not_eq_true'] at hd
    show (sample s).time = s.time
    rw [sample_alone hd.1 hd.2]
    exact (takeSample_change s).time
  · exact (qualifyExpiry_change w s).time
  · obtain ⟨k, f, rest, hq, hk, e⟩ := dispatchSends_kind hd
    show (dispatchOldest s).time = s.time
    rcases exec_command_cases k s with g | ⟨f', rest', -, -, -, g⟩ <;> rw [g] at e <;> rw [← Host.Outcome.next.inj e]
    refine dispatched_time fun u hu => ?_
    cases k
    case configureLines =>
      obtain ⟨a, _, rfl⟩ := map_ok hu
      exact (takeConfigureLines_change a s.popRequest).time
    case enableWatch =>
      obtain ⟨a, _, rfl⟩ := map_ok hu
      exact (takeEnableWatch_change a s.popRequest).time
    case rearmWatch =>
      obtain ⟨a, _, rfl⟩ := map_ok hu
      exact (takeRearmWatch_change a s.popRequest).time
    all_goals cases hk

/-- The events beside a pulse leave the time base as it is. -/
theorem takeBesides_time (fuel : Nat) (s : State) : (takeBesides fuel s).time = s.time := by
  induction fuel generalizing s with
  | zero => rfl
  | succ fuel ih =>
    unfold takeBesides
    obtain ⟨n, hn⟩ := s.choose_eq (s.besides.length + 1)
    dsimp only
    rw [hn]
    split
    · rfl
    · rename_i e he
      have mem : e ∈ ({ s with choices := n } : State).besides := List.mem_of_getElem? he
      rw [ih, takeBeside_time mem]

/-- Where nothing else is due, nothing comes between the records of a pulse, and no free value is used. -/
theorem takeBesides_none {s : State} (h : s.besides = []) (fuel : Nat) : takeBesides fuel s = s := by
  cases fuel with
  | zero => rfl
  | succ fuel =>
    unfold takeBesides
    rw [h]
    rfl

/-! ## Each due event -/

/-- A due event that is taken leaves reception and the tick counter as they are. -/
theorem takeDue_untouched (e : Due) (s : State) : Untouched s (takeDue e s) := by
  cases e
  case sample => exact sample_untouched s
  case pulse => exact syncPulse_untouched s
  case qualify w => exact .ofField (qualifyExpiry_change w s)
  case watchPulse w => exact .ofField (watchPulseEnd_change w s)
  case hostPulse o => exact .ofField (hostPulseEnd_change o s)
  case deadline =>
    refine .ofTime (armDeadlineExpiry_change s) ?_
    show (armDeadlineExpiry s).time.tickCounter = _
    unfold armDeadlineExpiry
    split
    · split
      · rw [withTime_eq]
        exact enter_tickCounter ..
      · rfl
    · rfl
  case missedPulse =>
    refine .ofTime (missedPulseExpiry_change s) ?_
    show (missedPulseExpiry s).time.tickCounter = _
    unfold missedPulseExpiry
    split
    · rw [withTime_eq]
      rfl
    · rfl
  case retransmit =>
    show Untouched s (retransmitExpiry s)
    unfold retransmitExpiry
    split
    · dsimp only
      split
      · exact ⟨rfl, rfl, rfl⟩
      · split <;> exact ⟨rfl, rfl, rfl⟩
    · exact .refl s
  case repetition =>
    show Untouched s (repetitionTimerExpiry s)
    unfold repetitionTimerExpiry
    split <;> exact ⟨rfl, rfl, rfl⟩
  case dispatch => exact dispatchOldest_untouched s
  case handOver =>
    show Untouched s (handOver s)
    unfold handOver
    split
    · rename_i h
      unfold replyHandOver
      rw [if_pos h]
      cases s.dispatcher.replies <;> exact ⟨rfl, rfl, rfl⟩
    · split
      · unfold startNoticeHandOver
        split <;> exact ⟨rfl, rfl, rfl⟩
      · unfold reportHandOver
        split <;> exact ⟨rfl, rfl, rfl⟩

theorem takeDueEvents_untouched (fuel : Nat) (s : State) : Untouched s (takeDueEvents fuel s) := by
  induction fuel generalizing s with
  | zero => exact .refl s
  | succ fuel ih =>
    unfold takeDueEvents
    obtain ⟨n, hn⟩ := s.choose_eq s.dueEvents.length
    dsimp only
    rw [hn]
    split
    · exact ⟨rfl, rfl, rfl⟩
    · exact Untouched.trans (t := { s with choices := n }) ⟨rfl, rfl, rfl⟩ ((takeDue_untouched _ _).trans (ih _))

theorem settle_untouched (s : State) : Untouched s s.settle := takeDueEvents_untouched _ s

/-- An event of the link is taken with reception and the tick counter as they were. -/
theorem found_untouched (p : Party) (s : State) : Untouched s (s.found p) := by
  have h := settle_untouched s
  unfold State.found
  split
  · generalize s.settle = t at h ⊢
    exact h.trans ⟨rfl, rfl, rfl⟩
  · exact ⟨rfl, rfl, rfl⟩

end Sys2Proof.Machine
end

