-- ==== Sys2Proof/Tests/Slice0.lean ====
section
/-! SUPPORT. Our own tests: ill-formed requests are refused, payloads written out from the manual's layouts read as the
requests they stand for, small steps, and for each statement a concrete state and operands that meet its hypotheses. -/

namespace Sys2Proof.Tests

open Sys2Proof Sys2Proof.Machine Sys2Proof.Claims

-- The evaluations below wait for the kernel; one after another they need one thread, not one each.
set_option Elab.async false

/-! ## Ill-formed requests (R38, R58, R100, R101, R138, R145) -/

/-- A CONFIGURE_LINES for all 32 lines, with every field at an end of its range. -/
def linesRequest : ConfigureLines :=
  { first := 0, count := 32, sense := .normal, settle := 7, recording := .alarm, limit := 30, window := 60, recovery := 1 }

/-- A watch on L0, which must be HIGH for 16 ticks, driving O0 HIGH. -/
def definition0 : WatchDef :=
  { lineSet := 1, reference := 1, sense := .matching, qualify := 16, rearm := .manual, restore := .plain
    tripSnapshot := false, cls := .alarm, action := .drive 0 .high, prerequisite := none }

/-- Delivery settings with every field at the top of its range. -/
def settings0 : DeliverySettings := { mode := .stream, window := 16, perReport := 4, interval := 8192, retryLimit := 15 }

theorem test_wellFormed_requests : linesRequest.wellFormed = true ∧ definition0.wellFormed = true
    ∧ settings0.wellFormed = true := by decide

theorem test_illFormed_lines :
    ({ linesRequest with first := 32, count := 1 } : ConfigureLines).wellFormed = false
    ∧ ({ linesRequest with count := 0 } : ConfigureLines).wellFormed = false
    ∧ ({ linesRequest with first := 1, count := 32 } : ConfigureLines).wellFormed = false
    ∧ ({ linesRequest with count := 33 } : ConfigureLines).wellFormed = false
    ∧ ({ linesRequest with settle := 8 } : ConfigureLines).wellFormed = false
    ∧ ({ linesRequest with limit := 1 } : ConfigureLines).wellFormed = false
    ∧ ({ linesRequest with limit := 31 } : ConfigureLines).wellFormed = false
    ∧ ({ linesRequest with window := 0 } : ConfigureLines).wellFormed = false
    ∧ ({ linesRequest with window := 61 } : ConfigureLines).wellFormed = false
    ∧ ({ linesRequest with recovery := 0 } : ConfigureLines).wellFormed = false
    ∧ ({ linesRequest with recovery := 61 } : ConfigureLines).wellFormed = false := by decide

theorem test_illFormed_definition :
    ({ definition0 with lineSet := 0, reference := 0 } : WatchDef).wellFormed = false
    ∧ ({ definition0 with reference := 2 } : WatchDef).wellFormed = false
    ∧ ({ definition0 with qualify := 61441 } : WatchDef).wellFormed = false
    ∧ ({ definition0 with action := .pulse 0 .high 0 } : WatchDef).wellFormed = false
    ∧ ({ definition0 with action := .pulse 0 .high 61441 } : WatchDef).wellFormed = false
    ∧ (⟨3, some { definition0 with qualify := 61441 }⟩ : SetWatch).wellFormed = false := by decide

theorem test_illFormed_output :
    (⟨0, .pulse .high 0⟩ : DriveOutput).wellFormed = false ∧ (⟨0, .pulse .high 61441⟩ : DriveOutput).wellFormed = false
    ∧ (⟨5, none⟩ : SetOutputFunction).wellFormed = false ∧ (⟨7, some (.tick 0)⟩ : SetOutputFunction).wellFormed = false
    ∧ (⟨6, some .attn⟩ : SetOutputFunction).wellFormed = false := by decide

theorem test_illFormed_delivery :
    fetchMaximumInRange 0 = false ∧ fetchMaximumInRange 9 = false
    ∧ ({ settings0 with window := 0 } : DeliverySettings).wellFormed = false
    ∧ ({ settings0 with window := 17 } : DeliverySettings).wellFormed = false
    ∧ ({ settings0 with perReport := 0 } : DeliverySettings).wellFormed = false
    ∧ ({ settings0 with perReport := 5 } : DeliverySettings).wellFormed = false
    ∧ ({ settings0 with interval := 63 } : DeliverySettings).wellFormed = false
    ∧ ({ settings0 with interval := 8193 } : DeliverySettings).wellFormed = false
    ∧ ({ settings0 with retryLimit := 0 } : DeliverySettings).wellFormed = false
    ∧ ({ settings0 with retryLimit := 16 } : DeliverySettings).wellFormed = false := by decide

/-! ## Payloads written out from the layouts of R205 and R204 -/

theorem test_parse_link : parseSetLink [5, 2] = .ok ⟨.b230400, .odd⟩ ∧ parseSetLink [6, 0] = .error .badField
    ∧ parseSetLink [0, 3] = .error .badField ∧ parseRestart [1] = .ok .link ∧ parseRestart [] = .error .badLength := by decide

theorem test_parse_lines :
    parseConfigureLines [0, 32, 0, 7, 2, 30, 60, 1] = .ok linesRequest
    ∧ parseConfigureLines [0, 33, 0, 7, 2, 30, 60, 1] = .error .badField := by decide

/-- Watch 5, form DEFINE: L0 and L31 in the set, reference L31 HIGH, DIFFER, 256 ticks, MANUAL, WITH_SNAPSHOT, snapshot in
the TRIP, ROUTINE, PULSE of O7 RELEASED for 513 ticks, prerequisite watch 2. -/
theorem test_parse_watch :
    parseSetWatch [5, 1, 0x80, 0, 0, 1, 0x80, 0, 0, 0, 1, 1, 0, 1, 2, 1, 0, 2, 7, 2, 2, 1, 1, 2]
      = .ok ⟨5, some { lineSet := 0x80000001, reference := 0x80000000, sense := .differing, qualify := 256, rearm := .manual
                       restore := .withSnapshot, tripSnapshot := true, cls := .routine
                       action := .pulse 7 .released 513, prerequisite := some 2 }⟩
    ∧ parseSetWatch [5, 1, 0x80, 0, 0, 1, 0x80, 0, 0, 0, 1, 1, 0, 1, 3, 1, 0, 2, 7, 2, 2, 1, 1, 2] = .error .badField
    ∧ parseSetWatch [15, 0] = .ok ⟨15, none⟩ ∧ parseWatchIndex [16] = .error .badField := by decide

theorem test_parse_output :
    parseDriveOutput [7, 3, 1, 0xF0, 0] = .ok ⟨7, .pulse .high 61440⟩
    ∧ parseDriveOutput [0, 2, 9, 9, 9] = .ok ⟨0, .level .released⟩
    ∧ parseSetOutputFunction [6, 1, 2, 0] = .ok ⟨6, some (.tick 9)⟩
    ∧ parseSetOutputFunction [6, 1, 0, 3] = .error .badField := by decide

theorem test_parse_time :
    parseSetTime [0, 0, 1, 0, 3, 0xFF] = .ok ⟨256, 1023⟩ ∧ parseSetTime [0, 0, 0, 0, 4, 0] = .error .badField
    ∧ parseSetTimeAtPulse [0, 1, 0, 0, 1] = .ok ⟨65536, .track⟩ ∧ parseSetSync [1] = .ok .track
    ∧ parseConfigureTime [3, 1] = .ok ⟨.khz81920, .falling⟩ := by decide

theorem test_parse_delivery :
    parseFetch [8] = .ok 8 ∧ parseAck [1, 2] = .ok 0x0102
    ∧ parseSetDelivery [1, 16, 4, 0x20, 0, 15] = .ok settings0 := by decide

/-- The frame check of the nine octets "123456789" is 0x29B1 (R156). -/
theorem test_frame_check : crcOf [0x31, 0x32, 0x33, 0x34, 0x35, 0x36, 0x37, 0x38, 0x39] = 0x29B1 := by decide +kernel


/-! ## Small states -/

/-- Right after power-on with the RESET line HIGH. -/
def on : State := State.reset

/-- A request with tag 1. -/
def request (k : RequestKind) (payload : List Octet) : Frame := { kind := k.code, tag := 1, payload }

/-- That request alone is queued, and no reply is cached. -/
def asked (k : RequestKind) (payload : List Octet) (s : State) : State :=
  { s with dispatcher :=
      { requests := [request k payload], replies := [], cache := none, lastStartCause := .powerOn } }

theorem asked_waiting (k : RequestKind) (payload : List Octet) (s : State) (h : s.hold = .running) :
    Waiting k (request k payload) [] (asked k payload s) :=
  ⟨⟨h, rfl, by show (0 : Nat) < 6; omega, by intro e he; cases he⟩, by cases k <;> rfl⟩

/-- Watch `w` has a definition and a state. -/
def withWatch (w : Fin 16) (d : WatchDef) (state : WatchState) (s : State) : State :=
  { s with watches := s.watches.set w.val { definition := some d, state, tripCount := 65535, tripTime := ⟨7, 1⟩ } w.isLt }

/-- Line `i` is as given. -/
def withLine (i : Fin 32) (l : Line) (s : State) : State :=
  { s with front := { s.front with lines := s.front.lines.set i.val l i.isLt } }

/-- Output `o` has an owner. -/
def withOwner (o : Fin 8) (x : Owner) (s : State) : State :=
  { s with outputs := s.outputs.set o.val { hostLevel := .low, owner := x } o.isLt }

/-- A sample can be taken, with the given pins, and it is not the first. -/
def sampling (pins : LineMap) (s : State) : State :=
  { s with front := { s.front with pins, sampleDue := true, firstSample := false } }

/-- The frame with the given source is on TXD. -/
def sending (source : TxSource) (s : State) : State := { s with link := { s.link with line := .sending source [0xC3] } }

/-- A held record. -/
def held0 (n : SeqNo) (cls : RecordClass) (delivered : Bool) : Held :=
  { seq := n, record := { cls, stamp := ⟨⟨0, 0⟩, .unset⟩, body := .chatterOff 3 }, delivered }

/-- The journal holds the given records. -/
def holding (held : List Held) (s : State) : State := { s with journal := { s.journal with held } }

/-- Delivery in STREAM mode, answered, with the retransmit timer as given. -/
def streaming (timer : Option Countdown) (s : State) : State :=
  { s with
    delivery := { s.delivery with settings := settings0, timer }
    announcer := { s.announcer with answered := true, due := .none } }

/-- The dependent of watch 0: on L1, with prerequisite 0. -/
def definition1 : WatchDef := { definition0 with lineSet := 2, reference := 0, prerequisite := some 0, action := .none }

theorem noDependents_of {s : State} {w : Fin 16}
    (h : ∀ v : Fin 16, s.watches[v].definition.bind (·.prerequisite) ≠ some w) : NoDependents s w := by
  intro v d hd hp
  exact h v (by rw [hd]; exact hp)

theorem holds_of {s : State} {d : WatchDef} (h : PatternHolds s d) (p : d.prerequisite = none) : Holds s d :=
  ⟨h, fun q hq => by rw [p] at hq; cases hq⟩

/-! ## The hypotheses of the statements are met -/

theorem witness_StepRunsFrontCommand : on.pending = [] := rfl

theorem witness_HeldPartTurnsCommandsAway :
    shutOut .fetch = true ∧ ({ on with hold := .held true } : State).hold ≠ .running := by decide

theorem witness_PowerOnEmptiesJournal : on.hold = .running := rfl

theorem witness_PowerOnDisablesWatches :
    Waiting .enableWatch (request .enableWatch [15]) [] (asked .enableWatch [15] on)
    ∧ (request .enableWatch [15]).payload = [BitVec.ofNat 8 (15 : Fin 16).val]
    ∧ (asked .enableWatch [15] on).watches[(15 : Fin 16)].definition = none :=
  ⟨asked_waiting _ _ _ rfl, by decide, by decide⟩

theorem witness_ResetAssertionHoldsPart : on.hold = .running := rfl

theorem witness_ResetReleaseStartsPart :
    (∃ s : State, s.hold = .held true) ∧ ∃ s : State, s.hold = .held false :=
  ⟨⟨{ on with hold := .held true }, rfl⟩, { on with hold := .held false }, rfl⟩

/-- The receiver and the assembler in given states. -/
def linked (receiver : Receiver) (assembler : Assembler) : State :=
  { on with link := { on.link with receiver, assembler } }

/-- A reception that the last octet 0x34 makes a complete frame, or one with a frame check that differs. -/
def ending2 (crc : BitVec 16) : Assembler := .check 2 [0x01, 7] crc false (some 0x12)

/-- The reply to a RESTART FULL is on TXD. -/
def restarting (receiver : Receiver) (a : Assembler) : State := sending (.reply (some (.start .full))) (linked receiver a)

/-- As above, with a sample due and the start bit of the octet in progress found at the present moment. -/
def restartingEarly (a : Assembler) : State :=
  startBitFound true true { restarting .looking a with front := { on.front with sampleDue := true } }

/-- Each clause: with no octet in progress; with one that completes a frame; with one whose check differs; with one whose start
bit has been found at the same moment. -/
theorem witness_RestartFullAtLastOctet :
    (∀ r a, (restarting r a).link.line = .sending (.reply (some (.start .full))) [0xC3])
    ∧ (((restarting .looking .hunt).found .transmitter).hold = .running
      ∧ ((restarting .looking .hunt).found .transmitter).link.receiver ≠ .receiving)
    ∧ (((restarting .receiving (ending2 0x1234)).found .transmitter).hold = .running
      ∧ ((restarting .receiving (ending2 0x1234)).found .transmitter).link.receiver = .receiving
      ∧ ((restarting .receiving (ending2 0x1234)).found .transmitter).link.assembler
        = .check 2 (0x01 :: 7 :: []) ((0x12 : Octet) ++ (0x34 : Octet)) false (some 0x12)
      ∧ octetBad ((restarting .receiving (ending2 0x1234)).found .transmitter) 0x34 .low .high = false)
    ∧ ((restarting .receiving (ending2 0x1235)).found .transmitter).link.assembler = ending2 0x1235
    ∧ ((restarting .receiving (ending2 0x1234)).found .transmitter).moment.received = false
    ∧ ((restarting .receiving (ending2 0x1235)).found .transmitter).moment.received = false
    ∧ (0x1235 : BitVec 16) ≠ (0x12 : Octet) ++ (0x34 : Octet)
    ∧ (((restartingEarly (ending2 0x1234)).found .transmitter).hold = .running
      ∧ ((restartingEarly (ending2 0x1234)).found .transmitter).moment.received = true) :=
  ⟨fun _ _ => rfl, by decide +kernel, by decide +kernel, by decide +kernel, by decide +kernel, by decide +kernel, by decide,
    by decide +kernel⟩

/-- The part once the last octet of a frame can leave. -/
def leaving (source : TxSource) (s : State) : State := (sending source s).found .transmitter

theorem witness_LastOctetOfOtherFrames :
    (∀ source s, (sending source s).link.line = .sending source [0xC3])
    ∧ ((leaving .report (streaming none on)).delivery.settings.mode = .stream
      ∧ (leaving .report (streaming none on)).delivery.state = .running)
    ∧ (leaving .report on).delivery.settings.mode = .polled
    ∧ (⟨.b19200, .none⟩ : LinkSettings) = (leaving (.reply (some (.switch ⟨.b19200, .none⟩))) on).link.settings
    ∧ (⟨.b9600, .none⟩ : LinkSettings) ≠ (leaving (.reply (some (.switch ⟨.b9600, .none⟩))) on).link.settings :=
  ⟨fun _ _ => rfl, by decide +kernel, by decide +kernel, by decide +kernel, by decide +kernel⟩

theorem witness_FirstSampleSetsLevels :
    ∃ s : State, s.hold = .running ∧ s.front.sampleDue = true ∧ s.front.firstSample = true :=
  ⟨{ on with front := { on.front with sampleDue := true } }, rfl, rfl, rfl⟩

/-- L31 with its pin HIGH and a sample to be taken. -/
def lineAt (l : Line) : State := sampling 0x80000000 (withLine 31 l on)

/-- A line with a settle index and a chatter limit, whose raw and filtered levels are as given. -/
def lineOf (settle limit : Nat) (raw filtered : Level) (filter : Filter) (chatter : Chatter) : Line :=
  { config := { LineConfig.default with settle, limit }, raw, filtered, filter, chatter }

/-- A line on which each clause applies: without supervision, back at its level, with a settle to start, with settle index
0, within the settle and at its end; with supervision, back at its level, with a settle to start, within the settle; and
SUPPRESSED, with a raw change, within the recovery time and at its end. -/
def sampleCases : List Line :=
  [lineOf 3 0 .high .high (.settling ⟨⟨5, 0⟩, .set⟩ 4) .quiet, lineOf 7 0 .low .low .stable .quiet,
   lineOf 0 0 .low .low .stable .quiet, lineOf 3 0 .high .low (.settling ⟨⟨5, 0⟩, .set⟩ 2) .quiet,
   lineOf 3 0 .high .low (.settling ⟨⟨5, 0⟩, .set⟩ 1) .quiet, lineOf 3 2 .high .high .stable (.counting 1 1),
   lineOf 7 2 .low .low .stable (.counting 1 1), lineOf 3 2 .high .low (.settling ⟨⟨5, 0⟩, .set⟩ 2) (.counting 1 2),
   lineOf 3 2 .low .low .stable (.suppressed 9), lineOf 3 2 .high .low .stable (.suppressed 2),
   lineOf 3 2 .high .low .stable (.suppressed 1)]

theorem witness_SampleFiltersLine :
    (∀ l, Sampling (lineAt l))
    ∧ ∀ l ∈ sampleCases, (lineAt l).front.lines[(31 : Fin 32)] = l ∧ l.config.settle ≤ 7 ∧ rawLevel (lineAt l) 31 = .high :=
  ⟨fun _ => ⟨rfl, rfl, rfl⟩, by decide⟩

/-- With no request waiting the sample is alone. -/
theorem witness_SampleFiltersLine_alone (l : Line) : SampleAlone (lineAt l) := .inl (by intro f hf; cases hf)

theorem witness_SampleFiltersLine_clauses :
    sampleCases.map (fun l => decide (l.chatter = .quiet ∧ l.config.limit = 0))
      = [true, true, true, true, true, false, false, false, false, false, false]
    ∧ sampleCases.map (fun l => decide (.high = l.filtered))
      = [true, false, false, false, false, true, false, false, false, false, false]
    ∧ sampleCases.map (fun l => settleTicks l.config.settle) = [4, 64, 0, 4, 4, 4, 64, 4, 4, 4, 4]
    ∧ sampleCases.map (fun l => decide (.high = l.raw))
      = [true, false, false, true, true, true, false, true, false, true, true] := by decide

theorem uneventful_of {s : State} {j : Fin 32}
    (h : s.front.lines[j].chatter = .quiet ∧ edgeMade s j = none ∨ s.front.lines[j].chatter = .suppressed 2
      ∨ s.front.lines[j].chatter = .suppressed 1 ∧ rawLevel s j ≠ s.front.lines[j].raw) : Uneventful s j := by
  unfold Uneventful
  rcases h with ⟨h, e⟩ | h | ⟨h, e⟩ <;> rw [h]
  · exact e
  · exact .inr (by decide)
  · exact .inl e

/-- The clause of a sample without an edge or a record: every line idle; a settle that starts; suppression with its recovery
time still to run, and with a raw change. -/
theorem witness_SampleFiltersLine_uneventful :
    ∀ l ∈ [lineOf 3 0 .high .high .stable .quiet, lineOf 7 0 .low .low .stable .quiet,
        lineOf 3 2 .high .low .stable (.suppressed 2), lineOf 3 2 .low .low .stable (.suppressed 1)],
      ∀ j, Uneventful (lineAt l) j := by
  intro l hl j
  apply uneventful_of
  revert l j
  decide

/-- A line at power-on with a chatter limit, in SETTLING at its last tick. -/
def ending (limit : Nat) (chatter : Chatter) : Line :=
  { Line.powerOn with
    config := { LineConfig.default with limit, recording := .alarm }
    filter := .settling ⟨⟨5, 0⟩, .set⟩ 1
    chatter }

theorem witness_SampleSupervisesEdge (chatter : Chatter)
    (h : chatter = .quiet ∨ chatter = .counting 2 1 ∨ chatter = .counting 1 2 ∨ chatter = .counting 2 2) :
    Sampling (sampling 1 (withLine 0 (ending 2 chatter) on))
    ∧ (withLine 0 (ending 2 chatter) on).front.lines[(0 : Fin 32)] = ending 2 chatter
    ∧ (ending 2 chatter).config.limit ≠ 0 ∧ EdgeNow (sampling 1 (withLine 0 (ending 2 chatter) on)) 0
    ∧ EdgeNow (lineAt (lineOf 0 2 .low .low .stable chatter)) 31 := by
  refine ⟨⟨rfl, rfl, rfl⟩, ?_, ?_, ⟨?_, .inl ⟨⟨⟨5, 0⟩, .set⟩, 1, ?_, Nat.le_refl 1⟩⟩, ?_, .inr ⟨?_, ?_⟩⟩ <;>
    rcases h with rfl | rfl | rfl | rfl <;> decide

/-- Each clause: in QUIET; in COUNTING at the last tick of its window; below the limit; at the limit. -/
theorem witness_SampleSupervisesEdge_clauses :
    (ending 2 .quiet).chatter = .quiet
    ∧ ((ending 2 (.counting 2 1)).chatter = .counting 2 1 ∧ 1 ≤ 1)
    ∧ ((ending 2 (.counting 1 2)).chatter = .counting 1 2 ∧ 1 < 2 ∧ 1 + 1 ≤ (ending 2 (.counting 1 2)).config.limit)
    ∧ ((ending 2 (.counting 2 2)).chatter = .counting 2 2 ∧ 1 < 2 ∧ (ending 2 (.counting 2 2)).config.limit < 2 + 1) := by
  decide

theorem allDisabled_of {s : State} (h : s.watches = on.watches) : AllDisabled s := by
  unfold AllDisabled
  rw [h]
  decide

theorem witness_SampleFiltersLine_disabled : ∀ l, AllDisabled (lineAt l) := fun _ => allDisabled_of rfl

/-- Edges that pass, with the chatter state after: without a limit; in QUIET; in COUNTING at the last tick of its window; in
COUNTING up to the limit. -/
def passingCases : List (Line × Chatter) :=
  [(ending 0 .quiet, .quiet), (ending 2 .quiet, .counting 1 1024), (ending 2 (.counting 2 1), .counting 1 1024),
    (ending 2 (.counting 1 2), .counting 2 1)]

theorem witness_SettleEndRecordsEdge :
    (∀ c ∈ passingCases ++ [(ending 2 (.counting 2 2), .quiet)], ∃ s : State, Sampling s ∧ AllDisabled s
      ∧ (∀ j, j ≠ 0 → Idle s j) ∧ s.front.lines[(0 : Fin 32)] = c.1 ∧ c.1.filter = .settling ⟨⟨5, 0⟩, .set⟩ 1
      ∧ rawLevel s 0 ≠ c.1.filtered)
    ∧ (∀ c ∈ passingCases, passedTo c.1 = some c.2)
    ∧ (ending 2 (.counting 2 2)).chatter = .counting 2 2 ∧ 1 < 2 ∧ (ending 2 (.counting 2 2)).config.limit ≠ 0
    ∧ (ending 2 (.counting 2 2)).config.limit < 2 + 1 := by
  refine ⟨fun c hc => ⟨sampling 1 (withLine 0 c.1 on), ⟨rfl, rfl, rfl⟩, allDisabled_of rfl, ?_⟩, by decide, rfl, by decide,
    by decide, by decide⟩
  revert c
  unfold Idle
  decide

theorem witness_WindowAndRecoveryExpire :
    (∃ s : State, Sampling s ∧ AllDisabled s ∧ (∀ j, j ≠ 0 → Idle s j)
      ∧ s.front.lines[(0 : Fin 32)].chatter = .counting 2 1 ∧ 1 ≤ 1 ∧ s.front.lines[(0 : Fin 32)].filter = .stable
      ∧ rawLevel s 0 = s.front.lines[(0 : Fin 32)].filtered)
    ∧ ∃ s : State, Sampling s ∧ AllDisabled s ∧ (∀ j, j ≠ 0 → Idle s j)
      ∧ s.front.lines[(0 : Fin 32)].chatter = .suppressed 1 ∧ 1 ≤ 1
      ∧ rawLevel s 0 = s.front.lines[(0 : Fin 32)].raw := by
  refine ⟨⟨sampling 0 (withLine 0 { ending 2 (.counting 2 1) with filter := .stable } on), ⟨rfl, rfl, rfl⟩,
      allDisabled_of rfl, ?_, ?_⟩,
    sampling 1 (withLine 0 { ending 2 (.suppressed 1) with filter := .stable, raw := .high } on), ⟨rfl, rfl, rfl⟩,
      allDisabled_of rfl, ?_, ?_⟩
  · unfold Idle; decide
  · decide
  · unfold Idle; decide
  · decide

/-- An edge to HIGH on L0 is due, and watch 0 has the state. -/
def edgeAt (d : WatchDef) (state : WatchState) : State := sampling 1 (withLine 0 (ending 0 .quiet) (withWatch 0 d state on))

/-- A watch on L0 whose reference is LOW. -/
def definitionLow : WatchDef := { definition0 with reference := 0 }

/-- The line of `edgeAt` makes its edge alone. -/
theorem edgeAt_lone (d : WatchDef) (x : WatchState) : LoneEdge (edgeAt d x) 0 ⟨⟨5, 0⟩, .set⟩ where
  sampling := ⟨rfl, rfl, rfl⟩
  others := by
    show ∀ j, j ≠ 0 → Idle (sampling 1 (withLine 0 (ending 0 .quiet) on)) j
    unfold Idle
    decide
  stamp := .inl ⟨1, rfl, Nat.le_refl 1⟩
  differs := by
    have e : (edgeAt d x).front = (sampling 1 (withLine 0 (ending 0 .quiet) on)).front := rfl
    unfold rawLevel
    rw [e]
    decide
  quiet := rfl
  limit := rfl

/-- Both commands take that edge; SAMPLE takes one at settle index 0 too, with the stamp of the sample. -/
theorem witness_TakesEdge :
    (∀ d x, TakesEdge (edgeAt d x) 0 .sample ∧ TakesEdge (edgeAt d x) 0 (.settleEnd 0))
    ∧ (∀ l, TakesEdge (lineAt l) 31 .sample)
    ∧ EdgeStamp (lineAt (lineOf 0 0 .low .low .stable .quiet)) 31
        (lineAt (lineOf 0 0 .low .low .stable .quiet)).time.now
    ∧ LoneEdge (lineAt (lineOf 0 0 .low .low .stable .quiet)) 31
        (lineAt (lineOf 0 0 .low .low .stable .quiet)).time.now := by
  have stamp : EdgeStamp (lineAt (lineOf 0 0 .low .low .stable .quiet)) 31
      (lineAt (lineOf 0 0 .low .low .stable .quiet)).time.now := .inr ⟨rfl, rfl, rfl⟩
  refine ⟨fun _ _ => ⟨.inl rfl, .inr ⟨rfl, nofun⟩⟩, fun _ => .inl rfl, stamp, ⟨rfl, rfl, rfl⟩, ?_, stamp, ?_, rfl, rfl⟩
  · unfold Idle
    decide
  · decide

/-- A watch definition that an edge to HIGH makes true, and one that it makes false, each in every state. -/
def edgeCases : List (WatchDef × WatchState) :=
  [definition0, definitionLow].flatMap fun d =>
    [(d, .disabled), (d, .armed), (d, .qualifying ⟨4, 0⟩ ⟨1, false⟩), (d, .tripped ⟨4, 0⟩), (d, .held ⟨4, 0⟩)]

theorem witness_EdgeReachesWatch :
    ∀ c ∈ edgeCases, (edgeAt c.1 c.2).ChainLaw
    ∧ (edgeAt c.1 c.2).watches[(0 : Fin 16)].definition = some c.1 ∧ (edgeAt c.1 c.2).watches[(0 : Fin 16)].state = c.2
    ∧ c.1.prerequisite = none ∧ c.1.lineSet.getLsbD (0 : Fin 32).val = true := by
  unfold State.ChainLaw
  decide +kernel

/-- The condition after that edge is true for the reference HIGH and false for the reference LOW. -/
theorem witness_EdgeReachesWatch_pattern :
    (∀ c ∈ edgeCases, c.1 = definition0 → AtReference (settled (edgeAt c.1 c.2) 0) c.1 ∧ c.1.sense = .matching)
    ∧ ∀ c ∈ edgeCases, c.1 = definitionLow → ¬ AtReference (settled (edgeAt c.1 c.2) 0) c.1 := by
  unfold AtReference
  decide +kernel

/-- The clauses of the trip and of the restore: a watch with the qualify time 0 whose pattern the edge makes true, and one
whose line leaves its reference level; every other watch is DISABLED. -/
theorem witness_EdgeReachesWatch_alone :
    (∀ d x, ∀ v, v ≠ (0 : Fin 16) → (edgeAt d x).watches[v].state = .disabled)
    ∧ PatternHolds (settled (edgeAt { definition0 with qualify := 0 } .armed) 0) { definition0 with qualify := 0 }
    ∧ ¬ PatternHolds (settled (edgeAt definitionLow (.tripped ⟨4, 0⟩)) 0) definitionLow
    ∧ LeavesReference (edgeAt definitionLow (.tripped ⟨4, 0⟩)) 0 definitionLow := by
  refine ⟨?_, ?_, ?_, by unfold LeavesReference; decide⟩
  · intro d x v hv
    have other : (edgeAt d x).watches[v] = on.watches[v] :=
      Vector.getElem_set_ne (by decide) v.isLt fun e => hv (Fin.ext e.symm)
    have off : ∀ v : Fin 16, on.watches[v].state = .disabled := by decide
    rw [other, off]
  · show AtReference _ _
    unfold AtReference
    decide
  · show ¬ AtReference _ _
    unfold AtReference
    decide

/-- Watch 0, with a given qualify time, has the prerequisite 1, which has L1 alone in its set and tripped at 7.1. -/
def underPrerequisite (qualify : Nat) (x : WatchState) : State :=
  withWatch 1 { definition1 with prerequisite := none } x
    (edgeAt { definition0 with prerequisite := some 1, qualify } .armed)

theorem underPrerequisite_lone (qualify : Nat) (x : WatchState) : LoneEdge (underPrerequisite qualify x) 0 ⟨⟨5, 0⟩, .set⟩ := by
  obtain ⟨⟨h1, h2, h3⟩, h4, h5, h6, h7, h8⟩ := edgeAt_lone { definition0 with prerequisite := some 1, qualify } .armed
  exact ⟨⟨h1, h2, h3⟩, h4, h5, h6, h7, h8⟩

theorem witness_EdgeReachesWatch_prerequisite :
    (∀ q ∈ [0, definition0.qualify], ∀ x ∈ [WatchState.tripped ⟨6, 0⟩, .held ⟨6, 0⟩],
      (underPrerequisite q x).watches[(0 : Fin 16)].definition = some { definition0 with prerequisite := some 1, qualify := q }
      ∧ (underPrerequisite q x).watches[(1 : Fin 16)].state = x
      ∧ (∀ v, v ≠ (0 : Fin 16) → v ≠ 1 → (underPrerequisite q x).watches[v].state = .disabled)
      ∧ (underPrerequisite q x).watches[(0 : Fin 16)].state = .armed)
    ∧ (∀ q x e, (underPrerequisite q x).watches[(1 : Fin 16)].definition = some e →
        e.lineSet.getLsbD (0 : Fin 32).val = false)
    ∧ ∀ q ∈ [0, definition0.qualify], ∀ x ∈ [WatchState.tripped ⟨6, 0⟩, .held ⟨6, 0⟩],
      PatternHolds (settled (underPrerequisite q x) 0) { definition0 with prerequisite := some 1, qualify := q } := by
  refine ⟨by decide, ?_, ?_⟩
  · rintro q x e ⟨⟩
    rfl
  · show ∀ q ∈ _, ∀ x ∈ _, AtReference _ _
    unfold AtReference
    decide

/-- The clauses of a qualify time of 0 under a prerequisite: no request; a DISABLE_WATCH of it; a REARM_WATCH of it while
HELD. -/
theorem witness_EdgeReachesWatch_request :
    (underPrerequisite 0 (.tripped ⟨6, 0⟩)).dispatcher.requests = []
    ∧ NoDependents (underPrerequisite 0 (.tripped ⟨6, 0⟩)) 0
    ∧ (∀ k x, LoneEdge (asked k [1] (underPrerequisite 0 x)) 0 ⟨⟨5, 0⟩, .set⟩)
    ∧ (∀ k x, Waiting k (request k [1]) [] (asked k [1] (underPrerequisite 0 x)))
    ∧ (1 : Octet) = BitVec.ofNat 8 (1 : Fin 16).val := by
  refine ⟨rfl, noDependents_of (by decide), fun k x => ?_, fun _ _ => asked_waiting _ _ _ rfl, rfl⟩
  obtain ⟨⟨h1, h2, h3⟩, h4, h5, h6, h7, h8⟩ := underPrerequisite_lone 0 x
  exact ⟨⟨h1, h2, h3⟩, h4, h5, h6, h7, h8⟩

/-- The prerequisite of `underPrerequisite` HELD for L1 HIGH, which is LOW, with a REARM_WATCH of it waiting. -/
def underHeld : State :=
  asked .rearmWatch [1] (withWatch 1 { definition1 with prerequisite := none, reference := 2 } (.held ⟨6, 0⟩)
    (underPrerequisite 0 (.held ⟨6, 0⟩)))

/-- The clause of a REARM_WATCH: the prerequisite's own condition is false. -/
theorem witness_EdgeReachesWatch_rearm :
    Waiting .rearmWatch (request .rearmWatch [1]) [] underHeld ∧ LoneEdge underHeld 0 ⟨⟨5, 0⟩, .set⟩
    ∧ (∀ v, v ≠ (0 : Fin 16) → v ≠ 1 → underHeld.watches[v].state = .disabled)
    ∧ underHeld.watches[(0 : Fin 16)].definition = some { definition0 with prerequisite := some 1, qualify := 0 }
    ∧ underHeld.watches[(0 : Fin 16)].state = .armed ∧ underHeld.watches[(1 : Fin 16)].state = .held ⟨6, 0⟩
    ∧ AtReference (settled underHeld 0) { definition0 with prerequisite := some 1, qualify := 0 }
    ∧ ∀ e, underHeld.watches[(1 : Fin 16)].definition = some e → e.prerequisite ≠ some 1 ∧ ¬ Holds underHeld e := by
  obtain ⟨⟨h1, h2, h3⟩, h4, h5, h6, h7, h8⟩ := underPrerequisite_lone 0 (.held ⟨6, 0⟩)
  refine ⟨asked_waiting _ _ _ rfl, ⟨⟨h1, h2, h3⟩, h4, h5, h6, h7, h8⟩, by decide, rfl, rfl, rfl, ?_, fun e he => ?_⟩
  · unfold AtReference
    decide
  · cases he
    refine ⟨by decide, fun h => ?_⟩
    have a : AtReference underHeld { definition1 with prerequisite := none, reference := 2 } := h.1
    revert a
    unfold AtReference
    decide

/-- For L0 LOW, under AUTO rearm, driving O2 LOW. -/
def definitionAuto : WatchDef := { definitionLow with rearm := .auto, action := .drive 2 .low }

/-- The prerequisite 1 of watch 0 is TRIPPED for L0 LOW and drives O2; watch 0 is for L0 HIGH, with a given
qualify time. -/
def departing (qualify : Nat) (x : WatchState) : State :=
  withOwner 2 (.drive 1 .low)
    (withWatch 1 definitionAuto (.tripped ⟨4, 0⟩)
      (edgeAt { definition0 with prerequisite := some 1, qualify } x))

theorem departing_lone (x : WatchState) : LoneEdge (departing 0 x) 0 ⟨⟨5, 0⟩, .set⟩ := by
  obtain ⟨⟨h1, h2, h3⟩, h4, h5, h6, h7, h8⟩ := edgeAt_lone { definition0 with prerequisite := some 1, qualify := 0 } x
  exact ⟨⟨h1, h2, h3⟩, h4, h5, h6, h7, h8⟩

theorem witness_EdgeReachesWatch_departure :
    (∀ x ∈ [WatchState.armed, .qualifying ⟨4, 0⟩ ⟨1, true⟩],
      (departing 0 x).watches[(0 : Fin 16)].definition = some { definition0 with prerequisite := some 1, qualify := 0 }
      ∧ (departing 0 x).watches[(0 : Fin 16)].state = x
      ∧ (departing 0 x).watches[(1 : Fin 16)].definition = some definitionAuto
      ∧ (departing 0 x).watches[(1 : Fin 16)].state = .tripped ⟨4, 0⟩
      ∧ (∀ v, v ≠ (0 : Fin 16) → v ≠ 1 → (departing 0 x).watches[v].state = .disabled)
      ∧ rawLevel (departing 0 x) 0 ≠ (if definitionAuto.reference.getLsbD (0 : Fin 32).val then .high else .low))
    ∧ (∀ x ∈ [WatchState.armed, .qualifying ⟨4, 0⟩ ⟨1, true⟩], ¬ AtReference (settled (departing 0 x) 0) definitionAuto)
    ∧ definitionAuto.sense = .matching ∧ definitionAuto.rearm = .auto
    ∧ drivenBy 1 (departing 0 .armed).outputs[(2 : Fin 8)].owner := by
  refine ⟨by decide +kernel, ?_, rfl, rfl, rfl⟩
  unfold AtReference
  decide +kernel

/-! ### Requests to the lines and the watches -/

theorem witness_ConfigureLinesWritesRange :
    (∃ s, Waiting .configureLines (request .configureLines (encodeConfigureLines linesRequest)) [] s)
    ∧ (request .configureLines (encodeConfigureLines linesRequest)).payload = encodeConfigureLines linesRequest
    ∧ linesRequest.wellFormed = true ∧ linesRequest.limit ≠ 0 :=
  ⟨⟨_, asked_waiting _ _ on rfl⟩, rfl, by decide, by decide⟩

/-- One line, with the chatter limit 0. -/
def limit0 : ConfigureLines := { linesRequest with first := 31, count := 1, limit := 0 }

theorem witness_ConfigureLinesEndsSuppression :
    ∃ s, Waiting .configureLines (request .configureLines (encodeConfigureLines limit0)) [] s ∧ AllDisabled s
      ∧ limit0.wellFormed = true ∧ limit0.first = (31 : Fin 32).val ∧ limit0.count = 1 ∧ limit0.limit = 0
      ∧ s.front.lines[(31 : Fin 32)].config.limit ≠ 0 ∧ s.front.lines[(31 : Fin 32)].chatter = .suppressed 7 :=
  ⟨asked .configureLines (encodeConfigureLines limit0) (withLine 31 (ending 2 (.suppressed 7)) on),
    asked_waiting _ _ _ rfl, allDisabled_of rfl, by decide, by decide, by decide, by decide, by decide, by decide⟩

/-- A SUPPRESSED line whose raw level is HIGH and whose filtered level is LOW. -/
def recoveringLine : Line := { ending 2 (.suppressed 7) with filter := .stable, raw := .high }

/-- Watch 0, for L1 HIGH, under watch 1, which is TRIPPED for L0 LOW under AUTO rearm and drives O2; L1 is SUPPRESSED, and L0
as given. -/
def recoveries (qualify : Nat) (l0 : Line) (s : State) : State :=
  withLine 0 l0 (withLine 1 recoveringLine (withOwner 2 (.drive 1 .low)
    (withWatch 1 definitionAuto (.tripped ⟨4, 0⟩)
      (withWatch 0 { definition0 with lineSet := 2, reference := 2, prerequisite := some 1, qualify } .armed s))))

/-- The limit 0 for L0 and L1, and for L1 alone. -/
def limit0Both : ConfigureLines := { linesRequest with first := 0, count := 2, limit := 0 }
def limit0One : ConfigureLines := { linesRequest with first := 1, count := 1, limit := 0 }

/-- Both suppressions end, so that one line gives each watch its edge. -/
def bothRecover : State := asked .configureLines (encodeConfigureLines limit0Both) (recoveries 0 recoveringLine on)

/-- The sample of the tick, at which L0 makes its edge, is still to be taken. -/
def recoversBeside (qualify : Nat) : State :=
  asked .configureLines (encodeConfigureLines limit0One) (sampling 3 (recoveries qualify (ending 0 .quiet) on))

theorem witness_ConfigureLinesEndsSuppression_departure :
    (∀ x ∈ [(bothRecover, 0), (recoversBeside 0, 0), (recoversBeside 5, 5)],
      x.1.watches[(0 : Fin 16)].definition
        = some { definition0 with lineSet := 2, reference := 2, prerequisite := some 1, qualify := x.2 }
      ∧ x.1.watches[(0 : Fin 16)].state = .armed ∧ x.1.watches[(1 : Fin 16)].definition = some definitionAuto
      ∧ x.1.watches[(1 : Fin 16)].state = .tripped ⟨4, 0⟩ ∧ definitionAuto.rearm = .auto
      ∧ (∀ v, v ≠ (0 : Fin 16) → v ≠ 1 → x.1.watches[v].state = .disabled))
    ∧ limit0Both.wellFormed = true ∧ limit0One.wellFormed = true := by
  refine ⟨?_, by decide, by decide⟩
  decide +kernel

theorem recovers_both (i : Fin 32) (h : i = 0 ∨ i = 1) : Recovers limit0Both bothRecover i := by
  rcases h with rfl | rfl <;> exact ⟨rfl, by decide, by decide, by decide, ⟨7, rfl⟩, by decide⟩

theorem notSuppressed_of {s : State} {k : Fin 32} (h : s.front.lines[k].isSuppressed = false) :
    ∀ left, s.front.lines[k].chatter ≠ .suppressed left := by
  intro left e
  unfold Line.isSuppressed at h
  rw [e] at h
  cases h

/-- The clause of two RECOVERED edges: L0 takes watch 1 out of TRIPPED, and L1 makes the pattern of watch 0 true. -/
theorem witness_ConfigureLinesEndsSuppression_departure_both :
    bothRecover.front.sampleDue = false ∧ (∀ i, i = 0 ∨ i = 1 → Recovers limit0Both bothRecover i)
    ∧ (∀ k : Fin 32, k ≠ 0 → k ≠ 1 → ∀ left, bothRecover.front.lines[k].chatter ≠ .suppressed left)
    ∧ AtReference (recoveredLine bothRecover 1)
        { definition0 with lineSet := 2, reference := 2, prerequisite := some 1, qualify := 0 }
    ∧ ¬ AtReference (recoveredLine bothRecover 0) definitionAuto := by
  have quiet : ∀ k : Fin 32, k ≠ 0 → k ≠ 1 → bothRecover.front.lines[k].isSuppressed = false := by decide +kernel
  refine ⟨rfl, recovers_both, fun k h0 h1 => notSuppressed_of (quiet k h0 h1), ?_, ?_⟩ <;> unfold AtReference <;> decide +kernel

theorem witness_ConfigureLinesFieldCheck :
    (∃ s, Waiting .configureLines (request .configureLines [31, 1, 1, 7, 2, 30, 60, 60]) [] s)
    ∧ (∃ s, Waiting .configureLines (request .configureLines [31, 2, 1, 7, 2, 30, 60, 60]) [] s)
    ∧ (31 : Octet).toNat + (1 : Octet).toNat ≤ 32 ∧ ¬ (31 : Octet).toNat + (2 : Octet).toNat ≤ 32 :=
  ⟨⟨_, asked_waiting _ _ on rfl⟩, ⟨_, asked_waiting _ _ on rfl⟩, by decide, by decide⟩

/-- A SET_WATCH of watch 15, and one that makes its definition absent. -/
def define15 (p : Option (Fin 16)) : SetWatch := ⟨15, some { definition0 with prerequisite := p }⟩
def undefine15 : SetWatch := ⟨15, none⟩

/-- Each clause: IN_USE; made absent; a chain that closes a cycle; a chain of 2. -/
theorem witness_SetWatchWritesDefinition :
    (∀ r, ∀ x, Waiting .setWatch (request .setWatch (encodeSetWatch r)) []
      (asked .setWatch (encodeSetWatch r) (withWatch 15 definition0 x on)))
    ∧ (define15 none).wellFormed = true ∧ undefine15.wellFormed = true ∧ (define15 (some 15)).wellFormed = true
    ∧ (withWatch 15 definition0 .armed on).watches[(15 : Fin 16)].state ≠ .disabled
    ∧ (withWatch 15 definition0 .disabled on).watches[(15 : Fin 16)].state = .disabled
    ∧ ¬ (∀ w, chainEnds (fun v => if v = 15 then some 15 else (withWatch 15 definition0 .disabled on).prerequisite v) 4 w
          = true)
    ∧ ∀ w, chainEnds (fun v => if v = 15 then some 14 else (withWatch 15 definition0 .disabled on).prerequisite v) 4 w
          = true :=
  ⟨fun _ _ => asked_waiting _ _ _ rfl, by decide, by decide, by decide, by decide, by decide, by decide, by decide⟩

/-- The encoder's payloads carry these requests. -/
theorem witness_SetWatchWritesDefinition_carries :
    CarriesSetWatch undefine15 (encodeSetWatch undefine15)
    ∧ ∀ p ∈ [none, some (14 : Fin 16), some 15], CarriesSetWatch (define15 p) (encodeSetWatch (define15 p)) := by
  refine ⟨⟨fun _ => rfl, nofun⟩, fun p hp => ⟨nofun, ?_⟩⟩
  rintro d ⟨⟩
  refine ⟨_, rfl, 1, 0, 1, 0, 0, ((p.map fun q => BitVec.ofNat 8 q.val).getD 0xFF), ?_, ?_, ?_, nofun, ?_⟩
  · revert p; decide
  · show ∀ i : Fin 32, definition0.reference.getLsbD i.val = (definition0.lineSet.getLsbD i.val && (1 : LineMap).getLsbD i.val)
    decide
  · rintro o l ⟨⟩; decide
  · rintro q rfl; rfl

/-- A definition for L0 with NONE as its action and no prerequisite. -/
def plain0 : WatchDef := { definition0 with action := .none, prerequisite := none }

/-- Its 22 octets with a reference bit outside the line set and other octets than 0 where nothing is used. -/
def spoiled : List Octet :=
  [0, 0, 0, 1, 0x80, 0, 0, 1, 0, 0, 16, 1, 1, 0, 1, 0, 0x55, 0x55, 0x55, 0x55, 0, 0x55]

theorem witness_SetWatchWritesDefinition_unused :
    CarriesSetWatch ⟨15, some plain0⟩ (15 :: 1 :: spoiled) ∧ (⟨15, some plain0⟩ : SetWatch).wellFormed = true
    ∧ CarriesSetWatch undefine15 [15, 0]
    ∧ Waiting .setWatch (request .setWatch (15 :: 1 :: spoiled)) [] (asked .setWatch (15 :: 1 :: spoiled) on) := by
  refine ⟨⟨nofun, ?_⟩, by decide, ⟨fun _ => rfl, nofun⟩, asked_waiting _ _ _ rfl⟩
  rintro d ⟨⟩
  exact ⟨spoiled, rfl, 0x80000001, 0x55, 0x55, 0x55, 0x55, 0x55, by decide, by decide, nofun, nofun, nofun⟩

/-- The condition of `definition0` is false and that of `definitionLow` true while L0 is LOW. -/
theorem definition0_not_holds (x : WatchState) (h : x = .disabled ∨ x = .held ⟨4, 0⟩) :
    ¬ Holds (withWatch 15 definition0 x on) definition0 := by
  intro c
  have a : AtReference (withWatch 15 definition0 x on) definition0 := c.1
  revert a
  unfold AtReference
  rcases h with rfl | rfl <;> decide

theorem definitionLow_holds (x : WatchState) (h : x = .disabled ∨ x = .held ⟨4, 0⟩) :
    Holds (withWatch 15 definitionLow x on) definitionLow := by
  refine holds_of ?_ rfl
  show AtReference (withWatch 15 definitionLow x on) definitionLow
  unfold AtReference
  rcases h with rfl | rfl <;> decide

/-- `definitionLow` with the qualify time 0. -/
def definitionNow : WatchDef := { definitionLow with qualify := 0 }

theorem definitionNow_holds (x : WatchState) (h : x = .disabled ∨ x = .held ⟨4, 0⟩) :
    Holds (withWatch 15 definitionNow x on) definitionNow := by
  refine holds_of ?_ rfl
  show AtReference (withWatch 15 definitionNow x on) definitionNow
  unfold AtReference
  rcases h with rfl | rfl <;> decide

/-- The conditions stay as they were where a request is queued. -/
theorem holds_asked {k : RequestKind} {p : List Octet} {s : State} {d : WatchDef} (h : Holds s d) :
    Holds (asked k p s) d := h

theorem not_holds_asked {k : RequestKind} {p : List Octet} {s : State} {d : WatchDef} (h : ¬ Holds s d) :
    ¬ Holds (asked k p s) d := h

theorem witness_EnableWatchEvaluates :
    (∀ d, Waiting .enableWatch (request .enableWatch [15]) [] (asked .enableWatch [15] (withWatch 15 d .disabled on)))
    ∧ (15 : Octet) = BitVec.ofNat 8 (15 : Fin 16).val
    ∧ (¬ Holds (asked .enableWatch [15] (withWatch 15 definition0 .disabled on)) definition0)
    ∧ (Holds (asked .enableWatch [15] (withWatch 15 definitionLow .disabled on)) definitionLow ∧ definitionLow.qualify ≠ 0)
    ∧ Holds (asked .enableWatch [15] (withWatch 15 definitionNow .disabled on)) definitionNow ∧ definitionNow.qualify = 0
    ∧ NoDependents (asked .enableWatch [15] (withWatch 15 definitionNow .disabled on)) 15 :=
  ⟨fun _ => asked_waiting _ _ _ rfl, rfl, not_holds_asked (definition0_not_holds _ (.inl rfl)),
    ⟨holds_asked (definitionLow_holds _ (.inl rfl)), by decide⟩, holds_asked (definitionNow_holds _ (.inl rfl)), rfl,
    noDependents_of (by decide)⟩

/-- Watch 0 is TRIPPED and owns O3, and watch 1, which depends on it, is QUALIFYING. -/
def dependentCase (x : WatchState) : State :=
  withOwner 3 (.drive 0 .high)
    (withWatch 0 { definition0 with action := .drive 3 .high } x
      (withWatch 1 definition1 (.qualifying ⟨5, 0⟩ ⟨2, true⟩) on))

theorem witness_DisableWatchReleases :
    Waiting .disableWatch (request .disableWatch [0]) [] (asked .disableWatch [0] (dependentCase (.tripped ⟨4, 0⟩)))
    ∧ (0 : Octet) = BitVec.ofNat 8 (0 : Fin 16).val
    ∧ QualifyingUnder (asked .disableWatch [0] (dependentCase (.tripped ⟨4, 0⟩))) 0 1
    ∧ ownedBy 0 (asked .disableWatch [0] (dependentCase (.tripped ⟨4, 0⟩))).outputs[(3 : Fin 8)].owner :=
  ⟨asked_waiting _ _ _ rfl, rfl, ⟨⟨definition1, rfl, rfl⟩, ⟨5, 0⟩, ⟨2, true⟩, rfl⟩, rfl⟩

theorem witness_RearmWatchEvaluates :
    (∀ s : State, s.hold = .running → Waiting .rearmWatch (request .rearmWatch [15]) [] (asked .rearmWatch [15] s))
    ∧ (¬ Holds (asked .rearmWatch [15] (withWatch 15 definition0 (.held ⟨4, 0⟩) on)) definition0)
    ∧ (Holds (asked .rearmWatch [15] (withWatch 15 definitionLow (.held ⟨4, 0⟩) on)) definitionLow
      ∧ definitionLow.qualify ≠ 0)
    ∧ (Holds (asked .rearmWatch [15] (withWatch 15 definitionNow (.held ⟨4, 0⟩) on)) definitionNow
      ∧ definitionNow.qualify = 0)
    ∧ NoDependents (asked .rearmWatch [15] (withWatch 15 definitionNow (.held ⟨4, 0⟩) on)) 15
    ∧ (dependentCase (.held ⟨4, 0⟩)).watches[(0 : Fin 16)].state = .held ⟨4, 0⟩
    ∧ QualifyingUnder (dependentCase (.held ⟨4, 0⟩)) 0 1 ∧ definition0.prerequisite ≠ some 0 :=
  ⟨fun _ h => asked_waiting _ _ _ h, not_holds_asked (definition0_not_holds _ (.inr rfl)),
    ⟨holds_asked (definitionLow_holds _ (.inr rfl)), by decide⟩,
    ⟨holds_asked (definitionNow_holds _ (.inr rfl)), rfl⟩, noDependents_of (by decide), rfl,
    ⟨⟨definition1, rfl, rfl⟩, ⟨5, 0⟩, ⟨2, true⟩, rfl⟩, by decide⟩

/-- The pattern of the fourth clause is false with L0 LOW. -/
theorem witness_RearmWatchEvaluates_dependents :
    ¬ Holds (asked .rearmWatch [0] (dependentCase (.held ⟨4, 0⟩))) { definition0 with action := .drive 3 .high } := by
  intro c
  have a : AtReference (asked .rearmWatch [0] (dependentCase (.held ⟨4, 0⟩)))
    { definition0 with action := .drive 3 .high } := c.1
  revert a
  unfold AtReference
  decide

/-- Watch 0 is at the end of its qualify time; watch 1 may depend on it. -/
def expiring (d : WatchDef) : State :=
  withWatch 0 definitionLow (.qualifying ⟨4, 0⟩ ⟨1, true⟩) (withWatch 1 d .armed on)

theorem witness_QualifyExpiryTrips :
    (expiring definition0).watches[(0 : Fin 16)].state = .qualifying ⟨4, 0⟩ ⟨1, true⟩
    ∧ (expiring definition0).watches[(0 : Fin 16)].definition = some definitionLow
    ∧ NoDependents (expiring definition0) 0 :=
  ⟨rfl, rfl, noDependents_of (by decide)⟩

/-- The clauses beside: with the timer still to run; not QUALIFYING. -/
theorem witness_QualifyExpiryTrips_waits :
    (edgeAt definition0 (.qualifying ⟨4, 0⟩ ⟨1, false⟩)).watches[(0 : Fin 16)].state = .qualifying ⟨4, 0⟩ ⟨1, false⟩
    ∧ ∀ onset timer, on.watches[(0 : Fin 16)].state ≠ .qualifying onset timer :=
  ⟨rfl, nofun⟩

/-- The dependent of watch 0 without a qualify time, driving O3 HIGH. -/
def definition1Now : WatchDef := { definition1 with qualify := 0, action := .drive 3 .high }

theorem witness_TripReachesDependents :
    (∀ d ∈ [definition1, definition1Now, { definition1 with reference := 2 }], (expiring d).ChainLaw
      ∧ (expiring d).watches[(0 : Fin 16)].definition = some definitionLow
      ∧ (expiring d).watches[(0 : Fin 16)].state = .qualifying ⟨4, 0⟩ ⟨1, true⟩
      ∧ (expiring d).watches[(1 : Fin 16)].definition = some d ∧ d.prerequisite = some 0
      ∧ (expiring d).watches[(1 : Fin 16)].state = .armed)
    ∧ PatternHolds (expiring definition1) definition1
    ∧ ¬ PatternHolds (expiring { definition1 with reference := 2 }) { definition1 with reference := 2 }
    ∧ PatternHolds (expiring definition1Now) definition1Now ∧ definition1Now.qualify = 0
    ∧ (∀ (x : Fin 16) (e : WatchDef), (expiring definition1Now).watches[x].definition = some e → e.prerequisite = some 0 →
        x = 1)
    ∧ NoDependents (expiring definition1Now) 1 := by
  have only : ∀ x : Fin 16,
      (expiring definition1Now).watches[x].definition.bind (·.prerequisite) = some 0 → x = 1 := by decide +kernel
  refine ⟨?_, ?_, ?_, ?_, rfl, fun x e he hp => only x (by rw [he]; exact hp), noDependents_of (by decide +kernel)⟩
  · unfold State.ChainLaw
    decide +kernel
  · show AtReference (expiring definition1) definition1
    unfold AtReference
    decide
  · show ¬ AtReference (expiring { definition1 with reference := 2 }) { definition1 with reference := 2 }
    unfold AtReference
    decide
  · show AtReference (expiring definition1Now) definition1Now
    unfold AtReference
    decide

/-! ### Outputs -/

/-- Output 7 with a given owner. -/
def output7 (x : Owner) : State := withOwner 7 x on

theorem witness_PulsesEnd :
    (output7 (.pulse 15 ⟨.high, ⟨1, true⟩⟩)).outputs[(7 : Fin 8)].owner = .pulse 15 ⟨.high, ⟨1, true⟩⟩
    ∧ (output7 (.host (some ⟨.low, ⟨1, true⟩⟩))).outputs[(7 : Fin 8)].owner = .host (some ⟨.low, ⟨1, true⟩⟩) :=
  ⟨rfl, rfl⟩

theorem witness_DriveOutputByOwner :
    (∀ r x, Waiting .driveOutput (request .driveOutput (encodeDriveOutput r)) []
      (asked .driveOutput (encodeDriveOutput r) (output7 x)))
    ∧ (∀ x, (output7 x).outputs[(7 : Fin 8)].owner = x)
    ∧ (⟨7, .level .high⟩ : DriveOutput).wellFormed = true ∧ (⟨7, .pulse .low 61440⟩ : DriveOutput).wellFormed = true :=
  ⟨fun _ _ => asked_waiting _ _ _ rfl, fun _ => rfl, by decide, by decide⟩

/-- The pulse level and duration of a level form may be anything. -/
theorem witness_DriveOutputByOwner_unused :
    CarriesDriveOutput ⟨7, .level .released⟩ [7, 2, 0x55, 0xFF, 0xFF]
    ∧ CarriesDriveOutput ⟨7, .level .high⟩ (encodeDriveOutput ⟨7, .level .high⟩)
    ∧ CarriesDriveOutput ⟨7, .pulse .low 61440⟩ (encodeDriveOutput ⟨7, .pulse .low 61440⟩) := by
  refine ⟨⟨2, 0x55, 0xFF, 0xFF, rfl, ?_, nofun⟩, ⟨1, 0, 0, 0, by decide, ?_, nofun⟩, ⟨3, 0, 0xF0, 0, by decide, nofun, ?_⟩⟩
  · rintro l ⟨⟩; rfl
  · rintro l ⟨⟩; rfl
  · rintro l n ⟨⟩; decide

theorem witness_SetOutputFunctionByOwner :
    (∀ r x, Waiting .setOutputFunction (request .setOutputFunction (encodeSetOutputFunction r)) []
      (asked .setOutputFunction (encodeSetOutputFunction r) (output7 x)))
    ∧ (∀ x, (output7 x).outputs[(7 : Fin 8)].owner = x)
    ∧ (output7 (.host none)).outputs[(7 : Fin 8)].owner.watch = none
    ∧ (⟨7, some .attn⟩ : SetOutputFunction).wellFormed = true ∧ (⟨7, none⟩ : SetOutputFunction).wellFormed = true :=
  ⟨fun _ _ => asked_waiting _ _ _ rfl, fun _ => rfl, rfl, by decide, by decide⟩

/-- The frequency of another function than TICK may be anything. -/
theorem witness_SetOutputFunctionByOwner_unused :
    CarriesOutputFunction ⟨7, some .attn⟩ [7, 2, 0x55, 0x55] ∧ CarriesOutputFunction ⟨6, none⟩ [6, 0, 0x55, 0x55]
    ∧ CarriesOutputFunction ⟨6, some (.tick 9)⟩ (encodeSetOutputFunction ⟨6, some (.tick 9)⟩)
    ∧ CarriesOutputFunction ⟨7, some .attn⟩ (encodeSetOutputFunction ⟨7, some .attn⟩)
    ∧ CarriesOutputFunction ⟨7, none⟩ (encodeSetOutputFunction ⟨7, none⟩) := by
  refine ⟨⟨2, 0x55, 0x55, rfl, nofun, fun _ => rfl, nofun⟩, ⟨0, 0x55, 0x55, rfl, fun _ => rfl, nofun, nofun⟩,
    ⟨1, 2, 0, by decide, nofun, nofun, ?_⟩, ⟨2, 0, 0, by decide, nofun, fun _ => rfl, nofun⟩,
    ⟨0, 0, 0, by decide, fun _ => rfl, nofun, nofun⟩⟩
  rintro rate ⟨⟩; decide

/-- Each half of the 1 Hz wave, and ATTN with and without a term. -/
theorem witness_DrivenStateByOwner :
    (∀ x, (output7 x).outputs[(7 : Fin 8)].owner = x)
    ∧ (511 % (1024 / 2 ^ (0 : Fin 10).val) < 1024 / 2 ^ (0 : Fin 10).val / 2
      ∧ 1024 / 2 ^ (0 : Fin 10).val / 2 ≤ 512 % (1024 / 2 ^ (0 : Fin 10).val))
    ∧ on.announcer.answered = false
    ∧ ¬ ((streaming none on).announcer.answered = false ∨ (streaming none on).delivery.state = .stalled
      ∨ (streaming none on).delivery.settings.mode = .polled
        ∧ ∃ h ∈ (streaming none on).journal.held, h.delivered = false) :=
  ⟨fun _ => rfl, by decide, rfl, by decide⟩

/-! ### The time base -/

/-- A slew of `n` ticks, with its spacing counted down to 0 unless another is given. -/
def slewing (n : Int) (spacing : Nat := 0) : State :=
  { streaming none on with time := { on.time with sync := .acquiring, slewRemainder := n, slewSpacing := spacing } }

/-- A part whose START notice has gone and been answered: nothing is due; with no slew, and with a slew begun. -/
theorem witness_TickCounts :
    (streaming none on).dueEvents = [] ∧ (streaming none on).time.slewRemainder = 0
    ∧ (slewing 8 15).dueEvents = [] ∧ (slewing 8 15).time.slewRemainder ≠ 0 ∧ (slewing 8 15).time.slewSpacing ≠ 0 := by decide

theorem witness_SlewTickHoldsOrDoubles :
    ((slewing 8).dueEvents = [] ∧ 0 < (slewing 8).time.slewRemainder ∧ (slewing 8).time.slewSpacing = 0)
    ∧ (slewing (-8)).dueEvents = [] ∧ (slewing (-8)).time.slewRemainder < 0 ∧ (slewing (-8)).time.slewSpacing = 0 := by
  decide

/-- Each clause: with no slew in progress; at a slew tick. What is due is taken first. -/
theorem witness_TickAdvancesCounter :
    (on.hold = .running ∧ on.dispatcher.requests.length ≤ 4 ∧ on.settle.time.slewRemainder = 0)
    ∧ (slewing 8).settle.time.slewRemainder ≠ 0 ∧ (slewing 8).settle.time.slewSpacing = 0 := by decide +kernel

/-- A pulse is due, in a sync state, at a tick of the second and an age of the last pulse. -/
def pulsing (sync : SyncState) (tick : BitVec 10) (age : Option Nat) : State :=
  { on with time := { on.time with sync, pulseDue := true, time := ⟨9, tick⟩, lastPulseAge := age } }

theorem witness_PulseActsByState :
    (∀ sync tick age, (pulsing sync tick age).time.pulseDue = true ∧ (pulsing sync tick age).time.sync = sync
      ∧ (pulsing sync tick age).time.time.tick = tick ∧ (pulsing sync tick age).time.lastPulseAge = age
      ∧ NothingBeside (pulsing sync tick age))
    ∧ (767 < 768 ∧ 768 ≤ 768)
    ∧ (8 : BitVec 10).toNat ≤ 8 ∧ 8 < (9 : BitVec 10).toNat ∧ (1015 : BitVec 10).toNat < 1016
    ∧ 1016 ≤ (1016 : BitVec 10).toNat := by
  have quiet : ∀ w : Fin 16, on.watches[w].state = .disabled := by decide
  refine ⟨fun _ _ _ => ⟨rfl, rfl, rfl, rfl, .inr rfl, .inr rfl, fun w _ _ h => ?_⟩, ?_⟩
  · cases (quiet w).symm.trans h
  · decide

theorem witness_SyncTimersExpire :
    (∀ r, (pulsing (.armed r 7 .track ⟨1, true⟩) 0 none).time.sync = .armed r 7 .track ⟨1, true⟩)
    ∧ (pulsing (.tracking ⟨1, true⟩) 0 none).time.sync = .tracking ⟨1, true⟩ := ⟨fun _ => rfl, rfl⟩

theorem witness_SetTimeSteps :
    (∀ sync, Waiting .setTime (request .setTime (encodeSetTime ⟨256, 1023⟩)) []
      (asked .setTime (encodeSetTime ⟨256, 1023⟩) (pulsing sync 5 none)))
    ∧ ∀ sync, (pulsing sync 5 none).time.sync = sync := ⟨fun _ => asked_waiting _ _ _ rfl, fun _ => rfl⟩

theorem witness_TimeIsArmedAndConfigured :
    (∀ sync, Waiting .setTimeAtPulse (request .setTimeAtPulse (encodeSetTimeAtPulse ⟨65536, .free⟩)) []
      (asked .setTimeAtPulse (encodeSetTimeAtPulse ⟨65536, .free⟩) (pulsing sync 5 none)))
    ∧ (∀ sync, (pulsing sync 5 none).time.sync = sync)
    ∧ Waiting .configureTime (request .configureTime (encodeConfigureTime ⟨.khz81920, .falling⟩)) []
      (asked .configureTime (encodeConfigureTime ⟨.khz81920, .falling⟩) on) :=
  ⟨fun _ => asked_waiting _ _ _ rfl, fun _ => rfl, asked_waiting _ _ _ rfl⟩

theorem witness_SetSyncChangesState :
    (∀ setting sync, Waiting .setSync (request .setSync [setting]) [] (asked .setSync [setting] (pulsing sync 5 none)))
    ∧ (∀ sync, (pulsing sync 5 none).time.sync = sync) ∧ 1 < (2 : Octet).toNat :=
  ⟨fun _ _ => asked_waiting _ _ _ rfl, fun _ => rfl, by decide⟩

/-! ### Requests that read -/

theorem witness_StatusReplies :
    ∀ k ∈ [RequestKind.identify, .linkStatus, .journalStatus, .readLines, .readTime],
      Waiting k (request k []) [] (asked k [] on) ∧ (request k []).payload = [] :=
  fun _ _ => ⟨asked_waiting _ _ _ rfl, rfl⟩

/-- READ_TIME after an accepted pulse, in each sync state and with the time value set or not. -/
def timed (sync : SyncState) (everSet : Bool) (age : Option Nat) : State :=
  { on with time := { on.time with sync, everSet, lastPulseAge := age, pulseInState := age.isSome } }

theorem witness_StatusReplies_time (sync : SyncState) (everSet : Bool) (age : Option Nat) :
    Waiting .readTime (request .readTime []) [] (asked .readTime [] (timed sync everSet age))
    ∧ (timed sync everSet age).time.sync = sync ∧ (timed sync everSet age).time.everSet = everSet
    ∧ (timed sync everSet age).time.lastPulseAge = age ∧ (timed sync everSet (some 500)).time.pulseInState = true
    ∧ (timed sync everSet none).time.pulseInState = false :=
  ⟨asked_waiting _ _ _ rfl, rfl, rfl, rfl, rfl, rfl⟩

/-- Watch 0 owns O3 under DRIVE, or under PULSE, and no other output; every watch owns none at power-on. -/
theorem witness_WatchAndOutputReplies :
    (∀ s : State, s.hold = .running → Waiting .queryWatch (request .queryWatch [0]) [] (asked .queryWatch [0] s))
    ∧ (0 : Octet) = BitVec.ofNat 8 (0 : Fin 16).val
    ∧ (∀ x ∈ [Owner.drive 0 .high, .pulse 0 ⟨.high, ⟨1, true⟩⟩], ownedBy 0 (withOwner 3 x on).outputs[(3 : Fin 8)].owner
      ∧ ∀ q : Fin 8, (withOwner 3 x on).outputs[q].owner.watch = some 0 → q = 3)
    ∧ (∀ q : Fin 8, on.outputs[q].owner.watch = none)
    ∧ Waiting .readOutputs (request .readOutputs []) [] (asked .readOutputs [] on) := by
  refine ⟨fun _ h => asked_waiting _ _ _ h, rfl, ?_, by decide, asked_waiting _ _ _ rfl⟩
  intro x hx
  rcases List.mem_cons.1 hx with rfl | hx
  · exact ⟨rfl, by decide⟩
  · rcases List.mem_singleton.1 hx
    exact ⟨rfl, by decide⟩

/-! ### Journal and delivery -/

/-- A journal of `n` ALARM records behind one record. -/
def full (h : Held) (n : Nat) : Journal :=
  { held := h :: List.replicate n (held0 8 .alarm false), next := 900, lost := 65535, displaced := 1, gapOwed := true }

theorem full_length (h : Held) (n : Nat) : (full h n).held.length = n + 1 := by
  show (List.replicate n (held0 8 .alarm false)).length + 1 = n + 1
  rw [List.length_replicate]

theorem full_kept (n : Nat) : ∀ h ∈ (full (held0 7 .routine true) n).held, h.delivered = true ∨ h.record.cls = .alarm := by
  simp only [full, List.mem_cons, List.mem_replicate]
  rintro h (rfl | ⟨-, rfl⟩)
  · exact .inl rfl
  · exact .inr rfl

/-- Each clause: with room, down to one slot; with room behind an owed GAP, down to two slots; with one slot and an owed
GAP, and full, each with nothing to displace and with a PENDING ROUTINE record. -/
theorem witness_JournalTakesArrival :
    (({ full (held0 7 .routine true) 382 with gapOwed := false } : Journal).held.length < 384)
    ∧ ((full (held0 7 .routine true) 381).held.length < 383 ∧ (full (held0 7 .routine true) 381).gapOwed = true)
    ∧ ((full (held0 7 .routine true) 382).held.length = 383 ∧ (full (held0 7 .routine true) 382).gapOwed = true
      ∧ ∀ h ∈ (full (held0 7 .routine true) 382).held, h.delivered = true ∨ h.record.cls = .alarm)
    ∧ ((full (held0 7 .routine false) 382).held.length = 383
      ∧ (full (held0 7 .routine false) 382).held = [] ++ held0 7 .routine false :: List.replicate 382 (held0 8 .alarm false))
    ∧ ((full (held0 7 .routine true) 383).held.length = 384
      ∧ ∀ h ∈ (full (held0 7 .routine true) 383).held, h.delivered = true ∨ h.record.cls = .alarm)
    ∧ ((full (held0 7 .routine false) 383).held = [] ++ held0 7 .routine false :: List.replicate 383 (held0 8 .alarm false)
      ∧ (full (held0 7 .routine false) 383).held.length = 384)
    ∧ (held0 7 .routine false).delivered = false ∧ (held0 7 .routine false).record.cls = .routine := by
  refine ⟨?_, ⟨?_, rfl⟩, ⟨?_, rfl, full_kept _⟩, ⟨?_, rfl⟩, ⟨?_, full_kept _⟩, ⟨rfl, ?_⟩, rfl, rfl⟩
  · show (full (held0 7 .routine true) 382).held.length < 384
    rw [full_length]
    omega
  all_goals rw [full_length]
  omega

/-- Two DELIVERED and one PENDING record. -/
def delivered2 : List Held := [held0 65534 .routine true, held0 65535 .alarm true]
def waiting1 : List Held := [held0 0 .routine false]

/-- In STREAM mode, two of three records DELIVERED, with a resend list. -/
def midway (resend : List SeqNo) (timer : Option Countdown) : State :=
  let s := holding (delivered2 ++ waiting1) (streaming timer on)
  { s with delivery := { s.delivery with resend } }

theorem witness_ReportIsHandedOver :
    (∀ resend timer, (midway resend timer).hold = .running ∧ (midway resend timer).link.line = .free
      ∧ (midway resend timer).dispatcher.replies = [] ∧ (midway resend timer).announcer.due = .none
      ∧ (midway resend timer).announcer.answered = true ∧ (midway resend timer).delivery.settings.mode = .stream
      ∧ (midway resend timer).delivery.state = .running ∧ (midway resend timer).journal.held = delivered2 ++ waiting1
      ∧ (midway resend timer).delivery.resend = resend)
    ∧ (∀ h ∈ delivered2, h.delivered = true) ∧ (∀ h ∈ waiting1, h.delivered = false)
    ∧ (delivered2.length < settings0.window ∧ waiting1 ≠ [] ∧ 1 ≤ settings0.perReport)
    ∧ delivered2.Sublist delivered2 ∧ ((delivered2 ++ waiting1).map (·.seq)).Nodup
    ∧ [(65534 : SeqNo), 65535] = delivered2.map (·.seq) :=
  ⟨fun _ _ => ⟨rfl, rfl, rfl, rfl, rfl, rfl, rfl, rfl, rfl⟩, by decide, by decide, by decide, List.Sublist.refl _,
    by decide, rfl⟩

/-- Each clause: nothing DELIVERED; below the retry limit; at it. -/
theorem witness_RetransmitExpiryActs :
    ((streaming (some ⟨1, true⟩) on).delivery.timer = some ⟨1, true⟩
      ∧ ∀ h ∈ (streaming (some ⟨1, true⟩) on).journal.held, h.delivered = false)
    ∧ (midway [] (some ⟨1, true⟩)).delivery.timer = some ⟨1, true⟩
    ∧ (∃ h ∈ (midway [] (some ⟨1, true⟩)).journal.held, h.delivered = true)
    ∧ (midway [] (some ⟨1, true⟩)).delivery.retry + 1 < settings0.retryLimit
    ∧ ({ settings0 with retryLimit := 1 } : DeliverySettings).retryLimit
        ≤ (midway [] (some ⟨1, true⟩)).delivery.retry + 1 := by decide

theorem witness_FetchReturnsOldest :
    Waiting .fetch (request .fetch [8]) [] (asked .fetch [8] on) ∧ (8 : Octet) = BitVec.ofNat 8 8
    ∧ (asked .fetch [8] on).delivery.settings.mode = .polled
    ∧ (asked .fetch [8] (streaming none on)).delivery.settings.mode = .stream :=
  ⟨asked_waiting _ _ _ rfl, rfl, rfl, rfl⟩

/-- Of the last DELIVERED record, and of the PENDING record behind it. -/
theorem witness_AckRemovesThrough :
    (∀ p, Waiting .ack (request .ack p) [] (asked .ack p (midway [] none)))
    ∧ [(255 : Octet), 255] = [BitVec.ofNat 8 ((65535 : SeqNo).toNat / 256), BitVec.ofNat 8 (65535 : SeqNo).toNat]
    ∧ (midway [] none).journal.held = [held0 65534 .routine true] ++ held0 65535 .alarm true :: waiting1
    ∧ (held0 65535 .alarm true).seq = 65535 ∧ (held0 65535 .alarm true).delivered = true
    ∧ (∀ x ∈ [held0 65534 .routine true], x.seq ≠ 65535) ∧ (midway [] none).journal.held.length ≤ 384
    ∧ ∀ h ∈ (midway [] none).journal.held, h.seq = 0 → h.delivered = false :=
  ⟨fun _ => asked_waiting _ _ _ rfl, rfl, rfl, rfl, rfl, by decide, by decide, by decide⟩

theorem witness_SetDeliveryBeginsAgain :
    (∀ p, Waiting .setDelivery (request .setDelivery p) [] (asked .setDelivery p (midway [] none)))
    ∧ (1 ≤ settings0.window ∧ settings0.window ≤ 16 ∧ 1 ≤ settings0.perReport ∧ settings0.perReport ≤ 4
      ∧ 64 ≤ settings0.interval ∧ settings0.interval ≤ 8192 ∧ 1 ≤ settings0.retryLimit ∧ settings0.retryLimit ≤ 15)
    ∧ 8192 < (0x20 : Octet).toNat * 256 + (1 : Octet).toNat :=
  ⟨fun _ => asked_waiting _ _ _ rfl, by decide, by decide⟩

theorem witness_ResumeAndClear :
    (∀ s : State, s.hold = .running → Waiting .resume (request .resume []) [] (asked .resume [] s))
    ∧ (∀ s : State, s.hold = .running → Waiting .clearJournal (request .clearJournal []) [] (asked .clearJournal [] s))
    ∧ (midway [] none).delivery.state = .running
    ∧ ({ midway [] none with delivery := { (midway [] none).delivery with state := .stalled } } : State).delivery.state
        = .stalled :=
  ⟨fun _ h => asked_waiting _ _ _ h, fun _ h => asked_waiting _ _ _ h, rfl, rfl⟩

/-! ### The host link and the dispatcher -/

theorem linked_receiving (a : Assembler) : Receiving (linked .receiving a) := ⟨rfl, rfl⟩

theorem witness_StartBitAndTimeout :
    ∀ r a, (linked r a).hold = .running ∧ (linked r a).link.receiver = r ∧ (linked r a).link.assembler = a :=
  fun _ _ => ⟨rfl, rfl, rfl⟩

theorem witness_LengthOctet :
    Receiving (linked .receiving .length) ∧ (linked .receiving .length).link.assembler = .length
    ∧ (2 ≤ (2 : Octet).toNat ∧ (252 : Octet).toNat ≤ 252) ∧ (1 : Octet).toNat < 2 ∧ 252 < (253 : Octet).toNat :=
  ⟨linked_receiving _, rfl, by decide, by decide, by decide⟩

/-- The state in which the octet is taken. -/
def taking (a : Assembler) : State := (linked .receiving a).found .receiver

/-- An octet is good at power-on with a HIGH stop bit and bad with a LOW one. -/
theorem witness_OctetIsCollected :
    (∀ a, Receiving (linked .receiving a) ∧ (linked .receiving a).link.assembler = a)
    ∧ octetBad (taking .hunt) 0xC3 .low .high = false ∧ octetBad (taking .hunt) 0xC3 .low .low = true :=
  ⟨fun a => ⟨linked_receiving a, rfl⟩, by decide +kernel, by decide +kernel⟩

/-- The check of LEN 2, KIND 0x01 and TAG 7, agreeing and differing. -/
theorem witness_FrameIsJudged :
    (∀ damaged, Receiving (linked .receiving (.check 2 [0x01, 7] 0x1234 damaged (some 0x12)))
      ∧ (linked .receiving (.check 2 [0x01, 7] 0x1234 damaged (some 0x12))).link.assembler
        = .check 2 (0x01 :: 7 :: []) 0x1234 damaged (some 0x12))
    ∧ octetBad (taking (ending2 0x1234)) 0x34 .low .high = false
    ∧ (0x1234 : BitVec 16) = (0x12 : Octet) ++ (0x34 : Octet) ∧ (0x1234 : BitVec 16) ≠ (0x12 : Octet) ++ (0x35 : Octet) :=
  ⟨fun _ => ⟨linked_receiving _, rfl⟩, by decide +kernel, by decide, by decide⟩

/-- The second part: a moment that has had the party's event, one at which nothing is due, and one at which something is,
with no event of the party so far. -/
theorem witness_FrameIsJudged_found :
    (on.hold = .running ∧ on.dispatcher.requests.length ≤ 4)
    ∧ ({ on with moment := ⟨true, false, none⟩ } : State).moment.had .receiver = true
    ∧ (streaming none on).dueEvents = []
    ∧ on.moment.had .receiver = false ∧ on.dueEvents ≠ [] := by decide

/-- A reply waits, and the line is as given. -/
def replying (line : TxLine) : State :=
  { on with
    link := { on.link with line }
    dispatcher := { on.dispatcher with replies := [⟨request .resume [], none⟩] } }

/-- Each clause: a reply waits with the line FREE; a notice is due; the repetition timer is at its end; the line is
SENDING; and the boundaries of the bit times of an octet, without and with parity. -/
theorem witness_ReplyAndNoticeHandOver :
    ((replying .free).hold = .running ∧ (replying .free).link.line = .free
      ∧ (replying .free).dispatcher.replies = ⟨request .resume [], none⟩ :: [])
    ∧ (on.hold = .running ∧ on.link.line = .free ∧ on.dispatcher.replies = [] ∧ on.dispatcher.requests = []
      ∧ on.announcer.due ≠ .none)
    ∧ ((asked .resume [] on).hold = .running ∧ (asked .resume [] on).dispatcher.requests ≠ []
      ∧ (asked .resume [] on).dispatcher.replies.length < 6)
    ∧ (∃ s : State, s.announcer.timer = some ⟨1, true⟩)
    ∧ ((sending .report on).link.line ≠ .free ∧ (sending .report on).link.line = .sending .report [0xC3]
      ∧ [(0xC3 : Octet)][0]? = some 0xC3)
    ∧ (9 < bitTimes .none ∧ 10 < bitTimes .even ∧ [(0xC3 : Octet)].length * bitTimes .none ≤ 10) :=
  ⟨⟨rfl, rfl, rfl⟩, by decide, by decide, ⟨{ on with announcer := { on.announcer with timer := some ⟨1, true⟩ } }, rfl⟩, by decide,
    by decide⟩

theorem witness_DeferredEffectsTravel :
    Waiting .setLink (request .setLink [BitRate.b9600.code, Parity.odd.code]) []
      (asked .setLink [BitRate.b9600.code, Parity.odd.code] on)
    ∧ Waiting .restart (request .restart [RestartScope.full.code]) [] (asked .restart [RestartScope.full.code] on) :=
  ⟨asked_waiting _ _ _ rfl, asked_waiting _ _ _ rfl⟩

/-- The kind of a REPORT is no request's. -/
theorem witness_UnknownKindIsRefused :
    Dispatchable { kind := 0x81, tag := 1, payload := [] } []
      ({ on with dispatcher := { on.dispatcher with requests := [{ kind := 0x81, tag := 1, payload := [] }] } } : State)
    ∧ ∀ k : RequestKind, (0x81 : Octet) ≠ requestOctet k :=
  ⟨⟨rfl, rfl, by decide, by intro e he; cases he⟩, by intro k; cases k <;> decide⟩

/-- Each clause: one octet for an IDENTIFY; a length that the kind has, with its fields at and beyond the ends of their
ranges; 24 octets with the form 0; 2 octets with the form 1. -/
theorem witness_WrongLengthIsRefused :
    (∀ k p, Waiting k (request k p) [] (asked k p on))
    ∧ (request .identify [0]).payload.length ∉ acceptedLengths .identify
    ∧ ((request .identify []).payload.length ∈ acceptedLengths .identify ∧ fieldsFit .identify [])
    ∧ ([(5 : Octet), 2].length ∈ acceptedLengths .setLink ∧ fieldsFit .setLink [5, 2] ∧ ¬ fieldsFit .setLink [6, 2]
      ∧ ¬ fieldsFit .setLink [5, 3])
    ∧ ([(8 : Octet)].length ∈ acceptedLengths .fetch ∧ fieldsFit .fetch [8] ∧ ¬ fieldsFit .fetch [9]
      ∧ ¬ fieldsFit .fetch [0])
    ∧ (fieldsFit .setWatch [15, 0] ∧ ¬ fieldsFit .setWatch [16, 0])
    ∧ (fieldsFit .driveOutput [7, 3, 2, 0xF0, 0] ∧ ¬ fieldsFit .driveOutput [7, 3, 2, 0xF0, 1]
      ∧ fieldsFit .driveOutput [7, 2, 9, 0xFF, 0xFF])
    ∧ (fieldsFit .setTime [0, 0, 0, 0, 3, 0xFF] ∧ ¬ fieldsFit .setTime [0, 0, 0, 0, 4, 0])
    ∧ ((List.replicate 22 0).length = 22 ∧ (0 : Octet) ≠ 1) ∧ (1 : Octet) ≠ 0 := by
  refine ⟨fun _ _ => asked_waiting _ _ _ rfl, by decide, ⟨by decide, trivial⟩, ?_, ?_, ?_, ?_, ?_, by decide, by decide⟩ <;>
    simp [fieldsFit, acceptedLengths, twoOctets]

/-- `f` stands at the front of the queue and repeats the request whose reply is cached. -/
def repeating (f : Frame) : State :=
  { on with dispatcher := { on.dispatcher with requests := [f], cache := some ⟨f.kind, f.tag, replyTo f 0x01 []⟩ } }

/-- A frame of the kind of a REPORT. -/
def unknown : Frame := { kind := 0x81, tag := 255, payload := [] }

theorem witness_RepeatIsAnsweredFromCache :
    (∀ f : Frame, (repeating f).hold = .running ∧ (repeating f).dispatcher.requests = f :: []
      ∧ (repeating f).dispatcher.replies.length < 6
      ∧ (repeating f).dispatcher.cache = some ⟨f.kind, f.tag, replyTo f 0x01 []⟩)
    ∧ (request .resume []).tag ≠ 0 ∧ (request .resume []).kind = requestOctet .resume
    ∧ unknown.tag ≠ 0 ∧ ∀ k : RequestKind, unknown.kind ≠ requestOctet k :=
  ⟨fun _ => ⟨rfl, rfl, by show (0 : Nat) < 6; omega, rfl⟩, by decide, by decide, by decide, by intro k; cases k <;> decide⟩

theorem witness_PayloadsRoundTrip :
    linesRequest.wellFormed = true ∧ (define15 (some 0)).wellFormed = true
    ∧ (⟨7, .pulse .low 61440⟩ : DriveOutput).wellFormed = true
    ∧ (⟨6, some (.tick 9)⟩ : SetOutputFunction).wellFormed = true ∧ fetchMaximumInRange 8 = true
    ∧ settings0.wellFormed = true := by decide

/-! ### The laws -/

/-- A state that no start leaves and that meets every law: two records DELIVERED with the older one to be sent again, a
watch TRIPPED that owns an output, and one QUALIFYING under it. -/
def lawful : State :=
  let s := dependentCase (.tripped ⟨4, 0⟩)
  { s with
    journal := { held := delivered2 ++ waiting1, next := 1, lost := 65535, displaced := 0, gapOwed := true }
    delivery := { s.delivery with settings := settings0, timer := some ⟨8192, false⟩, resend := [65534] }
    time := { s.time with sync := .tracking ⟨1280, false⟩, slewRemainder := -8, slewSpacing := 15, lastPulseAge := some 0 }
    pending := [.tick 1 .high] }

theorem witness_StepKeepsDeliveryLaws : lawful.DeliveryLaws ∧ ∃ t, step lawful = .next t := by
  refine ⟨⟨⟨?_, ?_, ?_, ?_⟩, ?_, ?_, ?_, ?_⟩, ?_⟩
  · unfold Journal.CapacityLaw; decide
  · unfold Journal.OrderLaw; decide
  · simp only [lawful, delivered2, waiting1, List.cons_append, List.nil_append, NumberingLaw, held0, numbersSince]; decide
  · unfold Journal.GapLaw; decide
  · unfold State.WindowLaw; decide
  · unfold State.HoldLaw; decide
  · unfold State.ResendLaw; decide
  · refine ⟨by decide, by decide, by decide, by decide, ?_⟩
    rintro timer ⟨⟩
    decide
  · exact ⟨_, rfl⟩

theorem witness_StepKeepsWatchLaws : lawful.OwnershipLaw ∧ lawful.ChainLaw ∧ lawful.DependentLaw := by
  refine ⟨⟨?_, ?_⟩, ?_, ?_⟩
  · unfold State.DefinedLaw
    decide
  · intro o
    match o with
    | 0 | 1 | 2 | 4 | 5 | 6 => trivial
    | 3 => exact ⟨rfl, _, rfl, rfl⟩
    | 7 => rfl
  · unfold State.ChainLaw; decide
  · intro w p h _
    have all : ∀ w p : Fin 16, lawful.prerequisite w = some p → lawful.watches[p].state.isTripped = true := by decide
    exact all w p h

theorem witness_StepKeepsRanges : lawful.time.RangeLaw ∧ lawful.dispatcher.QueueLaw := by
  refine ⟨⟨by decide, by decide, by decide, ?_, ?_, ?_, by decide⟩, by decide, by decide, ?_⟩
  · intro r v o c h; cases h
  · rintro c ⟨⟩; decide
  · rintro n ⟨⟩; decide
  · intro e h; cases h

/-! ## One command on a small state

The expected values are worked out by hand from the rules named. -/

/-- The state after a command. -/
def after (c : Instr) (s : State) : State :=
  match exec c s with
  | .next t => t
  | _ => s

/-- The payloads of the replies after a request. -/
def repliesTo (k : RequestKind) (p : List Octet) (s : State) : List (List Octet) :=
  (after k.command (asked k p s)).dispatcher.replies.map (·.frame.payload)

/-- The bodies of the held records. -/
def bodies (s : State) : List RecordBody := s.journal.held.map (·.record.body)

/-- R192: RESET LOW at power-on holds the part. -/
theorem test_powerOn_low : (after (.powerOn .low) on).hold = .held true := by decide +kernel

/-- R23, R43, R188: the RESTART record of a start by the RESET line carries the counts of held and returned records. -/
theorem test_resetRelease :
    bodies (after .resetRelease (after .resetAssertion (holding delivered2 on)))
      = [.chatterOff 3, .chatterOff 3, .restart .resetLine 2 2] := by decide +kernel

/-- R106, R110: a second has 1024 ticks. -/
theorem test_tick_carries :
    (after (.tick 0 .low) { streaming none on with time := { on.time with time := ⟨0xFFFFFFFF, 1023⟩ } }).time.time = ⟨0, 0⟩ := by
  decide +kernel

/-- R118: a negative remainder doubles a tick. -/
theorem test_slewTick : (after (.slewTick 0 .low) (slewing (-1))).time.time = ⟨0, 2⟩ := by decide +kernel

/-- R26: an inverted line whose pin is LOW is HIGH. -/
theorem test_sample_inverted :
    (after .sample (sampling 0 (withLine 31
      { Line.powerOn with config := { LineConfig.default with sense := .inverted, settle := 0 } } on))).front.lines[(31 : Fin 32)].filtered
      = .high := by decide +kernel

/-- R29, R31: the settle's end sends an EDGE record of the line's class with the captured stamp. -/
theorem test_settleEnd :
    (after (.settleEnd 0) (sampling 1 (withLine 0 (ending 0 .quiet) on))).journal.held.map (·.record)
      = [{ cls := .alarm, stamp := ⟨⟨5, 0⟩, .set⟩, body := .edge 0 .high false }] := by decide +kernel

/-- R28: with settle index 0 the edge is made at the sample, with its stamp. -/
theorem test_sample_settle0 :
    (after .sample (sampling 1 (withLine 0
      { Line.powerOn with config := { LineConfig.default with settle := 0, recording := .routine } } on))).journal.held.map (·.record)
      = [{ cls := .routine, stamp := on.time.now, body := .edge 0 .high false }] := by decide +kernel

/-- R33: the edge beyond the limit is withheld, and the record carries the edge count. -/
theorem test_settleEnd_chatter :
    bodies (after (.settleEnd 0) (sampling 1 (withLine 0 (ending 2 (.counting 2 9)) on))) = [.chatterOn 0 3] := by
  decide +kernel

/-- R33: the window ends. -/
theorem test_chatterWindowExpiry :
    (after (.chatterWindowExpiry 0)
      (sampling 0 (withLine 0 { ending 2 (.counting 1 1) with filter := .stable } on))).front.lines[(0 : Fin 32)].chatter
      = .quiet := by decide +kernel

/-- R35: recovery with a changed level sends a RECOVERED edge and then a CHATTER OFF record. -/
theorem test_recoveryExpiry :
    bodies (after (.recoveryExpiry 0)
      (sampling 1 (withLine 0 { ending 2 (.suppressed 1) with filter := .stable, raw := .high } on)))
      = [.edge 0 .high true, .chatterOff 0] := by decide +kernel

/-- R70, R71: the count stops at 65535, and the onset is that of the condition. -/
theorem test_qualifyExpiry :
    bodies (after (.qualifyExpiry 0) (expiring definition0)) = [.trip 0 ⟨4, 0⟩ .done 65535 none] := by decide +kernel

/-- R90: an output that another watch owns blocks the claim. -/
theorem test_qualifyExpiry_blocked :
    bodies (after (.qualifyExpiry 0) (withOwner 0 (.drive 9 .low) (expiring definition0)))
      = [.trip 0 ⟨4, 0⟩ .blockedOwned 65535 none] := by decide +kernel

/-- Free values leave no record. -/
theorem bodies_choices (s : State) (n : Nat) : bodies { s with choices := n } = bodies s := rfl

/-- What a trip of watch 0 and the trip of its dependent have done before their records arrive. -/
def chained : Work := (trip 0 ⟨4, 0⟩ { state := expiring definition1Now, sent := [] }).1.run [.tripped 0]

/-- R55, R66, R70: a dependent with the qualify time 0 trips at its prerequisite's trip, with its claim and its own TRIP
record, in either order of the two. -/
theorem test_qualifyExpiry_chain :
    ((after (.qualifyExpiry 0) (expiring definition1Now)).watches[(1 : Fin 16)].state = .tripped ⟨0, 0⟩
      ∧ (after (.qualifyExpiry 0) (expiring definition1Now)).outputs[(3 : Fin 8)].owner = .drive 1 .high)
    ∧ (bodies (after (.qualifyExpiry 0) (expiring definition1Now))
        = [.trip 0 ⟨4, 0⟩ .done 65535 none, .trip 1 ⟨0, 0⟩ .done 65535 none]
      ∨ bodies (after (.qualifyExpiry 0) (expiring definition1Now))
        = [.trip 1 ⟨0, 0⟩ .done 65535 none, .trip 0 ⟨4, 0⟩ .done 65535 none]) := by
  have ended : after (.qualifyExpiry 0) (expiring definition1Now) = chained.state.send chained.sent := by rfl
  have sent : chained.sent
      = [[tripRecord 0 definitionLow ⟨4, 0⟩ on.outputs (expiring definition1Now)],
         [tripRecord 1 definition1Now ⟨0, 0⟩ on.outputs (expiring definition1Now)]] := by decide +kernel
  have fields : chained.state.watches[(1 : Fin 16)].state = .tripped ⟨0, 0⟩
      ∧ chained.state.outputs[(3 : Fin 8)].owner = .drive 1 .high := by decide +kernel
  rw [ended, sent]
  obtain ⟨n, h | h⟩ := send_pair _ _ chained.state <;> rw [h]
  · exact ⟨fields, .inl (by rw [bodies_choices]; decide +kernel)⟩
  · exact ⟨fields, .inr (by rw [bodies_choices]; decide +kernel)⟩

/-- R56: at the edge that makes the condition of watch 0 true and restores its prerequisite, watch 0 is not to trip. -/
theorem test_settleEnd_departure :
    (settled (departing 0 .armed) 0).deliveryTasks [{ line := 0, level := .high, stamp := ⟨⟨5, 0⟩, .set⟩, recovered := false }]
      = [.act 0 .departure, .act 1 (.fails [⟨⟨5, 0⟩, .set⟩])] := by decide +kernel

/-- `underPrerequisite` without a qualify time, with the given request for its prerequisite waiting. -/
def besideRequest (x : WatchState) (k : RequestKind) : State := asked k [1] (underPrerequisite 0 x)

/-- What became of watch 0 and of its prerequisite, the trip count of watch 0, and how many requests wait. -/
def outcome (s : State) : Octet × Octet × Nat × Nat :=
  (s.watches[(0 : Fin 16)].state.code, s.watches[(1 : Fin 16)].state.code, s.watches[(0 : Fin 16)].tripCount,
    s.dispatcher.requests.length)

/-- R56, R66: the edge makes the condition of a watch without a qualify time true. A DISABLE_WATCH of its prerequisite that waits,
or a REARM_WATCH of it while HELD, is dispatched first, and the watch stays ARMED. -/
theorem test_sample_request_departure :
    outcome (after .sample (besideRequest (.tripped ⟨6, 0⟩) .disableWatch)) = (1, 0, 65535, 0)
    ∧ outcome (after .sample underHeld) = (1, 1, 65535, 0) := by
  decide +kernel

/-- R66, R178: with a request waiting that departs nothing, the watch is to trip at the delivery, and the request waits on. -/
theorem test_sample_request_beside :
    (besideRequest (.tripped ⟨6, 0⟩) .queryWatch).requestsFirst = false
    ∧ (besideRequest (.tripped ⟨6, 0⟩) .rearmWatch).requestsFirst = true
    ∧ (dispatcherEvent (besideRequest (.tripped ⟨6, 0⟩) .rearmWatch)).requestsFirst = false
    ∧ (settled (underPrerequisite 0 (.tripped ⟨6, 0⟩)) 0).deliveryTasks
        [{ line := 0, level := .high, stamp := ⟨⟨5, 0⟩, .set⟩, recovered := false }] = [.act 0 (.holds (some ⟨7, 1⟩))] := by
  decide +kernel

/-- The part as `bothRecover` after its lines have taken their configuration. -/
def recovering : Work := { state := bothRecover, sent := [] }

/-- R56: of two RECOVERED edges that come together, the one that takes the prerequisite out of TRIPPED is delivered first, and
the other makes the pattern of watch 0 true: it is ARMED after both, with no TRIP record. -/
theorem test_configureLines_departure :
    bothRecover.endsNext [0, 1] = [0] ∧ bothRecover.endsNext [1, 0] = [0]
    ∧ (let k := endSuppressions 2 [0, 1] recovering
       outcome k.state = (1, 1, 65535, 1)
       ∧ k.sent.map (·.map (·.body)) = [[.edge 0 .high true, .chatterOff 0], [.restore 1 none], [.edge 1 .high true, .chatterOff 1]])
    := by
  decide +kernel

/-- R56: a sample that restores the prerequisite is taken before a CONFIGURE_LINES whose RECOVERED edge would trip watch 0; with a
qualify time that order is left to the commands. -/
theorem test_configureLines_beside_sample :
    outcome (after .configureLines (withWatch 1 { definitionAuto with restore := .none } (.tripped ⟨4, 0⟩) (recoversBeside 0)))
      = (1, 1, 65535, 0)
    ∧ outcome (after .configureLines (recoversBeside 5)) = (2, 3, 65535, 0) := by
  decide +kernel

/-- The clauses of the sample that is still to be taken: L0 makes the edge that makes the pattern of watch 1 false, in the order
of the commands with a qualify time, and before the CONFIGURE_LINES without one. -/
theorem witness_ConfigureLinesEndsSuppression_departure_sample :
    (∀ q ∈ [0, 5], Sampling (recoversBeside q) ∧ Recovers limit0One (recoversBeside q) 1)
    ∧ (∀ k : Fin 32, k ≠ 1 → ∀ left, (recoversBeside 5).front.lines[k].chatter ≠ .suppressed left)
    ∧ LoneEdge (after .configureLines (recoversBeside 5)) 0 ⟨⟨5, 0⟩, .set⟩
    ∧ ¬ AtReference (settled (after .configureLines (recoversBeside 5)) 0) definitionAuto
    ∧ (∀ k : Fin 32, k ≠ 0 → k ≠ 1 → Idle (recoversBeside 0) k) ∧ EdgeNow (recoversBeside 0) 0
    ∧ ¬ AtReference (settled (recoversBeside 0) 0) definitionAuto := by
  have quiet : ∀ k : Fin 32, k ≠ 1 → (recoversBeside 5).front.lines[k].isSuppressed = false := by decide +kernel
  have idle : ∀ j : Fin 32, j ≠ 0 → Idle (after .configureLines (recoversBeside 5)) j := by
    unfold Idle
    decide +kernel
  have due : ∀ q, Sampling (recoversBeside q) ∧ Recovers limit0One (recoversBeside q) 1 := fun q =>
    ⟨⟨rfl, rfl, rfl⟩, rfl, by decide, by decide, (by decide : (2 : Nat) ≠ 0), ⟨7, rfl⟩, (by decide : Level.high ≠ .low)⟩
  refine ⟨fun q _ => due q,
    fun k h => notSuppressed_of (quiet k h),
    ⟨⟨by decide +kernel, by decide +kernel, by decide +kernel⟩, idle, .inl ⟨1, by decide +kernel, Nat.le_refl 1⟩,
      by decide +kernel, by decide +kernel, by decide +kernel⟩, ?_, ?_, ?_, ?_⟩
  · unfold AtReference
    decide +kernel
  · unfold Idle
    decide +kernel
  · exact ⟨by decide, .inl ⟨⟨⟨5, 0⟩, .set⟩, 1, by decide, Nat.le_refl 1⟩⟩
  · unfold AtReference
    decide +kernel

/-- R94: the output is back with HOST. -/
theorem test_watchPulseEnd :
    (after (.watchPulseEnd 15) (output7 (.pulse 15 ⟨.high, ⟨1, true⟩⟩))).outputs[(7 : Fin 8)]
      = { hostLevel := .low, owner := .host none } := by decide +kernel

/-- R93: the host level stands again. -/
theorem test_hostPulseEnd :
    (after (.hostPulseEnd 7) (output7 (.host (some ⟨.high, ⟨1, true⟩⟩)))).driven 7 = .low := by decide +kernel

/-- R117, R119: an offset of 9 ticks steps back to the second; 1015 ticks steps on to the next. -/
theorem test_syncPulse_step :
    (after .syncPulse (pulsing .acquiring 9 none)).time.time = ⟨9, 0⟩
    ∧ (after .syncPulse (pulsing .acquiring 1015 none)).time.time = ⟨10, 0⟩ := by decide +kernel

/-- A pulse that makes a step in ACQUIRING, while a watch is at the end of its qualify time. -/
def pulsingBeside : State := { expiring definition0 with time := (pulsing .acquiring 9 none).time }

/-- The same once its STEP record has arrived. -/
def stepped : State := pulsingBeside.withTime (pulsingBeside.time.takePulse.1, pulsingBeside.time.takePulse.2.take 1)

/-- R120: the TRIP record of a watch that trips at the same moment may be entered between the two; else it is still to come. -/
theorem test_syncPulse_between :
    bodies (after .syncPulse pulsingBeside) = [.time (.step ⟨9, 9⟩), .trip 0 ⟨4, 0⟩ .done 65535 none, .time .syncGained]
      ∨ bodies (after .syncPulse pulsingBeside) = [.time (.step ⟨9, 9⟩), .time .syncGained] := by
  have pulse : after .syncPulse pulsingBeside
      = (takeBesides (99 + 1) stepped).arrive (pulsingBeside.time.takePulse.2.getLast (by decide)) := by rfl
  have due : stepped.besides = [.qualify 0] := by decide +kernel
  have chosen : stepped.choose 2 = (Config.choice stepped.choices % 2, { stepped with choices := stepped.choices + 1 }) := rfl
  rw [pulse, takeBesides_succ, due]
  simp only [List.length_cons, List.length_nil, Nat.zero_add, Nat.reduceAdd, chosen]
  rcases Nat.mod_two_eq_zero_or_one (Config.choice stepped.choices) with h | h <;> rw [h]
  · exact .inl (by decide +kernel)
  · exact .inr (by decide +kernel)

/-- R117, R118: an offset of 8 ticks slews; R120: the pulse ends HOLDOVER. -/
theorem test_syncPulse_slew :
    (after .syncPulse (pulsing .holdover 8 (some 1024))).time.slewRemainder = 8
    ∧ bodies (after .syncPulse (pulsing .holdover 8 (some 1024))) = [.time .syncGained] := by decide +kernel

/-- R116. -/
theorem test_armDeadlineExpiry :
    bodies (after .armDeadlineExpiry (pulsing (.armed .holdover 7 .track ⟨1, true⟩) 0 none)) = [.time .syncMissed] := by
  decide +kernel

/-- R121. -/
theorem test_missedPulseExpiry :
    (after .missedPulseExpiry (pulsing (.tracking ⟨1, true⟩) 0 none)).time.sync = .holdover := by decide +kernel

/-- R133: go back over the DELIVERED records. -/
theorem test_retransmitExpiry :
    (after .retransmitExpiry (midway [] (some ⟨1, true⟩))).delivery.resend = [65534, 65535]
    ∧ (after .retransmitExpiry (midway [] (some ⟨1, true⟩))).delivery.retry = 1 := by decide +kernel

/-- R154: a LOW stop bit is a framing error, and the receiver waits for RXD HIGH. -/
theorem test_octetArrives_framing :
    (after (.octetArrives 0xC3 .low .low) (linked .receiving .hunt)).link.counters.framingErrors = 1
    ∧ (after (.octetArrives 0xC3 .low .low) (linked .receiving .hunt)).link.receiver = .waitHigh := by decide +kernel

/-- R160, R175: a whole frame is queued. -/
theorem test_octetArrives_frame :
    (after (.octetArrives 0x34 .low .high) (linked .receiving (.check 2 [0x01, 7] 0x1234 false (some 0x12)))).dispatcher.requests
      = [{ kind := 0x01, tag := 7, payload := [] }] := by decide +kernel

/-- R175, R178: the frame that has arrived is dispatched before the receiver finds the next octet's start bit. -/
theorem test_frame_dispatched :
    ((after (.startBitFound false true) (after (.octetArrives 0x34 .low .high)
      (sending .report (linked .receiving (ending2 0x1234)))))).dispatcher.replies.map (·.frame.payload)
      = [[0x01, 0, 0x3A, 0x01, 0x20, 0x08, 0x10, 0x01, 0x80, 0x10, 0]] := by decide +kernel

/-- R190, R199: a frame that arrives together with a RESTART FULL, taken after it, is queued and answers the new
announcement, whose FIRST notice stays due. R172: the octet whose start bit came at the same moment is discarded. -/
theorem test_frame_after_restartFull :
    (after (.octetArrives 0x34 .low .high) (after .lastOctetLeaves (restarting .receiving (ending2 0x1234)))).dispatcher.requests
      = [{ kind := 0x01, tag := 7, payload := [] }]
    ∧ (after (.octetArrives 0x34 .low .high) (after .lastOctetLeaves (restarting .receiving (ending2 0x1234)))).announcer
      = ⟨true, .first, none, 0, .restartFull⟩
    ∧ (after (.octetArrives 0x34 .low .high) (after .lastOctetLeaves (restartingEarly (ending2 0x1234)))).dispatcher.requests
      = [] := by decide +kernel

/-- R161. -/
theorem test_interOctetTimeout :
    (after .interOctetTimeout (linked .looking .length)).link.counters.timeouts = 1
    ∧ (after .interOctetTimeout (linked .looking .length)).link.assembler = .hunt := by decide +kernel

/-- R154. -/
theorem test_startBitFound : (after (.startBitFound false true) (linked .looking .hunt)).link.receiver = .receiving := by
  decide +kernel

/-- R153: 0xC3 on TXD after its start bit, least significant bit first; the stop bit and the idle line are HIGH. -/
theorem test_txd :
    (List.range 12).map (sending .report on).link.txd
      = [.low, .high, .high, .low, .low, .low, .low, .high, .high, .high, .high, .high]
    ∧ on.link.txd 0 = .high := by decide

/-- R203: a TRIP record of class ALARM stamped SYNCED carries 0xC2, and is 20 octets without snapshot. -/
theorem test_record_trip :
    ({ seq := 0x0102, delivered := false
       record := { cls := .alarm, stamp := ⟨⟨1000, 513⟩, .synced⟩, body := .trip 5 ⟨999, 1⟩ .done 3 none } } : Held).octets
      = [20, 1, 2, 0xC2, 0, 0, 3, 0xE8, 2, 1, 5, 0, 0, 3, 0xE7, 0, 1, 1, 0, 3] := by decide +kernel

/-- R203: a GAP record of class ALARM stamped UNSET. -/
theorem test_record_gap :
    ({ seq := 7, delivered := false
       record := { cls := .alarm, stamp := ⟨⟨0, 0⟩, .unset⟩, body := .gap 258 1 } } : Held).octets
      = [14, 0, 7, 0x87, 0, 0, 0, 0, 0, 0, 1, 2, 0, 1] := by decide +kernel

/-- R162, R198: the notice goes, and its repetition timer starts. -/
theorem test_startNoticeHandOver :
    (after .startNoticeHandOver on).announcer = ⟨false, .none, some ⟨2048, false⟩, 1, .powerOn⟩ := by decide +kernel

/-- R175, R199: the notice waits for the reply to the request that answers the announcement. -/
theorem test_startNoticeHandOver_behind :
    after .startNoticeHandOver (asked .identify [] on) = asked .identify [] on := by decide +kernel

/-- R179, R181: a repeated frame of an unknown kind is answered with the cached refusal. -/
theorem test_dispatchUnknownKind_repeated :
    (after .dispatchUnknownKind (repeating unknown)).dispatcher.replies.map (·.frame) = [replyTo unknown 0x01 []] := by
  decide +kernel

/-- R129, R130: a new report takes the PENDING record. -/
theorem test_reportHandOver :
    (after .reportHandOver (midway [] none)).journal.held.map (·.delivered) = [true, true, true] := by decide +kernel

/-- R163, R168: the switch of a SET_LINK comes with its reply's last octet. -/
theorem test_lastOctetLeaves :
    (after .lastOctetLeaves (sending (.reply (some (.switch ⟨.b9600, .even⟩))) on)).link.settings = ⟨.b9600, .even⟩ := by
  decide +kernel

/-- R187. -/
theorem test_identify :
    repliesTo .identify [] on = [[0x01, 0, 0x3A, 0x01, 0x20, 0x08, 0x10, 0x01, 0x80, 0x10, 0]] := by decide +kernel

/-- R167: the reply carries the new settings and the switch. -/
theorem test_setLink :
    (after .setLink (asked .setLink [5, 2] on)).dispatcher.replies.map (·.effect) = [some (.switch ⟨.b230400, .odd⟩)] := by
  decide +kernel

/-- R193. -/
theorem test_restart :
    (after .restart (asked .restart [0] on)).dispatcher.replies.map (·.effect) = [some (.start .full)] := by decide +kernel

/-- R38, R39: windows and recovery times are kept in ticks. -/
theorem test_configureLines :
    (after .configureLines (asked .configureLines (encodeConfigureLines linesRequest) on)).front.lines[(31 : Fin 32)].config
      = ⟨.normal, 7, .alarm, 30, 61440, 1024⟩ := by decide +kernel

/-- R47, R51: the watch then holds the reference within its line set, and nothing of the unused octets. -/
theorem test_setWatch_unused :
    (after .setWatch (asked .setWatch (15 :: 1 :: spoiled) on)).watches[(15 : Fin 16)].definition = some plain0 := by
  decide +kernel

/-- R80: with its condition true and the qualify time 0 the watch trips at the taking. -/
theorem test_enableWatch :
    repliesTo .enableWatch [15] (withWatch 15 definitionNow .disabled on) = [[0x21, 0, 3]] := by decide +kernel

/-- R81, R69: the owned output is released, and the dependent is back in ARMED. -/
theorem test_disableWatch :
    (after .disableWatch (asked .disableWatch [0] (dependentCase (.tripped ⟨4, 0⟩)))).outputs[(3 : Fin 8)].owner = .host none
    ∧ (after .disableWatch (asked .disableWatch [0] (dependentCase (.tripped ⟨4, 0⟩)))).watches[(1 : Fin 16)].state = .armed := by
  decide +kernel

/-- R100: the owner's index comes with OWNED. -/
theorem test_driveOutput :
    repliesTo .driveOutput [7, 1, 0, 0, 0] (output7 (.drive 9 .low)) = [[0x30, 0x20, 9]]
    ∧ repliesTo .driveOutput [7, 1, 0, 0, 0] (output7 (.host none)) = [[0x30, 0, 1]] := by decide +kernel

/-- R97: at tick 0 of the counter the wave is HIGH. -/
theorem test_setOutputFunction :
    (after .setOutputFunction (asked .setOutputFunction [6, 1, 2, 0] on)).driven 6 = .high := by decide +kernel

/-- R122: the old time value is in the record. -/
theorem test_setTime :
    bodies (after .setTime (asked .setTime [0, 0, 1, 0, 3, 255] (pulsing .free 5 none))) = [.time (.step ⟨9, 5⟩)] := by
  decide +kernel

/-- R110, R123: in TRACKING gained by a slew alone the quality is UNSET; the age of the last pulse is shown once a pulse
has been accepted in the state. -/
theorem test_readTime :
    repliesTo .readTime [] (timed (.tracking ⟨1280, false⟩) false (some 500))
      = [[0x44, 0, 0, 0, 0, 0, 0, 0, 0, 3, 0, 0, 0, 1, 1, 0xF4, 0, 0]]
    ∧ repliesTo .readTime [] (timed .holdover true none) = [[0x44, 0, 0, 0, 0, 0, 0, 0, 3, 4, 0, 0, 0, 0, 0, 0]] := by
  decide +kernel

/-- R113: OFF clears the slew. -/
theorem test_setSync : (after .setSync (asked .setSync [0] (slewing 8))).time.slewRemainder = 0 := by decide +kernel

/-- R138: the oldest two records, more to come. -/
theorem test_fetch :
    (after .fetch (asked .fetch [2] (holding (delivered2 ++ waiting1) on))).journal.held.map (·.delivered)
      = [true, true, false] := by decide +kernel

/-- R140: a cumulative acknowledgement, and one of a PENDING record. -/
theorem test_ack :
    bodies (after .ack (asked .ack [0xFF, 0xFF] (midway [] none))) = [.chatterOff 3]
    ∧ repliesTo .ack [0, 0] (midway [] none) = [[0x51, 0x31]] := by decide +kernel

/-- R19, R144: the count of records removed; the counter runs on. -/
theorem test_clearJournal :
    repliesTo .clearJournal [] (midway [] none) = [[0x55, 0, 0, 3]] := by decide +kernel

/-- R181. -/
theorem test_dispatchUnknownKind :
    (after .dispatchUnknownKind
      { on with dispatcher := { on.dispatcher with requests := [{ kind := 0x80, tag := 1, payload := [] }] } }).dispatcher.replies.map (·.frame)
      = [{ kind := 0x80, tag := 1, payload := [0x80, 0x01] }] := by decide +kernel

end Sys2Proof.Tests
end

section
/-! PROOF. The field check of CONFIGURE_LINES (R38): which octets the parser accepts, and how a waiting request is answered
when its payload passes the checks and when it does not. -/

namespace Sys2Proof

open Sys2Proof.Claims

/-! ## The octets that pass the field check -/

theorem LineSense.isSome_ofCode (o : Octet) : (LineSense.ofCode o).isSome = true ↔ o.toNat ≤ 1 := by
  unfold LineSense.ofCode
  split
  case h_1 normal => simp [normal]
  case h_2 inverted => simp [inverted]
  case h_3 not0 not1 =>
    simp only [imp_false] at not0 not1
    simp only [Option.isSome_none, Bool.false_eq_true, false_iff]
    omega

theorem Recording.isSome_ofCode (o : Octet) : (Recording.ofCode o).isSome = true ↔ o.toNat ≤ 2 := by
  unfold Recording.ofCode
  split
  case h_1 silent => simp [silent]
  case h_2 routine => simp [routine]
  case h_3 alarm => simp [alarm]
  case h_4 not0 not1 not2 =>
    simp only [imp_false] at not0 not1 not2
    simp only [Option.isSome_none, Bool.false_eq_true, false_iff]
    omega

theorem ConfigureLines.wellFormed_iff (r : ConfigureLines) :
    r.wellFormed = true ↔
      r.first ≤ 31 ∧ 1 ≤ r.count ∧ r.count ≤ 32 ∧ r.first + r.count ≤ 32 ∧ r.settle ≤ 7
        ∧ (r.limit = 0 ∨ 2 ≤ r.limit ∧ r.limit ≤ 30) ∧ 1 ≤ r.window ∧ r.window ≤ 60 ∧ 1 ≤ r.recovery
        ∧ r.recovery ≤ 60 := by
  simp [ConfigureLines.wellFormed, and_assoc]

section
variable {first count sense settle recording limit window recovery : Octet}

/-- The two fields that are codes decode, and the others pass the range check. -/
theorem parseConfigureLines_ok
    (h : fieldsFit .configureLines [first, count, sense, settle, recording, limit, window, recovery]) :
    ∃ r, parseConfigureLines [first, count, sense, settle, recording, limit, window, recovery] = .ok r := by
  obtain ⟨hFirst, hCount, hCount', hRange, hSense, hSettle, hRecording, hRest⟩ := h
  obtain ⟨lineSense, decodedSense⟩ := Option.isSome_iff_exists.mp ((LineSense.isSome_ofCode sense).mpr hSense)
  obtain ⟨lineRecording, decodedRecording⟩ :=
    Option.isSome_iff_exists.mp ((Recording.isSome_ofCode recording).mpr hRecording)
  refine ⟨⟨first.toNat, count.toNat, lineSense, settle.toNat, lineRecording, limit.toNat, window.toNat,
    recovery.toNat⟩, ?_⟩
  simp only [parseConfigureLines, decodedSense, decodedRecording, inRange]
  exact if_pos ((ConfigureLines.wellFormed_iff _).mpr ⟨hFirst, hCount, hCount', hRange, hSettle, hRest⟩)

/-- A code that does not decode and a range check that fails are refused alike. -/
theorem parseConfigureLines_badField
    (h : ¬ fieldsFit .configureLines [first, count, sense, settle, recording, limit, window, recovery]) :
    parseConfigureLines [first, count, sense, settle, recording, limit, window, recovery] = .error .badField := by
  unfold parseConfigureLines
  dsimp only
  split
  case h_1 decodedSense decodedRecording =>
    refine if_neg fun wellFormed => h ?_
    obtain ⟨hFirst, hCount, hCount', hRange, hSettle, hRest⟩ := (ConfigureLines.wellFormed_iff _).mp wellFormed
    exact ⟨hFirst, hCount, hCount', hRange, (LineSense.isSome_ofCode sense).mp (by simp [decodedSense]), hSettle,
      (Recording.isSome_ofCode recording).mp (by simp [decodedRecording]), hRest⟩
  case h_2 => rfl

end

end Sys2Proof

namespace Sys2Proof.Machine

open Sys2Proof.Claims

/-! ## The answer to a waiting request -/

theorem requestOctet_eq_code (k : RequestKind) : requestOctet k = k.code := by
  cases k <;> rfl

section
variable {k : RequestKind} {f : Frame} {rest : List Frame} {s : State}

/-- The owning block's answer, or the refusal of a check. -/
theorem exec_command_of_waiting (h : Waiting k f rest s) :
    exec k.command s = .next
      (match serve k f.payload s.popRequest with
      | .error status => (Taken.refuse status s.popRequest).answer f
      | .ok taken => taken.answer f) := by
  obtain ⟨⟨running, front, slot, fresh⟩, kind⟩ := h
  exact exec_command_answers k f rest s running front slot fresh (kind.trans (requestOctet_eq_code k))

/-- The answer of a refusal, at the front of the queue: the reply carries the status alone. -/
theorem answer_refuse (front : s.dispatcher.requests = f :: rest) (status : Status) :
    (Taken.refuse status s.popRequest).answer f = replied f rest status.code [] none s := by
  rw [answer_eq, popRequest_of_front front]
  rfl

/-- A refusal of the length or the field check changes nothing but the dispatcher (R182, R183). -/
theorem exec_command_refused (h : Waiting k f rest s) {status : Status}
    (refused : serve k f.payload s.popRequest = .error status) :
    exec k.command s = .next (replied f rest status.code [] none s) := by
  rw [exec_command_of_waiting h, refused]
  exact congrArg Host.Outcome.next (answer_refuse h.dispatchable.front status)

/-- A taking that leaves the replies as they were has its own reply at the back of them (R185). -/
theorem exec_command_taken (h : Waiting k f rest s) {taken : Taken} (ok : serve k f.payload s.popRequest = .ok taken)
    (kept : taken.state.dispatcher.replies = s.dispatcher.replies) :
    ∃ t, exec k.command s = .next t
      ∧ t.dispatcher.replies
        = s.dispatcher.replies ++ [{ frame := replyTo f taken.status.code taken.fields, effect := taken.effect }] := by
  refine ⟨taken.answer f, by rw [exec_command_of_waiting h, ok], ?_⟩
  rw [answer_eq, kept]
  rfl

end

/-! ## The obligation -/

theorem takeConfigureLines_replies (r : ConfigureLines) (s : State) :
    (takeConfigureLines r s.popRequest).state.dispatcher.replies = s.dispatcher.replies :=
  (congrArg Dispatcher.replies (takeConfigureLines_change r s.popRequest).dispatcher).trans rfl

/-- Settles O19: the parser accepts the octets in range and refuses the others with BAD_FIELD, and the dispatcher answers by
what the parser says. -/
theorem configureLinesFieldCheck : Obligations.ConfigureLinesFieldCheck := by
  intro f rest first count sense settle recording limit window recovery s waiting payload
  refine ⟨fun fits => ?_, fun misfits => ?_⟩
  · obtain ⟨r, parsed⟩ := parseConfigureLines_ok fits
    have taken : serve .configureLines f.payload s.popRequest = .ok (takeConfigureLines r s.popRequest) := by
      rw [payload]
      simp only [serve, parsed, Except.map]
    exact exec_command_taken waiting taken (takeConfigureLines_replies r s)
  · have refused : serve .configureLines f.payload s.popRequest = .error .badField := by
      rw [payload]
      simp only [serve, parseConfigureLines_badField misfits, Except.map]
    exact exec_command_refused waiting refused

end Sys2Proof.Machine
end

section
/-! PROOF. The watches at power-on (R62, R65, R84, R192), and the request that would enable a watch while its definition is
absent (R80). -/

namespace Sys2Proof

/-- The field check accepts the octet of every watch index (R58, section 4.6). -/
theorem parseWatchIndex_ofNat (w : Fin 16) : parseWatchIndex [BitVec.ofNat 8 w.val] = .ok w := by
  have octet : (BitVec.ofNat 8 w.val).toNat = w.val := Nat.mod_eq_of_lt (by omega)
  simp [parseWatchIndex, watchOfCode, octet, fieldsOr]

end Sys2Proof

namespace Sys2Proof.Machine

open Sys2Proof.Claims

/-! ## What a watch owns -/

theorem ownedOutput_eq_none_iff {s : State} {w : Fin 16} :
    s.ownedOutput w = none ↔ ∀ o : Fin 8, s.outputs[o].owner.watch ≠ some w := by
  simp [State.ownedOutput]

/-- A pulse of a watch runs on the output it owns (R65, R78). -/
theorem pulseRemaining_of_ownedOutput_none {s : State} {w : Fin 16} (h : s.ownedOutput w = none) :
    s.pulseRemaining w = none := by
  simp only [State.pulseRemaining, h]

/-- By default the host or a function owns each output (R87). -/
@[simp] theorem Output.default_owner_watch (o : Fin 8) : (Output.default o).owner.watch = none := by
  unfold Output.default
  split <;> rfl

/-! ## The state after POWER_ON -/

@[simp] theorem powerOn_watches (reset : Level) (s : State) :
    (powerOn reset s).watches = Vector.ofFn fun _ => Watch.powerOn := by
  cases reset <;> rfl

@[simp] theorem powerOn_outputs (reset : Level) (s : State) :
    (powerOn reset s).outputs = Vector.ofFn Output.default := by
  cases reset <;> rfl

theorem powerOn_watch (reset : Level) (s : State) (w : Fin 16) : (powerOn reset s).watches[w] = Watch.powerOn := by
  rw [powerOn_watches, getElem_ofFn_fin]

theorem powerOn_ownedOutput (reset : Level) (s : State) (w : Fin 16) : (powerOn reset s).ownedOutput w = none := by
  refine ownedOutput_eq_none_iff.mpr fun o owned => ?_
  rw [powerOn_outputs, getElem_ofFn_fin, Output.default_owner_watch] at owned
  cases owned

/-! ## ENABLE_WATCH without a definition -/

theorem takeEnableWatch_notDefined {w : Fin 16} {s : State} (absent : s.watches[w].definition = none) :
    takeEnableWatch w s = .refuse .notDefined s := if_pos absent

/-- The refusal is the watches' own: the payload has passed the checks. -/
theorem exec_enableWatch_notDefined {f : Frame} {rest : List Frame} {w : Fin 16} {s : State}
    (waiting : Waiting .enableWatch f rest s) (payload : f.payload = [BitVec.ofNat 8 w.val])
    (absent : s.watches[w].definition = none) :
    exec .enableWatch s = .next (replied f rest Status.notDefined.code [] none s) := by
  have taken : serve .enableWatch f.payload s.popRequest = .ok (.refuse .notDefined s.popRequest) := by
    rw [payload]
    simp only [serve, parseWatchIndex_ofNat, Except.map]
    exact congrArg Except.ok (takeEnableWatch_notDefined absent)
  have answered := exec_command_of_waiting waiting
  rw [taken] at answered
  exact answered.trans (congrArg Host.Outcome.next (answer_refuse waiting.dispatchable.front .notDefined))

/-! ## The obligation -/

/-- Settles O5: POWER_ON writes every watch and gives no output to one, and the dispatcher answers ENABLE_WATCH with the
refusal of a watch without a definition. -/
theorem powerOnDisablesWatches : Obligations.PowerOnDisablesWatches := by
  refine ⟨fun reset s => ⟨powerOn reset s, rfl, fun w => ?_⟩, fun f rest w s waiting payload absent =>
    exec_enableWatch_notDefined waiting payload absent⟩
  have unowned := powerOn_ownedOutput reset s w
  rw [powerOn_watch]
  exact ⟨rfl, rfl, rfl, rfl, rfl, unowned, pulseRemaining_of_ownedOutput_none unowned⟩

end Sys2Proof.Machine
end

section
/-! PROOF. SET_SYNC (R113): which octet the parser accepts, what the taking makes of the sync state, and the reply that
carries the state after it. -/

namespace Sys2Proof

/-! ## The setting that passes the field check -/

theorem parseSetSync_code (r : SyncSetting) : parseSetSync [r.code] = .ok r := by
  cases r <;> rfl

/-- Only OFF and TRACK have a code (R201). -/
theorem parseSetSync_badField {setting : Octet} (h : 1 < setting.toNat) :
    parseSetSync [setting] = .error .badField := by
  have undecoded : SyncSetting.ofCode setting = none := by
    unfold SyncSetting.ofCode
    split
    case h_1 off => omega
    case h_2 track => omega
    case h_3 => rfl
  simp only [parseSetSync, undecoded, fieldsOr]

end Sys2Proof

namespace Sys2Proof.Machine

open Sys2Proof.Claims

/-! ## The time base after the taking -/

theorem setSync_track_acquires {t : TimeBase} (h : t.sync = .free ∨ ∃ r v o c, t.sync = .armed r v o c) :
    t.setSync .track = { t with sync := .acquiring, pulseInState := false } := by
  unfold TimeBase.setSync
  obtain free | ⟨r, v, o, c, armed⟩ := h
  · rw [free]; rfl
  · rw [armed]; rfl

theorem setSync_track_kept {t : TimeBase} (notFree : t.sync ≠ .free) (notArmed : ∀ r v o c, t.sync ≠ .armed r v o c) :
    t.setSync .track = t := by
  unfold TimeBase.setSync
  cases sync : t.sync with
  | free => exact absurd sync notFree
  | armed r v o c => exact absurd sync (notArmed r v o c)
  | acquiring => rfl
  | tracking limit => rfl
  | holdover => rfl

/-- OFF in FREE is no entry to a state, so whether a pulse has been accepted in it stands (log entry 19). -/
theorem setSync_off (t : TimeBase) :
    t.setSync .off =
      { t with
        sync := .free, slewRemainder := 0, slewSpacing := 0
        pulseInState := match t.sync with
          | .free => t.pulseInState
          | _ => false } := by
  unfold TimeBase.setSync
  cases sync : t.sync with
  | free => simp only [TimeBase.clearSlew, sync]
  | armed r v o c => rfl
  | acquiring => rfl
  | tracking limit => rfl
  | holdover => rfl

/-! ## The answer -/

/-- A taking that leaves the popped queue as it is has its reply queued over the state it leads to (R184, R185). -/
theorem exec_command_replied {k : RequestKind} {f : Frame} {rest : List Frame} {s : State} (h : Waiting k f rest s)
    {taken : Taken} (ok : serve k f.payload s.popRequest = .ok taken)
    (kept : taken.state.dispatcher.requests = rest) :
    exec k.command s = .next (replied f rest taken.status.code taken.fields taken.effect taken.state) := by
  rw [exec_command_of_waiting h, ok]
  subst kept
  exact congrArg Host.Outcome.next (answer_eq taken f)

section
variable {f : Frame} {rest : List Frame} {s : State} (h : Waiting .setSync f rest s)
include h

/-- SET_SYNC changes the time base alone, and its reply carries the sync state after the taking. -/
theorem exec_setSync_taken (r : SyncSetting) (payload : f.payload = [r.code]) :
    exec .setSync s = .next
      (replied f rest 0x00 [(s.time.setSync r).sync.code] none ({ s with time := s.time.setSync r } : State)) := by
  have taken : serve .setSync f.payload s.popRequest = .ok (takeSetSync r s.popRequest) := by
    rw [payload]
    simp only [serve, parseSetSync_code, Except.map]
  have kept : (takeSetSync r s.popRequest).state.dispatcher.requests = rest := by
    rw [(takeSetSync_change r s.popRequest).dispatcher, popRequest_of_front h.dispatchable.front]
  exact exec_command_replied h taken kept

theorem exec_setSync_badField {setting : Octet} (payload : f.payload = [setting]) (unknown : 1 < setting.toNat) :
    exec .setSync s = .next (replied f rest 0x03 [] none s) := by
  have refused : serve .setSync f.payload s.popRequest = .error .badField := by
    rw [payload]
    simp only [serve, parseSetSync_badField unknown, Except.map]
  exact exec_command_refused h refused

/-- TRACK in ACQUIRING, TRACKING and HOLDOVER answers with the state it finds. -/
theorem exec_setSync_track_kept (payload : f.payload = [1]) (notFree : s.time.sync ≠ .free)
    (notArmed : ∀ r v o c, s.time.sync ≠ .armed r v o c) :
    exec .setSync s = .next (replied f rest 0x00 [s.time.sync.code] none s) := by
  have answered := exec_setSync_taken h .track payload
  rwa [setSync_track_kept notFree notArmed] at answered

theorem exec_setSync_track_acquires (payload : f.payload = [1])
    (leaves : s.time.sync = .free ∨ ∃ r v o c, s.time.sync = .armed r v o c) :
    exec .setSync s = .next (replied f rest 0x00 [2] none
      ({ s with time := { s.time with sync := .acquiring, pulseInState := false } } : State)) := by
  have answered := exec_setSync_taken h .track payload
  rwa [setSync_track_acquires leaves] at answered

end

/-! ## The obligation -/

/-- Settles O37: the parser refuses every octet but OFF and TRACK, and the time base after the taking follows from the sync
state before it. -/
theorem setSyncChangesState : Obligations.SetSyncChangesState := by
  intro f rest setting s waiting payload
  refine ⟨exec_setSync_badField waiting payload, ?track, ?off⟩
  case track =>
    rintro rfl
    refine ⟨fun acquiring => ?_, fun limit tracking => ?_, fun holdover => ?_,
      exec_setSync_track_acquires waiting payload⟩
    · simpa [acquiring, SyncState.code] using exec_setSync_track_kept waiting payload
    · simpa [tracking, SyncState.code] using exec_setSync_track_kept waiting payload
    · simpa [holdover, SyncState.code] using exec_setSync_track_kept waiting payload
  case off =>
    rintro rfl
    have answered := exec_setSync_taken waiting .off payload
    rw [setSync_off] at answered
    exact ⟨_, answered, rfl⟩

end Sys2Proof.Machine
end

section
/-! PROOF. The dispatch of a frame of an unknown kind (R181): which octets are no request's code, and the refusal of
such a frame where its dispatch goes past the first step. -/

namespace Sys2Proof.Machine

open Sys2Proof.Claims

/-! ## The octets that are no request's code -/

/-- An octet is read as no request kind exactly where it is the code of none (R181, R202). -/
theorem ofCode_eq_none_iff {o : Octet} : RequestKind.ofCode o = none ↔ ∀ k : RequestKind, o ≠ requestOctet k := by
  have listed : ∀ k : RequestKind, k ∈ RequestKind.all := by
    intro k
    cases k <;> decide
  simp only [RequestKind.ofCode, List.find?_eq_none, beq_iff_eq, requestOctet_eq_code]
  exact ⟨fun absent k same => absent k (listed k) same.symm, fun foreign k _ same => foreign k same.symm⟩

/-! ## The refusal -/

/-- The dispatch of an unknown kind, at a front that is no request's and goes past the first step, is the refusal. -/
theorem dispatchUnknown_refuses {f : Frame} {rest : List Frame} {s : State} (h : Dispatchable f rest s)
    (unknown : RequestKind.ofCode f.kind = none) :
    dispatchUnknown s = (Taken.refuse .unknownKind s.popRequest).answer f := by
  obtain ⟨running, front, slot, fresh⟩ := h
  have dispatches : dispatchUnknown s = dispatched f (.error .unknownKind) s := by
    unfold dispatchUnknown
    rw [if_pos (canDispatch_of running front slot), front]
    simp only [unknown, if_true]
    exact dispatchFrame_eq f _ _ s
  rw [dispatches, dispatched, repeatOf_fresh fresh]

/-! ## The obligation -/

/-- Settles O53: a kind that is no request's code reads as no request kind, so the front frame is dispatched to the
refusal, whose answer changes nothing but the dispatcher. -/
theorem unknownKindIsRefused : Obligations.UnknownKindIsRefused := by
  intro f rest s dispatchable foreign
  have refusal : dispatchUnknown s = replied f rest Status.unknownKind.code [] none s :=
    (dispatchUnknown_refuses dispatchable (ofCode_eq_none_iff.mpr foreign)).trans
      (answer_refuse dispatchable.front .unknownKind)
  exact congrArg Host.Outcome.next refusal

end Sys2Proof.Machine
end

section
/-! PROOF. The laws of the journal and of delivery (chapters 1 and 7): which of the part's operations touch them, and what
each of those makes of the DELIVERED records, the resend list and the engine. -/

namespace Sys2Proof.Machine

/-! ## The laws read the hold, the journal and the engine alone -/

/-- The laws stand where the hold and the engine are as they were and the same numbers are DELIVERED. -/
theorem State.DeliveryLaws.of_sameDelivered {s t : State} (h : s.DeliveryLaws) (hold : t.hold = s.hold)
    (delivery : t.delivery = s.delivery) (journal : t.journal.Laws)
    (seqs : t.journal.deliveredSeqs = s.journal.deliveredSeqs) : t.DeliveryLaws := by
  have count : t.journal.deliveredCount = s.journal.deliveredCount := by
    rw [Journal.deliveredCount_eq, Journal.deliveredCount_eq, seqs]
  obtain ⟨_, window, held, resend, engine⟩ := h
  refine ⟨journal, ?_, ?_, ?_, ?_⟩
  · simpa only [State.WindowLaw, hold, delivery, count] using window
  · simpa only [State.HoldLaw, hold, delivery, count] using held
  · simpa only [State.ResendLaw, delivery, seqs] using resend
  · rwa [delivery]

/-- The laws stand where none of the three has changed. -/
theorem State.DeliveryLaws.congr {s t : State} (h : s.DeliveryLaws) (hold : t.hold = s.hold)
    (delivery : t.delivery = s.delivery) (journal : t.journal = s.journal) : t.DeliveryLaws :=
  h.of_sameDelivered hold delivery (by rw [journal]; exact h.journal) (by rw [journal])

theorem FieldChange.deliveryLaws {s t : State} (h : FieldChange s t) (laws : s.DeliveryLaws) : t.DeliveryLaws :=
  laws.of_sameDelivered h.hold h.delivery (h.laws laws.journal) h.deliveredSeqs

theorem TimeChange.deliveryLaws {s t : State} (h : TimeChange s t) (laws : s.DeliveryLaws) : t.DeliveryLaws :=
  laws.of_sameDelivered h.hold h.delivery (h.laws laws.journal) h.deliveredSeqs

theorem ReceptionChange.deliveryLaws {s t : State} (h : ReceptionChange s t) (laws : s.DeliveryLaws) : t.DeliveryLaws :=
  laws.congr h.hold h.delivery h.journal

/-! ## Delivery that begins again -/

theorem Delivery.powerOn_engineLaw : Delivery.powerOn.EngineLaw := by
  refine ⟨by decide, by decide, by decide, by decide, fun timer h => by cases h⟩

section
variable {d : DeliverySettings} (h : d.wellFormed = true)
include h

theorem window_le : d.window ≤ 16 := by
  simp only [DeliverySettings.wellFormed, Bool.and_eq_true, decide_eq_true_eq] at h
  omega

theorem interval_pos : 1 ≤ d.interval := by
  simp only [DeliverySettings.wellFormed, Bool.and_eq_true, decide_eq_true_eq] at h
  omega

theorem retryLimit_pos : 1 ≤ d.retryLimit := by
  simp only [DeliverySettings.wellFormed, Bool.and_eq_true, decide_eq_true_eq] at h
  omega

end

theorem Delivery.EngineLaw.restarted {d : Delivery} (wellFormed : d.settings.wellFormed = true) :
    d.restarted.EngineLaw :=
  ⟨wellFormed, fun _ => retryLimit_pos wellFormed, by rintro ⟨⟩, fun _ => ⟨rfl, rfl⟩, by rintro timer ⟨⟩⟩

/-- With nothing DELIVERED and nothing to resend only the engine is left to look at. -/
theorem State.DeliveryLaws.of_nothingDelivered {t : State} (journal : t.journal.Laws)
    (none : t.journal.deliveredSeqs = []) (resend : t.delivery.resend = []) (engine : t.delivery.EngineLaw)
    (held : t.hold ≠ .running → t.delivery = .powerOn) : t.DeliveryLaws := by
  have count : t.journal.deliveredCount = 0 := by rw [Journal.deliveredCount_eq, none, List.length_nil]
  refine ⟨journal, ?_, ⟨held, fun _ => count⟩, ?_, engine⟩
  · simp [State.WindowLaw, count]
  · simp [State.ResendLaw, resend]

/-- A held part that takes its power-on delivery again has it already. -/
theorem Delivery.restarted_powerOn : Delivery.powerOn.restarted = .powerOn := rfl

/-- A start returns every DELIVERED record to PENDING before its RESTART record arrives (R22). -/
theorem Journal.deliveredSeqs_returnAll_arrive (j : Journal) (now : Stamp) (r : Draft) :
    (j.returnAll.arrive now r).deliveredSeqs = [] := by
  rw [Journal.deliveredSeqs_arrive, Journal.deliveredSeqs_returnAll]

theorem Journal.powerOn_laws : Journal.powerOn.Laws := by
  refine ⟨Nat.zero_le _, .nil, trivial, ?_⟩
  simp [Journal.GapLaw, Journal.powerOn]

/-! ## Starts -/

theorem powerOn_deliveryLaws (level : Level) (s : State) : (powerOn level s).DeliveryLaws := by
  cases level <;>
    exact .of_nothingDelivered Journal.powerOn_laws rfl rfl Delivery.powerOn_engineLaw fun _ => rfl

/-- What the assertion of the RESET line leaves of a running part, block by block (R191). -/
theorem resetAssertion_of_running {s : State} (running : s.hold = .running) :
    resetAssertion s = { s with
      hold := .held false
      front := s.front.assertReset
      watches := fullStartWatches s.watches
      outputs := Vector.ofFn Output.default
      time := s.time.fullStart
      delivery := .powerOn
      link := { s.link.fullStart with line := .free }
      dispatcher := s.dispatcher.emptied
      announcer := { s.announcer with due := .none, timer := none }
      moment := .fresh } := by
  simp only [resetAssertion, running, State.fullStartBlocks]

theorem resetAssertion_same_or_running (s : State) : resetAssertion s = s ∨ s.hold = .running := by
  cases hold : s.hold with
  | running => exact .inr rfl
  | held fromPowerOn =>
    rw [resetAssertion, hold]
    exact .inl rfl

theorem State.DeliveryLaws.resetAssertion {s : State} (h : s.DeliveryLaws) :
    (Machine.resetAssertion s).DeliveryLaws := by
  obtain same | running := resetAssertion_same_or_running s
  · rw [same]
    exact h
  · rw [resetAssertion_of_running running]
    exact ⟨h.journal, ⟨h.window.1, by rintro ⟨⟩, fun _ running => by cases running⟩,
      ⟨fun _ => rfl, fun fromPowerOn => by cases fromPowerOn⟩, ⟨List.nil_sublist _, fun resend => absurd rfl resend⟩,
      Delivery.powerOn_engineLaw⟩

theorem State.DeliveryLaws.resetRelease {s : State} (h : s.DeliveryLaws) : (Machine.resetRelease s).DeliveryLaws := by
  unfold Machine.resetRelease
  split
  case h_1 running => exact h
  case h_2 fromPowerOn =>
    have count := h.hold.2 fromPowerOn
    have delivery := h.hold.1 (by simp [fromPowerOn])
    refine .of_nothingDelivered h.journal ?_ ?_ h.engine fun hold => absurd rfl hold
    · rwa [Journal.deliveredCount_eq, List.length_eq_zero_iff] at count
    · show s.delivery.resend = []
      rw [delivery]
      rfl
  case h_3 fromRunning =>
    have delivery := h.hold.1 (by simp [fromRunning])
    refine .of_nothingDelivered (h.journal.returnAll.arrive _ _) (Journal.deliveredSeqs_returnAll_arrive ..) ?_ h.engine
      fun hold => absurd rfl hold
    show s.delivery.resend = []
    rw [delivery]
    rfl

theorem State.DeliveryLaws.restartFull {s : State} (h : s.DeliveryLaws) : (Machine.restartFull s).DeliveryLaws := by
  rw [restartFull_eq]
  exact .of_nothingDelivered (h.journal.returnAll.arrive _ _) (Journal.deliveredSeqs_returnAll_arrive ..) rfl
    Delivery.powerOn_engineLaw fun _ => rfl

theorem State.DeliveryLaws.restartLink {s : State} (h : s.DeliveryLaws) : (Machine.restartLink s).DeliveryLaws := by
  refine .of_nothingDelivered h.journal.returnAll (Journal.deliveredSeqs_returnAll _) rfl (.restarted h.engine.1)
    fun hold => ?_
  show s.delivery.restarted = .powerOn
  rw [h.hold.1 hold, Delivery.restarted_powerOn]

/-! ## The retransmit timer -/

theorem Countdown.tick_left_range {c : Countdown} {n : Nat} (h : 1 ≤ c.left ∧ c.left ≤ n) :
    1 ≤ c.tick.left ∧ c.tick.left ≤ n := by
  unfold Countdown.tick
  split <;> dsimp only <;> omega

theorem State.DeliveryLaws.advance {s : State} (h : s.DeliveryLaws) (pins : LineMap) (sync : Level) :
    (Machine.advance pins sync s).DeliveryLaws := by
  obtain ⟨journal, window, ⟨held, fromPowerOn⟩, resend, ⟨wellFormed, running, stalled, polled, timer⟩⟩ := h
  refine ⟨journal, window, ⟨fun hold => ?_, fromPowerOn⟩, resend, ⟨wellFormed, running, stalled, polled, ?_⟩⟩
  · show { s.delivery with timer := s.delivery.timer.map Countdown.tick } = Delivery.powerOn
    rw [held hold]
    rfl
  · intro c hc
    obtain ⟨before, hb, rfl⟩ := Option.map_eq_some_iff.mp hc
    obtain ⟨mode, state, range⟩ := timer before hb
    exact ⟨mode, state, Countdown.tick_left_range range⟩

/-- Where the engine is at its power-on values, no timer of it is due. -/
theorem State.HoldLaw.running_of_due {s : State} (h : s.HoldLaw) (due : isDue s.delivery.timer = true) :
    s.hold = .running := by
  by_contra hold
  rw [h.1 hold] at due
  cases due

theorem State.DeliveryLaws.retransmitExpiry {s : State} (h : s.DeliveryLaws) :
    (Machine.retransmitExpiry s).DeliveryLaws := by
  unfold Machine.retransmitExpiry
  split
  case isFalse => exact h
  case isTrue due =>
    have running := h.hold.running_of_due due
    obtain ⟨journal, window, -, resend, ⟨wellFormed, retries, stalled, polled, timer⟩⟩ := h
    obtain ⟨c, hc⟩ : ∃ c, s.delivery.timer = some c := by
      cases hc : s.delivery.timer with
      | none => simp [hc, isDue] at due
      | some c => exact ⟨c, rfl⟩
    obtain ⟨stream, state, -⟩ := timer c hc
    have below := retries state
    have notHeld : ∀ d : Delivery, State.HoldLaw { s with delivery := d } := fun d =>
      ⟨fun hold => absurd running hold, fun hold => by cases running.symm.trans hold⟩
    dsimp only
    split
    · exact ⟨journal, window, notHeld _, resend, ⟨wellFormed, retries, stalled, polled, fun _ none => by cases none⟩⟩
    · split
      case isTrue limit =>
        refine ⟨journal, window, notHeld _, ⟨List.nil_sublist _, fun resend => absurd rfl resend⟩,
          ⟨wellFormed, by rintro ⟨⟩, fun _ => ?_, fun mode => ?_, fun _ none => by cases none⟩⟩
        · show s.delivery.retry + 1 = s.delivery.settings.retryLimit
          omega
        · cases stream.symm.trans mode
      case isFalse limit =>
        refine ⟨journal, window, notHeld _, ⟨List.Sublist.refl _, fun _ => ⟨stream, state⟩⟩,
          ⟨wellFormed, fun _ => ?_, fun still => ?_, fun mode => ?_, fun _ none => by cases none⟩⟩
        · show s.delivery.retry + 1 < s.delivery.settings.retryLimit
          omega
        · cases state.symm.trans still
        · cases stream.symm.trans mode

theorem Delivery.EngineLaw.reportLeft {d : Delivery} (h : d.EngineLaw) : d.reportLeft.EngineLaw := by
  unfold Delivery.reportLeft
  split
  case isFalse => exact h
  case isTrue loads =>
    obtain ⟨wellFormed, running, stalled, polled, -⟩ := h
    refine ⟨wellFormed, running, stalled, polled, fun timer ht => ?_⟩
    cases ht
    exact ⟨loads.1, loads.2, interval_pos wellFormed, Nat.le_refl _⟩

theorem State.DeliveryLaws.reportLeft {s : State} (h : s.DeliveryLaws) :
    State.DeliveryLaws { s with delivery := s.delivery.reportLeft } := by
  have engine := h.engine.reportLeft
  have kept : s.delivery.reportLeft = { s.delivery with timer := s.delivery.reportLeft.timer } := by
    unfold Delivery.reportLeft
    split <;> rfl
  refine ⟨h.journal, ?_, ⟨fun hold => ?_, h.hold.2⟩, ?_, engine⟩
  · show State.WindowLaw _
    rw [kept]
    exact h.window
  · show s.delivery.reportLeft = .powerOn
    rw [h.hold.1 hold]
    rfl
  · rw [kept]
    exact h.resend

theorem State.DeliveryLaws.frameLeaves {s : State} (h : s.DeliveryLaws) (source : TxSource) :
    (Machine.frameLeaves source s).DeliveryLaws := by
  have effect : (leavingEffect source s).DeliveryLaws := by
    obtain e | ⟨settings, e⟩ | e | e | e := leavingEffect_cases source s <;> rw [e]
    · exact h
    · exact (switchLink_change settings s).deliveryLaws h
    · exact h.restartFull
    · exact h.restartLink
    · exact h.reportLeft
  exact effect.congr rfl rfl rfl

/-! ## Records that are handed over -/

theorem Journal.deliveredCount_markFirst {j : Journal} (h : j.OrderLaw) (n : Nat) :
    (j.markFirst n).deliveredCount = max j.deliveredCount (min n j.heldCount) := by
  rw [Journal.deliveredCount_eq, Journal.deliveredSeqs_markFirst h, List.length_map, List.length_take]
  have : j.deliveredCount ≤ j.heldCount := List.countP_le_length
  simp only [Journal.heldCount] at this ⊢
  omega

/-- Marking more records keeps those that are DELIVERED in front (R9). -/
theorem Journal.deliveredSeqs_sublist_markFirst {j : Journal} (h : j.OrderLaw) (n : Nat) :
    j.deliveredSeqs.Sublist (j.markFirst n).deliveredSeqs := by
  have before : j.deliveredSeqs = (j.held.take j.deliveredCount).map (·.seq) :=
    congrArg (List.map Held.seq) (filter_delivered_eq_take h)
  rw [before, Journal.deliveredSeqs_markFirst h]
  exact (List.take_sublist_take_left (Nat.le_max_left _ _)).map _

theorem State.reportWaits_iff (s : State) :
    s.reportWaits = true ↔
      s.hold = .running ∧ s.link.line = .free ∧ s.dispatcher.replies = [] ∧ s.announcer.due = .none
        ∧ s.reportReady = true := by
  cases hold : s.hold <;> simp [State.reportWaits, State.lineFree, State.isHeld, hold, and_assoc]

theorem State.stream_of_reportReady {s : State} (h : s.reportReady = true) :
    s.delivery.settings.mode = .stream ∧ s.delivery.state = .running := by
  simp only [State.reportReady, Bool.and_eq_true, decide_eq_true_eq] at h
  exact h.1.1

theorem State.DeliveryLaws.reportHandOver {s : State} (h : s.DeliveryLaws) :
    (Machine.reportHandOver s).DeliveryLaws := by
  unfold Machine.reportHandOver
  split
  case isFalse => exact h
  case isTrue waits =>
    obtain ⟨running, -, -, -, ready⟩ := s.reportWaits_iff.mp waits
    obtain ⟨stream, state⟩ := State.stream_of_reportReady ready
    have notHeld : ∀ t : State, t.hold = s.hold → t.HoldLaw := fun t same =>
      ⟨fun hold => absurd (same.trans running) hold, fun hold => by cases (same.trans running).symm.trans hold⟩
    have notPolled : s.delivery.settings.mode ≠ .polled := by simp [stream]
    dsimp only
    split
    case isTrue none =>
      have marked := markPending_eq h.journal.order s.newReportSize
      have count := Journal.deliveredCount_markFirst h.journal.order (s.journal.deliveredCount + s.newReportSize)
      have within := h.window.2.1 stream
      have size : s.newReportSize ≤ s.delivery.settings.window - s.journal.deliveredCount := by
        unfold State.newReportSize
        omega
      have limit := window_le h.engine.1
      refine ⟨?_, ⟨?_, fun _ => ?_, fun mode => absurd mode notPolled⟩, notHeld _ rfl, ⟨?_, ?_⟩, h.engine⟩
      · show Journal.Laws { s.journal with held := _ }
        rw [marked]
        exact h.journal.markFirst _
      · show Journal.deliveredCount { s.journal with held := _ } ≤ _
        rw [marked]
        omega
      · show Journal.deliveredCount { s.journal with held := _ } ≤ s.delivery.settings.window
        rw [marked]
        omega
      · show (s.delivery.resend.drop _).Sublist _
        simp [none]
      · show s.delivery.resend.drop _ ≠ [] → _
        simp [none]
    case isFalse some =>
      exact ⟨h.journal, h.window, notHeld _ rfl, ⟨(List.drop_sublist _ _).trans h.resend.1, fun _ => ⟨stream, state⟩⟩,
        h.engine⟩

/-! ## Requests -/

theorem parseFetch_le {payload : List Octet} {n : Nat} (h : parseFetch payload = .ok n) : n ≤ 8 := by
  unfold parseFetch at h
  split at h
  case h_1 maximum =>
    unfold inRange at h
    split at h
    case isTrue fits =>
      cases h
      simp only [fetchMaximumInRange, Bool.and_eq_true, decide_eq_true_eq] at fits
      exact fits.2
    case isFalse => cases h
  case h_2 => cases h

theorem parseSetDelivery_wellFormed {payload : List Octet} {r : DeliverySettings}
    (h : parseSetDelivery payload = .ok r) : r.wellFormed = true := by
  unfold parseSetDelivery at h
  split at h
  case h_1 =>
    split at h
    case h_1 =>
      unfold inRange at h
      split at h
      case isTrue fits => cases h; exact fits
      case isFalse => cases h
    case h_2 => cases h
  case h_2 => cases h

/-- Of a list without repetition, the entries that a sublist has are the sublist. -/
theorem filter_contains_of_sublist {α : Type} [BEq α] [LawfulBEq α] {xs ys : List α} (h : xs.Sublist ys)
    (nodup : ys.Nodup) : ys.filter xs.contains = xs := by
  have kept : xs.Sublist (ys.filter xs.contains) := by
    have := h.filter xs.contains
    rwa [List.filter_eq_self.mpr fun a ha => by simpa using ha] at this
  refine (kept.eq_of_length_le ?_).symm
  exact ((nodup.filter _).subperm fun a ha => by simpa using (List.mem_filter.mp ha).2).length_le

theorem Delivery.EngineLaw.acknowledged {d : Delivery} (wellFormed : d.settings.wellFormed = true) (j : Journal) :
    (d.acknowledged j).EngineLaw := by
  refine ⟨wellFormed, fun _ => retryLimit_pos wellFormed, by rintro ⟨⟩, fun _ => ⟨rfl, rfl⟩, fun timer ht => ?_⟩
  simp only [Delivery.acknowledged] at ht
  split at ht
  case h_1 => cases ht
  case h_2 stream =>
    split at ht
    case isTrue => cases ht
    case isFalse =>
      cases ht
      exact ⟨stream, rfl, interval_pos wellFormed, Nat.le_refl _⟩

section
variable {s : State} (h : s.DeliveryLaws) (running : s.hold = .running)
include h running

theorem State.DeliveryLaws.takeFetch {n : Nat} (maximum : n ≤ 8) : (Machine.takeFetch n s).state.DeliveryLaws := by
  unfold Machine.takeFetch
  split
  case h_1 stream => exact h
  case h_2 polled =>
    have count := Journal.deliveredCount_markFirst h.journal.order n
    have within := h.window.2.2 polled running
    have notStream : s.delivery.settings.mode ≠ .stream := by simp [polled]
    refine ⟨h.journal.markFirst n, ⟨?_, fun mode => absurd mode notStream, fun _ _ => ?_⟩,
      ⟨fun hold => absurd running hold, fun hold => by cases running.symm.trans hold⟩,
      ⟨h.resend.1.trans (Journal.deliveredSeqs_sublist_markFirst h.journal.order n), h.resend.2⟩, h.engine⟩
    · show (s.journal.markFirst n).deliveredCount ≤ 16
      omega
    · show (s.journal.markFirst n).deliveredCount ≤ 8
      omega

theorem State.DeliveryLaws.takeAck (n : SeqNo) : (Machine.takeAck n s).state.DeliveryLaws := by
  unfold Machine.takeAck
  split
  case isFalse => exact h
  case isTrue named =>
    have fewer : (s.journal.removeThrough s.time.now n).deliveredSeqs.Sublist s.journal.deliveredSeqs := by
      rw [Journal.deliveredSeqs_removeThrough]
      exact (((List.drop_sublist _ _).filter _).map _)
    have count : (s.journal.removeThrough s.time.now n).deliveredCount ≤ s.journal.deliveredCount := by
      rw [Journal.deliveredCount_eq, Journal.deliveredCount_eq]
      exact fewer.length_le
    obtain ⟨journal, ⟨window, stream, polled⟩, -, resend, ⟨wellFormed, -, -, -, -⟩⟩ := h
    refine ⟨journal.removeThrough _ n, ⟨count.trans window, fun mode => count.trans (stream mode),
        fun mode hold => count.trans (polled mode hold)⟩,
      ⟨fun hold => absurd running hold, fun hold => by cases running.symm.trans hold⟩, ⟨?_, fun some => ?_⟩, ?_⟩
    · have entries := resend.1.filter (s.journal.removeThrough s.time.now n).deliveredSeqs.contains
      rwa [filter_contains_of_sublist fewer journal.deliveredSeqs_nodup] at entries
    · exact ⟨(resend.2 fun none => some (congrArg (List.filter _) none)).1, rfl⟩
    · exact .acknowledged wellFormed _

theorem State.DeliveryLaws.takeSetDelivery {settings : DeliverySettings} (wellFormed : settings.wellFormed = true) :
    (Machine.takeSetDelivery settings s).state.DeliveryLaws :=
  .of_nothingDelivered h.journal.returnAll (Journal.deliveredSeqs_returnAll _) rfl (.restarted wellFormed)
    fun hold => absurd running hold

theorem State.DeliveryLaws.takeResume : (Machine.takeResume s).state.DeliveryLaws := by
  unfold Machine.takeResume
  split
  case h_1 => exact h
  case h_2 stalled =>
    obtain ⟨journal, window, -, -, ⟨wellFormed, -, -, polled, timer⟩⟩ := h
    have stream : s.delivery.settings.mode = .stream := by
      cases mode : s.delivery.settings.mode with
      | stream => rfl
      | polled => cases stalled.symm.trans (polled mode).1
    exact ⟨journal, window, ⟨fun hold => absurd running hold, fun hold => by cases running.symm.trans hold⟩,
      ⟨.refl _, fun _ => ⟨stream, rfl⟩⟩,
      ⟨wellFormed, fun _ => retryLimit_pos wellFormed, by rintro ⟨⟩, fun mode => ⟨rfl, rfl⟩,
        fun c hc => by cases stalled.symm.trans (timer c hc).2.1⟩⟩

theorem State.DeliveryLaws.takeClearJournal : (Machine.takeClearJournal s).state.DeliveryLaws :=
  .of_nothingDelivered h.journal.clear (Journal.deliveredSeqs_clear _) rfl h.engine fun hold => absurd running hold

end

/-- An owning block of a running part keeps the laws. -/
theorem serve_deliveryLaws {k : RequestKind} {payload : List Octet} {s : State} {taken : Taken}
    (h : s.DeliveryLaws) (running : s.hold = .running) (served : serve k payload s = .ok taken) :
    taken.state.DeliveryLaws := by
  cases k <;> obtain ⟨a, parsed, rfl⟩ := map_ok served
  case configureLines => exact (takeConfigureLines_change a s).deliveryLaws h
  case setWatch => exact (takeSetWatch_change a s).deliveryLaws h
  case enableWatch => exact (takeEnableWatch_change a s).deliveryLaws h
  case disableWatch => exact (takeDisableWatch_change a s).deliveryLaws h
  case rearmWatch => exact (takeRearmWatch_change a s).deliveryLaws h
  case driveOutput => exact (takeDriveOutput_change a s).deliveryLaws h
  case setOutputFunction => exact (takeSetOutputFunction_change a s).deliveryLaws h
  case setTime => exact (takeSetTime_change a s).deliveryLaws h
  case setTimeAtPulse => exact (takeSetTimeAtPulse_change a s).deliveryLaws h
  case setSync => exact (takeSetSync_change a s).deliveryLaws h
  case configureTime => exact (takeConfigureTime_change a s).deliveryLaws h
  case fetch => exact h.takeFetch running (parseFetch_le parsed)
  case ack => exact h.takeAck running a
  case setDelivery => exact h.takeSetDelivery running (parseSetDelivery_wellFormed parsed)
  case resume => exact h.takeResume running
  case clearJournal => exact h.takeClearJournal running
  case linkStatus => exact h.congr rfl rfl rfl
  case identify | setLink | restart | readLines | queryWatch | readOutputs | readTime | journalStatus => exact h

theorem State.running_of_canDispatch (s : State) (h : s.canDispatch = true) : s.hold = .running := by
  cases hold : s.hold <;> simp [State.canDispatch, State.isHeld, hold] at h ⊢

/-! ## The obligation -/

theorem deliveryLaws_keeps : Keeps State.DeliveryLaws where
  choice _ _ h := h.congr rfl rfl rfl
  moment _ _ h := h.congr rfl rfl rfl
  advance pins sync _ h := h.advance pins sync
  powerOn level s _ := powerOn_deliveryLaws level s
  resetAssertion _ h := h.resetAssertion
  resetRelease _ h := h.resetRelease
  takeSample s _ h := (takeSample_change s).deliveryLaws h
  qualifyExpiry w s h := (qualifyExpiry_change w s).deliveryLaws h
  watchPulseEnd w s h := (watchPulseEnd_change w s).deliveryLaws h
  hostPulseEnd o s h := (hostPulseEnd_change o s).deliveryLaws h
  pulse s _ h := (withTime_change s _).deliveryLaws h
  arrive s r h := (arrive_change s r).deliveryLaws h
  armDeadlineExpiry s h := (armDeadlineExpiry_change s).deliveryLaws h
  missedPulseExpiry s h := (missedPulseExpiry_change s).deliveryLaws h
  retransmitExpiry _ h := h.retransmitExpiry
  takeOctet data parity stop s h := (takeOctet_change data parity stop s).deliveryLaws h
  frameArrives f s h := (frameArrives_change f s).deliveryLaws h
  abandonFrame s h := (abandonFrame_change s).deliveryLaws h
  foundStart confirmed s h := (foundStart_change confirmed s).deliveryLaws h
  replyHandOver s h := (replyHandOver_change s).deliveryLaws h
  startNoticeHandOver s h := (startNoticeHandOver_change s).deliveryLaws h
  reportHandOver _ h := h.reportHandOver
  frameLeaves source _ h := h.frameLeaves source
  repetitionTimerExpiry s h := (repetitionTimerExpiry_change s).deliveryLaws h
  request _ f _ s _ can h :=
    dispatched_keeps State.DeliveryLaws (fun _ _ h => h.congr rfl rfl rfl) f _ s h fun _ served =>
      serve_deliveryLaws (s := s.popRequest) (h.congr rfl rfl rfl) (s.running_of_canDispatch can) served
  unknown f _ s _ _ h :=
    dispatched_keeps State.DeliveryLaws (fun _ _ h => h.congr rfl rfl rfl) f _ s h fun _ served => by cases served

/-- Settles O57: every operation of the part keeps the laws, those outside the journal and the engine because the laws do not
read what they change. -/
theorem stepKeepsDeliveryLaws : Obligations.StepKeepsDeliveryLaws := fun _ _ h stepped =>
  deliveryLaws_keeps.step (fun _ _ h => h.congr rfl rfl rfl) h stepped

end Sys2Proof.Machine
end

section
/-! PROOF. The law of ownership (R46, R87, R89), and the laws of chains and of qualified dependents (R52, R57, R69): what each
operation that touches the watch table or the outputs makes of them. -/

namespace Sys2Proof.Machine

/-! ## Operations that leave the watches, or the watches and the outputs, alone -/

theorem reportHandOver_watches (s : State) : (reportHandOver s).watches = s.watches := by
  unfold reportHandOver
  split <;> rfl

theorem reportHandOver_outputs (s : State) : (reportHandOver s).outputs = s.outputs := by
  unfold reportHandOver
  split <;> rfl

theorem retransmitExpiry_eq (s : State) : retransmitExpiry s = { s with delivery := (retransmitExpiry s).delivery } := by
  unfold retransmitExpiry
  dsimp only
  split
  · split
    · rfl
    · split <;> rfl
  · rfl

theorem resetRelease_watches (s : State) : (resetRelease s).watches = s.watches := by
  unfold resetRelease
  split <;> rfl

theorem resetRelease_outputs (s : State) : (resetRelease s).outputs = s.outputs := by
  unfold resetRelease
  split <;> rfl

/-- The requests that act on lines, watches and outputs (chapters 2 to 5). -/
def RequestKind.actsOnField : RequestKind → Bool
  | .configureLines | .setWatch | .enableWatch | .disableWatch | .rearmWatch | .driveOutput | .setOutputFunction => true
  | _ => false

theorem serve_watches_outputs {k : RequestKind} {payload : List Octet} {s : State} {taken : Taken}
    (served : serve k payload s = .ok taken) (other : RequestKind.actsOnField k = false) :
    taken.state.watches = s.watches ∧ taken.state.outputs = s.outputs := by
  cases k <;> obtain ⟨a, -, rfl⟩ := map_ok served
  case configureLines | setWatch | enableWatch | disableWatch | rearmWatch | driveOutput | setOutputFunction => cases other
  case setTime => exact ⟨(takeSetTime_change a s).watches, (takeSetTime_change a s).outputs⟩
  case fetch => unfold takeFetch; split <;> exact ⟨rfl, rfl⟩
  case ack => unfold takeAck; split <;> exact ⟨rfl, rfl⟩
  case resume => unfold takeResume; split <;> exact ⟨rfl, rfl⟩
  all_goals exact ⟨rfl, rfl⟩

theorem parseSetWatch_wellFormed {payload : List Octet} {r : SetWatch} (h : parseSetWatch payload = .ok r) :
    r.wellFormed = true := by
  have definition : ∀ {octets d}, parseDefinition octets = .ok d → d.wellFormed = true := by
    intro octets d h
    unfold parseDefinition at h
    split at h
    case h_1 =>
      split at h
      case h_1 =>
        dsimp only [inRange] at h
        split at h
        case isTrue fits => cases h; exact fits
        case isFalse => cases h
      case h_2 => cases h
    case h_2 => cases h
  unfold parseSetWatch at h
  split at h
  case h_1 =>
    split at h
    case h_1 => cases h; rfl
    case h_2 => cases h
  case h_2 =>
    split at h
    case isTrue =>
      split at h
      case h_1 parsed => cases h; exact definition parsed
      case h_2 => cases h
    case isFalse => cases h
  case h_3 => cases h

theorem parseDriveOutput_wellFormed {payload : List Octet} {r : DriveOutput} (h : parseDriveOutput payload = .ok r) :
    r.wellFormed = true := by
  unfold parseDriveOutput at h
  split at h
  case h_1 =>
    split at h
    case h_1 =>
      unfold inRange at h
      split at h
      case isTrue fits => cases h; exact fits
      case isFalse => cases h
    case h_2 => cases h
  case h_2 => cases h

theorem parseSetOutputFunction_wellFormed {payload : List Octet} {r : SetOutputFunction}
    (h : parseSetOutputFunction payload = .ok r) : r.wellFormed = true := by
  unfold parseSetOutputFunction at h
  split at h
  case h_1 =>
    split at h
    case h_1 =>
      unfold inRange at h
      split at h
      case isTrue fits => cases h; exact fits
      case isFalse => cases h
    case h_2 => cases h
  case h_2 => cases h

/-! ## The law of ownership -/

theorem Owned.congr {ws vs : Vector Watch 16} {os ps : Vector Output 8} (h : Owned ws os) (watches : vs = ws)
    (outputs : ps = os) : Owned vs ps := by
  rwa [watches, outputs]

/-- Without definitions and with no watch as owner, only the functions of O6 and O7 are left. -/
theorem Owned.default {ws : Vector Watch 16}
    (absent : ∀ w : Fin 16, ws[w].definition = none ∧ ws[w].state = .disabled) :
    Owned ws (Vector.ofFn Output.default) := by
  refine ⟨fun w => ⟨fun _ => (absent w).2, fun d hd => by cases (absent w).1.symm.trans hd⟩, fun o => ?_⟩
  rw [getElem_ofFn_fin]
  unfold Output.default
  dsimp only
  split
  case isTrue last => exact last
  case isFalse => trivial

theorem Owned.fullStart (ws : Vector Watch 16) : Owned (fullStartWatches ws) (Vector.ofFn Output.default) :=
  .default fun w => by simp

theorem Owned.powerOn (level : Level) (s : State) : Owned (Machine.powerOn level s).watches (Machine.powerOn level s).outputs := by
  rw [powerOn_watches, powerOn_outputs]
  exact .default fun w => by rw [getElem_ofFn_fin]; exact ⟨rfl, rfl⟩

theorem WatchState.tick_isTripped (x : WatchState) : x.tick.isTripped = x.isTripped := by
  cases x <;> rfl

theorem WatchState.tick_eq_disabled {x : WatchState} : x.tick = .disabled ↔ x = .disabled := by
  cases x <;> simp [WatchState.tick]

/-- A tick leaves every timer between 1 and where it stood. -/
theorem Countdown.one_le_tick {c : Countdown} (h : 1 ≤ c.left) : 1 ≤ c.tick.left ∧ c.tick.left ≤ c.left :=
  Countdown.tick_left_range ⟨h, Nat.le_refl _⟩

theorem Owned.deliver {k : Work} (h : Owned k.state.watches k.state.outputs) (edges : List Edge) :
    Owned (Machine.deliver edges k).state.watches (Machine.deliver edges k).state.outputs := Owned.run h

theorem releaseAll_cases (w : Fin 16) (s : State) (o : Fin 8) :
    (releaseAll w s).outputs[o].owner = .host none
      ∨ (releaseAll w s).outputs[o].owner = s.outputs[o].owner ∧ s.outputs[o].owner.watch ≠ some w := by
  obtain released | ⟨kept, other⟩ := releaseWhere_cases (fun owner => decide (owner.watch = some w)) s o
  · exact .inl released
  · exact .inr ⟨kept, of_decide_eq_false other⟩

/-- What a SET_WATCH leads to: the state as it was, or that of a DISABLED watch with a definition made absent or one whose
chains pass the check (R59 to R61). -/
theorem takeSetWatch_cases (r : SetWatch) (s : State) :
    (takeSetWatch r s).state = s
      ∨ s.watches[r.watch].state = .disabled ∧ (∀ d, r.definition = some d → s.chainsEnd r.watch d = true)
        ∧ (takeSetWatch r s).state = s.setWatch r.watch { s.watches[r.watch] with definition := r.definition } := by
  unfold takeSetWatch
  split
  case isTrue => exact .inl rfl
  case isFalse disabled =>
    split
    case h_1 absent => exact .inr ⟨not_not.mp disabled, (by simp [absent]), by rw [absent]; rfl⟩
    case h_2 d present =>
      split
      case isTrue ends =>
        refine .inr ⟨not_not.mp disabled, fun d' same => ?_, by rw [present]; rfl⟩
        cases present.symm.trans same
        exact ends
      case isFalse => exact .inl rfl

/-- A qualify expiry that comes about is a trip with what follows from it. -/
theorem qualifyExpiry_cases (w : Fin 16) (s : State) :
    qualifyExpiry w s = s
      ∨ ∃ onset timer, s.watches[w].state = .qualifying onset timer ∧ timer.due = true
        ∧ qualifyExpiry w s
          = ((trip w onset { state := s, sent := [] }).1.run (trip w onset { state := s, sent := [] }).2).finish := by
  unfold qualifyExpiry
  split
  case h_1 onset timer qualifying =>
    split
    case isTrue due => exact .inr ⟨onset, timer, qualifying, due, rfl⟩
    case isFalse => exact .inl rfl
  case h_2 => exact .inl rfl

section
variable {s : State} (h : Owned s.watches s.outputs)
include h

theorem Owned.advance (pins : LineMap) (sync : Level) :
    Owned (Machine.advance pins sync s).watches (Machine.advance pins sync s).outputs := by
  have watch : ∀ w : Fin 16,
      (Machine.advance pins sync s).watches[w] = { s.watches[w] with state := s.watches[w].state.tick } :=
    fun w => getElem_ofFn_fin _ w
  have output : ∀ o : Fin 8, (Machine.advance pins sync s).outputs[o].owner = s.outputs[o].owner.tick :=
    fun o => congrArg Output.owner (getElem_ofFn_fin _ o)
  refine ⟨fun w => ?_, fun o => ?_⟩
  · rw [watch]
    exact ⟨fun absent => WatchState.tick_eq_disabled.mpr ((h.defined w).1 absent), (h.defined w).2⟩
  · have fits := h.fits o
    rw [output]
    generalize s.outputs[o].owner = owner at fits
    rcases owner with (_ | p) | ⟨w, level⟩ | ⟨w, p⟩ | (_ | _)
    · trivial
    · exact (Countdown.one_le_tick fits).1
    · simp only [Owner.tick, FitsTable] at fits ⊢
      rwa [watch, WatchState.tick_isTripped]
    · obtain ⟨enabled, one, d, duration, hd, action, left⟩ := fits
      have ticked := Countdown.one_le_tick one
      refine ⟨?_, ticked.1, d, duration, ?_, action, ticked.2.trans left⟩
      · rw [watch]
        exact fun disabled => enabled (WatchState.tick_eq_disabled.mp disabled)
      · rwa [watch]
    · simpa only [Owner.tick, FitsTable] using fits
    · simpa only [Owner.tick, FitsTable] using fits

theorem Owned.resetAssertion : Owned (Machine.resetAssertion s).watches (Machine.resetAssertion s).outputs := by
  obtain same | running := resetAssertion_same_or_running s
  · rw [same]
    exact h
  · rw [resetAssertion_of_running running]
    exact .fullStart _

theorem Owned.takeSample : Owned (Machine.takeSample s).watches (Machine.takeSample s).outputs := by
  unfold Machine.takeSample
  split
  · exact h
  · exact (Owned.deliver (k := ⟨s.sampled, _⟩) (h.congr (sampled_watches s) (sampled_outputs s)) _).finish

theorem Owned.qualifyExpiry (w : Fin 16) :
    Owned (Machine.qualifyExpiry w s).watches (Machine.qualifyExpiry w s).outputs := by
  obtain e | ⟨onset, timer, -, -, e⟩ := qualifyExpiry_cases w s <;> rw [e]
  · exact h
  · have tripped := Owned.trip (w := w) (onset := onset) (k := { state := s, sent := [] }) h
    exact (Owned.run (k := (Machine.trip w onset { state := s, sent := [] }).1) tripped).finish

theorem Owned.hostPulseEnd (o : Fin 8) : Owned (Machine.hostPulseEnd o s).watches (Machine.hostPulseEnd o s).outputs := by
  unfold Machine.hostPulseEnd
  split
  · exact h.setOwner trivial
  · exact h

theorem Owned.frameLeaves (source : TxSource) :
    Owned (Machine.frameLeaves source s).watches (Machine.frameLeaves source s).outputs := by
  show Owned (leavingEffect source s).watches (leavingEffect source s).outputs
  obtain e | ⟨settings, e⟩ | e | e | e := leavingEffect_cases source s <;> rw [e]
  · exact h
  · exact h.congr (switchLink_change settings s).watches (switchLink_change settings s).outputs
  · exact .fullStart _
  · exact h
  · exact h

/-! ### Requests -/

theorem Owned.evaluateAtTaking (w : Fin 16) (before : List Task) :
    Owned (Machine.evaluateAtTaking w before s).watches (Machine.evaluateAtTaking w before s).outputs :=
  (Owned.run (Owned.run h)).finish

/-- A DISABLED watch owns nothing. -/
theorem Owned.not_owner {w : Fin 16} (disabled : s.watches[w].state = .disabled) (o : Fin 8) :
    (∀ level, s.outputs[o].owner ≠ .drive w level) ∧ ∀ p, s.outputs[o].owner ≠ .pulse w p := by
  have fits := h.fits o
  refine ⟨fun level owner => ?_, fun p owner => ?_⟩ <;> rw [owner] at fits
  · obtain ⟨tripped, -⟩ := fits
    rw [disabled] at tripped
    cases tripped
  · exact fits.1 disabled

theorem Owned.takeSetWatch {r : SetWatch} (wellFormed : r.wellFormed = true) :
    Owned (Machine.takeSetWatch r s).state.watches (Machine.takeSetWatch r s).state.outputs := by
  obtain e | ⟨disabled, -, e⟩ := takeSetWatch_cases r s <;> rw [e]
  · exact h
  · refine ⟨fun v => ?_, fun o => ?_⟩
    · rw [getElem_setWatch]
      split
      · refine ⟨fun _ => disabled, fun d hd => ?_⟩
        simpa [SetWatch.wellFormed, show r.definition = some d from hd] using wellFormed
      · exact h.defined v
    · have kept := h.fits o
      have unowned := h.not_owner disabled o
      rw [State.setWatch_outputs]
      generalize s.outputs[o].owner = owner at kept unowned
      rcases owner with (_ | _) | ⟨v, level⟩ | ⟨v, p⟩ | (_ | _)
      · trivial
      · exact kept
      · have other : r.watch ≠ v := fun same => unowned.1 level (by rw [same])
        simp only [FitsTable] at kept ⊢
        rwa [getElem_setWatch, if_neg other]
      · have other : r.watch ≠ v := fun same => unowned.2 p (by rw [same])
        simp only [FitsTable] at kept ⊢
        rwa [getElem_setWatch, if_neg other]
      · exact kept
      · exact kept

theorem Owned.takeEnableWatch (w : Fin 16) :
    Owned (Machine.takeEnableWatch w s).state.watches (Machine.takeEnableWatch w s).state.outputs := by
  unfold Machine.takeEnableWatch
  split
  case isTrue => exact h
  case isFalse present =>
    split
    case isTrue => exact h
    case isFalse disabled =>
      have unowned := h.not_owner (not_not.mp disabled)
      have armed := Owned.setWatch (x := { s.watches[w] with state := .armed, tripCount := 0 }) h rfl
        (fun absent => absurd absent present) fun o => .inr ⟨rfl, fun level owner => absurd owner ((unowned o).1 level),
          fun p owner => absurd owner ((unowned o).2 p)⟩
      exact Owned.evaluateAtTaking armed w []

theorem Owned.takeDisableWatch (w : Fin 16) :
    Owned (Machine.takeDisableWatch w s).state.watches (Machine.takeDisableWatch w s).state.outputs := by
  have disabled : Owned (releaseAll w (s.setWatchState w .disabled)).watches
      (releaseAll w (s.setWatchState w .disabled)).outputs := by
    refine Owned.setWatch h rfl (fun _ => rfl) fun o => ?_
    obtain released | ⟨kept, other⟩ := releaseAll_cases w (s.setWatchState w .disabled) o
    · exact .inl released
    · refine .inr ⟨kept, fun level owner => ?_, fun p owner => ?_⟩ <;>
        exact absurd (congrArg Owner.watch (kept.symm.trans owner)) other
  unfold Machine.takeDisableWatch
  dsimp only [Taken.ok]
  split
  · exact (Owned.run disabled).finish
  · exact disabled

theorem Owned.takeRearmWatch (w : Fin 16) :
    Owned (Machine.takeRearmWatch w s).state.watches (Machine.takeRearmWatch w s).state.outputs := by
  unfold Machine.takeRearmWatch
  split
  case h_1 onset held =>
    have armed : Owned (releaseDrive w (s.setWatchState w .armed)).watches
        (releaseDrive w (s.setWatchState w .armed)).outputs := by
      refine Owned.setWatch h rfl (fun absent => ?_) fun o => ?_
      · cases ((h.defined w).1 absent).symm.trans held
      · obtain released | ⟨kept, other⟩ := releaseDrive_cases w (s.setWatchState w .armed) o
        · exact .inl released
        · exact .inr ⟨kept, fun level owner => absurd (kept.symm.trans owner) (other level), fun _ _ => by rintro ⟨⟩⟩
    exact Owned.evaluateAtTaking armed w [.departed w]
  case h_2 => exact h
  case h_3 => exact h

theorem Owned.takeDriveOutput {r : DriveOutput} (wellFormed : r.wellFormed = true) :
    Owned (Machine.takeDriveOutput r s).state.watches (Machine.takeDriveOutput r s).state.outputs := by
  unfold Machine.takeDriveOutput
  split
  case h_1 | h_2 | h_3 => exact h
  case h_4 =>
    dsimp only [Taken.ok]
    split
    case h_1 level form =>
      have host : Owned (s.setOwner r.output (.host none)).watches (s.setOwner r.output (.host none)).outputs :=
        h.setOwner trivial
      refine ⟨host.defined, fun o => ?_⟩
      have fits := host.fits o
      simp only [State.setOwner, State.setOutput, Fin.getElem_fin, Vector.getElem_set] at fits ⊢
      split
      case isTrue => trivial
      case isFalse other => rwa [if_neg other] at fits
    case h_2 level duration form =>
      refine h.setOwner ?_
      simp only [DriveOutput.wellFormed, form, durationInRange, Bool.and_eq_true, decide_eq_true_eq] at wellFormed
      exact wellFormed.1

theorem Owned.takeSetOutputFunction {r : SetOutputFunction} (wellFormed : r.wellFormed = true) :
    Owned (Machine.takeSetOutputFunction r s).state.watches (Machine.takeSetOutputFunction r s).state.outputs := by
  have fits : ∀ f, r.function = some f → FitsTable s.watches r.output (.function f) := by
    intro f hf
    simp only [SetOutputFunction.wellFormed, hf] at wellFormed
    cases f with
    | tick rate => exact of_decide_eq_true (p := r.output = 6) wellFormed
    | attn => exact of_decide_eq_true (p := r.output = 7) wellFormed
  unfold Machine.takeSetOutputFunction
  split
  case h_1 | h_2 => exact h
  case h_3 =>
    dsimp only [Taken.ok]
    split
    case h_1 f hf => exact h.setOwner (fits f hf)
    case h_2 => exact h.setOwner trivial
  case h_4 =>
    dsimp only [Taken.ok]
    split
    case h_1 f hf => exact h.setOwner (fits f hf)
    case h_2 => exact h

end

theorem Owned.endAtTaking (i : Fin 32) {k : Work} (h : Owned k.state.watches k.state.outputs) :
    Owned (Machine.endAtTaking i k).state.watches (Machine.endAtTaking i k).state.outputs :=
  Owned.deliver (k := ⟨k.state.setLine i _, _⟩) h _

theorem Owned.endSuppressions (fuel : Nat) (lines : List (Fin 32)) {k : Work} (h : Owned k.state.watches k.state.outputs) :
    Owned (Machine.endSuppressions fuel lines k).state.watches (Machine.endSuppressions fuel lines k).state.outputs := by
  induction fuel generalizing lines k with
  | zero => exact h
  | succ fuel ih =>
    unfold Machine.endSuppressions
    obtain ⟨n, hn⟩ := k.state.choose_eq (k.state.endsNext lines).length
    dsimp only
    rw [hn]
    split
    · exact h
    · exact ih _ (Owned.endAtTaking _ h)

theorem Owned.takeConfigureLines (r : ConfigureLines) {s : State} (h : Owned s.watches s.outputs) :
    Owned (Machine.takeConfigureLines r s).state.watches (Machine.takeConfigureLines r s).state.outputs := by
  have configured : ∀ {s : State}, Owned s.watches s.outputs → Owned (configureLines r s).watches (configureLines r s).outputs :=
    fun h => Owned.finish (Owned.endSuppressions _ _ h)
  unfold Machine.takeConfigureLines
  dsimp only [Taken.ok]
  split
  · exact configured h.takeSample
  · exact configured h

theorem serve_owned {k : RequestKind} {payload : List Octet} {s : State} {taken : Taken} (h : Owned s.watches s.outputs)
    (served : serve k payload s = .ok taken) : Owned taken.state.watches taken.state.outputs := by
  cases k
  case configureLines => obtain ⟨a, -, rfl⟩ := map_ok served; exact h.takeConfigureLines a
  case setWatch => obtain ⟨a, parsed, rfl⟩ := map_ok served; exact h.takeSetWatch (parseSetWatch_wellFormed parsed)
  case enableWatch => obtain ⟨a, -, rfl⟩ := map_ok served; exact h.takeEnableWatch a
  case disableWatch => obtain ⟨a, -, rfl⟩ := map_ok served; exact h.takeDisableWatch a
  case rearmWatch => obtain ⟨a, -, rfl⟩ := map_ok served; exact h.takeRearmWatch a
  case driveOutput =>
    obtain ⟨a, parsed, rfl⟩ := map_ok served
    exact h.takeDriveOutput (parseDriveOutput_wellFormed parsed)
  case setOutputFunction =>
    obtain ⟨a, parsed, rfl⟩ := map_ok served
    exact h.takeSetOutputFunction (parseSetOutputFunction_wellFormed parsed)
  all_goals exact h.congr (serve_watches_outputs served rfl).1 (serve_watches_outputs served rfl).2

theorem TimeChange.owned {s t : State} (c : TimeChange s t) (h : Owned s.watches s.outputs) : Owned t.watches t.outputs :=
  h.congr c.watches c.outputs

theorem ReceptionChange.owned {s t : State} (c : ReceptionChange s t) (h : Owned s.watches s.outputs) :
    Owned t.watches t.outputs := h.congr c.watches c.outputs

theorem owned_keeps : Keeps fun s => Owned s.watches s.outputs where
  choice _ _ h := h
  moment _ _ h := h
  advance pins sync _ h := h.advance pins sync
  powerOn level s _ := .powerOn level s
  resetAssertion _ h := h.resetAssertion
  resetRelease s h := h.congr (resetRelease_watches s) (resetRelease_outputs s)
  takeSample _ _ h := h.takeSample
  qualifyExpiry w _ h := h.qualifyExpiry w
  watchPulseEnd _ _ h := h.release
  hostPulseEnd o _ h := h.hostPulseEnd o
  pulse s _ h := (withTime_change s _).owned h
  arrive _ _ h := h
  armDeadlineExpiry s h := (armDeadlineExpiry_change s).owned h
  missedPulseExpiry s h := (missedPulseExpiry_change s).owned h
  retransmitExpiry s h := by rw [retransmitExpiry_eq s]; exact h
  takeOctet data parity stop s h := (takeOctet_change data parity stop s).owned h
  frameArrives f s h := (frameArrives_change f s).owned h
  abandonFrame s h := (abandonFrame_change s).owned h
  foundStart confirmed s h := (foundStart_change confirmed s).owned h
  replyHandOver s h := (replyHandOver_change s).owned h
  startNoticeHandOver s h := (startNoticeHandOver_change s).owned h
  reportHandOver s h := h.congr (reportHandOver_watches s) (reportHandOver_outputs s)
  frameLeaves source _ h := h.frameLeaves source
  repetitionTimerExpiry s h := (repetitionTimerExpiry_change s).owned h
  request _ f _ s _ _ h := dispatched_keeps (fun s => Owned s.watches s.outputs) (fun _ _ h => h) f _ s h fun _ served =>
    serve_owned (s := s.popRequest) h served
  unknown f _ s _ _ h := dispatched_keeps (fun s => Owned s.watches s.outputs) (fun _ _ h => h) f _ s h fun _ served => by
    cases served

end Sys2Proof.Machine
end

section
/-! PROOF. The laws of chains and of qualified dependents (R52, R57, R69), and the obligation that joins them with the law of
ownership. -/

namespace Sys2Proof.Machine

/-- The table is free of cycles and its chains are short, and a dependent is QUALIFYING only under a TRIPPED or HELD
prerequisite. -/
def State.TableLaws (s : State) : Prop := s.ChainLaw ∧ s.DependentLaw

/-! ## The laws read the watches alone -/

theorem State.TableLaws.congr {s t : State} (h : s.TableLaws) (watches : t.watches = s.watches) : t.TableLaws := by
  have same : t.prerequisite = s.prerequisite := (SameDefinitions.ofWatches watches).prerequisite
  simpa only [State.TableLaws, State.ChainLaw, State.DependentLaw, same, watches] using h

/-- The laws stand where the definitions do, nothing begins to qualify, and what is TRIPPED or HELD stays so. -/
theorem State.TableLaws.of_sameDefinitions {s t : State} (h : s.TableLaws) (same : SameDefinitions s t)
    (qualifying : ∀ w : Fin 16, (∃ onset timer, t.watches[w].state = .qualifying onset timer) →
      ∃ onset timer, s.watches[w].state = .qualifying onset timer)
    (tripped : ∀ p : Fin 16, s.watches[p].state.isTripped = true → t.watches[p].state.isTripped = true) :
    t.TableLaws :=
  ⟨same.chainLaw h.1, (dependentLaw_iff t).mpr
    (((dependentLaw_iff s).mp h.2).mono same qualifying (fun p before => .inl (tripped p before)) fun _ => id)⟩

/-- Without definitions there is no chain and no dependent. -/
theorem State.TableLaws.of_absent {t : State} (absent : ∀ w : Fin 16, t.watches[w].definition = none) :
    t.TableLaws := by
  have none : ∀ w, t.prerequisite w = none := fun w => by simp only [State.prerequisite, absent w]
  refine ⟨fun w => by simp only [chainEnds, none], fun w p named => ?_⟩
  cases (none w).symm.trans named

/-! ## Events -/

theorem State.TableLaws.run {k : Work} {ts : List Task} (chain : k.state.ChainLaw) (owed : DependentsOwed k.state ts)
    (few : ts.length ≤ 16) : (k.run ts).state.TableLaws := run_dependentLaw chain owed few

theorem State.TableLaws.finish {k : Work} (h : k.state.TableLaws) : k.finish.TableLaws := by
  obtain ⟨j, n, e, -⟩ := finish_eq k
  exact h.congr (by rw [e])

theorem deliveryTasks_length (s : State) (edges : List Edge) : (s.deliveryTasks edges).length ≤ 16 :=
  (List.length_filterMap_le _ _).trans (by simp)

theorem State.TableLaws.deliver {k : Work} (h : k.state.TableLaws) (edges : List Edge) :
    (Machine.deliver edges k).state.TableLaws :=
  .run h.1 (.ofLaw h.2) (deliveryTasks_length k.state edges)

theorem State.TableLaws.takeSample {s : State} (h : s.TableLaws) : (Machine.takeSample s).TableLaws := by
  unfold Machine.takeSample
  split
  · exact h.congr rfl
  · exact (State.TableLaws.deliver (k := ⟨s.sampled, _⟩) (h.congr (sampled_watches s)) _).finish

theorem trip_definitions (w : Fin 16) (onset : TimeValue) (k : Work) :
    SameDefinitions k.state (trip w onset k).1.state := by
  rw [SameDefinitions, trip_watches]
  split
  · exact fun _ => rfl
  · exact setWatch_definitions rfl

theorem State.TableLaws.qualifyExpiry {s : State} (h : s.TableLaws) (w : Fin 16) :
    (Machine.qualifyExpiry w s).TableLaws := by
  obtain e | ⟨onset, timer, -, -, e⟩ := qualifyExpiry_cases w s <;> rw [e]
  · exact h
  · have owed : DependentsOwed (trip w onset { state := s, sent := [] }).1.state
        (trip w onset { state := s, sent := [] }).2 := by
      have watches := trip_watches w onset { state := s, sent := [] }
      split at watches
      · exact (DependentsOwed.ofLaw h.2).congr watches
      · refine ((DependentsOwed.ofLaw h.2).setWatch (w := w) ?_ ?_ ?_).congr watches
        · rfl
        · rintro ⟨_, _, ⟨⟩⟩
        · exact fun _ => .inl rfl
    refine (State.TableLaws.run ((trip_definitions w onset _).chainLaw h.1) owed ?_).finish
    obtain none | tripped := trip_more w onset { state := s, sent := [] }
    · simp [none]
    · simp [tripped]

theorem WatchState.qualifying_of_tick {x : WatchState} (h : ∃ onset timer, x.tick = .qualifying onset timer) :
    ∃ onset timer, x = .qualifying onset timer := by
  obtain ⟨_, _, ticked⟩ := h
  cases x with
  | qualifying onset timer => exact ⟨onset, timer, rfl⟩
  | disabled | armed | tripped | held => cases ticked

theorem State.TableLaws.advance {s : State} (h : s.TableLaws) (pins : LineMap) (sync : Level) :
    (Machine.advance pins sync s).TableLaws := by
  have watch : ∀ w : Fin 16,
      (Machine.advance pins sync s).watches[w] = { s.watches[w] with state := s.watches[w].state.tick } :=
    fun w => getElem_ofFn_fin _ w
  refine h.of_sameDefinitions (fun w => by rw [watch]) (fun w qualifying => ?_) fun p before => ?_
  · rw [watch] at qualifying
    exact WatchState.qualifying_of_tick qualifying
  · rw [watch]
    exact (WatchState.tick_isTripped _).trans before

theorem State.TableLaws.fullStart {t : State} {ws : Vector Watch 16} (watches : t.watches = fullStartWatches ws) :
    t.TableLaws := .of_absent fun w => by simp [watches]

theorem State.TableLaws.frameLeaves {s : State} (h : s.TableLaws) (source : TxSource) :
    (Machine.frameLeaves source s).TableLaws := by
  have effect : (leavingEffect source s).TableLaws := by
    obtain e | ⟨settings, e⟩ | e | e | e := leavingEffect_cases source s <;> rw [e]
    · exact h
    · exact h.congr (switchLink_change settings s).watches
    · exact .fullStart rfl
    · exact h.congr rfl
    · exact h.congr rfl
  exact effect.congr rfl

/-! ## Requests -/

/-- A watch that neither qualifies after nor was TRIPPED or HELD before changes nothing for its dependents. -/
theorem State.TableLaws.setWatch {s : State} (h : s.TableLaws) {w : Fin 16} {x : Watch}
    (definition : x.definition = s.watches[w].definition)
    (notQualifying : ¬ ∃ onset timer, x.state = .qualifying onset timer)
    (tripped : s.watches[w].state.isTripped = true → x.state.isTripped = true) : (s.setWatch w x).TableLaws :=
  ⟨(setWatch_definitions definition).chainLaw h.1, (dependentLaw_iff _).mpr
    (((dependentLaw_iff s).mp h.2).setWatch definition notQualifying fun before => .inl (tripped before))⟩

theorem evaluation_length (s : State) (evaluate : WatchDef → Evaluation) (w : Fin 16) :
    (s.evaluation evaluate w).toList.length ≤ 16 := by
  cases s.evaluation evaluate w <;> simp

/-- The tasks at a taking come one after another, so the law holds between them. -/
theorem State.TableLaws.evaluateAtTaking {s : State} {before : List Task} (chain : s.ChainLaw)
    (owed : DependentsOwed s before) (few : before.length ≤ 16) (w : Fin 16) :
    (Machine.evaluateAtTaking w before s).TableLaws := by
  have first : (Work.run { state := s, sent := [] } before).state.TableLaws := .run chain owed few
  exact (State.TableLaws.run first.1 (.ofLaw first.2) (evaluation_length s s.evaluateTaking w)).finish

theorem State.TableLaws.takeEnableWatch {s : State} (h : s.TableLaws) (w : Fin 16) :
    (Machine.takeEnableWatch w s).state.TableLaws := by
  unfold Machine.takeEnableWatch
  split
  case isTrue => exact h
  case isFalse =>
    split
    case isTrue => exact h
    case isFalse disabled =>
      have armed : (s.setWatch w { s.watches[w] with state := .armed, tripCount := 0 }).TableLaws := by
        refine h.setWatch rfl (by rintro ⟨_, _, ⟨⟩⟩) fun before => ?_
        rw [not_not.mp disabled] at before
        cases before
      exact .evaluateAtTaking armed.1 (.ofLaw armed.2) (Nat.zero_le _) w

/-- A watch that leaves TRIPPED or HELD owes its dependents their evaluation. -/
theorem departs_owed {s t : State} {w : Fin 16} {x : WatchState} (h : s.TableLaws)
    (notQualifying : ¬ ∃ onset timer, x = .qualifying onset timer) (watches : t.watches = (s.setWatchState w x).watches) :
    t.ChainLaw ∧ DependentsOwed t [.departed w] :=
  ⟨(SameDefinitions.trans (setWatch_definitions (x := { s.watches[w] with state := x }) rfl) (.ofWatches watches)).chainLaw
      h.1,
    ((DependentsOwed.ofLaw h.2).setWatch (x := { s.watches[w] with state := x }) rfl notQualifying
      fun _ => .inr (List.mem_singleton_self _)).congr watches⟩

/-- The state that a DISABLE_WATCH leads to (R81). -/
theorem takeDisableWatch_state (w : Fin 16) (s : State) :
    (takeDisableWatch w s).state =
      if s.watches[w].state.isTripped then
        (Work.run { state := releaseAll w (s.setWatchState w .disabled), sent := [] } [.departed w]).finish
      else releaseAll w (s.setWatchState w .disabled) := rfl

theorem State.TableLaws.takeDisableWatch {s : State} (h : s.TableLaws) (w : Fin 16) :
    (Machine.takeDisableWatch w s).state.TableLaws := by
  rw [takeDisableWatch_state]
  split
  case isTrue =>
    obtain ⟨chain, owed⟩ := departs_owed (t := releaseAll w (s.setWatchState w .disabled)) h (by rintro ⟨_, _, ⟨⟩⟩)
      (releaseWhere_watches _ _)
    exact (State.TableLaws.run (k := ⟨_, []⟩) chain owed (by simp)).finish
  case isFalse notTripped =>
    have disabled : (s.setWatchState w .disabled).TableLaws :=
      State.TableLaws.setWatch h rfl (by rintro ⟨_, _, ⟨⟩⟩) fun before => absurd before notTripped
    exact disabled.congr (releaseWhere_watches _ _)

theorem State.TableLaws.takeRearmWatch {s : State} (h : s.TableLaws) (w : Fin 16) :
    (Machine.takeRearmWatch w s).state.TableLaws := by
  unfold Machine.takeRearmWatch
  split
  case h_1 =>
    obtain ⟨chain, owed⟩ := departs_owed (w := w) (x := .armed) h (by rintro ⟨_, _, ⟨⟩⟩) (releaseWhere_watches _ _)
    exact .evaluateAtTaking chain owed (by simp) w
  case h_2 => exact h
  case h_3 => exact h

/-- Chains that end still end where one watch names no prerequisite any more. -/
theorem chainEnds_forget {pre post : Fin 16 → Option (Fin 16)} (forgets : ∀ w, post w = none ∨ post w = pre w) (n : Nat)
    (w : Fin 16) (h : chainEnds pre n w = true) : chainEnds post n w = true := by
  induction n generalizing w with
  | zero => exact h
  | succ n ih =>
    simp only [chainEnds] at h ⊢
    obtain absent | same := forgets w
    · rw [absent]
    · rw [same]
      split at h
      · rfl
      · exact ih _ h

theorem prerequisite_setWatch (s : State) (w : Fin 16) (definition : Option WatchDef) (v : Fin 16) :
    (s.setWatch w { s.watches[w] with definition := definition }).prerequisite v
      = if v = w then definition.bind (·.prerequisite) else s.prerequisite v := by
  simp only [State.prerequisite, getElem_setWatch]
  by_cases same : w = v
  · rw [if_pos same, if_pos same.symm]
    cases definition <;> rfl
  · rw [if_neg same, if_neg fun e => same e.symm]

theorem State.TableLaws.takeSetWatch {s : State} (h : s.TableLaws) (r : SetWatch) :
    (Machine.takeSetWatch r s).state.TableLaws := by
  obtain e | ⟨disabled, ends, e⟩ := takeSetWatch_cases r s <;> rw [e]
  · exact h
  · have state : ∀ u : Fin 16,
        (s.setWatch r.watch { s.watches[r.watch] with definition := r.definition }).watches[u].state
          = s.watches[u].state := by
      intro u
      rw [getElem_setWatch]
      split
      case isTrue same => subst same; rfl
      case isFalse => rfl
    refine ⟨fun v => ?_, fun v p named qualifying => ?_⟩
    · cases definition : r.definition with
      | none =>
        refine chainEnds_forget (fun u => ?_) 4 v (h.1 v)
        rw [prerequisite_setWatch]
        split
        · exact .inl rfl
        · exact .inr rfl
      | some d =>
        have placed : (s.setWatch r.watch { s.watches[r.watch] with definition := some d }).prerequisite
            = fun v => if v = r.watch then d.prerequisite else s.prerequisite v :=
          funext fun v => prerequisite_setWatch s r.watch (some d) v
        rw [placed]
        exact List.all_eq_true.mp (ends d definition) v (List.mem_finRange v)
    · rw [state] at qualifying ⊢
      rw [prerequisite_setWatch] at named
      split at named
      case isTrue same =>
        subst same
        obtain ⟨_, _, qualifying⟩ := qualifying
        cases disabled.symm.trans qualifying
      case isFalse => exact h.2 v p named qualifying

theorem State.TableLaws.endAtTaking {k : Work} (h : k.state.TableLaws) (i : Fin 32) :
    (Machine.endAtTaking i k).state.TableLaws :=
  State.TableLaws.deliver (k := ⟨k.state.setLine i _, _⟩) (h.congr rfl) _

theorem State.TableLaws.endSuppressions (fuel : Nat) (lines : List (Fin 32)) {k : Work} (h : k.state.TableLaws) :
    (Machine.endSuppressions fuel lines k).state.TableLaws := by
  induction fuel generalizing lines k with
  | zero => exact h
  | succ fuel ih =>
    unfold Machine.endSuppressions
    obtain ⟨n, hn⟩ := k.state.choose_eq (k.state.endsNext lines).length
    dsimp only
    rw [hn]
    split
    · exact h
    · exact ih _ (State.TableLaws.endAtTaking (k := ⟨{ k.state with choices := n }, k.sent⟩) (h.congr rfl) _)

theorem State.TableLaws.takeConfigureLines {s : State} (h : s.TableLaws) (r : ConfigureLines) :
    (Machine.takeConfigureLines r s).state.TableLaws := by
  have configured : ∀ {s : State}, s.TableLaws → (configureLines r s).TableLaws := fun {s} h =>
    State.TableLaws.finish (State.TableLaws.endSuppressions _ _ (k := ⟨{ s with front := _ }, []⟩) (h.congr rfl))
  unfold Machine.takeConfigureLines
  dsimp only [Taken.ok]
  split
  · exact configured h.takeSample
  · exact configured h

theorem serve_tableLaws {k : RequestKind} {payload : List Octet} {s : State} {taken : Taken} (h : s.TableLaws)
    (served : serve k payload s = .ok taken) : taken.state.TableLaws := by
  cases k
  case configureLines => obtain ⟨a, -, rfl⟩ := map_ok served; exact h.takeConfigureLines a
  case setWatch => obtain ⟨a, -, rfl⟩ := map_ok served; exact h.takeSetWatch a
  case enableWatch => obtain ⟨a, -, rfl⟩ := map_ok served; exact h.takeEnableWatch a
  case disableWatch => obtain ⟨a, -, rfl⟩ := map_ok served; exact h.takeDisableWatch a
  case rearmWatch => obtain ⟨a, -, rfl⟩ := map_ok served; exact h.takeRearmWatch a
  case driveOutput =>
    obtain ⟨a, -, rfl⟩ := map_ok served
    refine h.congr ?_
    unfold takeDriveOutput
    split
    case h_1 | h_2 | h_3 => rfl
    case h_4 => dsimp only [Taken.ok]; split <;> rfl
  case setOutputFunction =>
    obtain ⟨a, -, rfl⟩ := map_ok served
    refine h.congr ?_
    unfold takeSetOutputFunction
    split
    case h_1 | h_2 => rfl
    case h_3 | h_4 => dsimp only [Taken.ok]; split <;> rfl
  all_goals exact h.congr (serve_watches_outputs served rfl).1

theorem TimeChange.tableLaws {s t : State} (c : TimeChange s t) (h : s.TableLaws) : t.TableLaws := h.congr c.watches

theorem ReceptionChange.tableLaws {s t : State} (c : ReceptionChange s t) (h : s.TableLaws) : t.TableLaws :=
  h.congr c.watches

theorem tableLaws_keeps : Keeps State.TableLaws where
  choice _ _ h := h.congr rfl
  moment _ _ h := h.congr rfl
  advance pins sync _ h := h.advance pins sync
  powerOn level s _ := .of_absent fun w => by rw [powerOn_watch]; rfl
  resetAssertion s h := by
    obtain same | running := resetAssertion_same_or_running s
    · rw [same]
      exact h
    · rw [resetAssertion_of_running running]
      exact .fullStart rfl
  resetRelease s h := h.congr (resetRelease_watches s)
  takeSample _ _ h := h.takeSample
  qualifyExpiry w _ h := h.qualifyExpiry w
  watchPulseEnd _ _ h := h.congr rfl
  hostPulseEnd o s h := by
    unfold hostPulseEnd
    split
    · exact h.congr rfl
    · exact h
  pulse s _ h := (withTime_change s _).tableLaws h
  arrive _ _ h := h.congr rfl
  armDeadlineExpiry s h := (armDeadlineExpiry_change s).tableLaws h
  missedPulseExpiry s h := (missedPulseExpiry_change s).tableLaws h
  retransmitExpiry s h := h.congr (by rw [retransmitExpiry_eq s])
  takeOctet data parity stop s h := (takeOctet_change data parity stop s).tableLaws h
  frameArrives f s h := (frameArrives_change f s).tableLaws h
  abandonFrame s h := (abandonFrame_change s).tableLaws h
  foundStart confirmed s h := (foundStart_change confirmed s).tableLaws h
  replyHandOver s h := (replyHandOver_change s).tableLaws h
  startNoticeHandOver s h := (startNoticeHandOver_change s).tableLaws h
  reportHandOver s h := h.congr (reportHandOver_watches s)
  frameLeaves source _ h := h.frameLeaves source
  repetitionTimerExpiry s h := (repetitionTimerExpiry_change s).tableLaws h
  request _ f _ s _ _ h := dispatched_keeps State.TableLaws (fun _ _ h => h.congr rfl) f _ s h fun _ served =>
    serve_tableLaws (s := s.popRequest) (h.congr rfl) served
  unknown f _ s _ _ h := dispatched_keeps State.TableLaws (fun _ _ h => h.congr rfl) f _ s h fun _ served => by
    cases served

/-! ## The obligation -/

/-- Settles O58: every operation keeps each of the two laws; the law of dependents by way of the evaluations that a departure
still owes while the tasks of an event are done. -/
theorem stepKeepsWatchLaws : Obligations.StepKeepsWatchLaws := by
  intro s t stepped
  refine ⟨fun owned => ?_, fun chain dependents => ?_⟩
  · exact (ownershipLaw_iff t).mpr (owned_keeps.step (fun _ _ h => h) ((ownershipLaw_iff s).mp owned) stepped)
  · exact tableLaws_keeps.step (fun _ _ h => h.congr rfl) ⟨chain, dependents⟩ stepped

end Sys2Proof.Machine
end

section
/-! PROOF. The ranges of the time base (R111, R112, R121) and the bounds of the dispatcher's queues and cache (R174). -/

namespace Sys2Proof.Machine

/-! ## The time base -/

theorem slewRange_zero : (-8 : Int) ≤ 0 ∧ (0 : Int) ≤ 8 := by decide

theorem missedPulseLimit_range (c : Countdown) (loaded : SyncState.newTracking = .tracking c) :
    1 ≤ c.left ∧ c.left ≤ 1280 := by
  cases loaded
  decide

section
variable {t : TimeBase} (h : t.RangeLaw)
include h

theorem TimeBase.RangeLaw.clearSlew : t.clearSlew.RangeLaw :=
  ⟨slewRange_zero, Nat.zero_le _, fun _ => rfl, h.deadline, h.limit, h.age, h.ignored⟩

/-- A state is entered with its timers loaded. -/
theorem TimeBase.RangeLaw.enter {sync : SyncState} (deadline : ∀ r v o c, sync = .armed r v o c → 1 ≤ c.left ∧ c.left ≤ 3072)
    (limit : ∀ c, sync = .tracking c → 1 ≤ c.left ∧ c.left ≤ 1280) : (t.enter sync).RangeLaw := by
  have entered : sync ≠ .free → sync ≠ .holdover →
      TimeBase.RangeLaw { t with sync := sync, pulseInState := false } := fun notFree notHoldover =>
    ⟨h.remainder, h.spacing, fun idle => by rcases idle with e | e <;> contradiction, deadline, limit, h.age, h.ignored⟩
  have ended : TimeBase.RangeLaw ({ t with sync := sync, pulseInState := false } : TimeBase).clearSlew :=
    ⟨slewRange_zero, Nat.zero_le _, fun _ => rfl, deadline, limit, h.age, h.ignored⟩
  unfold TimeBase.enter
  cases sync with
  | free | holdover => exact ended
  | armed | acquiring | tracking => exact entered (by rintro ⟨⟩) (by rintro ⟨⟩)

theorem TimeBase.RangeLaw.returnFromArm (remembered : Remembered) : (t.returnFromArm remembered).RangeLaw := by
  refine h.enter ?_ ?_
  · intro r v o c armed
    cases remembered <;> cases armed
  · intro c tracking
    cases remembered with
    | tracking => exact missedPulseLimit_range c tracking
    | free | acquiring | holdover => cases tracking

theorem TimeBase.RangeLaw.setTo (time : TimeValue) : (t.setTo time).RangeLaw := by
  obtain ⟨remainder, spacing, idle, deadline, limit, age, ignored⟩ := h.clearSlew
  exact ⟨remainder, spacing, idle, deadline, limit, age, ignored⟩

theorem TimeBase.RangeLaw.armedPulse (value : BitVec 32) (option : ArmOption) : (t.armedPulse value option).1.RangeLaw := by
  obtain ⟨remainder, spacing, -, -, -, -, ignored⟩ := h.setTo ⟨value, 0⟩
  refine ⟨remainder, spacing, fun _ => rfl, ?_, ?_, ?_, ignored⟩
  · cases option <;> rintro _ _ _ _ ⟨⟩
  · cases option with
    | free => rintro c ⟨⟩
    | track => exact missedPulseLimit_range
  · rintro n ⟨⟩
    exact Nat.zero_le _

theorem TimeBase.RangeLaw.corrected : t.corrected.RangeLaw ∨ t.slews = true ∧
    -8 ≤ t.corrected.slewRemainder ∧ t.corrected.slewRemainder ≤ 8 ∧ t.corrected.slewSpacing ≤ 15
      ∧ t.corrected.ignored = t.ignored := by
  unfold TimeBase.corrected
  split
  case isTrue slews =>
    have within := slews
    simp only [TimeBase.slews, Bool.and_eq_true, decide_eq_true_eq] at within
    refine .inr ⟨slews, within.1, within.2, ?_, rfl⟩
    show spacingFrom _ ≤ 15
    unfold spacingFrom
    split <;> decide
  case isFalse => exact .inl (h.setTo _)

theorem TimeBase.RangeLaw.trackedPulse : t.trackedPulse.1.RangeLaw := by
  unfold TimeBase.trackedPulse
  split
  · exact ⟨h.remainder, h.spacing, h.idle, h.deadline, h.limit, h.age, countTo_le h.ignored⟩
  · have corrected : (-8 ≤ t.corrected.slewRemainder ∧ t.corrected.slewRemainder ≤ 8) ∧ t.corrected.slewSpacing ≤ 15
        ∧ t.corrected.ignored ≤ 65535 := by
      obtain law | ⟨-, low, high, spacing, ignored⟩ := h.corrected
      · exact ⟨law.remainder, law.spacing, law.ignored⟩
      · exact ⟨⟨low, high⟩, spacing, ignored ▸ h.ignored⟩
    obtain ⟨remainder, spacing, ignored⟩ := corrected
    refine ⟨remainder, spacing, ?_, by rintro _ _ _ _ ⟨⟩, missedPulseLimit_range, ?_, ignored⟩
    · rintro (⟨⟨⟩⟩ | ⟨⟨⟩⟩)
    · rintro n ⟨⟩
      exact Nat.zero_le _

theorem TimeBase.RangeLaw.takePulse : t.takePulse.1.RangeLaw := by
  have taken : TimeBase.RangeLaw { t with pulseDue := false } :=
    ⟨h.remainder, h.spacing, h.idle, h.deadline, h.limit, h.age, h.ignored⟩
  unfold TimeBase.takePulse TimeBase.pulse
  split
  · exact taken
  · exact taken.armedPulse _ _
  · exact taken.trackedPulse

theorem TimeBase.RangeLaw.tick (sync : Level) : (t.tick sync).RangeLaw := by
  obtain ⟨low, high⟩ := h.remainder
  refine ⟨?_, ?_, ?_, ?_, ?_, ?_, h.ignored⟩
  · show -8 ≤ t.remainderAfterTick ∧ t.remainderAfterTick ≤ 8
    unfold TimeBase.remainderAfterTick
    split
    · split <;> omega
    · exact ⟨low, high⟩
  · show t.spacingAfterTick ≤ 15
    have := h.spacing
    unfold TimeBase.spacingAfterTick spacingFrom
    split
    · exact this
    · split
      · split <;> omega
      · omega
  · intro idle
    have before : t.sync = .free ∨ t.sync = .holdover := by
      change t.sync.tick = .free ∨ t.sync.tick = .holdover at idle
      cases sync : t.sync with
      | free => exact .inl rfl
      | holdover => exact .inr rfl
      | armed | acquiring | tracking => rw [sync] at idle; rcases idle with ⟨⟨⟩⟩ | ⟨⟨⟩⟩
    have zero := h.idle before
    show t.remainderAfterTick = 0
    simp [TimeBase.remainderAfterTick, TimeBase.slewTickNext, zero]
  · intro r v o c armed
    change t.sync.tick = .armed r v o c at armed
    cases sync : t.sync with
    | armed r v o c =>
      rw [sync] at armed
      cases armed
      exact Countdown.tick_left_range (h.deadline _ _ _ _ sync)
    | free | holdover | acquiring | tracking => rw [sync] at armed; cases armed
  · intro c tracking
    change t.sync.tick = .tracking c at tracking
    cases sync : t.sync with
    | tracking c =>
      rw [sync] at tracking
      cases tracking
      exact Countdown.tick_left_range (h.limit _ sync)
    | free | holdover | acquiring | armed => rw [sync] at tracking; cases tracking
  · intro n age
    obtain ⟨before, hb, rfl⟩ := Option.map_eq_some_iff.mp age
    exact countTo_le (h.age before hb)

theorem TimeBase.RangeLaw.setSync (setting : SyncSetting) : (t.setSync setting).RangeLaw := by
  unfold TimeBase.setSync
  split
  case h_1 | h_2 => exact h.enter (by rintro _ _ _ _ ⟨⟩) (by rintro _ ⟨⟩)
  case h_3 => exact h
  case h_4 => exact h.clearSlew
  case h_5 => exact h.enter (by rintro _ _ _ _ ⟨⟩) (by rintro _ ⟨⟩)

end

theorem TimeBase.RangeLaw.fullStart (t : TimeBase) : t.fullStart.RangeLaw :=
  ⟨slewRange_zero, Nat.zero_le _, fun _ => rfl, by rintro _ _ _ _ ⟨⟩, by rintro _ ⟨⟩, by rintro _ ⟨⟩, Nat.zero_le _⟩

theorem TimeBase.RangeLaw.powerOn : TimeBase.powerOn.RangeLaw :=
  ⟨slewRange_zero, Nat.zero_le _, fun _ => rfl, by rintro _ _ _ _ ⟨⟩, by rintro _ ⟨⟩, by rintro _ ⟨⟩, Nat.zero_le _⟩

/-! ### What reads or writes the time base -/

theorem withTime_time (s : State) (r : TimeBase × List Draft) : (s.withTime r).time = r.1 := by rw [withTime_eq]

theorem reportHandOver_time (s : State) : (reportHandOver s).time = s.time := by
  unfold reportHandOver
  split <;> rfl

theorem reportHandOver_dispatcher (s : State) : (reportHandOver s).dispatcher = s.dispatcher := by
  unfold reportHandOver
  split <;> rfl

/-- The requests to the time base (chapter 6). -/
def RequestKind.setsTime : RequestKind → Bool
  | .setTime | .setTimeAtPulse | .setSync | .configureTime => true
  | _ => false

theorem serve_time {k : RequestKind} {payload : List Octet} {s : State} {taken : Taken}
    (served : serve k payload s = .ok taken) (other : RequestKind.setsTime k = false) : taken.state.time = s.time := by
  cases k <;> obtain ⟨a, -, rfl⟩ := map_ok served
  case setTime | setTimeAtPulse | setSync | configureTime => cases other
  case configureLines => exact (takeConfigureLines_change a s).time
  case setWatch => exact (takeSetWatch_change a s).time
  case enableWatch => exact (takeEnableWatch_change a s).time
  case disableWatch => exact (takeDisableWatch_change a s).time
  case rearmWatch => exact (takeRearmWatch_change a s).time
  case driveOutput => exact (takeDriveOutput_change a s).time
  case setOutputFunction => exact (takeSetOutputFunction_change a s).time
  case fetch => unfold takeFetch; split <;> rfl
  case ack => unfold takeAck; split <;> rfl
  case resume => unfold takeResume; split <;> rfl
  all_goals rfl

theorem serve_rangeLaw {k : RequestKind} {payload : List Octet} {s : State} {taken : Taken} (h : s.time.RangeLaw)
    (served : serve k payload s = .ok taken) : taken.state.time.RangeLaw := by
  cases k
  case setTime =>
    obtain ⟨a, -, rfl⟩ := map_ok served
    unfold takeSetTime
    dsimp only [Taken.ok]
    rw [withTime_time]
    split
    · exact (h.returnFromArm _).setTo a
    · exact h.setTo a
  case setTimeAtPulse =>
    obtain ⟨a, -, rfl⟩ := map_ok served
    refine ⟨h.remainder, h.spacing, ?_, ?_, by rintro _ ⟨⟩, h.age, h.ignored⟩
    · rintro (⟨⟨⟩⟩ | ⟨⟨⟩⟩)
    · rintro _ _ _ _ ⟨⟩
      decide
  case setSync => obtain ⟨a, -, rfl⟩ := map_ok served; exact h.setSync a
  case configureTime =>
    obtain ⟨a, -, rfl⟩ := map_ok served
    exact ⟨h.remainder, h.spacing, h.idle, h.deadline, h.limit, h.age, h.ignored⟩
  all_goals exact (serve_time served rfl).symm ▸ h

theorem FieldChange.rangeLaw {s t : State} (c : FieldChange s t) (h : s.time.RangeLaw) : t.time.RangeLaw := c.time ▸ h

theorem ReceptionChange.rangeLaw {s t : State} (c : ReceptionChange s t) (h : s.time.RangeLaw) : t.time.RangeLaw :=
  c.time ▸ h

theorem frameLeaves_rangeLaw {s : State} (h : s.time.RangeLaw) (source : TxSource) :
    (frameLeaves source s).time.RangeLaw := by
  show (leavingEffect source s).time.RangeLaw
  obtain e | ⟨settings, e⟩ | e | e | e := leavingEffect_cases source s <;> rw [e]
  · exact h
  · exact (switchLink_change settings s).rangeLaw h
  · exact .fullStart _
  · exact h
  · exact h

theorem rangeLaw_keeps : Keeps fun s => s.time.RangeLaw where
  choice _ _ h := h
  moment _ _ h := h
  advance _ sync _ h := h.tick sync
  powerOn level _ _ := by cases level <;> exact .powerOn
  resetAssertion s h := by
    obtain same | running := resetAssertion_same_or_running s
    · rw [same]
      exact h
    · rw [resetAssertion_of_running running]
      exact .fullStart _
  resetRelease s h := by
    unfold resetRelease
    split <;> exact h
  takeSample s _ h := (takeSample_change s).rangeLaw h
  qualifyExpiry w s h := (qualifyExpiry_change w s).rangeLaw h
  watchPulseEnd w s h := (watchPulseEnd_change w s).rangeLaw h
  hostPulseEnd o s h := (hostPulseEnd_change o s).rangeLaw h
  pulse s records h := by rw [withTime_time]; exact h.takePulse
  arrive _ _ h := h
  armDeadlineExpiry s h := by
    unfold armDeadlineExpiry
    split
    · split
      · rw [withTime_time]
        exact h.returnFromArm _
      · exact h
    · exact h
  missedPulseExpiry s h := by
    unfold missedPulseExpiry
    split
    · rw [withTime_time]
      exact h.enter (sync := .holdover) (by rintro _ _ _ _ ⟨⟩) (by rintro _ ⟨⟩)
    · exact h
  retransmitExpiry s h := by rw [retransmitExpiry_eq s]; exact h
  takeOctet data parity stop s h := (takeOctet_change data parity stop s).rangeLaw h
  frameArrives f s h := (frameArrives_change f s).rangeLaw h
  abandonFrame s h := (abandonFrame_change s).rangeLaw h
  foundStart confirmed s h := (foundStart_change confirmed s).rangeLaw h
  replyHandOver s h := (replyHandOver_change s).rangeLaw h
  startNoticeHandOver s h := (startNoticeHandOver_change s).rangeLaw h
  reportHandOver s h := by rw [reportHandOver_time]; exact h
  frameLeaves source _ h := frameLeaves_rangeLaw h source
  repetitionTimerExpiry s h := (repetitionTimerExpiry_change s).rangeLaw h
  request _ f _ s _ _ h := dispatched_keeps (fun s => s.time.RangeLaw) (fun _ _ h => h) f _ s h fun _ served =>
    serve_rangeLaw (s := s.popRequest) h served
  unknown f _ s _ _ h := dispatched_keeps (fun s => s.time.RangeLaw) (fun _ _ h => h) f _ s h fun _ served => by
    cases served

/-! ## The queues and the cache -/

theorem Dispatcher.QueueLaw.empty {d : Dispatcher} (requests : d.requests = []) (replies : d.replies = [])
    (cache : d.cache = none) : d.QueueLaw :=
  ⟨by simp [requests], by simp [replies], by simp [cache]⟩

theorem frameArrives_queueLaw {s : State} (h : s.dispatcher.QueueLaw) (f : Frame) :
    (frameArrives f s).dispatcher.QueueLaw := by
  unfold frameArrives
  split
  case isTrue free =>
    refine ⟨?_, h.replies, h.cache⟩
    show (s.dispatcher.requests ++ [f]).length ≤ 4
    rw [List.length_append]
    exact free
  case isFalse =>
    split
    case isTrue free =>
      refine ⟨h.requests, ?_, h.cache⟩
      show (s.dispatcher.replies ++ [_]).length ≤ 6
      rw [List.length_append]
      exact free
    case isFalse => exact h

theorem assemble_queueLaw {s : State} (h : s.dispatcher.QueueLaw) (o : Octet) (bad : Bool) :
    (assemble o bad s).dispatcher.QueueLaw := by
  unfold assemble
  split
  case h_1 | h_2 => split <;> exact h
  case h_3 | h_4 => exact h
  case h_5 =>
    unfold frameEnds
    dsimp only
    split
    · exact h
    · split
      · exact h
      · split
        · exact frameArrives_queueLaw (s := s.setAssembler .hunt) h _
        · exact h

theorem takeOctet_queueLaw {s : State} (h : s.dispatcher.QueueLaw) (data : Octet) (parity stop : Level) :
    (takeOctet data parity stop s).dispatcher.QueueLaw :=
  assemble_queueLaw (s := (s.countLink _).setReceiver _) h _ _

theorem abandonFrame_dispatcher (s : State) : (abandonFrame s).dispatcher = s.dispatcher := by
  unfold abandonFrame
  split <;> rfl

theorem switchLink_dispatcher (settings : LinkSettings) (s : State) : (switchLink settings s).dispatcher = s.dispatcher := by
  unfold switchLink
  split
  · rfl
  · exact abandonFrame_dispatcher s

theorem startNoticeHandOver_dispatcher (s : State) : (startNoticeHandOver s).dispatcher = s.dispatcher := by
  unfold startNoticeHandOver
  split <;> rfl

theorem repetitionTimerExpiry_dispatcher (s : State) : (repetitionTimerExpiry s).dispatcher = s.dispatcher := by
  unfold repetitionTimerExpiry
  split <;> rfl

theorem replyHandOver_queueLaw {s : State} (h : s.dispatcher.QueueLaw) : (replyHandOver s).dispatcher.QueueLaw := by
  unfold replyHandOver
  split
  case isFalse => exact h
  case isTrue =>
    split
    case h_1 => exact h
    case h_2 r rest replies =>
      have full := h.replies
      rw [replies, List.length_cons] at full
      exact ⟨h.requests, Nat.le_of_succ_le full, h.cache⟩

theorem frameLeaves_queueLaw {s : State} (h : s.dispatcher.QueueLaw) (source : TxSource) :
    (frameLeaves source s).dispatcher.QueueLaw := by
  show (leavingEffect source s).dispatcher.QueueLaw
  obtain e | ⟨settings, e⟩ | e | e | e := leavingEffect_cases source s <;> rw [e]
  · exact h
  · rw [switchLink_dispatcher]
    exact h
  · exact .empty rfl rfl rfl
  · exact .empty rfl rfl rfl
  · exact h

/-- An owning block leaves the request path alone. -/
theorem serve_dispatcher {k : RequestKind} {payload : List Octet} {s : State} {taken : Taken}
    (served : serve k payload s = .ok taken) : taken.state.dispatcher = s.dispatcher := by
  cases k <;> obtain ⟨a, -, rfl⟩ := map_ok served
  case configureLines => exact (takeConfigureLines_change a s).dispatcher
  case setWatch => exact (takeSetWatch_change a s).dispatcher
  case enableWatch => exact (takeEnableWatch_change a s).dispatcher
  case disableWatch => exact (takeDisableWatch_change a s).dispatcher
  case rearmWatch => exact (takeRearmWatch_change a s).dispatcher
  case driveOutput => exact (takeDriveOutput_change a s).dispatcher
  case setOutputFunction => exact (takeSetOutputFunction_change a s).dispatcher
  case setTime => exact (takeSetTime_change a s).dispatcher
  case fetch => unfold takeFetch; split <;> rfl
  case ack => unfold takeAck; split <;> rfl
  case resume => unfold takeResume; split <;> rfl
  all_goals rfl

/-- A reply that is formed takes one slot, and a cached one has a tag. -/
theorem answer_queueLaw {taken : Taken} (h : taken.state.dispatcher.QueueLaw)
    (slot : taken.state.dispatcher.replies.length < 6) (f : Frame) : (taken.answer f).dispatcher.QueueLaw := by
  rw [answer_eq]
  refine ⟨h.requests, ?_, ?_⟩
  · show (_ ++ [_]).length ≤ 6
    rw [List.length_append]
    exact slot
  · intro e he
    change (if f.tag = 0 then _ else _) = some e at he
    split at he
    case isTrue => exact h.cache e he
    case isFalse tagged => cases he; exact tagged

theorem dispatched_queueLaw {f : Frame} {answer : Except Status Taken} {s : State} (h : s.dispatcher.QueueLaw)
    (can : s.canDispatch = true) (kept : ∀ u, answer = .ok u → u.state.dispatcher = s.popRequest.dispatcher) :
    (dispatched f answer s).dispatcher.QueueLaw := by
  have slot : s.dispatcher.replies.length < 6 := by
    simp only [State.canDispatch, Bool.and_eq_true, decide_eq_true_eq] at can
    exact can.2
  have popped : s.popRequest.dispatcher.QueueLaw :=
    ⟨(List.tail_sublist _).length_le.trans h.requests, h.replies, h.cache⟩
  unfold dispatched
  split
  · refine ⟨popped.requests, ?_, popped.cache⟩
    show (_ ++ [_]).length ≤ 6
    rw [List.length_append]
    exact slot
  · split
    · exact answer_queueLaw (taken := Taken.refuse _ s.popRequest) popped slot f
    · rename_i taken
      exact answer_queueLaw ((kept taken rfl).symm ▸ popped) ((kept taken rfl).symm ▸ slot) f

theorem FieldChange.queueLaw {s t : State} (c : FieldChange s t) (h : s.dispatcher.QueueLaw) : t.dispatcher.QueueLaw :=
  c.dispatcher ▸ h

theorem TimeChange.queueLaw {s t : State} (c : TimeChange s t) (h : s.dispatcher.QueueLaw) : t.dispatcher.QueueLaw :=
  c.dispatcher ▸ h

theorem queueLaw_keeps : Keeps fun s => s.dispatcher.QueueLaw where
  choice _ _ h := h
  moment _ _ h := h
  advance _ _ _ h := h
  powerOn level _ _ := by cases level <;> exact .empty rfl rfl rfl
  resetAssertion s h := by
    obtain same | running := resetAssertion_same_or_running s
    · rw [same]
      exact h
    · rw [resetAssertion_of_running running]
      exact .empty rfl rfl rfl
  resetRelease s h := by
    unfold resetRelease
    split
    · exact h
    · exact h
    · exact ⟨h.requests, h.replies, h.cache⟩
  takeSample s _ h := (takeSample_change s).queueLaw h
  qualifyExpiry w s h := (qualifyExpiry_change w s).queueLaw h
  watchPulseEnd w s h := (watchPulseEnd_change w s).queueLaw h
  hostPulseEnd o s h := (hostPulseEnd_change o s).queueLaw h
  pulse s _ h := (withTime_change s _).queueLaw h
  arrive _ _ h := h
  armDeadlineExpiry s h := (armDeadlineExpiry_change s).queueLaw h
  missedPulseExpiry s h := (missedPulseExpiry_change s).queueLaw h
  retransmitExpiry s h := by rw [retransmitExpiry_eq s]; exact h
  takeOctet data parity stop s h := takeOctet_queueLaw h data parity stop
  frameArrives f _ h := frameArrives_queueLaw h f
  abandonFrame s h := by rw [abandonFrame_dispatcher]; exact h
  foundStart _ _ h := h
  replyHandOver _ h := replyHandOver_queueLaw h
  startNoticeHandOver s h := by rw [startNoticeHandOver_dispatcher]; exact h
  reportHandOver s h := by rw [reportHandOver_dispatcher]; exact h
  frameLeaves source _ h := frameLeaves_queueLaw h source
  repetitionTimerExpiry s h := by rw [repetitionTimerExpiry_dispatcher]; exact h
  request _ _ _ _ _ can h := dispatched_queueLaw h can fun _ served => serve_dispatcher served
  unknown _ _ _ _ can h := dispatched_queueLaw h can fun _ served => by cases served

/-! ## The obligation -/

/-- Settles O59: every operation keeps the ranges of the time base, and a frame or a reply enters a queue only where it has a
free slot. -/
theorem stepKeepsRanges : Obligations.StepKeepsRanges := fun _ _ stepped =>
  ⟨fun h => rangeLaw_keeps.step (fun _ _ h => h) h stepped, fun h => queueLaw_keeps.step (fun _ _ h => h) h stepped⟩

end Sys2Proof.Machine
end

section
/-! PROOF. What holds of every command (sections 4.6 and 4.7), what a held part turns away (R191), and the laws right after
power-on (R192). -/

namespace Sys2Proof.Machine

open Sys2Proof.Claims

/-! ## The queue of commands -/

/-- Settles O1: the two branches of a step, by whether a command waits. -/
theorem stepRunsFrontCommand : Obligations.StepRunsFrontCommand :=
  ⟨fun _ _ _ => rfl, fun s empty => by rw [step, empty]⟩

theorem exec_answers (c : Instr) (s : State) : ∃ t, exec c s = .next t := by
  cases c <;> exact ⟨_, rfl⟩

theorem serve_pending {k : RequestKind} {payload : List Octet} {s : State} {taken : Taken}
    (served : serve k payload s = .ok taken) : taken.state.pending = s.pending := by
  cases k <;> obtain ⟨a, -, rfl⟩ := map_ok served
  case configureLines => exact (takeConfigureLines_change a s).pending
  case setWatch => exact (takeSetWatch_change a s).pending
  case enableWatch => exact (takeEnableWatch_change a s).pending
  case disableWatch => exact (takeDisableWatch_change a s).pending
  case rearmWatch => exact (takeRearmWatch_change a s).pending
  case driveOutput => exact (takeDriveOutput_change a s).pending
  case setOutputFunction => exact (takeSetOutputFunction_change a s).pending
  case setTime => exact (takeSetTime_change a s).pending
  case fetch => unfold takeFetch; split <;> rfl
  case ack => unfold takeAck; split <;> rfl
  case resume => unfold takeResume; split <;> rfl
  all_goals rfl

theorem reportHandOver_pending (s : State) : (reportHandOver s).pending = s.pending := by
  unfold reportHandOver
  split <;> rfl

theorem frameLeaves_pending (source : TxSource) (s : State) : (frameLeaves source s).pending = s.pending := by
  show (leavingEffect source s).pending = s.pending
  obtain e | ⟨settings, e⟩ | e | e | e := leavingEffect_cases source s <;> rw [e]
  · exact (switchLink_change settings s).pending
  · rw [restartFull_eq]
  · rw [restartLink_eq]

/-- No operation of the part touches the queue of commands. -/
theorem pending_keeps (queue : List Instr) : Keeps fun s => s.pending = queue where
  choice _ _ h := h
  moment _ _ h := h
  advance _ _ _ h := h
  powerOn level _ h := by cases level <;> exact h
  resetAssertion s h := by
    obtain same | running := resetAssertion_same_or_running s
    · rw [same]
      exact h
    · rw [resetAssertion_of_running running]
      exact h
  resetRelease s h := by
    unfold resetRelease
    split <;> exact h
  takeSample s _ h := (takeSample_change s).pending.trans h
  qualifyExpiry w s h := (qualifyExpiry_change w s).pending.trans h
  watchPulseEnd w s h := (watchPulseEnd_change w s).pending.trans h
  hostPulseEnd o s h := (hostPulseEnd_change o s).pending.trans h
  pulse s _ h := (withTime_change s _).pending.trans h
  arrive _ _ h := h
  armDeadlineExpiry s h := (armDeadlineExpiry_change s).pending.trans h
  missedPulseExpiry s h := (missedPulseExpiry_change s).pending.trans h
  retransmitExpiry s h := by rw [retransmitExpiry_eq s]; exact h
  takeOctet data parity stop s h := (takeOctet_change data parity stop s).pending.trans h
  frameArrives f s h := (frameArrives_change f s).pending.trans h
  abandonFrame s h := (abandonFrame_change s).pending.trans h
  foundStart confirmed s h := (foundStart_change confirmed s).pending.trans h
  replyHandOver s h := (replyHandOver_change s).pending.trans h
  startNoticeHandOver s h := (startNoticeHandOver_change s).pending.trans h
  reportHandOver s h := (reportHandOver_pending s).trans h
  frameLeaves source s h := (frameLeaves_pending source s).trans h
  repetitionTimerExpiry s h := (repetitionTimerExpiry_change s).pending.trans h
  request _ f _ s _ _ h := dispatched_keeps (fun s => s.pending = queue) (fun _ _ h => h) f _ s h fun _ served =>
    (serve_pending served).trans h
  unknown f _ s _ _ h := dispatched_keeps (fun s => s.pending = queue) (fun _ _ h => h) f _ s h fun _ served => by
    cases served

/-- Settles O2: every arm answers a next state, and the queue of commands is kept by every operation they are made of. -/
theorem everyCommandCompletes : Obligations.EveryCommandCompletes := by
  intro c s
  obtain ⟨t, answers⟩ := exec_answers c s
  exact ⟨t, answers, (pending_keeps s.pending).exec c rfl answers⟩

/-! ## A held part -/

theorem State.isHeld_iff (s : State) : s.isHeld = true ↔ s.hold ≠ .running := by
  cases hold : s.hold <;> simp [State.isHeld, hold]

section
variable {s : State} (held : s.isHeld = true)
include held

theorem sampleReady_of_held : s.sampleReady = false := by simp [State.sampleReady, held]

theorem canDispatch_of_held : s.canDispatch = false := by simp [State.canDispatch, held]

theorem lineFree_of_held : s.lineFree = false := by simp [State.lineFree, held]

theorem exec_command_of_held (k : RequestKind) : exec k.command s = .next s := by
  obtain same | ⟨f, rest, -, can, -⟩ := exec_command_cases k s
  · exact same
  · cases (canDispatch_of_held held).symm.trans can

theorem dispatchUnknown_of_held : dispatchUnknown s = s := by
  simp [dispatchUnknown, canDispatch_of_held held]

theorem resetAssertion_of_held : resetAssertion s = s :=
  (resetAssertion_same_or_running s).resolve_right (s.isHeld_iff.mp held)

end

/-- Settles O3: a held part has no sample to take and no free line, dispatches nothing and does not listen. -/
theorem heldPartTurnsCommandsAway : Obligations.HeldPartTurnsCommandsAway := by
  intro c s shut notRunning
  have held := s.isHeld_iff.mpr notRunning
  have noSample := sampleReady_of_held held
  have noLine := lineFree_of_held held
  have request := fun k => exec_command_of_held held k
  have sampling : ∀ b : Bool, (if (s.sampleReady && b) = true then sampleBehind s else s) = s := by simp [noSample]
  cases c
  case powerOn | resetRelease | tick | qualifyExpiry | watchPulseEnd | hostPulseEnd | syncPulse | slewTick
    | armDeadlineExpiry | missedPulseExpiry | retransmitExpiry | lastOctetLeaves | repetitionTimerExpiry => cases shut
  case resetAssertion => exact congrArg _ (resetAssertion_of_held held)
  case sample => exact congrArg _ (if_neg (by simp [noSample]))
  case settleEnd => exact congrArg _ (sampling _)
  case chatterWindowExpiry => exact congrArg _ (sampling _)
  case recoveryExpiry => exact congrArg _ (sampling _)
  case octetArrives => exact congrArg _ (if_pos held)
  case interOctetTimeout => exact congrArg _ (if_neg (by simp [State.gapExpires, held]))
  case startBitFound => exact congrArg _ (if_neg (by simp [State.findsStartBit, held]))
  case replyHandOver => exact congrArg _ (if_neg (by simp [State.replyWaits, noLine]))
  case startNoticeHandOver => exact congrArg _ (if_neg (by simp [State.noticeWaits, noLine]))
  case reportHandOver => exact congrArg _ (if_neg (by simp [State.reportWaits, noLine]))
  case dispatchUnknownKind => exact congrArg _ (dispatchUnknown_of_held held)
  case identify => exact request .identify
  case linkStatus => exact request .linkStatus
  case setLink => exact request .setLink
  case restart => exact request .restart
  case configureLines => exact request .configureLines
  case readLines => exact request .readLines
  case setWatch => exact request .setWatch
  case enableWatch => exact request .enableWatch
  case disableWatch => exact request .disableWatch
  case rearmWatch => exact request .rearmWatch
  case queryWatch => exact request .queryWatch
  case driveOutput => exact request .driveOutput
  case setOutputFunction => exact request .setOutputFunction
  case readOutputs => exact request .readOutputs
  case setTime => exact request .setTime
  case setTimeAtPulse => exact request .setTimeAtPulse
  case setSync => exact request .setSync
  case configureTime => exact request .configureTime
  case readTime => exact request .readTime
  case fetch => exact request .fetch
  case ack => exact request .ack
  case setDelivery => exact request .setDelivery
  case resume => exact request .resume
  case journalStatus => exact request .journalStatus
  case clearJournal => exact request .clearJournal

/-! ## The laws right after power-on -/

/-- Settles O60: the reset state is what POWER_ON with the RESET line HIGH leaves, of which every law holds. -/
theorem lawsHoldAtReset : Obligations.LawsHoldAtReset := by
  have table : State.TableLaws State.reset := .of_absent fun w => congrArg Watch.definition (powerOn_watch .high .reset w)
  exact ⟨powerOn_deliveryLaws .high .reset, (ownershipLaw_iff _).mpr (Owned.powerOn .high .reset), table.1, table.2,
    .powerOn, .empty rfl rfl rfl⟩

end Sys2Proof.Machine
end

section
/-! PROOF. The starts (chapter 10): what POWER_ON, the RESET line's assertion and release, and the leaving of a frame's last
octet leave in each block. -/

namespace Sys2Proof.Machine

open Sys2Proof.Claims

/-! ## The starts, by the hold they find -/

theorem resetRelease_of_running {s : State} (running : s.hold = .running) : resetRelease s = s := by
  unfold resetRelease
  split
  case h_1 => rfl
  case h_2 held => cases running.symm.trans held
  case h_3 held => cases running.symm.trans held

theorem resetRelease_of_powerOn {s : State} (held : s.hold = .held true) :
    resetRelease s = { s with hold := .running, front := s.front.fullStart, announcer := .started .powerOn } := by
  unfold resetRelease
  split
  case h_1 running => cases held.symm.trans running
  case h_2 => rfl
  case h_3 later => cases held.symm.trans later

theorem resetRelease_of_assertion {s : State} (held : s.hold = .held false) :
    resetRelease s = ({ s with hold := .running } : State).announceStart .resetLine := by
  unfold resetRelease
  split
  case h_1 running => cases held.symm.trans running
  case h_2 first => cases held.symm.trans first
  case h_3 => rfl

/-! ## POWER_ON -/

/-- The journal is empty after either POWER_ON, so that the first record takes number 0 (R21). -/
theorem powerOn_journal (reset : Level) (s : State) : (powerOn reset s).journal = .powerOn := by
  cases reset <;> rfl

theorem powerOn_release (reset : Level) (s : State) :
    (resetRelease (powerOn reset s)).journal = .powerOn ∧ (resetRelease (powerOn reset s)).announcer.cause = .powerOn
      ∧ (resetRelease (powerOn reset s)).dispatcher.lastStartCause = .powerOn := by
  cases reset with
  | high =>
    rw [resetRelease_of_running rfl]
    exact ⟨rfl, rfl, rfl⟩
  | low =>
    rw [resetRelease_of_powerOn rfl]
    exact ⟨rfl, rfl, rfl⟩

/-- Settles O4: POWER_ON leaves the empty journal, which the release that follows does not touch. -/
theorem powerOnEmptiesJournal : Obligations.PowerOnEmptiesJournal := by
  refine ⟨fun reset s => ⟨_, rfl, powerOn_journal reset s, ⟨_, rfl, ?_⟩, ?_, fun now r => ?_⟩, fun s running =>
    congrArg _ (resetRelease_of_running running)⟩
  · obtain ⟨journal, cause, last⟩ := powerOn_release reset s
    exact ⟨journal.trans (powerOn_journal reset s).symm, cause, last⟩
  · rintro rfl
    exact ⟨rfl, congrArg _ (resetRelease_of_running rfl)⟩
  · rw [powerOn_journal]
    rfl

/-- Settles O6: both POWER_ON states are the reset state but for the hold and the notice that is due. -/
theorem powerOnSetsDefaults : Obligations.PowerOnSetsDefaults := by
  intro reset s
  have line : ∀ i : Fin 32, State.reset.front.lines[i] = Line.powerOn := fun i => getElem_ofFn_fin _ i
  have output : ∀ o : Fin 8, State.reset.outputs[o] = Output.default o := fun o => getElem_ofFn_fin _ o
  refine ⟨powerOn reset s, rfl, ?_⟩
  cases reset
  all_goals
    refine ⟨rfl, fun i => line i, rfl, rfl, fun o => ?_, rfl, rfl, rfl, rfl, rfl, rfl, rfl, rfl, rfl, rfl, rfl, rfl, rfl,
      rfl, rfl, rfl, rfl, rfl, rfl, rfl, rfl, rfl, rfl, rfl, rfl, rfl⟩
    rw [show (powerOn _ s).outputs[o] = Output.default o from output o]
    exact ⟨rfl, rfl⟩

/-! ## The RESET line -/

/-- Settles O7: the assertion's state, block by block. -/
theorem resetAssertionHoldsPart : Obligations.ResetAssertionHoldsPart := by
  intro s running
  refine ⟨_, congrArg Host.Outcome.next (resetAssertion_of_running running), rfl, fun i => ?_, s.front.assertReset_sampleDue,
    s.front.assertReset_pins, fun w => ?_, fun o => ⟨?_, rfl⟩,
    rfl, rfl, rfl, rfl, rfl, rfl, rfl, rfl, rfl, rfl, rfl, rfl, rfl, rfl, rfl, rfl, rfl, rfl, rfl, rfl, rfl, rfl, rfl, rfl,
    rfl⟩
  · exact s.front.assertReset_lines i.val i.isLt
  · exact fullStartWatches_getElem s.watches w.val w.isLt
  · exact getElem_ofFn_fin Output.default o

theorem FrontEnd.getElem_fullStart (f : FrontEnd) (i : Fin 32) :
    f.fullStart.lines[i] =
      { f.lines[i] with
        config := { sense := .normal, settle := 3, recording := .silent, limit := 0, window := 1024, recovery := 5120 }
        filter := .stable, chatter := .quiet } :=
  f.fullStart_lines i.val i.isLt

/-- Settles O8: a release is a full start after an assertion, and the end of the power-on start after a POWER_ON. -/
theorem resetReleaseStartsPart : Obligations.ResetReleaseStartsPart := by
  intro fromPowerOn s held
  cases fromPowerOn
  case false =>
    exact ⟨_, congrArg Host.Outcome.next (resetRelease_of_assertion held), rfl, s.front.getElem_fullStart, rfl,
      s.front.fullStart_pins, s.front.fullStart_sampleDue, rfl, rfl, rfl, rfl⟩
  case true =>
    exact ⟨_, congrArg Host.Outcome.next (resetRelease_of_powerOn held), rfl, s.front.getElem_fullStart, rfl,
      s.front.fullStart_pins, s.front.fullStart_sampleDue, rfl, rfl, rfl, rfl⟩

/-! ## The leaving of a last octet -/

theorem exec_lastOctetLeaves {source : TxSource} {octets : List Octet} {s u : State} (found : u = s.found .transmitter)
    (sending : s.link.line = .sending source octets) : exec .lastOctetLeaves s = .next (frameLeaves source u) := by
  show Host.Outcome.next (lastOctetLeaves s) = _
  rw [lastOctetLeaves, sending, found]

theorem Delivery.reportLeft_loads {d : Delivery} (stream : d.settings.mode = .stream) (running : d.state = .running) :
    d.reportLeft = { d with timer := some ⟨d.settings.interval, false⟩ } := if_pos ⟨stream, running⟩

theorem Delivery.reportLeft_same {d : Delivery} (other : d.settings.mode = .polled ∨ d.state = .stalled) :
    d.reportLeft = d := by
  refine if_neg fun ⟨stream, running⟩ => ?_
  obtain polled | stalled := other
  · cases polled.symm.trans stream
  · cases stalled.symm.trans running

theorem switchLink_same {settings : LinkSettings} {s : State} (same : settings = s.link.settings) :
    switchLink settings s = s := if_pos same

/-- Where the settings differ, a frame in progress is abandoned and counted as a timeout (R161, R168). -/
theorem switchLink_differs {settings : LinkSettings} {s : State} (differ : settings ≠ s.link.settings) :
    switchLink settings s = { s with link :=
      { settings, receiver := .waitHigh, assembler := .hunt, line := s.link.line
        counters :=
          if s.link.assembler = .hunt then s.link.counters
          else { s.link.counters with timeouts := saturating s.link.counters.timeouts } } } := by
  rw [switchLink, if_neg differ]
  cases assembler : s.link.assembler with
  | hunt => simp only [abandonFrame, assembler, State.setReceiver, if_true]
  | length | body | check =>
    simp only [abandonFrame, assembler, State.setReceiver, State.setAssembler, State.countLink, reduceCtorEq, if_false]
    rfl

/-- Settles O10: each source's own effect, and the line FREE after it. -/
theorem lastOctetOfOtherFrames : Obligations.LastOctetOfOtherFrames := by
  intro octets s u found
  refine ⟨fun link => exec_lastOctetLeaves found link, fun plain => exec_lastOctetLeaves found plain,
    fun notice => exec_lastOctetLeaves found notice, fun report stream running => ?_, fun report other => ?_,
    fun settings switch => ⟨fun same => ?_, fun differ => ?_⟩⟩
  · rw [exec_lastOctetLeaves found report, ← Delivery.reportLeft_loads stream running]
    rfl
  · rw [exec_lastOctetLeaves found report, frameLeaves, leavingEffect, Delivery.reportLeft_same other]
  · rw [exec_lastOctetLeaves found switch, frameLeaves, leavingEffect, switchLink_same same]
  · rw [exec_lastOctetLeaves found switch, frameLeaves, leavingEffect, switchLink_differs differ]

/-! ## RESTART FULL -/

theorem parityBad_eq (s : State) (data : Octet) (parityLevel : Level) :
    parityBad s data parityLevel = parityError s.link.settings.parity data parityLevel := by
  unfold parityBad parityError parityBit highBits
  generalize (List.range 8).countP data.getLsbD = ones
  have odd := Nat.mod_two_eq_zero_or_one ones
  cases s.link.settings.parity <;> cases parityLevel
  all_goals rcases odd with even | odd <;> simp [*, Nat.add_mod]

/-- A reception that ends well hands over its frame (R160). -/
theorem completes_some {r : Reception} {data : Octet} {parityLevel stopLevel : Level} {len : Nat} {kind tag high : Octet}
    {payload : List Octet} (check : r.assembler = .check len (kind :: tag :: payload) (high ++ data) false (some high))
    (good : parityError r.parity data parityLevel = false) (stop : stopLevel ≠ .low) :
    r.completes data parityLevel stopLevel = some { kind, tag, payload } := by
  simp [Reception.completes, check, good, stop, frameOf]

theorem completes_none {r : Reception} {data : Octet} {parityLevel stopLevel : Level}
    (other : ∀ len octets crc high, r.assembler = .check len octets crc false (some high) →
      (parityError r.parity data parityLevel || decide (stopLevel = .low)) = true ∨ crc ≠ high ++ data) :
    r.completes data parityLevel stopLevel = none := by
  unfold Reception.completes
  split
  case h_1 len octets crc damaged high check =>
    refine if_pos ?_
    cases damaged with
    | true => simp
    | false =>
      obtain bad | differs := other _ _ _ _ check
      · rw [Bool.false_or, bad, Bool.true_or]
      · simp [differs]
  case h_2 => rfl

theorem cutOff_none {u : State} (h : u.link.receiver ≠ .receiving ∨ u.moment.received = true) : u.cutOff = none := by
  unfold State.cutOff Link.inProgress
  split
  case isTrue => rfl
  case isFalse notReceived =>
    split
    case h_1 receiving => exact absurd receiving (h.resolve_right notReceived)
    case h_2 => rfl

theorem cutOff_some {u : State} (receiving : u.link.receiver = .receiving) (fresh : u.moment.received = false) :
    u.cutOff = some { parity := u.link.settings.parity, assembler := u.link.assembler } := by
  simp [State.cutOff, Link.inProgress, receiving, fresh]

section
variable {t : State} (running : t.hold = .running) (waits : t.link.receiver = .waitHigh)
include running waits

theorem octetArrives_uncut (cut : t.moment.cut = none) (data : Octet) (parityLevel stopLevel : Level) :
    octetArrives data parityLevel stopLevel t = t := by
  simp [octetArrives, State.isHeld, running, waits, cut]

/-- An octet of the reception that a start has cut off is taken after the start (log entry 26). -/
theorem octetArrives_cut {r : Reception} (cut : t.moment.cut = some r) (data : Octet) (parityLevel stopLevel : Level) :
    octetArrives data parityLevel stopLevel t
      = arriveAfterStart r data parityLevel stopLevel { t with moment := t.moment.join .receiver } := by
  simp [octetArrives, State.isHeld, running, waits, cut]

end

/-- The part after the start of a RESTART FULL, with the line FREE (R163, R195). -/
def afterFullStart (u : State) : State :=
  { u with
    front := u.front.fullStart
    watches := fullStartWatches u.watches
    outputs := Vector.ofFn Output.default
    time := u.time.fullStart
    journal := u.journal.returnAll.arrive u.time.fullStart.now
      { cls := .alarm, stamp := u.time.fullStart.now
        body := .restart .restartFull u.journal.heldCount u.journal.deliveredCount }
    delivery := .powerOn
    link := { u.link.fullStart with line := .free }
    dispatcher := { requests := [], replies := [], cache := none, lastStartCause := .restartFull }
    announcer := .started .restartFull
    moment := { u.moment with cut := u.cutOff } }

theorem frameLeaves_restartFull (u : State) : frameLeaves (.reply (some (.start .full))) u = afterFullStart u := by
  rw [frameLeaves, leavingEffect, restartFull_eq]
  rfl

theorem afterFullStart_hold (u : State) : (afterFullStart u).hold = u.hold := by rw [afterFullStart]

theorem afterFullStart_moment (u : State) : (afterFullStart u).moment = { u.moment with cut := u.cutOff } := by
  rw [afterFullStart]

theorem afterFullStart_receiver (u : State) : (afterFullStart u).link.receiver = .waitHigh := by
  rw [afterFullStart, Link.fullStart]

section
variable {u : State} (running : u.hold = .running) (data : Octet) (parityLevel stopLevel : Level)
include running

theorem octetArrives_afterFullStart_none (cut : u.cutOff = none) :
    octetArrives data parityLevel stopLevel (afterFullStart u) = afterFullStart u :=
  octetArrives_uncut ((afterFullStart_hold u).trans running) (afterFullStart_receiver u)
    ((congrArg Moment.cut (afterFullStart_moment u)).trans cut) data parityLevel stopLevel

theorem octetArrives_afterFullStart (had : u.moment.transmitted = true) (receiving : u.link.receiver = .receiving)
    (fresh : u.moment.received = false) :
    octetArrives data parityLevel stopLevel (afterFullStart u)
      = arriveAfterStart { parity := u.link.settings.parity, assembler := u.link.assembler } data parityLevel stopLevel
          { afterFullStart u with moment := { received := true, transmitted := true, cut := none } } := by
  rw [octetArrives_cut ((afterFullStart_hold u).trans running) (afterFullStart_receiver u)
    ((congrArg Moment.cut (afterFullStart_moment u)).trans (cutOff_some receiving fresh)), afterFullStart_moment, Moment.join,
    had]

end

/-- With nothing queued, a frame that arrives is queued and answers the announcement of a start (R175, R199). -/
theorem frameArrives_started {t : State} {cause : StartCause} (f : Frame) (empty : t.dispatcher.requests = [])
    (started : t.announcer = .started cause) :
    frameArrives f t = { t with
      dispatcher := { t.dispatcher with requests := [f] }, announcer := { t.announcer with answered := true } } := by
  rw [frameArrives, empty, started]
  rfl

/-- Settles O9: the start block by block; an octet after it meets what the start has cut off. -/
theorem restartFullAtLastOctet : Obligations.RestartFullAtLastOctet := by
  intro octets s u sending found
  have had : u.moment.transmitted = true := by rw [found]; exact found_had .transmitter s
  refine ⟨_, (exec_lastOctetLeaves found sending).trans
      (congrArg Host.Outcome.next ((frameLeaves_restartFull u).trans (afterFullStart.eq_def u))), rfl, u.front.getElem_fullStart, rfl,
    u.front.fullStart_pins, u.front.fullStart_sampleDue, fun w => ?_,
    fun o => ?_, rfl, rfl, rfl, rfl, rfl, rfl, rfl, rfl, rfl, rfl, rfl, rfl, rfl, rfl, rfl, rfl, rfl, rfl, rfl, rfl, rfl,
    fun data parityLevel stopLevel running => ⟨fun other => ?_, fun receiving fresh => ⟨?_, fun discarded => ?_⟩⟩⟩
  · exact fullStartWatches_getElem u.watches w.val w.isLt
  · exact getElem_ofFn_fin Output.default o
  · exact congrArg Host.Outcome.next (octetArrives_afterFullStart_none running _ _ _ (cutOff_none other))
  · intro len kind tag payload high check good
    simp only [octetBad, parityBad_eq, Bool.or_eq_false_iff, decide_eq_false_iff_not] at good
    refine congrArg Host.Outcome.next ((octetArrives_afterFullStart running _ _ _ had receiving fresh).trans ?_)
    rw [arriveAfterStart, completes_some check good.1 good.2]
    dsimp only
    rw [frameArrives_started _ rfl rfl, afterFullStart]
  · refine congrArg Host.Outcome.next ((octetArrives_afterFullStart running _ _ _ had receiving fresh).trans ?_)
    rw [arriveAfterStart, completes_none (by simpa only [octetBad, parityBad_eq] using discarded), afterFullStart]

end Sys2Proof.Machine
end

section
/-! PROOF. One sample (chapter 2): what it does to a line, by the chatter state and by what the settle filter makes; the
requests that come before it (R56); and the records of the lines. -/

namespace Sys2Proof.Machine

open Sys2Proof.Claims

/-! ## One line at one sample -/

theorem rawLevel_eq (s : State) (i : Fin 32) :
    rawLevel s i = senseLevel s.front.lines[i].config.sense (levelIn s.front.pins i) := by
  unfold rawLevel levelIn
  cases s.front.lines[i].config.sense <;> cases s.front.pins.getLsbD i.val <;> rfl

theorem settleTicks_eq {n : Nat} (h : n ≤ 7) : settleTicks n = settleTime n := by
  interval_cases n <;> rfl

theorem settleTime_eq_zero {n : Nat} : settleTime n = 0 ↔ n = 0 := by
  cases n with
  | zero => simp [settleTime]
  | succ n => simp [settleTime]

theorem windowStep_eq (c : Chatter) : windowStep c = windowAfter c := by
  cases c <;> rfl

theorem edgeRecord_eq (recording : Recording) (e : Edge) :
    edgeRecord recording e = edgeRecords recording e.line e.level e.stamp e.recovered := by
  cases recording <;> rfl

/-- What line `i` does at the sample of the present tick. -/
def State.sampleResult (s : State) (i : Fin 32) : LineResult :=
  sampleLine i (levelIn s.front.pins i) s.time.now s.front.lines[i]

theorem sampleResults_getElem (s : State) (i : Fin 32) : s.sampleResults[i] = s.sampleResult i :=
  getElem_ofFn_fin _ i

theorem sampled_line (s : State) (i : Fin 32) : s.sampled.front.lines[i] = (s.sampleResult i).line :=
  (getElem_ofFn_fin _ i).trans (congrArg LineResult.line (sampleResults_getElem s i))

section
variable {s : State} {i : Fin 32}

/-- The edge that the settle filter makes, and the filter state it is left in with an edge (R28, R29). -/
theorem filterStep_edge (s : State) (i : Fin 32) :
    (filterStep s.front.lines[i] (rawLevel s i) s.time.now).2 = edgeMade s i
      ∧ (edgeMade s i ≠ none → (filterStep s.front.lines[i] (rawLevel s i) s.time.now).1 = .stable) := by
  unfold filterStep edgeMade
  by_cases same : rawLevel s i = s.front.lines[i].filtered
  · simp only [same, if_true]
    split <;> simp
  · simp only [same, if_false]
    cases s.front.lines[i].filter with
    | stable =>
      by_cases zero : s.front.lines[i].config.settle = 0
      · simp only [if_pos (settleTime_eq_zero.mpr zero), if_pos zero, implies_true, and_self]
      · simp only [if_neg (mt settleTime_eq_zero.mp zero), if_neg zero, true_and, ne_eq, not_true, false_implies]
    | settling captured left => by_cases ends : left ≤ 1 <;> simp [ends]

/-- A line that is not SUPPRESSED makes no edge: raw level, filter and chatter window are all. -/
theorem sampleResult_noEdge (unsuppressed : ∀ left, s.front.lines[i].chatter ≠ .suppressed left)
    (none : edgeMade s i = none) :
    s.sampleResult i =
      { line := { s.front.lines[i] with
          raw := rawLevel s i, filter := (filterStep s.front.lines[i] (rawLevel s i) s.time.now).1
          chatter := windowAfter s.front.lines[i].chatter }
        edge := Option.none, sent := [] } := by
  have edge := (filterStep_edge s i).1.trans none
  rw [State.sampleResult, sampleLine, ← rawLevel_eq]
  dsimp only
  split
  case h_1 left suppressed => exact absurd suppressed (unsuppressed left)
  case h_2 => rw [edge, windowStep_eq]

/-- A line that is not SUPPRESSED makes an edge, which is put to chatter supervision. -/
theorem sampleResult_edge {stamp : Stamp} (unsuppressed : ∀ left, s.front.lines[i].chatter ≠ .suppressed left)
    (some : edgeMade s i = some stamp) :
    s.sampleResult i = superviseEdge i stamp { s.front.lines[i] with
      raw := rawLevel s i, filter := .stable, chatter := windowAfter s.front.lines[i].chatter } := by
  have edge := (filterStep_edge s i).1.trans some
  have stable := (filterStep_edge s i).2 (by simp [some])
  rw [State.sampleResult, sampleLine, ← rawLevel_eq]
  dsimp only
  split
  case h_1 left suppressed => exact absurd suppressed (unsuppressed left)
  case h_2 => rw [edge, stable, windowStep_eq]

theorem unsuppressed_of_passedTo {l : Line} {chatter : Chatter} (passed : passedTo l = some chatter) (left : Nat) :
    l.chatter ≠ .suppressed left := by
  intro suppressed
  unfold passedTo at passed
  split at passed <;> simp [suppressed] at passed

/-- An edge that passes chatter supervision takes effect (R30 to R33). -/
theorem superviseEdge_passed {l : Line} {chatter : Chatter} (passed : passedTo l = some chatter) (i : Fin 32)
    (stamp : Stamp) (raw : Level) :
    superviseEdge i stamp { l with raw, filter := .stable, chatter := windowAfter l.chatter } =
      { line := { l with raw, filtered := raw, filter := .stable, chatter }
        edge := some { line := i, level := raw, stamp, recovered := false }
        sent := edgeRecords l.config.recording i raw stamp false } := by
  have supervised : supervise l.config (windowAfter l.chatter) = .passed chatter := by
    unfold passedTo at passed
    cases before : l.chatter with
    | quiet =>
      by_cases limit : l.config.limit = 0 <;> simp [before, limit] at passed <;>
        simp [windowAfter, supervise, limit, ← passed]
    | counting count left =>
      by_cases limit : l.config.limit = 0
      · simp [before, limit] at passed
        by_cases ends : left ≤ 1 <;> simp [windowAfter, supervise, limit, ends, ← passed]
      · by_cases ends : left ≤ 1
        · simp [before, limit, ends] at passed
          simp [windowAfter, supervise, limit, ends, passed]
        · by_cases within : count + 1 ≤ l.config.limit <;> simp [before, limit, ends, within] at passed
          simp [windowAfter, supervise, limit, ends, within, passed]
    | suppressed left => exact absurd before (unsuppressed_of_passedTo passed left)
  simp only [superviseEdge, supervised, edgeRecord_eq]

/-- An edge beyond the chatter limit is withheld (R33, R34). -/
theorem superviseEdge_withheld {l : Line} {count left : Nat} (counting : l.chatter = .counting count left) (runs : 1 < left)
    (limited : l.config.limit ≠ 0) (beyond : l.config.limit < count + 1) (i : Fin 32) (stamp : Stamp) (raw : Level) :
    superviseEdge i stamp { l with raw, filter := .stable, chatter := windowAfter l.chatter } =
      { line := { l with raw, filter := .stable, chatter := .suppressed l.config.recovery }, edge := none
        sent := [{ cls := .routine, stamp, body := .chatterOn i (count + 1) }] } := by
  have supervised : supervise l.config (windowAfter l.chatter) = .withheld (count + 1) := by
    simp [counting, windowAfter, supervise, limited, Nat.not_le.mpr runs, Nat.not_le.mpr beyond]
  simp only [superviseEdge, supervised]

theorem sampleResult_suppressed {left : Nat} (suppressed : s.front.lines[i].chatter = .suppressed left) :
    s.sampleResult i = suppressedStep i (rawLevel s i) s.time.now left s.front.lines[i] := by
  rw [State.sampleResult, sampleLine, ← rawLevel_eq]
  dsimp only
  split
  case h_1 again => cases suppressed.symm.trans again; rfl
  case h_2 not => exact absurd suppressed (not left)

/-- The end of a suppression by itself: the line QUIET at its raw level, with its records (R36). -/
theorem endSuppression_eq (i : Fin 32) (now : Stamp) (l : Line) :
    endSuppression i now l =
      { line := { l with filtered := l.raw, filter := .stable, chatter := .quiet }
        edge := if l.raw = l.filtered then none else some { line := i, level := l.raw, stamp := now, recovered := true }
        sent := (if l.raw = l.filtered then [] else edgeRecords l.config.recording i l.raw now true)
          ++ [{ cls := .routine, stamp := now, body := .chatterOff i }] } := by
  unfold endSuppression
  dsimp only
  split <;> simp only [edgeRecord_eq, List.nil_append]

/-- The records that a line sends (R31, R34, R36). -/
theorem sampleResult_sent (s : State) (i : Fin 32) : (s.sampleResult i).sent = lineRecords s i := by
  unfold lineRecords
  dsimp only
  split
  case h_1 made left suppressed =>
    rw [sampleResult_suppressed suppressed, suppressedStep]
    by_cases same : rawLevel s i = s.front.lines[i].raw
    · rw [if_neg (not_not.mpr same)]
      by_cases ends : left ≤ 1
      · rw [if_pos ends, if_pos ⟨same, ends⟩, endSuppression_eq, same]
      · rw [if_neg ends, if_neg fun h => ends h.2]
    · rw [if_pos same, if_neg fun h => same h.1]
  case h_2 chatter none unsuppressed =>
    rw [sampleResult_noEdge (fun left suppressed => unsuppressed left suppressed) none]
  case h_3 stamp quiet some =>
    rw [sampleResult_edge (fun left h => nomatch quiet.symm.trans h) some]
    obtain ⟨chatter, passed⟩ : ∃ chatter, passedTo s.front.lines[i] = Option.some chatter := by
      unfold passedTo
      split <;> rw [quiet] <;> exact ⟨_, rfl⟩
    rw [superviseEdge_passed passed]
  case h_4 count left stamp counting some =>
    rw [sampleResult_edge (fun left h => nomatch counting.symm.trans h) some]
    cases passed : passedTo s.front.lines[i] with
    | some chatter => rw [superviseEdge_passed passed, if_pos (by rfl)]
    | none =>
      rw [if_neg (by simp)]
      have beyond : s.front.lines[i].config.limit ≠ 0 ∧ 1 < left ∧ s.front.lines[i].config.limit < count + 1 := by
        simp only [passedTo, counting] at passed
        split at passed
        · cases passed
        · split at passed
          · cases passed
          · split at passed
            · cases passed
            · omega
      rw [superviseEdge_withheld counting beyond.2.1 beyond.1 beyond.2.2]

/-- An uneventful line delivers no edge and sends no record. -/
theorem sampleResult_uneventful (h : Uneventful s i) : (s.sampleResult i).edge = none ∧ (s.sampleResult i).sent = [] := by
  unfold Uneventful at h
  split at h
  case h_1 left suppressed =>
    rw [sampleResult_suppressed suppressed, suppressedStep]
    split
    · exact ⟨rfl, rfl⟩
    · rename_i same
      rw [if_neg (Nat.not_le.mpr (h.resolve_left same))]
      exact ⟨rfl, rfl⟩
  case h_2 unsuppressed =>
    rw [sampleResult_noEdge (fun left suppressed => unsuppressed left suppressed) h]
    exact ⟨rfl, rfl⟩

end

/-! ## The sample of all lines -/

theorem sampleReady_of {s : State} (h : Sampling s) : s.sampleReady = true := by
  simp [State.sampleReady, State.isHeld, h.running, h.due]

/-- A sample that is no first one: the lines act, and the edges are delivered. -/
theorem takeSample_later {s : State} (later : s.front.firstSample = false) :
    takeSample s = (deliver s.sampleEdges
      { state := s.sampled, sent := [(List.finRange 32).flatMap fun i => s.sampleResults[i].sent] }).finish := by
  rw [takeSample, later]
  rfl

theorem takeSample_front {s : State} (later : s.front.firstSample = false) : (takeSample s).front = s.sampled.front := by
  rw [takeSample_later later]
  exact runFinish_front _ _

theorem sampleEdges_nil {s : State} (none : ∀ i, (s.sampleResult i).edge = none) : s.sampleEdges = [] := by
  unfold State.sampleEdges
  simp only [List.filterMap_eq_nil_iff, sampleResults_getElem, none, implies_true]

theorem lines_sent (s : State) :
    ((List.finRange 32).flatMap fun i => s.sampleResults[i].sent) = (List.finRange 32).flatMap (lineRecords s) := by
  simp only [sampleResults_getElem, sampleResult_sent]

theorem deliveryTasks_nil (s : State) : s.deliveryTasks [] = [] := by
  unfold State.deliveryTasks
  refine List.filterMap_eq_nil_iff.mpr fun w _ => ?_
  split
  · rfl
  · exact if_pos rfl

theorem deliveryTasks_disabled {s : State} (h : AllDisabled s) (edges : List Edge) : s.deliveryTasks edges = [] := by
  unfold State.deliveryTasks State.evaluation
  refine List.filterMap_eq_nil_iff.mpr fun w _ => ?_
  split
  · rfl
  · split
    · rfl
    · exact if_pos (h w)

theorem sampled_eq (s : State) : s.sampled = { s with front := s.sampled.front } := by simp only [State.sampled]

theorem sampled_pins (s : State) : s.sampled.front.pins = s.front.pins := by simp only [State.sampled]

theorem sampled_firstSample (s : State) : s.sampled.front.firstSample = s.front.firstSample := by simp only [State.sampled]

/-- Where the delivery gives the watches nothing to do, the sample is what the lines do and send. -/
theorem takeSample_lines {s : State} (later : s.front.firstSample = false)
    (idle : s.sampled.deliveryTasks s.sampleEdges = []) :
    takeSample s = { s with
      front := s.sampled.front, journal := arrived s ((List.finRange 32).flatMap (lineRecords s)) } := by
  rw [takeSample_later later, deliver, idle, run_nil, Work.finish, send_single_eq, lines_sent]
  generalize (List.finRange 32).flatMap (lineRecords s) = records
  dsimp only
  rw [sampled_eq]
  rfl

/-! ## The requests that come before the sample -/

theorem code_of_ofCode {o : Octet} {k : RequestKind} (h : RequestKind.ofCode o = some k) : o = requestOctet k := by
  rw [requestOctet_eq_code]
  rw [RequestKind.ofCode] at h
  exact (beq_iff_eq.mp (List.find?_some (p := fun k : RequestKind => k.code == o) h)).symm

theorem dispatchedNow_subset (s : State) {f : Frame} (h : f ∈ s.dispatchedNow) : f ∈ s.dispatcher.requests := by
  unfold State.dispatchedNow at h
  split at h
  · cases h
  · exact List.mem_of_mem_take h

theorem requestDeparts_kind {s : State} {p : Fin 16} {f : Frame} (h : s.requestDeparts p f = true) :
    f.kind = requestOctet .disableWatch ∨ f.kind = requestOctet .rearmWatch ∨ f.kind = requestOctet .configureLines := by
  unfold State.requestDeparts at h
  split at h
  case h_1 kind => exact .inl (code_of_ofCode kind)
  case h_2 kind => exact .inr (.inl (code_of_ofCode kind))
  case h_3 kind => exact .inr (.inr (code_of_ofCode kind))
  case h_4 => cases h

theorem tripsAtOnce_iff {s : State} {p w : Fin 16} :
    s.tripsAtOnce p w = true ↔
      ∃ d, s.watches[w].definition = some d ∧ s.watches[w].state = .armed ∧ d.qualify = 0 ∧ d.prerequisite = some p := by
  unfold State.tripsAtOnce
  split
  case h_1 d definition armed => simp [-Fin.getElem_fin, definition, armed]
  case h_2 other =>
    simp only [Bool.false_eq_true, false_iff]
    rintro ⟨d, definition, armed, -⟩
    exact other d definition armed

theorem isTripped_iff {x : WatchState} : x.isTripped = true ↔ ∃ onset, x = .tripped onset ∨ x = .held onset := by
  cases x <;> simp [WatchState.isTripped]

/-- A dependent that the delivery trips at once has a prerequisite that is TRIPPED or HELD. -/
theorem tripsDependent_prerequisite {s : State} {edges : List Edge} {p : Fin 16} (h : s.tripsDependent edges p = true) :
    ∃ (w : Fin 16) (d : WatchDef), s.watches[w].definition = some d ∧ s.watches[w].state = .armed ∧ d.qualify = 0 ∧ d.prerequisite = some p
      ∧ s.watches[p].state.isTripped = true ∧ edgesOn d edges ≠ [] ∧ s.condition d = true := by
  simp only [State.tripsDependent, Bool.and_eq_true, List.any_eq_true, Option.any_eq_true, decide_eq_true_eq] at h
  obtain ⟨-, w, -, once, d, definition, edge, condition⟩ := h
  obtain ⟨d', definition', armed, zero, prerequisite⟩ := tripsAtOnce_iff.mp once
  cases definition.symm.trans definition'
  refine ⟨w, d, definition, armed, zero, prerequisite, ?_, edge, condition⟩
  have tripped := (Bool.and_eq_true_iff.mp condition).2
  simpa only [State.prerequisiteTripped, prerequisite] using tripped

theorem requestsFirst_alone {s : State} (alone : SampleAlone s) : s.requestsFirst = false := by
  refine Bool.eq_false_iff.mpr fun first => ?_
  simp only [State.requestsFirst, Bool.and_eq_true, List.any_eq_true] at first
  obtain ⟨-, p, -, ⟨f, queued, departs⟩, trips⟩ := first
  obtain others | untripped := alone
  · obtain ⟨disable, rearm, configure⟩ := others f (dispatchedNow_subset s queued)
    rcases requestDeparts_kind departs with kind | kind | kind <;> contradiction
  · obtain ⟨w, d, definition, armed, zero, prerequisite, tripped, -⟩ := tripsDependent_prerequisite trips
    rw [sampled_watches] at definition armed tripped
    obtain ⟨onset, tripped | held⟩ := isTripped_iff.mp tripped
    · exact (untripped w p d definition armed zero prerequisite onset).1 tripped
    · exact (untripped w p d definition armed zero prerequisite onset).2 held

theorem dispatching_event (s : State) : Dispatching s (dispatcherEvent s) := by
  unfold dispatcherEvent
  split
  · obtain same | unknown | ⟨k, command⟩ := dispatchOldest_cases s
    · rw [same]
      exact .none s
    · exact .event .dispatchUnknownKind (.inr (.inl rfl)) (by rw [unknown]; rfl) (.none _)
    · exact .event k.command (.inl ⟨k, rfl⟩) command (.none _)
  · split
    · exact .event .replyHandOver (.inr (.inr rfl)) rfl (.none _)
    · exact .none s

theorem dispatching_trans {s t u : State} (h : Dispatching s t) (g : Dispatching t u) : Dispatching s u := by
  induction h with
  | none => exact g
  | event c is answers _ ih => exact .event c is answers (ih g)

theorem dispatching_departFirst (fuel : Nat) (s : State) : Dispatching s (departFirst fuel s) := by
  induction fuel generalizing s with
  | zero => exact .none s
  | succ fuel ih =>
    unfold departFirst
    split
    · exact dispatching_trans (dispatching_event s) (ih _)
    · exact .none s

theorem departFirst_alone {s : State} (alone : s.requestsFirst = false) (fuel : Nat) : departFirst fuel s = s := by
  cases fuel with
  | zero => rfl
  | succ fuel => rw [departFirst, alone, if_neg Bool.false_ne_true]

/-- A SAMPLE that can be taken is taken behind the requests that come before it; where one of those has taken it, that is
all. -/
theorem exec_sample_sampledIn {a : State} (h : Sampling a) :
    ∃ s t, SampledIn a s t ∧ (Sampling s → t = takeSample s) := by
  refine ⟨departFirst departFuel a, sampleBehind a, ⟨dispatching_departFirst _ a, fun alone => ?_, ?_, fun taken => ?_⟩,
    fun sampling => ?_⟩
  · exact departFirst_alone (requestsFirst_alone alone) _
  · exact congrArg Host.Outcome.next (if_pos (sampleReady_of h))
  · exact if_neg (by simp [State.sampleReady, taken])
  · exact if_pos (sampleReady_of sampling)

/-- What a sample changes. -/
theorem takeSample_frame (s : State) :
    takeSample s = { s with
      front := (takeSample s).front, watches := (takeSample s).watches, outputs := (takeSample s).outputs
      journal := (takeSample s).journal, choices := (takeSample s).choices } := (takeSample_change s).1

/-! ## The obligations -/

/-- A line whose edge passes supervision. -/
theorem sampled_line_passed {s : State} {i : Fin 32} {stamp : Stamp} {chatter : Chatter}
    (made : edgeMade s i = some stamp) (passed : passedTo s.front.lines[i] = some chatter) :
    s.sampled.front.lines[i] =
      { s.front.lines[i] with raw := rawLevel s i, filtered := rawLevel s i, filter := .stable, chatter } := by
  rw [sampled_line, sampleResult_edge (unsuppressed_of_passedTo passed) made, superviseEdge_passed passed]

theorem sampled_line_withheld {s : State} {i : Fin 32} {stamp : Stamp} {count left : Nat}
    (made : edgeMade s i = some stamp) (counting : s.front.lines[i].chatter = .counting count left) (runs : 1 < left)
    (limited : s.front.lines[i].config.limit ≠ 0) (beyond : s.front.lines[i].config.limit < count + 1) :
    s.sampled.front.lines[i] =
      { s.front.lines[i] with
        raw := rawLevel s i, filter := .stable, chatter := .suppressed s.front.lines[i].config.recovery } := by
  rw [sampled_line, sampleResult_edge (fun left h => nomatch counting.symm.trans h) made, superviseEdge_withheld counting runs limited beyond]

theorem edgeMade_now {s : State} {i : Fin 32} (h : EdgeNow s i) : ∃ stamp, edgeMade s i = some stamp := by
  obtain ⟨differs, ⟨captured, left, settling, ends⟩ | ⟨stable, zero⟩⟩ := h
  · exact ⟨captured, by simp [-Fin.getElem_fin, edgeMade, differs, settling, ends]⟩
  · exact ⟨s.time.now, by simp [-Fin.getElem_fin, edgeMade, differs, stable, zero]⟩

section
variable {s : State} {i : Fin 32} (unsuppressed : ∀ left, s.front.lines[i].chatter ≠ .suppressed left)
include unsuppressed

theorem sampled_line_same (same : rawLevel s i = s.front.lines[i].filtered) :
    s.sampled.front.lines[i] = { s.front.lines[i] with
      raw := rawLevel s i, filter := .stable, chatter := windowAfter s.front.lines[i].chatter } := by
  rw [sampled_line, sampleResult_noEdge unsuppressed (if_pos same)]
  have stable : (filterStep s.front.lines[i] (rawLevel s i) s.time.now).1 = .stable := by
    unfold filterStep
    split <;> rw [if_pos same]
  rw [stable]

theorem sampled_line_begins (differs : rawLevel s i ≠ s.front.lines[i].filtered)
    (stable : s.front.lines[i].filter = .stable) (settles : settleTime s.front.lines[i].config.settle ≠ 0) :
    s.sampled.front.lines[i] = { s.front.lines[i] with
      raw := rawLevel s i, filter := .settling s.time.now (settleTime s.front.lines[i].config.settle)
      chatter := windowAfter s.front.lines[i].chatter } := by
  have settling : (filterStep s.front.lines[i] (rawLevel s i) s.time.now).1
      = .settling s.time.now (settleTime s.front.lines[i].config.settle) := by
    simp [-Fin.getElem_fin, filterStep, stable, differs, settles]
  rw [sampled_line, sampleResult_noEdge unsuppressed, settling]
  simp [-Fin.getElem_fin, edgeMade, differs, stable, mt settleTime_eq_zero.mpr settles]

theorem sampled_line_settles {captured : Stamp} {left : Nat} (differs : rawLevel s i ≠ s.front.lines[i].filtered)
    (settling : s.front.lines[i].filter = .settling captured left) (runs : 1 < left) :
    s.sampled.front.lines[i] = { s.front.lines[i] with
      raw := rawLevel s i, filter := .settling captured (left - 1)
      chatter := windowAfter s.front.lines[i].chatter } := by
  have counted : (filterStep s.front.lines[i] (rawLevel s i) s.time.now).1 = .settling captured (left - 1) := by
    simp [-Fin.getElem_fin, filterStep, settling, differs, Nat.not_le.mpr runs]
  rw [sampled_line, sampleResult_noEdge unsuppressed, counted]
  simp [-Fin.getElem_fin, edgeMade, differs, settling, Nat.not_le.mpr runs]

end

/-- Settles O12: the line by its chatter state and by what its filter makes; and the records by line. -/
theorem sampleFiltersLine : Obligations.SampleFiltersLine := by
  intro a sampling
  obtain ⟨s, t, sampled, taken⟩ := exec_sample_sampledIn sampling
  refine ⟨s, t, sampled, fun i sampling settle => ?_⟩
  have later := sampling.later
  have front : t.front = s.sampled.front := by rw [taken sampling, takeSample_front later]
  refine ⟨?_, by rw [front, sampled_sampleDue], by rw [front, sampled_pins],
    by rw [front, sampled_firstSample]; exact later, ?_, fun uneventful => ?_, fun disabled => ?_⟩
  · rintro line raw ticks rfl rfl rfl
    rw [front, settleTicks_eq settle]
    refine ⟨fun quiet unlimited => ?_, fun unsuppressed => ⟨fun same => sampled_line_same unsuppressed same,
      fun differs stable settles => sampled_line_begins unsuppressed differs stable settles,
      fun captured left differs settling runs => sampled_line_settles unsuppressed differs settling runs⟩,
      fun left suppressed => ⟨fun differs => ?_, fun same runs => ?_, fun same ends => ?_⟩⟩
    · have unsuppressed : ∀ left, s.front.lines[i].chatter ≠ .suppressed left :=
        fun left h => nomatch quiet.symm.trans h
      have window : windowAfter s.front.lines[i].chatter = s.front.lines[i].chatter := by rw [quiet]; rfl
      have passed : passedTo s.front.lines[i] = some s.front.lines[i].chatter := by simp [-Fin.getElem_fin, passedTo, unlimited, quiet]
      split
      case isTrue same => rw [sampled_line_same unsuppressed same, window]
      case isFalse differs =>
        split
        case h_1 stable =>
          split
          case isTrue zero =>
            exact sampled_line_passed (stamp := s.time.now)
              (by simp [-Fin.getElem_fin, edgeMade, differs, stable, settleTime_eq_zero.mp zero]) passed
          case isFalse settles => rw [sampled_line_begins unsuppressed differs stable settles, window]
        case h_2 captured left settling =>
          split
          case isTrue runs => rw [sampled_line_settles unsuppressed differs settling runs, window]
          case isFalse ends =>
            exact sampled_line_passed (stamp := captured)
              (by simp [-Fin.getElem_fin, edgeMade, differs, settling, Nat.not_lt.mp ends]) passed
    · rw [sampled_line, sampleResult_suppressed suppressed, suppressedStep, if_pos differs]
    · rw [sampled_line, sampleResult_suppressed suppressed, suppressedStep, if_neg (not_not.mpr same),
        if_neg (Nat.not_le.mpr runs)]
    · rw [sampled_line, sampleResult_suppressed suppressed, suppressedStep, if_neg (not_not.mpr same), if_pos ends,
        endSuppression_eq, same]
  · rw [taken sampling]
    exact takeSample_frame s
  · have none := sampleEdges_nil fun i => (sampleResult_uneventful (uneventful i)).1
    have silent : (List.finRange 32).flatMap (lineRecords s) = [] := by
      refine List.flatMap_eq_nil_iff.mpr fun i _ => ?_
      rw [← sampleResult_sent]
      exact (sampleResult_uneventful (uneventful i)).2
    rw [front, taken sampling, takeSample_lines later (by rw [none, deliveryTasks_nil]), silent, arrived, List.foldl_nil]
  · rw [front, taken sampling]
    exact takeSample_lines later (deliveryTasks_disabled (fun w => by rw [sampled_watches]; exact disabled w) _)

/-- Settles O13: an edge under supervision, by the chatter state it finds. -/
theorem sampleSupervisesEdge : Obligations.SampleSupervisesEdge := by
  intro a sampling
  obtain ⟨s, t, sampled, taken⟩ := exec_sample_sampledIn sampling
  refine ⟨s, t, sampled, fun i sampling limited now => ?_⟩
  have front : t.front = s.sampled.front := by rw [taken sampling, takeSample_front sampling.later]
  obtain ⟨stamp, made⟩ := edgeMade_now now
  refine ⟨?_, by rw [taken sampling]; exact takeSample_frame s⟩
  rintro line rfl
  rw [front]
  refine ⟨fun quiet => ?_, fun count left counting ends => ?_, fun count left counting runs within => ?_,
    fun count left counting runs beyond => sampled_line_withheld made counting runs limited beyond⟩
  · exact sampled_line_passed made (by simp [-Fin.getElem_fin, passedTo, limited, quiet])
  · exact sampled_line_passed made (by simp [-Fin.getElem_fin, passedTo, limited, counting, ends])
  · exact sampled_line_passed made (by simp [-Fin.getElem_fin, passedTo, limited, counting, Nat.not_le.mpr runs, within])

end Sys2Proof.Machine
end

section
/-! PROOF. The payloads of requests (R201, R204, R205): numbers and codes read back as they were written, and with them every
well-formed request, also from a payload with anything at all in the octets that are not looked at. -/

namespace Sys2Proof

open Sys2Proof.Claims

/-! ## Numbers -/

theorem toNat_octet {n : Nat} (h : n < 256) : (BitVec.ofNat 8 n).toNat = n := Nat.mod_eq_of_lt h

theorem nat16_octets {n : Nat} (h : n < 65536) : nat16 (BitVec.ofNat 8 (n / 256)) (BitVec.ofNat 8 n) = n := by
  simp only [nat16, BitVec.toNat_ofNat]
  omega

theorem nat32_octets {n : Nat} (h : n < 2 ^ 32) :
    nat32 (BitVec.ofNat 8 (n / 65536 / 256)) (BitVec.ofNat 8 (n / 65536)) (BitVec.ofNat 8 (n / 256)) (BitVec.ofNat 8 n)
      = n := by
  simp only [nat32, nat16, BitVec.toNat_ofNat]
  omega

theorem ofNat_nat32_octets (m : BitVec 32) :
    BitVec.ofNat 32 (nat32 (BitVec.ofNat 8 (m.toNat / 65536 / 256)) (BitVec.ofNat 8 (m.toNat / 65536))
      (BitVec.ofNat 8 (m.toNat / 256)) (BitVec.ofNat 8 m.toNat)) = m := by
  rw [nat32_octets m.isLt, BitVec.ofNat_toNat, BitVec.setWidth_eq]

theorem watchOfCode_octet (w : Fin 16) : watchOfCode (BitVec.ofNat 8 w.val) = some w := by
  have octet := toNat_octet (n := w.val) (by omega)
  simp [watchOfCode, octet]

theorem outputOfCode_octet (o : Fin 8) : outputOfCode (BitVec.ofNat 8 o.val) = some o := by
  have octet := toNat_octet (n := o.val) (by omega)
  simp [outputOfCode, octet]

/-! ## Codes -/

theorem Drive.ofCode_code (d : Drive) : Drive.ofCode d.code = some d := by cases d <;> rfl
theorem LineSense.ofCode_code (x : LineSense) : LineSense.ofCode x.code = some x := by cases x <;> rfl
theorem Recording.ofCode_code (x : Recording) : Recording.ofCode x.code = some x := by cases x <;> rfl
theorem RecordClass.ofCode_code (x : RecordClass) : RecordClass.ofCode x.code = some x := by cases x <;> rfl
theorem WatchSense.ofCode_code (x : WatchSense) : WatchSense.ofCode x.code = some x := by cases x <;> rfl
theorem Rearm.ofCode_code (x : Rearm) : Rearm.ofCode x.code = some x := by cases x <;> rfl
theorem RestoreReporting.ofCode_code (x : RestoreReporting) : RestoreReporting.ofCode x.code = some x := by cases x <;> rfl
theorem ArmOption.ofCode_code (x : ArmOption) : ArmOption.ofCode x.code = some x := by cases x <;> rfl
theorem Reference.ofCode_code (x : Reference) : Reference.ofCode x.code = some x := by cases x <;> rfl
theorem SyncEdge.ofCode_code (x : SyncEdge) : SyncEdge.ofCode x.code = some x := by cases x <;> rfl
theorem BitRate.ofCode_code (x : BitRate) : BitRate.ofCode x.code = some x := by cases x <;> rfl
theorem Parity.ofCode_code (x : Parity) : Parity.ofCode x.code = some x := by cases x <;> rfl
theorem Mode.ofCode_code (x : Mode) : Mode.ofCode x.code = some x := by cases x <;> rfl
theorem RestartScope.ofCode_code (x : RestartScope) : RestartScope.ofCode x.code = some x := by cases x <;> rfl
theorem flagOfCode_octet (b : Bool) : flagOfCode (flagOctet b) = some b := by cases b <;> rfl

theorem driveOctet_eq_code (d : Drive) : driveOctet d = d.code := by cases d <;> rfl

theorem tickRateOfHz_hz (rate : Fin 10) : tickRateOfHz (2 ^ rate.val) = some rate := by
  revert rate
  decide

/-! ## Watch definitions -/

theorem actionOfCodes_carried {a : Action} {output level d1 d0 : Octet} (wellFormed : a.wellFormed = true)
    (drive : ∀ o l, a = .drive o l → output = BitVec.ofNat 8 o.val ∧ level = driveOctet l)
    (pulse : ∀ o l n, a = .pulse o l n →
      output = BitVec.ofNat 8 o.val ∧ level = driveOctet l ∧ [d1, d0] = octets16 n) :
    actionOfCodes a.code output level d1 d0 = some a := by
  cases a with
  | none => rfl
  | drive o l =>
    obtain ⟨rfl, rfl⟩ := drive o l rfl
    simp only [actionOfCodes, Action.code, outputOfCode_octet, driveOctet_eq_code, Drive.ofCode_code]
    rfl
  | pulse o l n =>
    obtain ⟨rfl, rfl, duration⟩ := pulse o l n rfl
    cases duration
    have range : 1 ≤ n ∧ n ≤ 61440 := by simpa [Action.wellFormed, durationInRange] using wellFormed
    simp only [actionOfCodes, Action.code, outputOfCode_octet, driveOctet_eq_code, Drive.ofCode_code,
      nat16_octets (show n < 65536 by omega)]
    rfl

theorem prerequisiteOfCodes_carried {p : Option (Fin 16)} {index : Octet}
    (carried : ∀ w, p = some w → index = BitVec.ofNat 8 w.val) :
    prerequisiteOfCodes (flagOctet p.isSome) index = some p := by
  cases p with
  | none => rfl
  | some w => simp [prerequisiteOfCodes, flagOfCode_octet, carried w rfl, watchOfCode_octet]

/-- A definition is read back whatever the octets hold that are not looked at (R47, R51, R58, R204). -/
theorem parseDefinition_carried {d : WatchDef} {octets : List Octet} (carried : CarriesDefinition d octets)
    (wellFormed : d.wellFormed = true) : parseDefinition octets = .ok d := by
  obtain ⟨reference, output, level, d1, d0, index, layout, inside, drive, pulse, prerequisite⟩ := carried
  have ranges : (d.lineSet ≠ 0 ∧ d.reference &&& ~~~d.lineSet = 0 ∧ d.qualify ≤ 61440) ∧ d.action.wellFormed = true := by
    simpa [WatchDef.wellFormed, and_assoc] using wellFormed
  obtain ⟨⟨-, -, qualify⟩, action⟩ := ranges
  have masked : reference &&& d.lineSet = d.reference := by
    refine BitVec.eq_of_getLsbD_eq fun i hi => ?_
    rw [BitVec.getLsbD_and, Bool.and_comm]
    exact (inside ⟨i, hi⟩).symm
  have coded : octets = octets32 d.lineSet.toNat ++ octets32 reference.toNat ++ [d.sense.code] ++ octets16 d.qualify
      ++ [d.rearm.code, d.restore.code, flagOctet d.tripSnapshot, d.cls.code, d.action.code, output, level, d1, d0,
        flagOctet d.prerequisite.isSome, index] := layout
  subst coded
  simp only [octets32, octets16, List.cons_append, List.nil_append, parseDefinition, WatchSense.ofCode_code,
    Rearm.ofCode_code, RestoreReporting.ofCode_code, flagOfCode_octet, RecordClass.ofCode_code,
    actionOfCodes_carried action drive pulse, prerequisiteOfCodes_carried prerequisite, ofNat_nat32_octets, masked,
    nat16_octets (show d.qualify < 65536 by omega)]
  exact if_pos wellFormed

theorem length_of_carriesDefinition {d : WatchDef} {octets : List Octet} (carried : CarriesDefinition d octets) :
    octets.length = 22 := by
  obtain ⟨reference, output, level, d1, d0, index, rfl, -⟩ := carried
  rfl

theorem carriesDefinition_definitionOctets {d : WatchDef} (wellFormed : d.wellFormed = true) :
    CarriesDefinition d (definitionOctets d) := by
  have outside : d.reference &&& ~~~d.lineSet = 0 := by
    simp only [WatchDef.wellFormed, Bool.and_eq_true, decide_eq_true_eq] at wellFormed
    exact wellFormed.1.1.2
  have inside : ∀ i : Fin 32, d.reference.getLsbD i.val = (d.lineSet.getLsbD i.val && d.reference.getLsbD i.val) := by
    intro i
    have bit : (d.reference.getLsbD i.val && !d.lineSet.getLsbD i.val) = false := by
      have none := congrArg (BitVec.getLsbD · i.val) outside
      simpa only [BitVec.getLsbD_and, BitVec.getLsbD_not, i.isLt, decide_true, Bool.true_and, BitVec.ofNat_eq_ofNat,
        BitVec.getLsbD_zero] using none
    generalize d.reference.getLsbD i.val = a, d.lineSet.getLsbD i.val = b at bit
    revert a b
    decide
  have index : ∃ index : Octet, prerequisiteOctets d.prerequisite = [flagOctet d.prerequisite.isSome, index]
      ∧ ∀ p, d.prerequisite = some p → index = BitVec.ofNat 8 p.val := by
    cases d.prerequisite with
    | none => exact ⟨0xFF, rfl, nofun⟩
    | some p => exact ⟨BitVec.ofNat 8 p.val, rfl, fun q same => by cases same; rfl⟩
  obtain ⟨index, prerequisite, present⟩ := index
  have action : ∃ output level d1 d0 : Octet, actionOctets d.action = [output, level, d1, d0]
      ∧ (∀ o l, d.action = .drive o l → output = BitVec.ofNat 8 o.val ∧ level = driveOctet l)
      ∧ (∀ o l n, d.action = .pulse o l n →
        output = BitVec.ofNat 8 o.val ∧ level = driveOctet l ∧ [d1, d0] = octets16 n) := by
    cases d.action with
    | none => exact ⟨_, _, _, _, rfl, nofun, nofun⟩
    | drive o l =>
      refine ⟨_, _, _, _, rfl, fun o' l' same => ?_, nofun⟩
      cases same
      exact ⟨rfl, (driveOctet_eq_code l).symm⟩
    | pulse o l n =>
      refine ⟨_, _, _, _, rfl, nofun, fun o' l' n' same => ?_⟩
      cases same
      exact ⟨rfl, (driveOctet_eq_code l).symm, rfl⟩
  obtain ⟨output, level, d1, d0, octets, drive, pulse⟩ := action
  refine ⟨d.reference, output, level, d1, d0, index, ?_, inside, drive, pulse, present⟩
  rw [definitionOctets, octets, prerequisite]
  rfl

theorem parseSetWatch_carried {r : SetWatch} {payload : List Octet} (carried : CarriesSetWatch r payload)
    (wellFormed : r.wellFormed = true) : parseSetWatch payload = .ok r := by
  obtain ⟨clear, define⟩ := carried
  obtain ⟨w, _ | d⟩ := r
  · rw [clear rfl]
    simp only [parseSetWatch, watchOfCode_octet]
    rfl
  · obtain ⟨octets, rfl, definition⟩ := define d rfl
    have length := length_of_carriesDefinition definition
    have parsed := parseDefinition_carried definition wellFormed
    unfold parseSetWatch
    split
    case h_1 same => cases same; cases length
    case h_2 other same =>
      cases same
      rw [if_pos length, watchOfCode_octet, parsed]
      rfl
    case h_3 none => exact absurd rfl (none _ _ _)

theorem carriesSetWatch_encode {r : SetWatch} (wellFormed : r.wellFormed = true) :
    CarriesSetWatch r (encodeSetWatch r) := by
  obtain ⟨w, _ | d⟩ := r
  · exact ⟨fun _ => rfl, fun d same => absurd same.symm (Option.some_ne_none d)⟩
  · refine ⟨nofun, fun e same => ?_⟩
    cases same
    refine ⟨definitionOctets d, ?_, carriesDefinition_definitionOctets wellFormed⟩
    simp only [encodeSetWatch, octets8, List.cons_append, List.nil_append]

/-! ## Requests to the outputs -/

theorem parseDriveOutput_carried {r : DriveOutput} {payload : List Octet} (carried : CarriesDriveOutput r payload)
    (wellFormed : r.wellFormed = true) : parseDriveOutput payload = .ok r := by
  obtain ⟨form, level, d1, d0, rfl, plain, pulse⟩ := carried
  have decoded : driveFormOfCodes form level d1 d0 = some r.form := by
    cases same : r.form with
    | level l =>
      rw [plain l same]
      cases l <;> rfl
    | pulse l n =>
      obtain ⟨rfl, rfl, duration⟩ := pulse l n same
      cases duration
      have range : 1 ≤ n ∧ n ≤ 61440 := by simpa [DriveOutput.wellFormed, same, durationInRange] using wellFormed
      simp only [driveFormOfCodes, driveOctet_eq_code, Drive.ofCode_code, nat16_octets (show n < 65536 by omega)]
      rfl
  simp only [parseDriveOutput, outputOfCode_octet, decoded]
  exact if_pos wellFormed

theorem carriesDriveOutput_encode (r : DriveOutput) : CarriesDriveOutput r (encodeDriveOutput r) := by
  obtain ⟨o, l | ⟨l, n⟩⟩ := r
  · refine ⟨l.code, 0, _, _, rfl, fun l' same => ?_, nofun⟩
    cases same
    exact (driveOctet_eq_code l).symm
  · refine ⟨3, l.code, _, _, rfl, nofun, fun l' n' same => ?_⟩
    cases same
    exact ⟨rfl, (driveOctet_eq_code l).symm, rfl⟩

theorem parseSetOutputFunction_carried {r : SetOutputFunction} {payload : List Octet}
    (carried : CarriesOutputFunction r payload) (wellFormed : r.wellFormed = true) :
    parseSetOutputFunction payload = .ok r := by
  obtain ⟨function, hz1, hz0, rfl, general, attn, tick⟩ := carried
  have decoded : functionOfCodes function hz1 hz0 = some r.function := by
    match same : r.function with
    | none => rw [general same]; rfl
    | some .attn => rw [attn same]; rfl
    | some (.tick rate) =>
      obtain ⟨rfl, hz⟩ := tick rate same
      cases hz
      have range : 2 ^ rate.val < 65536 :=
        lt_of_le_of_lt (Nat.pow_le_pow_right (by decide) (by omega : rate.val ≤ 9)) (by decide)
      simp only [functionOfCodes, nat16_octets range, tickRateOfHz_hz]
      rfl
  simp only [parseSetOutputFunction, outputOfCode_octet, decoded]
  exact if_pos wellFormed

theorem carriesOutputFunction_encode (r : SetOutputFunction) : CarriesOutputFunction r (encodeSetOutputFunction r) := by
  obtain ⟨o, _ | rate | _⟩ := r
  · exact ⟨0, _, _, rfl, fun _ => rfl, nofun, nofun⟩
  · refine ⟨1, _, _, rfl, nofun, nofun, fun rate' same => ?_⟩
    cases same
    exact ⟨rfl, rfl⟩
  · exact ⟨2, _, _, rfl, nofun, fun _ => rfl, nofun⟩

/-! ## The other requests -/

theorem parseConfigureLines_encode {r : ConfigureLines} (wellFormed : r.wellFormed = true) :
    parseConfigureLines (encodeConfigureLines r) = .ok r := by
  obtain ⟨first, count, count', range, settle, limit, window, window', recovery, recovery'⟩ :=
    r.wellFormed_iff.mp wellFormed
  simp only [encodeConfigureLines, octets8, List.cons_append, List.nil_append, parseConfigureLines,
    LineSense.ofCode_code, Recording.ofCode_code, toNat_octet (show r.first < 256 by omega),
    toNat_octet (show r.count < 256 by omega), toNat_octet (show r.settle < 256 by omega),
    toNat_octet (show r.limit < 256 by omega), toNat_octet (show r.window < 256 by omega),
    toNat_octet (show r.recovery < 256 by omega)]
  exact if_pos wellFormed

theorem parseSetDelivery_encode {r : DeliverySettings} (wellFormed : r.wellFormed = true) :
    parseSetDelivery (encodeSetDelivery r) = .ok r := by
  have ranges : r.window ≤ 16 ∧ r.perReport ≤ 4 ∧ r.interval ≤ 8192 ∧ r.retryLimit ≤ 15 := by
    simp only [DeliverySettings.wellFormed, Bool.and_eq_true, decide_eq_true_eq] at wellFormed
    omega
  obtain ⟨window, perReport, interval, retryLimit⟩ := ranges
  simp only [encodeSetDelivery, octets8, octets16, List.cons_append, List.nil_append, parseSetDelivery,
    Mode.ofCode_code, toNat_octet (show r.window < 256 by omega), toNat_octet (show r.perReport < 256 by omega),
    nat16_octets (show r.interval < 65536 by omega), toNat_octet (show r.retryLimit < 256 by omega)]
  exact if_pos wellFormed

theorem parseSetTime_encode (t : TimeValue) : parseSetTime (encodeSetTime t) = .ok t := by
  have tick : t.tick.toNat < 1024 := t.tick.isLt
  have decoded := ofNat_nat32_octets t.sec
  simp only [encodeSetTime, timeOctets, octets32, octets16, List.cons_append, List.nil_append, parseSetTime,
    timeOfOctets, nat16_octets (show t.tick.toNat < 65536 by omega), if_pos tick, decoded]
  rw [BitVec.ofNat_toNat, BitVec.setWidth_eq]
  rfl

theorem parseSetTimeAtPulse_encode (r : SetTimeAtPulse) : parseSetTimeAtPulse (encodeSetTimeAtPulse r) = .ok r := by
  have decoded := ofNat_nat32_octets r.sec
  simp only [encodeSetTimeAtPulse, octets32, octets16, List.cons_append, List.nil_append, parseSetTimeAtPulse,
    ArmOption.ofCode_code, decoded]
  rfl

theorem parseFetch_encode {n : Nat} (h : fetchMaximumInRange n = true) : parseFetch (encodeFetch n) = .ok n := by
  have range : 1 ≤ n ∧ n ≤ 8 := by simpa [fetchMaximumInRange] using h
  simp only [encodeFetch, octets8, parseFetch, toNat_octet (show n < 256 by omega)]
  exact if_pos h

theorem parseAck_encode (n : SeqNo) : parseAck (encodeAck n) = .ok n := by
  have small : n.toNat < 65536 := n.isLt
  simp only [encodeAck, octets16, parseAck, nat16_octets small]
  rw [BitVec.ofNat_toNat, BitVec.setWidth_eq]

/-! ## The obligation -/

/-- Settles O56: every number and every code is read back. -/
theorem payloadsRoundTrip : Obligations.PayloadsRoundTrip := by
  refine ⟨fun r => ?_, fun r => ?_, fun r => parseConfigureLines_encode, fun r wellFormed => ?_, parseWatchIndex_ofNat,
    fun r => parseDriveOutput_carried (carriesDriveOutput_encode r),
    fun r => parseSetOutputFunction_carried (carriesOutputFunction_encode r), parseSetTime_encode,
    parseSetTimeAtPulse_encode, parseSetSync_code, fun r => ?_, fun n => parseFetch_encode, parseAck_encode,
    fun r => parseSetDelivery_encode⟩
  · simp only [parseSetLink, encodeSetLink, BitRate.ofCode_code, Parity.ofCode_code]
  · simp only [parseRestart, encodeRestart, RestartScope.ofCode_code, fieldsOr]
  · exact parseSetWatch_carried (carriesSetWatch_encode wellFormed) wellFormed
  · simp only [parseConfigureTime, encodeConfigureTime, Reference.ofCode_code, SyncEdge.ofCode_code]

end Sys2Proof
end

section
/-! PROOF. The length check and the field check of every request (R182, R183): each parser answers by the payload's length and
by `fieldsFit`; and no owning block answers with the status of a check. -/

namespace Sys2Proof

open Sys2Proof.Claims

/-! ## The octets that are codes -/

section
variable (o : Octet)

theorem Drive.isSome_ofCode : (Drive.ofCode o).isSome = true ↔ o.toNat ≤ 2 := by
  unfold Drive.ofCode
  split <;> simp_all
  omega

theorem flagOfCode_isSome : (flagOfCode o).isSome = true ↔ o.toNat ≤ 1 := by
  unfold flagOfCode
  split <;> simp_all
  omega

theorem RecordClass.isSome_ofCode : (RecordClass.ofCode o).isSome = true ↔ o.toNat ≤ 1 := by
  unfold RecordClass.ofCode
  split <;> simp_all
  omega

theorem WatchSense.isSome_ofCode : (WatchSense.ofCode o).isSome = true ↔ o.toNat ≤ 1 := by
  unfold WatchSense.ofCode
  split <;> simp_all
  omega

theorem Rearm.isSome_ofCode : (Rearm.ofCode o).isSome = true ↔ o.toNat ≤ 1 := by
  unfold Rearm.ofCode
  split <;> simp_all
  omega

theorem RestoreReporting.isSome_ofCode : (RestoreReporting.ofCode o).isSome = true ↔ o.toNat ≤ 2 := by
  unfold RestoreReporting.ofCode
  split <;> simp_all
  omega

theorem SyncSetting.isSome_ofCode : (SyncSetting.ofCode o).isSome = true ↔ o.toNat ≤ 1 := by
  unfold SyncSetting.ofCode
  split <;> simp_all
  omega

theorem ArmOption.isSome_ofCode : (ArmOption.ofCode o).isSome = true ↔ o.toNat ≤ 1 := by
  unfold ArmOption.ofCode
  split <;> simp_all
  omega

theorem Reference.isSome_ofCode : (Reference.ofCode o).isSome = true ↔ o.toNat ≤ 3 := by
  unfold Reference.ofCode
  split <;> simp_all
  omega

theorem SyncEdge.isSome_ofCode : (SyncEdge.ofCode o).isSome = true ↔ o.toNat ≤ 1 := by
  unfold SyncEdge.ofCode
  split <;> simp_all
  omega

theorem BitRate.isSome_ofCode : (BitRate.ofCode o).isSome = true ↔ o.toNat ≤ 5 := by
  unfold BitRate.ofCode
  split <;> simp_all
  omega

theorem Parity.isSome_ofCode : (Parity.ofCode o).isSome = true ↔ o.toNat ≤ 2 := by
  unfold Parity.ofCode
  split <;> simp_all
  omega

theorem Mode.isSome_ofCode : (Mode.ofCode o).isSome = true ↔ o.toNat ≤ 1 := by
  unfold Mode.ofCode
  split <;> simp_all
  omega

theorem RestartScope.isSome_ofCode : (RestartScope.ofCode o).isSome = true ↔ o.toNat ≤ 1 := by
  unfold RestartScope.ofCode
  split <;> simp_all
  omega

theorem watchOfCode_isSome : (watchOfCode o).isSome = true ↔ o.toNat ≤ 15 := by
  unfold watchOfCode
  split <;> simp <;> omega

theorem outputOfCode_isSome : (outputOfCode o).isSome = true ↔ o.toNat ≤ 7 := by
  unfold outputOfCode
  split <;> simp <;> omega

end

/-! ## What a parser answers -/

/-- A parser's answer by the length check and the field check. -/
structure Checked {α : Type} (length fields : Prop) (answer : Except Status α) : Prop where
  badLength : ¬ length → answer = .error .badLength
  badField  : length → ¬ fields → answer = .error .badField
  ok        : length → fields → ∃ a, answer = .ok a

theorem Checked.map {α β : Type} {length fields : Prop} {answer : Except Status α} (h : Checked length fields answer)
    (f : α → β) : Checked length fields (answer.map f) where
  badLength wrong := by rw [h.badLength wrong]; rfl
  badField right misfits := by rw [h.badField right misfits]; rfl
  ok right fits := by
    obtain ⟨a, ok⟩ := h.ok right fits
    exact ⟨f a, by rw [ok]; rfl⟩

section
variable {α : Type} {length fields : Prop} {answer : Except Status α}

theorem Checked.of_wrongLength (wrong : ¬ length) (refused : answer = .error .badLength) : Checked length fields answer :=
  ⟨fun _ => refused, fun right => absurd right wrong, fun right => absurd right wrong⟩

theorem Checked.of_fields (right : length) (badField : ¬ fields → answer = .error .badField)
    (ok : fields → ∃ a, answer = .ok a) : Checked length fields answer :=
  ⟨fun wrong => absurd right wrong, fun _ => badField, fun _ => ok⟩

theorem Checked.fieldsOr {field : Option α} (right : length) (fits : field.isSome = true ↔ fields) :
    Checked length fields (fieldsOr field) := by
  refine .of_fields right (fun misfits => ?_) fun fit => ?_
  · rw [Option.not_isSome_iff_eq_none.mp (mt fits.mp misfits)]
    rfl
  · obtain ⟨a, rfl⟩ := Option.isSome_iff_exists.mp (fits.mpr fit)
    exact ⟨a, rfl⟩

theorem Checked.inRange {wellFormed : α → Bool} {a : α} (right : length) (fits : wellFormed a = true ↔ fields) :
    Checked length fields (inRange wellFormed a) :=
  .of_fields right (fun misfits => if_neg (mt fits.mp misfits)) fun fit => ⟨a, if_pos (fits.mpr fit)⟩

end

theorem isSome_of_eq {α : Type} {x : Option α} {a : α} (h : x = some a) : x.isSome = true := by rw [h]; rfl

/-! ## The parsers -/

theorem checked_parseEmpty (payload : List Octet) : Checked (payload.length ∈ [0]) True (parseEmpty payload) :=
  match payload with
  | [] => .of_fields (by simp) (fun none => absurd trivial none) fun _ => ⟨(), rfl⟩
  | _ :: _ => .of_wrongLength (by simp) rfl

theorem checked_parseSetLink (payload : List Octet) :
    Checked (payload.length ∈ [2]) (fieldsFit .setLink payload) (parseSetLink payload) :=
  match payload with
  | [rate, parity] => by
    refine .of_fields (by simp) (fun misfits => ?_) fun ⟨rate, parity⟩ => ?_
    · simp only [parseSetLink]
      split
      case h_1 decodedRate decodedParity =>
        exact absurd ⟨(BitRate.isSome_ofCode rate).mp (isSome_of_eq decodedRate),
          (Parity.isSome_ofCode parity).mp (isSome_of_eq decodedParity)⟩ misfits
      case h_2 => rfl
    · obtain ⟨r, rate⟩ := Option.isSome_iff_exists.mp ((BitRate.isSome_ofCode _).mpr rate)
      obtain ⟨p, parity⟩ := Option.isSome_iff_exists.mp ((Parity.isSome_ofCode _).mpr parity)
      exact ⟨_, by simp only [parseSetLink, rate, parity]; rfl⟩
  | [] | [_] | _ :: _ :: _ :: _ => .of_wrongLength (by simp) rfl

theorem checked_parseRestart (payload : List Octet) :
    Checked (payload.length ∈ [1]) (fieldsFit .restart payload) (parseRestart payload) :=
  match payload with
  | [scope] => .fieldsOr (by simp) (RestartScope.isSome_ofCode scope)
  | [] | _ :: _ :: _ => .of_wrongLength (by simp) rfl

theorem checked_parseWatchIndex {k : RequestKind} (fits : ∀ watch, fieldsFit k [watch] = (watch.toNat ≤ 15))
    (payload : List Octet) : Checked (payload.length ∈ [1]) (fieldsFit k payload) (parseWatchIndex payload) :=
  match payload with
  | [watch] => .fieldsOr (by simp) (by rw [fits, watchOfCode_isSome])
  | [] | _ :: _ :: _ => .of_wrongLength (by simp) rfl

theorem checked_parseSetSync (payload : List Octet) :
    Checked (payload.length ∈ [1]) (fieldsFit .setSync payload) (parseSetSync payload) :=
  match payload with
  | [setting] => .fieldsOr (by simp) (SyncSetting.isSome_ofCode setting)
  | [] | _ :: _ :: _ => .of_wrongLength (by simp) rfl

theorem checked_parseConfigureTime (payload : List Octet) :
    Checked (payload.length ∈ [2]) (fieldsFit .configureTime payload) (parseConfigureTime payload) :=
  match payload with
  | [reference, edge] => by
    refine .of_fields (by simp) (fun misfits => ?_) fun ⟨reference, edge⟩ => ?_
    · simp only [parseConfigureTime]
      split
      case h_1 decodedReference decodedEdge =>
        exact absurd ⟨(Reference.isSome_ofCode reference).mp (isSome_of_eq decodedReference),
          (SyncEdge.isSome_ofCode edge).mp (isSome_of_eq decodedEdge)⟩ misfits
      case h_2 => rfl
    · obtain ⟨r, reference⟩ := Option.isSome_iff_exists.mp ((Reference.isSome_ofCode _).mpr reference)
      obtain ⟨e, edge⟩ := Option.isSome_iff_exists.mp ((SyncEdge.isSome_ofCode _).mpr edge)
      exact ⟨_, by simp only [parseConfigureTime, reference, edge]; rfl⟩
  | [] | [_] | _ :: _ :: _ :: _ => .of_wrongLength (by simp) rfl

theorem checked_parseSetTime (payload : List Octet) :
    Checked (payload.length ∈ [6]) (fieldsFit .setTime payload) (parseSetTime payload) :=
  match payload with
  | [s3, s2, s1, s0, t1, t0] => .fieldsOr (by simp) (by
      change _ ↔ nat16 t1 t0 ≤ 1023
      unfold timeOfOctets
      split <;> simp <;> omega)
  | [] | [_] | [_, _] | [_, _, _] | [_, _, _, _] | [_, _, _, _, _] | _ :: _ :: _ :: _ :: _ :: _ :: _ :: _ => .of_wrongLength (by simp) rfl

theorem checked_parseSetTimeAtPulse (payload : List Octet) :
    Checked (payload.length ∈ [5]) (fieldsFit .setTimeAtPulse payload) (parseSetTimeAtPulse payload) :=
  match payload with
  | [s3, s2, s1, s0, option] =>
    .fieldsOr (by simp) ((Bool.eq_iff_iff.mp Option.isSome_map).trans (ArmOption.isSome_ofCode option))
  | [] | [_] | [_, _] | [_, _, _] | [_, _, _, _] | _ :: _ :: _ :: _ :: _ :: _ :: _ => .of_wrongLength (by simp) rfl

theorem checked_parseFetch (payload : List Octet) :
    Checked (payload.length ∈ [1]) (fieldsFit .fetch payload) (parseFetch payload) :=
  match payload with
  | [maximum] => .inRange (by simp) (by simp only [fetchMaximumInRange, fieldsFit, Bool.and_eq_true, decide_eq_true_eq])
  | [] | _ :: _ :: _ => .of_wrongLength (by simp) rfl

theorem checked_parseAck (payload : List Octet) :
    Checked (payload.length ∈ [2]) (fieldsFit .ack payload) (parseAck payload) :=
  match payload with
  | [_, _] => .of_fields (by simp) (fun none => absurd trivial none) fun _ => ⟨_, rfl⟩
  | [] | [_] | _ :: _ :: _ :: _ => .of_wrongLength (by simp) rfl

theorem checked_parseSetDelivery (payload : List Octet) :
    Checked (payload.length ∈ [6]) (fieldsFit .setDelivery payload) (parseSetDelivery payload) :=
  match payload with
  | [mode, window, perReport, i1, i0, retryLimit] => by
    have code := Mode.isSome_ofCode mode
    simp only [parseSetDelivery]
    cases decoded : Mode.ofCode mode with
    | none =>
      rw [decoded] at code
      exact .of_fields (by simp) (fun _ => rfl) fun fits => absurd (code.mpr fits.1) Bool.false_ne_true
    | some m =>
      have right : mode.toNat ≤ 1 := code.mp (isSome_of_eq decoded)
      refine .inRange (by simp) ?_
      simp only [DeliverySettings.wellFormed, Bool.and_eq_true, decide_eq_true_eq, and_assoc, fieldsFit, right, true_and]
      rfl
  | [] | [_] | [_, _] | [_, _, _] | [_, _, _, _] | [_, _, _, _, _] | _ :: _ :: _ :: _ :: _ :: _ :: _ :: _ => .of_wrongLength (by simp) rfl

theorem checked_parseConfigureLines (payload : List Octet) :
    Checked (payload.length ∈ [8]) (fieldsFit .configureLines payload) (parseConfigureLines payload) :=
  match payload with
  | [_, _, _, _, _, _, _, _] => .of_fields (by simp) parseConfigureLines_badField parseConfigureLines_ok
  | [] | [_] | [_, _] | [_, _, _] | [_, _, _, _] | [_, _, _, _, _] | [_, _, _, _, _, _] | [_, _, _, _, _, _, _]
  | _ :: _ :: _ :: _ :: _ :: _ :: _ :: _ :: _ :: _ => .of_wrongLength (by simp) rfl

/-! ## The requests to the outputs -/

theorem durationInRange_iff {n : Nat} : durationInRange n = true ↔ 1 ≤ n ∧ n ≤ 61440 := by
  simp only [durationInRange, Bool.and_eq_true, decide_eq_true_eq]

theorem octet_eq_iff {o : Octet} {n : Nat} (h : n < 256) : o = BitVec.ofNat 8 n ↔ o.toNat = n := by
  rw [BitVec.toNat_eq, toNat_octet h]

/-- The forms of a DRIVE_OUTPUT that the field check accepts (R100). -/
theorem driveForm_fits {o : Fin 8} {form level d1 d0 : Octet} :
    (∃ x, driveFormOfCodes form level d1 d0 = some x ∧ (⟨o, x⟩ : DriveOutput).wellFormed = true) ↔
      form.toNat ≤ 2 ∨ form = 3 ∧ level.toNat ≤ 2 ∧ 1 ≤ twoOctets d1 d0 ∧ twoOctets d1 d0 ≤ 61440 := by
  by_cases pulse : form = 3
  · subst pulse
    have decoded : driveFormOfCodes 3 level d1 d0 = (Drive.ofCode level).map fun l => .pulse l (nat16 d1 d0) := rfl
    rw [decoded, ← Drive.isSome_ofCode level]
    cases Drive.ofCode level with
    | none => simp
    | some l => simp [DriveOutput.wellFormed, durationInRange_iff, twoOctets, nat16]
  · have other : form.toNat ≠ 3 := fun same => pulse ((octet_eq_iff (by decide)).mpr same)
    have decoded : driveFormOfCodes form level d1 d0 = (Drive.ofCode form).map .level := by
      unfold driveFormOfCodes
      split
      case h_1 same => exact absurd same other
      case h_2 => rfl
    rw [decoded, ← Drive.isSome_ofCode form]
    simp only [pulse, false_and, or_false]
    cases Drive.ofCode form <;> simp [DriveOutput.wellFormed]

/-- A request of an output and a second field: both decode, and the range check passes. -/
theorem Checked.ofOutput {α β : Type} {length fields : Prop} {output : Octet} {field : Option α} {make : Fin 8 → α → β}
    {wellFormed : β → Bool} {answer : Except Status β} (right : length)
    (fits : (∃ o, outputOfCode output = some o ∧ ∃ x, field = some x ∧ wellFormed (make o x) = true) ↔ fields)
    (undecoded : outputOfCode output = none ∨ field = none → answer = .error .badField)
    (decoded : ∀ o x, outputOfCode output = some o → field = some x → answer = Sys2Proof.inRange wellFormed (make o x)) :
    Checked length fields answer := by
  refine .of_fields right (fun misfits => ?_) fun fit => ?_
  · cases decodedOutput : outputOfCode output with
    | none => exact undecoded (.inl decodedOutput)
    | some o =>
      cases decodedField : field with
      | none => exact undecoded (.inr decodedField)
      | some x =>
        rw [decoded o x decodedOutput decodedField]
        exact if_neg fun ranges => misfits (fits.mp ⟨o, decodedOutput, x, decodedField, ranges⟩)
  · obtain ⟨o, decodedOutput, x, decodedField, ranges⟩ := fits.mpr fit
    exact ⟨_, (decoded o x decodedOutput decodedField).trans (if_pos ranges)⟩

theorem checked_parseDriveOutput (payload : List Octet) :
    Checked (payload.length ∈ [5]) (fieldsFit .driveOutput payload) (parseDriveOutput payload) :=
  match payload with
  | [output, form, level, d1, d0] => by
    refine .ofOutput (output := output) (field := driveFormOfCodes form level d1 d0) (make := DriveOutput.mk)
      (wellFormed := DriveOutput.wellFormed) (by simp) ?_ (fun undecoded => ?_) fun o x decodedOutput decodedForm => ?_
    · simp only [driveForm_fits, exists_and_right, fieldsFit, ← outputOfCode_isSome, Option.isSome_iff_exists]
    · simp only [parseDriveOutput]
      split
      case h_1 decodedOutput decodedForm => simp [decodedOutput, decodedForm] at undecoded
      case h_2 => rfl
    · simp only [parseDriveOutput, decodedOutput, decodedForm]
  | [] | [_] | [_, _] | [_, _, _] | [_, _, _, _] | _ :: _ :: _ :: _ :: _ :: _ :: _ => .of_wrongLength (by simp) rfl

/-- The functions of a SET_OUTPUT_FUNCTION that the field check accepts (R101). -/
theorem outputFunction_fits {o : Fin 8} {function hz1 hz0 : Octet} :
    (∃ x, functionOfCodes function hz1 hz0 = some x ∧ (⟨o, x⟩ : SetOutputFunction).wellFormed = true) ↔
      (o = 6 ∧ (function = 0 ∨ function = 1 ∧ ∃ rate : Fin 10, twoOctets hz1 hz0 = 2 ^ rate.val))
        ∨ o = 7 ∧ (function = 0 ∨ function = 2) := by
  by_cases general : function = 0
  · subst general
    simp [functionOfCodes, SetOutputFunction.wellFormed]
  by_cases tick : function = 1
  · subst tick
    have decoded : functionOfCodes 1 hz1 hz0 = (tickRateOfHz (nat16 hz1 hz0)).map fun rate => some (.tick rate) := rfl
    have hz : (tickRateOfHz (nat16 hz1 hz0)).isSome = true ↔ ∃ rate : Fin 10, twoOctets hz1 hz0 = 2 ^ rate.val := by
      simp only [tickRateOfHz, List.find?_isSome, List.mem_finRange, true_and, beq_iff_eq, twoOctets, nat16]
      exact exists_congr fun _ => eq_comm
    rw [decoded, ← hz]
    cases tickRateOfHz (nat16 hz1 hz0) with
    | none => simp
    | some rate => simp [SetOutputFunction.wellFormed]
  by_cases attn : function = 2
  · subst attn
    simp [functionOfCodes, SetOutputFunction.wellFormed]
  · have other : functionOfCodes function hz1 hz0 = none := by
      unfold functionOfCodes
      split
      case h_1 same => exact absurd ((octet_eq_iff (by decide)).mpr same) general
      case h_2 same => exact absurd ((octet_eq_iff (by decide)).mpr same) tick
      case h_3 same => exact absurd ((octet_eq_iff (by decide)).mpr same) attn
      case h_4 => rfl
    simp only [other, general, tick, attn, reduceCtorEq, false_and, exists_false, or_false, and_false]

theorem outputOfCode_eq_iff {output : Octet} {o : Fin 8} : outputOfCode output = some o ↔ output = BitVec.ofNat 8 o.val := by
  rw [octet_eq_iff (by omega), outputOfCode]
  split
  case isTrue => simp [Fin.ext_iff]
  case isFalse large => simp; omega

theorem checked_parseSetOutputFunction (payload : List Octet) :
    Checked (payload.length ∈ [4]) (fieldsFit .setOutputFunction payload) (parseSetOutputFunction payload) :=
  match payload with
  | [output, function, hz1, hz0] => by
    refine .ofOutput (output := output) (field := functionOfCodes function hz1 hz0) (make := SetOutputFunction.mk)
      (wellFormed := SetOutputFunction.wellFormed) (by simp) ?_ (fun undecoded => ?_) fun o x decodedOutput decodedFunction => ?_
    · have sixth : output = 6 ↔ outputOfCode output = some 6 := (outputOfCode_eq_iff (o := 6)).symm
      have seventh : output = 7 ↔ outputOfCode output = some 7 := (outputOfCode_eq_iff (o := 7)).symm
      simp only [outputFunction_fits, fieldsFit, sixth, seventh]
      cases outputOfCode output <;> simp
    · simp only [parseSetOutputFunction]
      split
      case h_1 decodedOutput decodedFunction => simp [decodedOutput, decodedFunction] at undecoded
      case h_2 => rfl
    · simp only [parseSetOutputFunction, decodedOutput, decodedFunction]
  | [] | [_] | [_, _] | [_, _, _] | _ :: _ :: _ :: _ :: _ :: _ => .of_wrongLength (by simp) rfl

/-! ## SET_WATCH -/

/-- The actions that the field check accepts (R58). -/
theorem action_fits {kind output level d1 d0 : Octet} :
    (∃ a, actionOfCodes kind output level d1 d0 = some a ∧ a.wellFormed = true) ↔
      kind = 0 ∨ kind = 1 ∧ output.toNat ≤ 7 ∧ level.toNat ≤ 2
        ∨ kind = 2 ∧ output.toNat ≤ 7 ∧ level.toNat ≤ 2 ∧ 1 ≤ twoOctets d1 d0 ∧ twoOctets d1 d0 ≤ 61440 := by
  rw [← outputOfCode_isSome, ← Drive.isSome_ofCode]
  by_cases none : kind = 0
  · subst none
    simp [actionOfCodes, Action.wellFormed]
  by_cases drive : kind = 1
  · subst drive
    cases decoded : outputOfCode output <;> cases decoded' : Drive.ofCode level <;>
      simp [actionOfCodes, decoded, decoded', Action.wellFormed]
  by_cases pulse : kind = 2
  · subst pulse
    cases decoded : outputOfCode output <;> cases decoded' : Drive.ofCode level <;>
      simp [actionOfCodes, decoded, decoded', Action.wellFormed, durationInRange_iff, twoOctets, nat16]
  · have other : actionOfCodes kind output level d1 d0 = Option.none := by
      unfold actionOfCodes
      split
      case h_1 same => exact absurd ((octet_eq_iff (by decide)).mpr same) none
      case h_2 same => exact absurd ((octet_eq_iff (by decide)).mpr same) drive
      case h_3 same => exact absurd ((octet_eq_iff (by decide)).mpr same) pulse
      case h_4 => rfl
    simp only [other, none, drive, pulse, reduceCtorEq, false_and, exists_false, or_false]

/-- The prerequisites that the field check accepts (R58). -/
theorem prerequisite_fits {flag index : Octet} :
    (prerequisiteOfCodes flag index).isSome = true ↔ flag = 0 ∨ flag = 1 ∧ index.toNat ≤ 15 := by
  rw [← watchOfCode_isSome]
  by_cases absent : flag = 0
  · subst absent
    simp [prerequisiteOfCodes, flagOfCode]
  by_cases present : flag = 1
  · subst present
    simp [prerequisiteOfCodes, flagOfCode]
  · have other : flagOfCode flag = none := by
      unfold flagOfCode
      split
      case h_1 same => exact absurd ((octet_eq_iff (by decide)).mpr same) absent
      case h_2 same => exact absurd ((octet_eq_iff (by decide)).mpr same) present
      case h_3 => rfl
    simp only [prerequisiteOfCodes, other, absent, present, Option.isSome_none, Bool.false_eq_true, false_and, or_false]

/-- A line set of four octets is not empty (R58). -/
theorem lineSet_ne_zero_iff {s3 s2 s1 s0 : Octet} :
    BitVec.ofNat 32 (nat32 s3 s2 s1 s0) ≠ 0 ↔ ¬ (s3 = 0 ∧ s2 = 0 ∧ s1 = 0 ∧ s0 = 0) := by
  have octet : ∀ o : Octet, o = 0 ↔ o.toNat = 0 := fun o => octet_eq_iff (n := 0) (by decide)
  have range : nat32 s3 s2 s1 s0 < 2 ^ 32 := by
    unfold nat32 nat16
    omega
  have number : BitVec.ofNat 32 (nat32 s3 s2 s1 s0) = 0 ↔ nat32 s3 s2 s1 s0 = 0 := by
    rw [BitVec.toNat_eq, BitVec.toNat_ofNat, Nat.mod_eq_of_lt range]
    rfl
  rw [ne_eq, number, octet, octet, octet, octet, nat32, nat16, nat16]
  omega

theorem masked_outside (a b : BitVec 32) : a &&& b &&& ~~~b = 0 := by
  rw [BitVec.and_assoc, BitVec.and_not_self]
  exact BitVec.and_zero

/-- The field check of a watch definition (R58, R204). -/
theorem parseDefinition_fits {octets : List Octet} (length : octets.length = 22) :
    (∃ d, parseDefinition octets = .ok d) ↔ definitionFits octets := by
  obtain ⟨s3, s2, s1, s0, r3, r2, r1, r0, sense, q1, q0, rearm, restore, snapshot, cls, kind, output, level, d1, d0, flag,
      index, rfl⟩ : ∃ s3 s2 s1 s0 r3 r2 r1 r0 sense q1 q0 rearm restore snapshot cls kind output level d1 d0 flag index,
      octets = [s3, s2, s1, s0, r3, r2, r1, r0, sense, q1, q0, rearm, restore, snapshot, cls, kind, output, level, d1, d0,
        flag, index] := by
    match octets, length with
    | [_, _, _, _, _, _, _, _, _, _, _, _, _, _, _, _, _, _, _, _, _, _], _ =>
      exact ⟨_, _, _, _, _, _, _, _, _, _, _, _, _, _, _, _, _, _, _, _, _, _, rfl⟩
  rw [definitionFits, ← WatchSense.isSome_ofCode, ← Rearm.isSome_ofCode, ← RestoreReporting.isSome_ofCode,
    ← flagOfCode_isSome, ← RecordClass.isSome_ofCode, ← action_fits, ← prerequisite_fits, ← lineSet_ne_zero_iff]
  unfold parseDefinition
  dsimp only
  constructor
  · rintro ⟨d, parsed⟩
    split at parsed
    case h_2 => cases parsed
    case h_1 decodedSense decodedRearm decodedRestore decodedSnapshot decodedClass decodedAction decodedPrerequisite =>
      unfold inRange at parsed
      split at parsed
      case isFalse => cases parsed
      case isTrue ranges =>
        simp only [WatchDef.wellFormed, Bool.and_eq_true, decide_eq_true_eq] at ranges
        obtain ⟨⟨⟨set, -⟩, qualify⟩, action⟩ := ranges
        exact ⟨set, isSome_of_eq decodedSense, qualify, isSome_of_eq decodedRearm, isSome_of_eq decodedRestore,
          isSome_of_eq decodedSnapshot, isSome_of_eq decodedClass, ⟨_, decodedAction, action⟩,
          isSome_of_eq decodedPrerequisite⟩
  · rintro ⟨set, hSense, qualify, hRearm, hRestore, hSnapshot, hClass, ⟨a, decodedAction, action⟩, hPrerequisite⟩
    obtain ⟨_, decodedSense⟩ := Option.isSome_iff_exists.mp hSense
    obtain ⟨_, decodedRearm⟩ := Option.isSome_iff_exists.mp hRearm
    obtain ⟨_, decodedRestore⟩ := Option.isSome_iff_exists.mp hRestore
    obtain ⟨_, decodedSnapshot⟩ := Option.isSome_iff_exists.mp hSnapshot
    obtain ⟨_, decodedClass⟩ := Option.isSome_iff_exists.mp hClass
    obtain ⟨_, decodedPrerequisite⟩ := Option.isSome_iff_exists.mp hPrerequisite
    rw [decodedSense, decodedRearm, decodedRestore, decodedSnapshot, decodedClass, decodedAction, decodedPrerequisite]
    refine ⟨_, if_pos ?_⟩
    simp only [WatchDef.wellFormed, Bool.and_eq_true, decide_eq_true_eq]
    exact ⟨⟨⟨set, masked_outside _ _⟩, qualify⟩, action⟩

theorem flagOfCode_eq_some {o : Octet} {b : Bool} : flagOfCode o = some b ↔ o = flagOctet b := by
  constructor
  · intro decoded
    unfold flagOfCode at decoded
    split at decoded <;> cases decoded
    case h_1 same => exact (octet_eq_iff (by decide)).mpr same
    case h_2 same => exact (octet_eq_iff (by decide)).mpr same
  · rintro rfl
    exact flagOfCode_octet b

theorem checked_parseSetWatch (payload : List Octet) :
    Checked (payload.length ∈ [24, 2]) (fieldsFit .setWatch payload) (parseSetWatch payload) :=
  match payload with
  | [watch, form] => by
    refine .of_fields (by simp) (fun misfits => ?_) fun ⟨hWatch, hForm⟩ => ?_
    · simp only [parseSetWatch]
      split
      case h_1 decodedWatch decodedForm =>
        exact absurd ⟨(watchOfCode_isSome watch).mp (isSome_of_eq decodedWatch), flagOfCode_eq_some.mp decodedForm⟩ misfits
      case h_2 => rfl
    · obtain ⟨w, decodedWatch⟩ := Option.isSome_iff_exists.mp ((watchOfCode_isSome _).mpr hWatch)
      subst hForm
      exact ⟨⟨w, none⟩, by simp only [parseSetWatch, decodedWatch]; rfl⟩
  | watch :: form :: o :: octets => by
    by_cases length : (o :: octets).length = 22
    · refine .of_fields (by simp_all) (fun misfits => ?_) fun ⟨hWatch, hForm, hDefinition⟩ => ?_
      · simp only [parseSetWatch]
        rw [if_pos length]
        split
        case h_1 w d decodedWatch decodedForm parsed =>
          exact absurd ⟨(watchOfCode_isSome watch).mp (isSome_of_eq decodedWatch), flagOfCode_eq_some.mp decodedForm,
            (parseDefinition_fits length).mp ⟨d, parsed⟩⟩ misfits
        case h_2 => rfl
      · obtain ⟨w, decodedWatch⟩ := Option.isSome_iff_exists.mp ((watchOfCode_isSome _).mpr hWatch)
        obtain ⟨d, parsed⟩ := (parseDefinition_fits length).mpr hDefinition
        subst hForm
        exact ⟨⟨w, some d⟩, by simp only [parseSetWatch]; rw [if_pos length, decodedWatch, parsed]; rfl⟩
    · exact .of_wrongLength (by simp_all) (if_neg length)
  | [] | [_] => .of_wrongLength (by simp) rfl

end Sys2Proof

namespace Sys2Proof.Machine

open Sys2Proof.Claims

/-! ## Every request kind -/

theorem checked_serve (k : RequestKind) (payload : List Octet) (s : State) :
    Checked (payload.length ∈ acceptedLengths k) (fieldsFit k payload) (serve k payload s) := by
  cases k
  case setLink => exact (checked_parseSetLink payload).map _
  case restart => exact (checked_parseRestart payload).map _
  case configureLines => exact (checked_parseConfigureLines payload).map _
  case setWatch => exact (checked_parseSetWatch payload).map _
  case enableWatch => exact (checked_parseWatchIndex (fun _ => rfl) payload).map _
  case disableWatch => exact (checked_parseWatchIndex (fun _ => rfl) payload).map _
  case rearmWatch => exact (checked_parseWatchIndex (fun _ => rfl) payload).map _
  case queryWatch => exact (checked_parseWatchIndex (fun _ => rfl) payload).map _
  case driveOutput => exact (checked_parseDriveOutput payload).map _
  case setOutputFunction => exact (checked_parseSetOutputFunction payload).map _
  case setTime => exact (checked_parseSetTime payload).map _
  case setTimeAtPulse => exact (checked_parseSetTimeAtPulse payload).map _
  case setSync => exact (checked_parseSetSync payload).map _
  case configureTime => exact (checked_parseConfigureTime payload).map _
  case fetch => exact (checked_parseFetch payload).map _
  case ack => exact (checked_parseAck payload).map _
  case setDelivery => exact (checked_parseSetDelivery payload).map _
  all_goals exact (checked_parseEmpty payload).map _

theorem refuseOwned_status (w : Fin 16) (s : State) :
    (refuseOwned w s).status ≠ .badLength ∧ (refuseOwned w s).status ≠ .badField := ⟨nofun, nofun⟩

/-- The owning blocks answer OK or a refusal of their own (R202). -/
theorem serve_status {k : RequestKind} {payload : List Octet} {s : State} {taken : Taken}
    (served : serve k payload s = .ok taken) : taken.status ≠ .badLength ∧ taken.status ≠ .badField := by
  cases k <;> obtain ⟨a, -, rfl⟩ := map_ok served
  case setWatch =>
    unfold takeSetWatch
    split
    case isTrue => exact ⟨nofun, nofun⟩
    case isFalse =>
      split
      case h_1 => exact ⟨nofun, nofun⟩
      case h_2 => split <;> exact ⟨nofun, nofun⟩
  case enableWatch =>
    unfold takeEnableWatch
    split
    case isTrue => exact ⟨nofun, nofun⟩
    case isFalse => split <;> exact ⟨nofun, nofun⟩
  case rearmWatch => unfold takeRearmWatch; split <;> exact ⟨nofun, nofun⟩
  case driveOutput =>
    unfold takeDriveOutput
    split
    case h_4 => exact ⟨nofun, nofun⟩
    case h_3 => exact ⟨nofun, nofun⟩
    all_goals exact refuseOwned_status _ s
  case setOutputFunction =>
    unfold takeSetOutputFunction
    split
    case h_1 => exact refuseOwned_status _ s
    case h_2 => exact refuseOwned_status _ s
    all_goals exact ⟨nofun, nofun⟩
  case fetch => unfold takeFetch; split <;> exact ⟨nofun, nofun⟩
  case ack => unfold takeAck; split <;> exact ⟨nofun, nofun⟩
  case resume => unfold takeResume; split <;> exact ⟨nofun, nofun⟩
  all_goals exact ⟨nofun, nofun⟩

theorem code_ne_of_own {status : Status} (own : status ≠ .badLength ∧ status ≠ .badField) :
    status.code ≠ 0x02 ∧ status.code ≠ 0x03 := by
  obtain ⟨length, field⟩ := own
  cases status
  case badLength => contradiction
  case badField => contradiction
  all_goals decide

/-- Settles O54: by what the parser of the kind answers. -/
theorem wrongLengthIsRefused : Obligations.WrongLengthIsRefused := by
  intro k f rest s waiting
  have checked := checked_serve k f.payload s.popRequest
  refine ⟨fun wrong => exec_command_refused waiting (checked.badLength wrong),
    fun right misfits => exec_command_refused waiting (checked.badField right misfits), fun right fits => ?_, ?_⟩
  · obtain ⟨taken, served⟩ := checked.ok right fits
    have own := code_ne_of_own (serve_status served)
    have kept : taken.state.dispatcher.requests = rest := by
      rw [serve_dispatcher served, popRequest_of_front waiting.dispatchable.front]
    exact ⟨_, _, _, _, own.1, own.2, exec_command_replied waiting served kept⟩
  · rintro watch form tail rfl payload form
    refine exec_command_refused (k := .setWatch) waiting (checked.badField ?_ ?_)
    · obtain ⟨length, -⟩ | ⟨rfl, -⟩ := form <;> simp_all [acceptedLengths]
    · rw [payload]
      intro fits
      obtain ⟨length, other⟩ | ⟨rfl, other⟩ := form
      · match tail, length with
        | _ :: _, _ => exact other fits.2.1
      · exact other fits.2

end Sys2Proof.Machine
end

section
/-! PROOF. The rows of a line (chapter 2): an edge with every other line idle, the end of a chatter window and of a recovery
time, each the whole sample; the first sample; and CONFIGURE_LINES where it ends no suppression. -/

namespace Sys2Proof.Machine

open Sys2Proof.Claims

/-! ## The whole sample -/

section
variable {s : State} {i : Fin 32} (sampling : Sampling s)
include sampling

theorem settleEnd_eq_sample {captured : Stamp} {left : Nat} (settling : s.front.lines[i].filter = .settling captured left)
    (ends : left ≤ 1) (differs : rawLevel s i ≠ s.front.lines[i].filtered)
    (unsuppressed : ∀ n, s.front.lines[i].chatter ≠ .suppressed n) : exec (.settleEnd i) s = exec .sample s := by
  have isSuppressed : s.front.lines[i].isSuppressed = false := by
    unfold Line.isSuppressed
    split
    case h_1 n suppressed => exact absurd suppressed (unsuppressed n)
    case h_2 => rfl
  have settles : s.settleEnds i = true := by
    rw [State.settleEnds, sampling.later, isSuppressed, settling, ← rawLevel_eq]
    simp only [ends, differs, ne_eq, not_false_eq_true, decide_true, Bool.not_false, Bool.and_self]
  have ready := sampleReady_of sampling
  refine congrArg Host.Outcome.next ?_
  rw [settleEnd, sample, ready, settles]
  rfl

theorem chatterWindowExpiry_eq_sample {count left : Nat} (counting : s.front.lines[i].chatter = .counting count left)
    (ends : left ≤ 1) : exec (.chatterWindowExpiry i) s = exec .sample s := by
  have expires : s.windowExpires i = true := by
    rw [State.windowExpires, sampling.later, counting]
    simp only [ends, decide_true, Bool.not_false, Bool.and_self]
  refine congrArg Host.Outcome.next ?_
  rw [chatterWindowExpiry, sample, sampleReady_of sampling, expires]
  rfl

theorem recoveryExpiry_eq_sample {left : Nat} (suppressed : s.front.lines[i].chatter = .suppressed left)
    (ends : left ≤ 1) (same : rawLevel s i = s.front.lines[i].raw) : exec (.recoveryExpiry i) s = exec .sample s := by
  have expires : s.recoveryExpires i = true := by
    rw [State.recoveryExpires, sampling.later, suppressed, ← rawLevel_eq]
    simp only [ends, same, decide_true, Bool.not_false, Bool.and_self]
  refine congrArg Host.Outcome.next ?_
  rw [recoveryExpiry, sample, sampleReady_of sampling, expires]
  rfl

/-- A sample before which no request comes. -/
theorem exec_sample_alone (alone : s.requestsFirst = false) : exec .sample s = .next (takeSample s) := by
  refine congrArg Host.Outcome.next ?_
  rw [sample, if_pos (sampleReady_of sampling), sampleBehind, departFirst_alone alone, if_pos (sampleReady_of sampling)]

end

theorem sampleAlone_of_allDisabled {s : State} (h : AllDisabled s) : SampleAlone s :=
  .inr fun w _ _ _ armed => absurd ((h w).symm.trans armed) nofun

/-! ## Idle lines -/

section
variable {s : State} {i : Fin 32}

theorem edgeMade_idle (h : Idle s i) : edgeMade s i = none := if_pos h.2.2.1

theorem sampled_line_idle (h : Idle s i) : s.sampled.front.lines[i] = s.front.lines[i] := by
  obtain ⟨quiet, stable, same, raw⟩ := h
  rw [sampled_line_same (fun left suppressed => nomatch quiet.symm.trans suppressed) same, raw, ← stable]
  generalize s.front.lines[i] = l at quiet ⊢
  rw [quiet]
  rw [show windowAfter .quiet = l.chatter from quiet.symm]

theorem lineRecords_idle (h : Idle s i) : lineRecords s i = [] := by
  rw [← sampleResult_sent,
    sampleResult_noEdge (fun left suppressed => nomatch h.1.symm.trans suppressed) (edgeMade_idle h)]

end

theorem vector_eq_set {α : Type} {n : Nat} {v v' : Vector α n} {i : Fin n} (others : ∀ j : Fin n, j ≠ i → v'[j] = v[j]) :
    v' = v.set i.val v'[i] i.isLt := by
  refine Vector.ext fun k hk => ?_
  rw [Vector.getElem_set]
  split
  case isTrue same =>
    subst same
    rfl
  case isFalse other => exact others ⟨k, hk⟩ fun same => other (congrArg Fin.val same).symm

/-- With every other line idle, the lines change at line `i` alone. -/
theorem sampled_lines_others {s : State} {i : Fin 32} (others : ∀ j, j ≠ i → Idle s j) :
    s.sampled.front.lines = s.front.lines.set i.val s.sampled.front.lines[i] i.isLt :=
  vector_eq_set fun j other => sampled_line_idle (others j other)

/-- With every other line idle, the records of the lines are those of line `i`. -/
theorem lineRecords_others {s : State} {i : Fin 32} (others : ∀ j, j ≠ i → Idle s j) :
    (List.finRange 32).flatMap (lineRecords s) = lineRecords s i := by
  have single : ∀ l : List (Fin 32), l.Nodup → i ∈ l → l.flatMap (lineRecords s) = lineRecords s i := by
    intro l nodup mem
    obtain ⟨before, after, rfl⟩ := List.append_of_mem mem
    rw [List.nodup_append, List.nodup_cons] at nodup
    obtain ⟨-, ⟨notAfter, -⟩, apart⟩ := nodup
    have silent : ∀ l : List (Fin 32), i ∉ l → l.flatMap (lineRecords s) = [] := fun l out =>
      List.flatMap_eq_nil_iff.mpr fun j mem => lineRecords_idle (others j fun same => out (same ▸ mem))
    rw [List.flatMap_append, List.flatMap_cons, silent before fun mem => apart i mem i List.mem_cons_self rfl,
      silent after notAfter, List.nil_append, List.append_nil]
  exact single _ (List.nodup_finRange 32) (List.mem_finRange i)

/-- The sample with every other line idle and every watch DISABLED. -/
theorem exec_sample_of_disabled {s : State} {i : Fin 32} (sampling : Sampling s) (disabled : AllDisabled s)
    (others : ∀ j, j ≠ i → Idle s j) {line : Line} (result : s.sampled.front.lines[i] = line) :
    exec .sample s = .next { s with
      front := { s.front with lines := s.front.lines.set i.val line i.isLt, sampleDue := false }
      journal := arrived s (lineRecords s i) } := by
  have front : s.sampled.front
      = { s.front with lines := s.front.lines.set i.val line i.isLt, sampleDue := false } := by
    rw [← result, ← sampled_lines_others others]
    simp only [State.sampled]
  rw [exec_sample_alone sampling (requestsFirst_alone (sampleAlone_of_allDisabled disabled)),
    takeSample_lines sampling.later (deliveryTasks_disabled (fun w => by rw [sampled_watches]; exact disabled w) _),
    lineRecords_others others, front]

/-! ## The obligations of single lines -/

theorem edgeMade_of_stamp {s : State} {i : Fin 32} {captured : Stamp} (h : EdgeStamp s i captured)
    (differs : rawLevel s i ≠ s.front.lines[i].filtered) : edgeMade s i = some captured := by
  obtain ⟨left, settling, ends⟩ | ⟨stable, zero, rfl⟩ := h
  · rw [edgeMade, if_neg differs, settling]
    exact if_pos ends
  · rw [edgeMade, if_neg differs, stable]
    exact if_pos zero

theorem lineRecords_passed {s : State} {i : Fin 32} {stamp : Stamp} {chatter : Chatter}
    (made : edgeMade s i = some stamp) (passed : passedTo s.front.lines[i] = some chatter) :
    lineRecords s i = edgeRecords s.front.lines[i].config.recording i (rawLevel s i) stamp false := by
  rw [← sampleResult_sent, sampleResult_edge (unsuppressed_of_passedTo passed) made, superviseEdge_passed passed]

theorem lineRecords_withheld {s : State} {i : Fin 32} {stamp : Stamp} {count left : Nat}
    (made : edgeMade s i = some stamp) (counting : s.front.lines[i].chatter = .counting count left) (runs : 1 < left)
    (limited : s.front.lines[i].config.limit ≠ 0) (beyond : s.front.lines[i].config.limit < count + 1) :
    lineRecords s i = [{ cls := .routine, stamp, body := .chatterOn i (count + 1) }] := by
  rw [← sampleResult_sent, sampleResult_edge (fun left h => nomatch counting.symm.trans h) made,
    superviseEdge_withheld counting runs limited beyond]

/-- A command that takes the edge of a line that is not SUPPRESSED takes the sample. -/
theorem takesEdge_eq_sample {c : Instr} {s : State} {i : Fin 32} {captured : Stamp} (takes : TakesEdge s i c)
    (sampling : Sampling s) (stamp : EdgeStamp s i captured) (differs : rawLevel s i ≠ s.front.lines[i].filtered)
    (unsuppressed : ∀ n, s.front.lines[i].chatter ≠ .suppressed n) : exec c s = exec .sample s := by
  obtain rfl | ⟨rfl, settles⟩ := takes
  · rfl
  · obtain ⟨left, settling, ends⟩ | ⟨stable, -, -⟩ := stamp
    · exact settleEnd_eq_sample sampling settling ends differs unsuppressed
    · exact absurd stable settles

/-- Settles O14: the sample with one edge, by what supervision makes of it. -/
theorem settleEndRecordsEdge : Obligations.SettleEndRecordsEdge := by
  refine ⟨fun s i captured left sampling settling ends differs unsuppressed =>
    settleEnd_eq_sample sampling settling ends differs unsuppressed,
    fun c s i captured takes sampling disabled others stamp differs => ⟨fun chatter passed => ?_,
      fun count left counting runs limited beyond => ?_⟩⟩
  · have made := edgeMade_of_stamp stamp differs
    rw [takesEdge_eq_sample takes sampling stamp differs (unsuppressed_of_passedTo passed),
      exec_sample_of_disabled sampling disabled others (sampled_line_passed made passed), lineRecords_passed made passed]
  · have made := edgeMade_of_stamp stamp differs
    rw [takesEdge_eq_sample takes sampling stamp differs (fun n h => nomatch counting.symm.trans h),
      exec_sample_of_disabled sampling disabled others (sampled_line_withheld made counting runs limited beyond),
      lineRecords_withheld made counting runs limited beyond]

/-- Settles O15: each expiry is the sample, and the sample with one such line. -/
theorem windowAndRecoveryExpire : Obligations.WindowAndRecoveryExpire := by
  refine ⟨fun s i sampling => ⟨fun count left counting ends => chatterWindowExpiry_eq_sample sampling counting ends,
    fun left suppressed ends same => recoveryExpiry_eq_sample sampling suppressed ends same⟩,
    fun s i sampling disabled others => ⟨fun count left counting ends stable same => ?_,
      fun left suppressed ends same => ?_⟩⟩
  · have unsuppressed : ∀ n, s.front.lines[i].chatter ≠ .suppressed n := fun n h => nomatch counting.symm.trans h
    have window : windowAfter s.front.lines[i].chatter = .quiet := by
      rw [counting]
      exact if_pos ends
    have line : s.sampled.front.lines[i] = { s.front.lines[i] with raw := rawLevel s i, chatter := .quiet } := by
      rw [sampled_line_same unsuppressed same, window, ← stable]
    have silent : lineRecords s i = [] := by
      rw [← sampleResult_sent, sampleResult_noEdge unsuppressed (if_pos same)]
    rw [chatterWindowExpiry_eq_sample sampling counting ends, exec_sample_of_disabled sampling disabled others line, silent]
    rfl
  · have result : s.sampleResult i = endSuppression i s.time.now s.front.lines[i] := by
      rw [sampleResult_suppressed suppressed, suppressedStep, if_neg (not_not.mpr same), if_pos ends]
    have line : s.sampled.front.lines[i]
        = { s.front.lines[i] with filtered := rawLevel s i, filter := .stable, chatter := .quiet } := by
      rw [sampled_line, result, endSuppression_eq, same]
    rw [recoveryExpiry_eq_sample sampling suppressed ends same, exec_sample_of_disabled sampling disabled others line,
      ← sampleResult_sent, result, endSuppression_eq, same]

/-- Settles O11: nothing comes before a first sample, which delivers no edge. -/
theorem firstSampleSetsLevels : Obligations.FirstSampleSetsLevels := by
  intro s running due first
  have ready : s.sampleReady = true := by simp [State.sampleReady, State.isHeld, running, due]
  have alone : s.requestsFirst = false := by simp [State.requestsFirst, State.sampleDelivers, first]
  have levels : ∀ i : Fin 32, firstSampleLine (levelIn s.front.pins i) s.front.lines[i]
      = { s.front.lines[i] with raw := rawLevel s i, filtered := rawLevel s i } := by
    intro i
    rw [firstSampleLine, ← rawLevel_eq]
  refine congrArg Host.Outcome.next ?_
  rw [sample, if_pos ready, sampleBehind, departFirst_alone alone, if_pos ready, takeSample, if_pos first,
    funext levels]

/-! ## CONFIGURE_LINES where it ends no suppression -/

theorem covers_iff {r : ConfigureLines} {i : Fin 32} : covers r i = true ↔ r.first ≤ i.val ∧ i.val < r.first + r.count := by
  simp only [covers, Bool.and_eq_true, decide_eq_true_eq]

theorem isSuppressed_iff {l : Line} : l.isSuppressed = true ↔ ∃ left, l.chatter = .suppressed left := by
  unfold Line.isSuppressed
  split
  case h_1 left suppressed => simp [suppressed]
  case h_2 other => simpa using other

theorem mem_endedBy {s : State} {r : ConfigureLines} {i : Fin 32} :
    i ∈ s.endedBy r ↔ (r.first ≤ i.val ∧ i.val < r.first + r.count) ∧ (∃ left, s.front.lines[i].chatter = .suppressed left)
      ∧ s.front.lines[i].config.limit ≠ 0 ∧ r.limit = 0 := by
  simp only [State.endedBy, List.mem_filter, List.mem_finRange, true_and, Bool.and_eq_true, decide_eq_true_eq, covers_iff,
    isSuppressed_iff, and_assoc]

/-- A CONFIGURE_LINES that ends no suppression has no sample to come before it. -/
theorem sampleFirst_unended {s : State} {r : ConfigureLines} (unended : s.endedBy r = []) : s.sampleFirst r = false := by
  have none : ∀ p, s.mayTripDependent (s.recovering (s.endedBy r)) p = false := by
    intro p
    simp [State.mayTripDependent, unended, State.recovering]
  have never : (List.finRange 16).any (fun _ => false) = false := List.any_eq_false.mpr fun _ _ => Bool.false_ne_true
  simp only [State.sampleFirst, none, Bool.and_false, never]

/-- The lines as a CONFIGURE_LINES leaves them, but for the end of suppressions. -/
def configuredLines (r : ConfigureLines) (lines : Vector Line 32) : Vector Line 32 :=
  Vector.ofFn fun i => if covers r i = true then lines[i].configure (newConfig r) else lines[i]

theorem configureLines_eq (r : ConfigureLines) (s : State) :
    configureLines r s =
      (endSuppressions (s.endedBy r).length (s.endedBy r)
        { state := { s with front := { s.front with lines := configuredLines r s.front.lines } }, sent := [] }).finish :=
  rfl

theorem takeConfigureLines_unended {s : State} {r : ConfigureLines} (unended : s.endedBy r = []) :
    takeConfigureLines r s
      = .ok [] { s with front := { s.front with lines := configuredLines r s.front.lines } } := by
  rw [takeConfigureLines, sampleFirst_unended unended, if_neg Bool.false_ne_true, configureLines_eq, unended, List.length_nil,
    endSuppressions, Work.finish, send_nil]

/-- A request that its owning block takes is answered with the block's reply (R178, R180, R185). -/
theorem exec_command_served {k : RequestKind} {f : Frame} {rest : List Frame} {s t : State} (h : Waiting k f rest s)
    {taken : Taken} (served : serve k f.payload s.popRequest = .ok taken)
    (state : taken.state = { t with dispatcher := { t.dispatcher with requests := rest } }) :
    exec k.command s = .next (replied f rest taken.status.code taken.fields taken.effect t) := by
  rw [exec_command_replied h served (by rw [state]), state]
  rfl

/-- Settles O17: no suppression ends, so that only the configuration of the lines of the range changes. -/
theorem configureLinesWritesRange : Obligations.ConfigureLinesWritesRange := by
  intro f rest r s waiting payload wellFormed unended
  have parsed : parseConfigureLines f.payload = .ok r := by rw [payload, parseConfigureLines_encode wellFormed]
  have none : s.popRequest.endedBy r = [] := by
    refine List.eq_nil_iff_forall_not_mem.mpr fun i mem => ?_
    obtain ⟨⟨first, last⟩, ⟨left, suppressed⟩, limited, zero⟩ := mem_endedBy.mp mem
    exact limited (unended zero i left first last suppressed)
  have served : serve .configureLines f.payload s.popRequest = .ok (.ok []
      { s.popRequest with front := { s.front with lines := configuredLines r s.front.lines } }) := by
    simp only [serve, parsed, Except.map, takeConfigureLines_unended none]
    rfl
  have front := popRequest_of_front waiting.dispatchable.front
  have lines : configuredLines r s.front.lines = Vector.ofFn fun i =>
      if r.first ≤ i.val ∧ i.val < r.first + r.count then
        { s.front.lines[i] with
          config :=
            { sense := r.sense, settle := r.settle, recording := r.recording, limit := r.limit
              window := r.window * 1024, recovery := r.recovery * 1024 }
          chatter :=
            match s.front.lines[i].chatter with
            | .counting count left => if r.limit = s.front.lines[i].config.limit then .counting count left else .quiet
            | chatter => chatter }
      else s.front.lines[i] := by
    simp only [configuredLines, covers_iff]
    rfl
  refine (exec_command_served (k := .configureLines) waiting served
    (t := { s with front := { s.front with lines := configuredLines r s.front.lines } }) (by rw [front]; rfl)).trans ?_
  rw [lines]
  rfl

end Sys2Proof.Machine
end

section
/-! PROOF. The time base (chapter 6): the tick and the slew tick, the SYNC pulse by state, the expiries of the synchronisation
machine, and the requests to it. -/

namespace Sys2Proof.Machine

open Sys2Proof.Claims

/-! ## What every tick counts -/

theorem pulseMade_iff {edge : SyncEdge} {previous : Option Level} {level : Level} :
    pulseMade edge previous level = true ↔
      (edge = .rising ∧ previous = some .low ∧ level = .high) ∨ (edge = .falling ∧ previous = some .high ∧ level = .low) := by
  cases previous with
  | none => simp [pulseMade]
  | some p => cases edge <;> cases p <;> cases level <;> simp [pulseMade, activeLevel]

theorem not_isHeld_eq (s : State) : (!s.isHeld) = decide (s.hold = .running) := by
  unfold State.isHeld
  split
  case h_1 running => simp [running]
  case h_2 held => simp [held]

section
variable (pins : LineMap) (sync : Level) (s : State)

theorem advance_watch (w : Fin 16) :
    (advance pins sync s).watches[w] = { s.watches[w] with state := s.watches[w].state.tick } := getElem_ofFn_fin _ w

theorem advance_output (o : Fin 8) :
    (advance pins sync s).outputs[o] = { s.outputs[o] with owner := s.outputs[o].owner.tick } := getElem_ofFn_fin _ o

theorem WatchState.tick_other {x : WatchState} (other : ∀ onset c, x ≠ .qualifying onset c) : x.tick = x := by
  cases x with
  | qualifying onset timer => exact absurd rfl (other onset timer)
  | _ => rfl

theorem Owner.tick_other {x : Owner} (host : ∀ p, x ≠ .host (some p)) (pulse : ∀ w p, x ≠ .pulse w p) : x.tick = x := by
  cases x with
  | host p =>
    cases p with
    | none => rfl
    | some p => exact absurd rfl (host p)
  | pulse w p => exact absurd rfl (pulse w p)
  | _ => rfl

/-- What every tick counts, slew tick or not. -/
theorem advance_countsOneTick : CountsOneTick pins sync s (advance pins sync s) := by
  refine ⟨?_, rfl, rfl, rfl, rfl, rfl, rfl, rfl, rfl, pulseMade_iff.trans ?_, ?_, ?_, ?_, ?_, ?_, rfl, rfl, rfl, rfl, rfl,
    rfl, rfl, rfl, rfl⟩
  · rw [← not_isHeld_eq]
    rfl
  · rfl
  · intro r v o c armed
    show s.time.sync.tick = _
    rw [armed]
    rfl
  · intro c tracking
    show s.time.sync.tick = _
    rw [tracking]
    rfl
  · intro other
    show s.time.sync.tick = _
    obtain same | same | same := other <;> rw [same] <;> rfl
  · intro w
    rw [advance_watch]
    refine ⟨fun onset c qualifying => ?_, fun other => ?_⟩
    · rw [qualifying]
      rfl
    · rw [WatchState.tick_other other]
  · intro o
    rw [advance_output]
    refine ⟨fun p host => ?_, fun w p pulse => ?_, fun host pulse => ?_⟩
    · rw [host]
      rfl
    · rw [pulse]
      rfl
    · rw [Owner.tick_other host pulse]

end

theorem settle_of_dueEvents_nil {s : State} (h : s.dueEvents = []) : s.settle = s := by
  have none : takeDueEvents dueFuel s = takeDueEvents (99 + 1) s := rfl
  rw [State.settle, none, takeDueEvents, h]
  rfl

theorem slewTickNext_iff {t : TimeBase} : t.slewTickNext = true ↔ t.slewRemainder ≠ 0 ∧ t.slewSpacing = 0 := by
  simp only [TimeBase.slewTickNext, Bool.and_eq_true, decide_eq_true_eq]

/-- Settles O30: with nothing due the tick is the advance of every block, and it is no slew tick. -/
theorem tickCounts : Obligations.TickCounts := by
  intro pins sync s none plain
  have noSlew : s.time.slewTickNext = false := by
    refine Bool.eq_false_iff.mpr fun slew => ?_
    obtain ⟨runs, spaced⟩ := slewTickNext_iff.mp slew
    exact plain.elim runs (fun h => h spaced)
  refine ⟨advance pins sync s, ?_, rfl, ?_, ?_, fun runs => ?_, fun still => ?_, advance_countsOneTick pins sync s⟩
  · exact congrArg (fun u => Host.Outcome.next (advance pins sync u)) (settle_of_dueEvents_nil none)
  · show s.time.timeAfterTick = _
    rw [TimeBase.timeAfterTick, noSlew]
    rfl
  · show s.time.remainderAfterTick = _
    rw [TimeBase.remainderAfterTick, noSlew]
    rfl
  · show s.time.spacingAfterTick = _
    rw [TimeBase.spacingAfterTick, if_neg runs, noSlew]
    rfl
  · exact if_pos still

theorem ticksOf_nextTime (t : TimeValue) : ticksOf (nextTime t) = (ticksOf t + 1) % (2 ^ 32 * 1024) := by
  have sec := t.sec.isLt
  have tick := t.tick.isLt
  unfold nextTime ticksOf
  split
  case isTrue last =>
    have last : t.tick.toNat = 1023 := congrArg BitVec.toNat last
    simp only [BitVec.toNat_add, BitVec.ofNat_eq_ofNat, BitVec.toNat_ofNat]
    omega
  case isFalse before =>
    have before : t.tick.toNat ≠ 1023 := fun same => before (BitVec.eq_of_toNat_eq same)
    simp only [BitVec.toNat_add, BitVec.ofNat_eq_ofNat, BitVec.toNat_ofNat]
    omega

/-- Settles O32: with nothing due the tick is the advance of every block, and it is a slew tick. -/
theorem slewTickHoldsOrDoubles : Obligations.SlewTickHoldsOrDoubles := by
  intro pins sync s none runs spaced
  have slew : s.time.slewTickNext = true := slewTickNext_iff.mpr ⟨runs, spaced⟩
  have settled := settle_of_dueEvents_nil none
  refine ⟨advance pins sync s, ?_, ?_, fun positive => ⟨?_, ?_⟩, fun negative => ⟨?_, ?_⟩, ?_, rfl,
    advance_countsOneTick pins sync s⟩
  · refine congrArg Host.Outcome.next ?_
    rw [slewTick, settled]
    exact if_pos slew
  · exact congrArg (fun u => Host.Outcome.next (advance pins sync u)) settled
  · show s.time.timeAfterTick = _
    rw [TimeBase.timeAfterTick, if_pos slew, if_pos positive]
  · show s.time.remainderAfterTick = _
    rw [TimeBase.remainderAfterTick, if_pos slew, if_pos positive]
  · show s.time.remainderAfterTick = _
    rw [TimeBase.remainderAfterTick, if_pos slew, if_neg (by omega)]
  · show ticksOf s.time.timeAfterTick = _
    rw [TimeBase.timeAfterTick, if_pos slew, if_neg (by omega), ticksOf_nextTime, ticksOf_nextTime]
    omega
  · show s.time.spacingAfterTick = _
    rw [TimeBase.spacingAfterTick, if_neg runs, if_pos slew]
    rfl

/-! ## The tick in any state -/

theorem canDispatch_of_dueEvents_nil {s : State} (none : s.dueEvents = []) : s.canDispatch = false := by
  refine Bool.eq_false_iff.mpr fun can => ?_
  have due : Due.dispatch ∈ s.dueEvents := by simp [State.dueEvents, can]
  rw [none] at due
  cases due

theorem canHandOver_of_dueEvents_nil {s : State} (none : s.dueEvents = []) : s.canHandOver = false := by
  refine Bool.eq_false_iff.mpr fun can => ?_
  have due : Due.handOver ∈ s.dueEvents := by simp [State.dueEvents, can]
  rw [none] at due
  cases due

/-- Where nothing is due, nothing waits that the dispatcher or the arbiter could take (R162, R178). -/
theorem nothingWaits_of_dueEvents_nil {s : State} (running : s.hold = .running) (none : s.dueEvents = []) :
    NothingWaits s := by
  have notHeld : s.isHeld = false := by simp [State.isHeld, running]
  have dispatch := canDispatch_of_dueEvents_nil none
  have handOver := canHandOver_of_dueEvents_nil none
  simp only [State.canHandOver, Bool.or_eq_false_iff] at handOver
  obtain ⟨⟨reply, notice⟩, -⟩ := handOver
  refine ⟨?_, fun free => ?_⟩
  · by_contra waits
    obtain ⟨requests, slot⟩ := not_or.mp waits
    simp [State.canDispatch, notHeld, requests, Config.replyCapacity, Nat.lt_of_not_le slot] at dispatch
  · have lineFree : s.lineFree = true := by simp [State.lineFree, notHeld, free]
    have replies : s.dispatcher.replies = [] := by simpa [State.replyWaits, lineFree] using reply
    exact ⟨replies, by simpa [State.noticeWaits, lineFree, replies, dispatch] using notice⟩

/-- Settles O31: what is due, taken first, leaves the hold, the tick counter and the queue's bound alone. -/
theorem tickAdvancesCounter : Obligations.TickAdvancesCounter := by
  intro pins sync s
  have kept := settle_untouched s
  have done := settle_done (s := s)
  have tick : exec (.tick pins sync) s = .next (advance pins sync s.settle) := rfl
  have slewTick : exec (.slewTick pins sync) s
      = .next (if s.settle.time.slewTickNext = true then advance pins sync s.settle else s) := rfl
  rw [tick, slewTick]
  generalize s.settle = u at kept done
  refine ⟨⟨advance pins sync u, rfl, ?_, rfl, rfl, kept.hold, ?_, fun running queue => ?_, fun runs spaced => ?_⟩,
    fun plain => ?_⟩
  · show u.time.tickCounter + 1 = _
    rw [kept.tick]
  · show (!u.isHeld) = _
    rw [not_isHeld_eq, kept.hold]
  · have waits := nothingWaits_of_dueEvents_nil (kept.hold.trans running) (done queue)
    exact ⟨waits.1, waits.2⟩
  · rw [if_pos (slewTickNext_iff.mpr ⟨runs, spaced⟩)]
  · rw [if_neg fun slew => ?_]
    obtain ⟨runs, spaced⟩ := slewTickNext_iff.mp slew
    exact plain.elim runs (fun h => h spaced)

/-! ## The pulse -/

theorem exec_syncPulse {s : State} (due : s.time.pulseDue = true)
    (one : ∀ time step gained, s.time.takePulse ≠ (time, [step, gained])) :
    exec .syncPulse s = .next (s.withTime s.time.takePulse) := by
  obtain ⟨not, -⟩ | ⟨-, -, same⟩ | ⟨time, step, gained, -, two, -⟩ := syncPulse_cases s
  · exact absurd (not.symm.trans due) Bool.false_ne_true
  · exact congrArg Host.Outcome.next same
  · exact absurd two (one time step gained)

theorem exec_syncPulse_two {s : State} {time : TimeBase} {step gained : Draft} (due : s.time.pulseDue = true)
    (two : s.time.takePulse = (time, [step, gained])) :
    exec .syncPulse s = .next ((takeBesides besideFuel (s.withTime (time, [step]))).arrive gained) := by
  obtain ⟨not, -⟩ | ⟨-, one, -⟩ | ⟨time', step', gained', -, two', same⟩ := syncPulse_cases s
  · exact absurd (not.symm.trans due) Bool.false_ne_true
  · exact absurd two (one time step gained)
  · cases two.symm.trans two'
    exact congrArg Host.Outcome.next same

/-- What is taken between the two records of a pulse are events of other blocks (R120). -/
theorem takeBeside_reached {e : Beside} {s : State} (h : e ∈ s.besides) :
    ∃ c, sendsBeside c ∧ exec c s = .next (takeBeside e s) := by
  cases e with
  | sample => exact ⟨.sample, trivial, rfl⟩
  | qualify w => exact ⟨.qualifyExpiry w, trivial, rfl⟩
  | dispatch =>
    have sends : s.dispatchSends = true := by simpa [State.besides] using h
    obtain ⟨k, f, rest, -, records, command⟩ := dispatchSends_kind sends
    refine ⟨k.command, ?_, command⟩
    cases k
    case configureLines => trivial
    case enableWatch => trivial
    case rearmWatch => trivial
    all_goals cases records

theorem takeBesides_reached (fuel : Nat) (s : State) : ReachedBeside s (takeBesides fuel s) := by
  induction fuel generalizing s with
  | zero => exact .none s
  | succ fuel ih =>
    unfold takeBesides
    obtain ⟨n, chosen⟩ := s.choose_eq (s.besides.length + 1)
    dsimp only
    rw [chosen]
    split
    · exact .choice n (.none _)
    · rename_i e taken
      have due : e ∈ ({ s with choices := n } : State).besides := List.mem_of_getElem? taken
      obtain ⟨c, sends, answers⟩ := takeBeside_reached due
      exact .choice n (.event c sends answers (ih _))

theorem qualifyDue_iff {s : State} {w : Fin 16} (h : s.qualifyDue w = true) :
    ∃ onset timer, s.watches[w].state = .qualifying onset timer ∧ timer.due = true := by
  obtain ⟨-, timer⟩ := Bool.and_eq_true_iff.mp h
  split at timer
  case h_1 onset c qualifying => exact ⟨onset, c, qualifying, timer⟩
  case h_2 => cases timer

/-- Where no other block has anything due that sends records, nothing comes between (R120). -/
theorem besides_nil {s : State} (h : NothingBeside s) : s.besides = [] := by
  obtain ⟨sample, requests, qualify⟩ := h
  have ready : s.sampleReady = false := by
    obtain held | taken := sample
    · exact sampleReady_of_held (s.isHeld_iff.mpr held)
    · simp [State.sampleReady, taken]
  have expiries : (List.finRange 16).filter s.qualifyDue = [] := by
    refine List.filter_eq_nil_iff.mpr fun w _ due => ?_
    obtain ⟨onset, timer, qualifying, due⟩ := qualifyDue_iff due
    exact absurd (due.symm.trans (qualify w onset timer qualifying)) nofun
  have sends : s.dispatchSends = false := by
    obtain held | none := requests
    · simp [State.dispatchSends, canDispatch_of_held (s.isHeld_iff.mpr held)]
    · simp [State.dispatchSends, State.canDispatch, none]
  simp [State.besides, ready, expiries, sends]

/-! ### The correction -/

theorem pulseOffset_early {tick : BitVec 10} (early : tick.toNat ≤ 511) : pulseOffset tick = tick.toNat := if_pos early

theorem pulseOffset_late {tick : BitVec 10} (late : 511 < tick.toNat) : pulseOffset tick = (tick.toNat : Int) - 1024 :=
  if_neg (by omega)

theorem slews_iff {t : TimeBase} : t.slews = true ↔ t.time.tick.toNat ≤ 8 ∨ 1016 ≤ t.time.tick.toNat := by
  have range := t.time.tick.isLt
  simp only [TimeBase.slews, Bool.and_eq_true, decide_eq_true_eq]
  by_cases early : t.time.tick.toNat ≤ 511
  · rw [pulseOffset_early early]
    omega
  · rw [pulseOffset_late (by omega)]
    omega

theorem spacingFrom_of_ne {n : Int} (h : n ≠ 0) : spacingFrom n = 15 := if_neg h

/-- The time base after an accepted pulse in ACQUIRING, TRACKING or HOLDOVER (R118, R119). -/
theorem corrected_accepted (t : TimeBase) {n : Nat} (tick : n = t.time.tick.toNat) :
    t.corrected.accepted .newTracking =
      { t with
        time :=
          if n ≤ 8 ∨ 1016 ≤ n then t.time
          else if n ≤ 511 then ⟨t.time.sec, 0⟩
          else ⟨t.time.sec + 1, 0⟩
        everSet := if n ≤ 8 ∨ 1016 ≤ n then t.everSet else true
        slewRemainder := if n ≤ 8 then n else if 1016 ≤ n then (n : Int) - 1024 else 0
        slewSpacing := if n = 0 ∨ (8 < n ∧ n < 1016) then 0 else 15
        sync := .tracking ⟨1280, false⟩
        lastPulseAge := some 0, pulseInState := true } := by
  have range := t.time.tick.isLt
  rw [TimeBase.corrected]
  by_cases early : n ≤ 8
  · have spacing : spacingFrom n = if n = 0 ∨ (8 < n ∧ n < 1016) then 0 else 15 := by
      have same : (n = 0 ∨ (8 < n ∧ n < 1016)) ↔ (n : Int) = 0 := by omega
      simp only [spacingFrom, same]
    rw [if_pos (slews_iff.mpr (.inl (tick ▸ early))), if_pos (.inl early), if_pos (.inl early), if_pos early,
      pulseOffset_early (by omega), ← tick, spacing]
    rfl
  · by_cases late : 1016 ≤ n
    · rw [if_pos (slews_iff.mpr (.inr (tick ▸ late))), if_pos (.inr late), if_pos (.inr late), if_neg early, if_pos late,
        if_neg (by omega), pulseOffset_late (by omega), ← tick, spacingFrom_of_ne (by omega)]
      rfl
    · have steps : ¬ t.slews = true := by
        rw [slews_iff]
        omega
      have mid : ¬ (n ≤ 8 ∨ 1016 ≤ n) := by omega
      rw [if_neg steps, if_neg mid, if_neg mid, if_neg early, if_neg late, nearestSecond, ← tick]
      rw [if_pos (show n = 0 ∨ (8 < n ∧ n < 1016) by omega)]
      rfl

/-- The state is one that follows the pulse: ACQUIRING, TRACKING or HOLDOVER. -/
def Follows (x : SyncState) : Prop := x = .acquiring ∨ (∃ limit, x = .tracking limit) ∨ x = .holdover

section
variable {t : TimeBase}

theorem pulse_free (h : t.sync = .free) : t.pulse = (t, []) := by rw [TimeBase.pulse, h]

theorem pulse_armed {remembered : Remembered} {value : BitVec 32} {option : ArmOption} {deadline : Countdown}
    (h : t.sync = .armed remembered value option deadline) : t.pulse = t.armedPulse value option := by
  rw [TimeBase.pulse, h]

theorem pulse_follows (h : Follows t.sync) : t.pulse = t.trackedPulse := by
  rw [TimeBase.pulse]
  obtain same | ⟨limit, same⟩ | same := h <;> rw [same]

/-- A pulse soon after the last accepted one is ignored, and counted (R117). -/
theorem trackedPulse_ignored {age : Nat} (last : t.lastPulseAge = some age) (soon : age < 768) :
    t.trackedPulse = ({ t with ignored := saturating t.ignored }, []) := by
  have tooSoon : t.tooSoon = true := by
    rw [TimeBase.tooSoon, last]
    exact decide_eq_true soon
  rw [TimeBase.trackedPulse, if_pos tooSoon]
  rfl

theorem trackedPulse_accepted (accepted : ∀ age, t.lastPulseAge = some age → 768 ≤ age) :
    t.trackedPulse =
      (t.corrected.accepted .newTracking,
        (if t.slews = true then [] else [(t.corrected.accepted .newTracking).record .routine (.step t.time)])
          ++ (if t.sync.isTracking = true then [] else [(t.corrected.accepted .newTracking).record .routine .syncGained])) := by
  have notSoon : ¬ t.tooSoon = true := by
    unfold TimeBase.tooSoon
    cases last : t.lastPulseAge with
    | none => exact Bool.false_ne_true
    | some age => exact fun soon => Nat.not_lt.mpr (accepted age last) (of_decide_eq_true soon)
  rw [TimeBase.trackedPulse, if_neg notSoon]

end

theorem isTracking_iff {x : SyncState} : x.isTracking = true ↔ ∃ limit, x = .tracking limit := by
  cases x <;> simp [SyncState.isTracking]

/-- The time base once the pulse of this tick has been accepted in ACQUIRING, TRACKING or HOLDOVER (R117). -/
def TimeBase.afterAccepted (t : TimeBase) : TimeBase := ({ t with pulseDue := false } : TimeBase).corrected.accepted .newTracking

theorem takePulse_accepted {t : TimeBase} (follows : Follows t.sync)
    (accepted : ∀ age, t.lastPulseAge = some age → 768 ≤ age) :
    t.takePulse =
      (t.afterAccepted,
        (if t.slews = true then [] else [t.afterAccepted.record .routine (.step t.time)])
          ++ (if t.sync.isTracking = true then [] else [t.afterAccepted.record .routine .syncGained])) :=
  (pulse_follows (t := { t with pulseDue := false }) follows).trans
    (trackedPulse_accepted (t := { t with pulseDue := false }) accepted)

/-- An accepted pulse that sends fewer than two records. -/
theorem exec_syncPulse_accepted {s : State} (due : s.time.pulseDue = true) (follows : Follows s.time.sync)
    (accepted : ∀ age, s.time.lastPulseAge = some age → 768 ≤ age)
    (single : s.time.slews = true ∨ s.time.sync.isTracking = true) :
    exec .syncPulse s = .next (s.withTime (s.time.afterAccepted,
      (if s.time.slews = true then [] else [s.time.afterAccepted.record .routine (.step s.time.time)])
        ++ (if s.time.sync.isTracking = true then [] else [s.time.afterAccepted.record .routine .syncGained]))) := by
  rw [← takePulse_accepted follows accepted]
  refine exec_syncPulse due fun time step gained two => ?_
  rw [takePulse_accepted follows accepted] at two
  obtain slews | tracking := single
  · rw [if_pos slews] at two
    split at two <;> cases two
  · rw [if_pos tracking] at two
    split at two <;> cases two

/-- Settles O33: by the sync state, the pulse's offset and what is due beside it. -/
theorem pulseActsByState : Obligations.PulseActsByState := by
  intro s due
  refine ⟨fun free => ?_, fun remembered value option deadline armed => ?_, fun follows =>
    ⟨fun age last soon => ?_, fun accepted => ?_⟩⟩
  · have pulse : s.time.takePulse = ({ s.time with pulseDue := false }, []) := pulse_free free
    rw [exec_syncPulse due (by simp [pulse]), pulse, withTime_eq]
    rfl
  · have pulse : s.time.takePulse = ({ s.time with pulseDue := false } : TimeBase).armedPulse value option :=
      pulse_armed armed
    refine ⟨_, exec_syncPulse due (by simp [pulse, TimeBase.armedPulse]), ?_, ?_, ?_⟩
    · rw [withTime_time, pulse]
      cases option <;> rfl
    · rw [withTime_eq, pulse]
      cases option <;> rfl
    · rw [withTime_eq]
  · have pulse : s.time.takePulse = ({ s.time with pulseDue := false, ignored := saturating s.time.ignored }, []) :=
      (pulse_follows (t := { s.time with pulseDue := false }) follows).trans
        (trackedPulse_ignored (t := { s.time with pulseDue := false }) last soon)
    rw [exec_syncPulse due (by simp [pulse]), pulse, withTime_eq]
    rfl
  · have time : ∀ n, n = s.time.time.tick.toNat → s.time.afterAccepted = _ := fun n tick =>
      corrected_accepted { s.time with pulseDue := false } (n := n) tick
    have slews : ∀ n, n = s.time.time.tick.toNat → (s.time.slews = true ↔ n ≤ 8 ∨ 1016 ≤ n) := fun n tick =>
      tick ▸ slews_iff
    by_cases single : s.time.slews = true ∨ s.time.sync.isTracking = true
    · refine ⟨_, exec_syncPulse_accepted due follows accepted single, fun n tick => ⟨?_, ?_⟩⟩
      · rw [withTime_time]
        exact time n tick
      · rintro step gained rfl rfl
        rw [withTime_time, withTime_eq]
        refine ⟨fun tracking => ?_, fun notTracking => ⟨fun small => ?_, fun above below => ?_⟩⟩
        · rw [if_pos (isTracking_iff.mpr tracking), List.append_nil]
          simp only [slews n tick]
          split <;> rfl
        · have other : ¬ s.time.sync.isTracking = true := fun tracking =>
            (isTracking_iff.mp tracking).elim notTracking
          rw [if_pos ((slews n tick).mpr small), if_neg other]
          rfl
        · refine absurd single (not_or.mpr ⟨fun small => ?_, fun tracking => ?_⟩)
          · have := (slews n tick).mp small
            omega
          · exact (isTracking_iff.mp tracking).elim notTracking
    · obtain ⟨steps, other⟩ := not_or.mp single
      have two : s.time.takePulse = (s.time.afterAccepted,
          [s.time.afterAccepted.record .routine (.step s.time.time),
            s.time.afterAccepted.record .routine .syncGained]) := by
        rw [takePulse_accepted follows accepted, if_neg steps, if_neg other]
        rfl
      have stepped : s.withTime (s.time.afterAccepted, [s.time.afterAccepted.record .routine (.step s.time.time)])
          = { s with
            time := s.time.afterAccepted
            journal := s.journal.arrive s.time.afterAccepted.now
              (s.time.afterAccepted.record .routine (.step s.time.time)) } := withTime_eq _ _
      have command := exec_syncPulse_two due two
      rw [stepped] at command
      have reached := takeBesides_reached besideFuel { s with
        time := s.time.afterAccepted
        journal := s.journal.arrive s.time.afterAccepted.now
          (s.time.afterAccepted.record .routine (.step s.time.time)) }
      have kept := takeBesides_time besideFuel { s with
        time := s.time.afterAccepted
        journal := s.journal.arrive s.time.afterAccepted.now
          (s.time.afterAccepted.record .routine (.step s.time.time)) }
      have alone : NothingBeside s → takeBesides besideFuel _ = _ := fun nothing => takeBesides_none (s := { s with
        time := s.time.afterAccepted
        journal := s.journal.arrive s.time.afterAccepted.now
          (s.time.afterAccepted.record .routine (.step s.time.time)) }) (besides_nil nothing) besideFuel
      generalize takeBesides besideFuel _ = u at command reached kept alone
      have now : (u.arrive (s.time.afterAccepted.record .routine .syncGained)).time = s.time.afterAccepted := kept
      refine ⟨_, command, fun n tick => ⟨now.trans (time n tick), ?_⟩⟩
      rintro step gained rfl rfl
      rw [now]
      have gains : u.arrive (s.time.afterAccepted.record .routine .syncGained) = { u with
          journal := u.journal.arrive s.time.afterAccepted.now (s.time.afterAccepted.record .routine .syncGained) } := by
        rw [State.arrive, kept]
      refine ⟨fun tracking => absurd (isTracking_iff.mpr tracking) other,
        fun notTracking => ⟨fun small => absurd ((slews n tick).mpr small) steps, fun above below =>
          ⟨⟨u, reached, gains⟩, fun nothing => ?_⟩⟩⟩
      rw [gains, alone nothing]
      rfl

/-! ## The expiries and the requests -/

/-- Settles O34: the state entered, by the remembered one. -/
theorem syncTimersExpire : Obligations.SyncTimersExpire := by
  intro s
  refine ⟨fun remembered value option deadline armed due => ?_, fun limit tracking due => ?_⟩
  · have expires : armDeadlineExpiry s = s.withTime (s.time.returnFromArm remembered,
        [(s.time.returnFromArm remembered).record .alarm .syncMissed]) := by
      rw [armDeadlineExpiry, armed]
      exact if_pos due
    refine ⟨_, congrArg Host.Outcome.next expires, ?_⟩
    rw [withTime_time, withTime_eq]
    refine ⟨by cases remembered <;> rfl, by cases remembered <;> rfl, ?_, ?_, ?_, rfl, rfl⟩
    · rintro rfl
      rfl
    · rintro (rfl | rfl) <;> exact ⟨rfl, rfl⟩
    · intro still
      cases remembered
      case free => rfl
      case holdover => rfl
      all_goals exact still
  · have expires : missedPulseExpiry s = s.withTime (s.time.enter .holdover,
        [(s.time.enter .holdover).record .alarm .holdover]) := by
      have limitDue : s.time.sync.limitDue = true := by rw [tracking]; exact due
      rw [missedPulseExpiry, if_pos limitDue]
    refine ⟨_, congrArg Host.Outcome.next expires, ?_⟩
    rw [withTime_time, withTime_eq]
    exact ⟨rfl, rfl, rfl⟩

/-- The time base once an arm, if there is one, is cancelled and has returned to the remembered state (R116, R122). -/
def TimeBase.disarmed (t : TimeBase) : TimeBase :=
  match t.sync with
  | .armed remembered _ _ _ => t.returnFromArm remembered
  | _ => t

theorem disarmed_armed {t : TimeBase} {remembered : Remembered} {value : BitVec 32} {option : ArmOption}
    {deadline : Countdown} (h : t.sync = .armed remembered value option deadline) :
    t.disarmed = t.returnFromArm remembered := by
  rw [TimeBase.disarmed, h]

theorem disarmed_other {t : TimeBase} (h : ∀ remembered value option deadline, t.sync ≠ .armed remembered value option deadline) :
    t.disarmed = t := by
  unfold TimeBase.disarmed
  split
  case h_1 armed => exact absurd armed (h _ _ _ _)
  case h_2 => rfl

theorem takeSetTime_eq (time : TimeValue) (s : State) :
    takeSetTime time s = .ok (timeOctets s.time.time) { s with
      time := s.time.disarmed.setTo time
      journal := s.journal.arrive (s.time.disarmed.setTo time).now
        ((s.time.disarmed.setTo time).record .routine (.step s.time.time)) } := by
  refine congrArg (Taken.ok _) ((withTime_eq _ _).trans ?_)
  rfl

/-- Settles O35: an arm is cancelled, and the time base set. -/
theorem setTimeSteps : Obligations.SetTimeSteps := by
  intro f rest time s waiting payload
  have served : serve .setTime f.payload s.popRequest = .ok (takeSetTime time s.popRequest) := by
    simp only [serve, payload, parseSetTime_encode, Except.map]
  rw [takeSetTime_eq] at served
  have front := popRequest_of_front waiting.dispatchable.front
  refine ⟨_, exec_command_served (k := .setTime) waiting served (t := { s with
    time := s.time.disarmed.setTo time
    journal := s.journal.arrive (s.time.disarmed.setTo time).now
      ((s.time.disarmed.setTo time).record .routine (.step s.time.time)) }) (by rw [front]; rfl), ?_, ?_, ?_, rfl, rfl⟩
  · intro remembered value option deadline armed
    dsimp only
    rw [disarmed_armed armed]
    cases remembered <;> exact ⟨rfl, rfl⟩
  · intro unarmed
    dsimp only
    rw [disarmed_other unarmed]
    exact ⟨rfl, rfl⟩
  · dsimp only
    unfold TimeBase.disarmed
    split
    case h_1 remembered _ _ _ _ => cases remembered <;> rfl
    case h_2 => rfl

/-- The arm that a SET_TIME_AT_PULSE leaves (R114). -/
def armedBy (r : SetTimeAtPulse) (s : State) : State :=
  { s with time := { s.time with
      sync := .armed s.time.sync.toRemember r.sec r.option ⟨3072, false⟩, pulseInState := false } }

/-- The replaced flag of the reply says whether an arm stood. -/
def armStands (x : SyncState) : Bool :=
  match x with
  | .armed _ _ _ _ => true
  | _ => false

theorem exec_setTimeAtPulse {f : Frame} {rest : List Frame} {r : SetTimeAtPulse} {s : State} {x : SyncState}
    (waiting : Waiting .setTimeAtPulse f rest s) (payload : f.payload = encodeSetTimeAtPulse r) (sync : s.time.sync = x) :
    exec .setTimeAtPulse s = .next (replied f rest 0x00 [flagOctet (armStands x)] none (armedBy r s))
      ∧ (armedBy r s).time.sync = .armed x.toRemember r.sec r.option ⟨3072, false⟩ := by
  have served : serve .setTimeAtPulse f.payload s.popRequest = .ok (takeSetTimeAtPulse r s.popRequest) := by
    simp only [serve, payload, parseSetTimeAtPulse_encode, Except.map]
  have front := popRequest_of_front waiting.dispatchable.front
  subst sync
  exact ⟨exec_command_served (k := .setTimeAtPulse) waiting served (by rw [front]; rfl), rfl⟩

/-- Settles O36: the arm remembers the state it finds; and the reference and the edge are written. -/
theorem timeIsArmedAndConfigured : Obligations.TimeIsArmedAndConfigured := by
  refine ⟨fun f rest r s waiting payload => ?_, fun f rest r s waiting payload => ?_⟩
  · exact ⟨armedBy r s, fun _ _ _ _ sync => exec_setTimeAtPulse waiting payload sync,
      exec_setTimeAtPulse waiting payload, exec_setTimeAtPulse waiting payload,
      fun _ sync => exec_setTimeAtPulse waiting payload sync, exec_setTimeAtPulse waiting payload, fun _ => rfl, rfl⟩
  · have served : serve .configureTime f.payload s.popRequest = .ok (takeConfigureTime r s.popRequest) := by
      simp only [serve, payload, parseConfigureTime, encodeConfigureTime, Reference.ofCode_code, SyncEdge.ofCode_code,
        Except.map]
    have front := popRequest_of_front waiting.dispatchable.front
    exact exec_command_served (k := .configureTime) waiting served (by rw [front]; rfl)

end Sys2Proof.Machine
end

section
/-! PROOF. The journal and the delivery engine (chapters 1 and 7): what an arrival does to the journal, what a report takes with
it, and the expiry and the requests of the engine. -/

namespace Sys2Proof.Machine

open Sys2Proof.Claims

/-! ## Arrivals -/

theorem displaceable_eq_false {h : Held} : h.displaceable = false ↔ h.delivered = true ∨ h.record.cls = .alarm := by
  simp only [Held.displaceable, Bool.and_eq_false_iff, Bool.not_eq_false', decide_eq_false_iff_not]
  cases h.record.cls <;> simp

theorem displaceable_eq_true {h : Held} : h.displaceable = true ↔ h.delivered = false ∧ h.record.cls = .routine := by
  simp [Held.displaceable]

section
variable {j : Journal} {r : Draft}

theorem Journal.full_iff : j.full = true ↔ 384 ≤ j.held.length := by
  rw [Journal.full, decide_eq_true_eq]
  rfl

theorem Journal.full_false_iff : j.full = false ↔ j.held.length < 384 := by
  rw [Bool.eq_false_iff, ne_eq, Journal.full_iff, Nat.not_le]

theorem arrivePlain_room (room : j.held.length < 384) : j.arrivePlain r = j.enter r := by
  rw [Journal.arrivePlain, Journal.full_false_iff.mpr room, if_neg Bool.false_ne_true]

theorem arrivePlain_full (full : j.held.length = 384) : j.arrivePlain r = j.arriveFull r :=
  if_pos (Journal.full_iff.mpr full.ge)

theorem arrive_room_owed (room : j.held.length < 384) (owed : j.gapOwed = true) (now : Stamp) :
    j.arrive now r = (j.enterGap now).arrivePlain r := by
  rw [Journal.arrive, owed, Journal.full_false_iff.mpr room]
  rfl

theorem arrive_full (full : j.held.length = 384) (now : Stamp) : j.arrive now r = j.arriveFull r := by
  rw [Journal.arrive, Journal.full_iff.mpr full.ge, Bool.not_true, Bool.and_false, if_neg Bool.false_ne_true,
    arrivePlain_full full]

theorem arriveFull_routine (routine : r.cls = .routine) : j.arriveFull r = j.lose := by
  rw [Journal.arriveFull, routine]

/-- An ALARM record that finds no PENDING ROUTINE record is lost (R13). -/
theorem arriveFull_lost (kept : ∀ h ∈ j.held, h.delivered = true ∨ h.record.cls = .alarm) : j.arriveFull r = j.lose := by
  unfold Journal.arriveFull
  split
  case h_1 => rfl
  case h_2 =>
    refine if_neg fun some => ?_
    obtain ⟨h, mem, displaceable⟩ := List.any_eq_true.mp some
    exact Bool.false_ne_true ((displaceable_eq_false.mpr (kept h mem)).symm.trans displaceable)

/-- An ALARM record displaces the oldest PENDING ROUTINE record (R13). -/
theorem arriveFull_displaces {before behind : List Held} {h : Held} (held : j.held = before ++ h :: behind)
    (alarm : r.cls = .alarm) (kept : ∀ x ∈ before, x.delivered = true ∨ x.record.cls = .alarm)
    (pending : h.delivered = false) (routine : h.record.cls = .routine) :
    j.arriveFull r =
      { held := before ++ behind ++ [{ seq := j.next, record := r, delivered := false }], next := j.next + 1
        lost := j.lost, displaced := count16 j.displaced, gapOwed := true } := by
  have displaceable : h.displaceable = true := displaceable_eq_true.mpr ⟨pending, routine⟩
  have any : j.held.any Held.displaceable = true :=
    List.any_eq_true.mpr ⟨h, by simp [held], displaceable⟩
  have erased : j.held.eraseP Held.displaceable = before ++ behind := by
    rw [held, List.eraseP_append_right _ fun x mem => by simp [displaceable_eq_false.mpr (kept x mem)],
      List.eraseP_cons_of_pos displaceable]
  rw [Journal.arriveFull, alarm]
  dsimp only
  rw [if_pos any, erased]
  rfl

end

/-- Settles O40: by the room there is, the owed GAP and the class. -/
theorem journalTakesArrival : Obligations.JournalTakesArrival := by
  intro j now r
  refine ⟨fun room none => ?_, fun room owed => ?_, fun last owed gap filled => ?_, fun full routine => ?_,
    fun full _ kept => ?_, fun before h behind held full alarm kept pending routine => ?_⟩
  · have enters : j.arrive now r = j.enter r := by
      rw [Journal.arrive, none, Bool.false_and, if_neg Bool.false_ne_true, arrivePlain_room room]
    rw [enters]
    rfl
  · have room' : (j.enterGap now).held.length < 384 := by
      show (j.held ++ [_]).length < 384
      rw [List.length_append, List.length_singleton]
      omega
    rw [arrive_room_owed (by omega) owed, arrivePlain_room room']
    simp only [Journal.enterGap, Journal.enter, List.append_assoc, List.cons_append, List.nil_append, BitVec.add_assoc]
    rfl
  · have entered : j.enterGap now
        = { held := j.held ++ [gap], next := j.next + 1, lost := 0, displaced := 0, gapOwed := false } := by
      rw [filled]
      rfl
    have full : (j.enterGap now).held.length = 384 := by
      rw [entered, List.length_append, List.length_singleton, last]
    rw [arrive_room_owed (by omega) owed, arrivePlain_full full, entered]
    refine ⟨fun lost => ?_, fun before h behind held alarm kept pending routine => ?_⟩
    · obtain routine | kept := lost
      · rw [arriveFull_routine routine]
        rfl
      · rw [arriveFull_lost]
        · rfl
        · intro h mem
          obtain mem | same := List.mem_append.mp mem
          · exact kept h mem
          · rw [List.mem_singleton.mp same, filled]
            exact .inr rfl
    · rw [arriveFull_displaces (before := before) (behind := behind ++ [gap])
        (by rw [held, List.append_assoc, List.cons_append]) alarm kept pending routine]
      simp only [List.append_assoc, List.cons_append, List.nil_append, BitVec.add_assoc]
      rfl
  · rw [arrive_full full, arriveFull_routine routine]
    rfl
  · rw [arrive_full full, arriveFull_lost kept]
    rfl
  · rw [arrive_full full, arriveFull_displaces held alarm kept pending routine]
    rfl

/-! ## Reports -/

section
variable {ds ws : List Held}

theorem markPending_zero (held : List Held) : Journal.markPending 0 held = held := by rw [Journal.markPending]

/-- Only PENDING records are marked, the oldest ones (R9). -/
theorem markPending_append (delivered : ∀ h ∈ ds, h.delivered = true) (n : Nat) :
    Journal.markPending n (ds ++ ws) = ds ++ Journal.markPending n ws := by
  cases n with
  | zero => rw [markPending_zero, markPending_zero]
  | succ n =>
    induction ds with
    | nil => rfl
    | cons d ds ih =>
      rw [List.cons_append, Journal.markPending, if_pos (delivered d List.mem_cons_self),
        ih fun h mem => delivered h (List.mem_cons_of_mem _ mem), List.cons_append]

theorem markPending_pending (pending : ∀ h ∈ ws, h.delivered = false) (n : Nat) :
    Journal.markPending n ws = (ws.take n).map (fun h => { h with delivered := true }) ++ ws.drop n := by
  induction ws generalizing n with
  | nil => cases n <;> rfl
  | cons w ws ih =>
    cases n with
    | zero => rw [markPending_zero]; rfl
    | succ n =>
      have waits : ¬ w.delivered = true := by simp [pending w List.mem_cons_self]
      rw [Journal.markPending, if_neg waits, ih fun h mem => pending h (List.mem_cons_of_mem _ mem)]
      rfl

end

/-- A report that is ready is handed over (R130). -/
theorem exec_reportHandOver {s : State} (waits : s.reportWaits = true) :
    exec .reportHandOver s = .next
      { s with
        delivery := { s.delivery with
          reportNumber := s.delivery.reportNumber + 1
          resend := s.delivery.resend.drop s.delivery.settings.perReport }
        journal := { s.journal with held :=
          if s.delivery.resend = [] then Journal.markPending s.newReportSize s.journal.held else s.journal.held }
        link := { s.link with line := .sending .report (onWire s.reportFrame) }
        moment := { s.moment with transmitted := true } } :=
  congrArg Host.Outcome.next (if_pos waits)

/-- The records of a resend list are found by their numbers (R130). -/
theorem withSeqs_of_subset {j : Journal} {rs : List Held} (held : ∀ h ∈ rs, h ∈ j.held) (distinct : (j.held.map (·.seq)).Nodup) :
    j.withSeqs (rs.map (·.seq)) = rs := by
  have found : ∀ h ∈ j.held, (j.held.find? fun x => decide (x.seq = h.seq)) = some h := by
    intro h mem
    cases some : j.held.find? fun x => decide (x.seq = h.seq) with
    | none => exact absurd (decide_eq_true rfl) (List.find?_eq_none.mp some h mem)
    | some x =>
      have same : x.seq = h.seq := by simpa using List.find?_some some
      rw [List.inj_on_of_nodup_map distinct (List.mem_of_find?_eq_some some) mem same]
  rw [Journal.withSeqs, List.filterMap_map]
  induction rs with
  | nil => rfl
  | cons r rs ih =>
    have first : ((fun n => j.held.find? fun x => decide (x.seq = n)) ∘ fun x : Held => x.seq) r = some r :=
      found r (held r List.mem_cons_self)
    rw [List.filterMap_cons_some first, ih fun h mem => held h (List.mem_cons_of_mem _ mem)]

/-- Settles O41: the records of the report, by the resend list. -/
theorem reportIsHandedOver : Obligations.ReportIsHandedOver := by
  intro s delivered waiting running free replies noticed answered stream engine held allDelivered allPending
  have deliveredFilter : s.journal.held.filter (·.delivered) = delivered := by
    rw [held, List.filter_append, List.filter_eq_self.mpr allDelivered,
      List.filter_eq_nil_iff.mpr fun h mem => by simp [allPending h mem], List.append_nil]
  have pendingFilter : s.journal.held.filter (!·.delivered) = waiting := by
    rw [held, List.filter_append, List.filter_eq_nil_iff.mpr fun h mem => by simp [allDelivered h mem],
      List.filter_eq_self.mpr fun h mem => by simp [allPending h mem], List.nil_append]
  have deliveredCount : s.journal.deliveredCount = delivered.length := by
    rw [Journal.deliveredCount, List.countP_eq_length_filter, deliveredFilter]
  have pendingCount : s.journal.pendingCount = waiting.length := by
    rw [Journal.pendingCount, List.countP_eq_length_filter, pendingFilter]
  have waits : (s.delivery.resend ≠ [] ∨ delivered.length < s.delivery.settings.window ∧ waiting ≠ []) →
      s.reportWaits = true := by
    intro some
    refine s.reportWaits_iff.mpr ⟨running, free, replies, noticed, ?_⟩
    simpa [State.reportReady, stream, engine, answered, deliveredCount, pendingCount, List.length_pos_iff] using some
  refine ⟨fun fresh room some _ n size => ?_, fun resent some sublist distinct resend => ?_⟩
  · have newSize : s.newReportSize = n := by rw [State.newReportSize, pendingCount, deliveredCount, size]
    have records : s.reportRecords = waiting.take n := by
      rw [State.reportRecords, if_pos fresh, pendingFilter, newSize]
    have count : (waiting.take n).length = n := by
      rw [List.length_take]
      omega
    have frame : s.reportFrame = { kind := 0x81, tag := s.delivery.reportNumber
                                   payload := octets16 s.journal.held.length ++ [if s.journal.gapOwed then 1 else 0]
                                     ++ octets8 n ++ (waiting.take n).flatMap Held.octets } := by
      rw [State.reportFrame, reportPayload, records, count]
      rfl
    have marked : Journal.markPending n s.journal.held
        = delivered ++ (waiting.take n).map (fun h => { h with delivered := true }) ++ waiting.drop n := by
      rw [held, markPending_append allDelivered, markPending_pending allPending, List.append_assoc]
    have none : s.delivery.resend.drop s.delivery.settings.perReport = s.delivery.resend := by rw [fresh, List.drop_nil]
    rw [exec_reportHandOver (waits (.inr ⟨room, some⟩)), if_pos fresh, newSize, marked, frame, none]
  · have nonempty : s.delivery.resend ≠ [] := by rw [resend]; exact fun none => some (List.map_eq_nil_iff.mp none)
    have records : s.reportRecords = resent.take s.delivery.settings.perReport := by
      rw [State.reportRecords, if_neg nonempty, resend, ← List.map_take]
      refine withSeqs_of_subset (fun h mem => ?_) distinct
      rw [held]
      exact List.mem_append_left _ (sublist.subset (List.mem_of_mem_take mem))
    have frame : s.reportFrame = { kind := 0x81, tag := s.delivery.reportNumber
                                   payload := octets16 s.journal.held.length ++ [if s.journal.gapOwed then 1 else 0]
                                     ++ octets8 (resent.take s.delivery.settings.perReport).length
                                     ++ (resent.take s.delivery.settings.perReport).flatMap Held.octets } := by
      rw [State.reportFrame, reportPayload, records]
      rfl
    rw [exec_reportHandOver (waits (.inl nonempty)), if_neg nonempty, frame, resend, ← List.map_drop]

/-! ## The engine -/

theorem deliveredCount_eq_zero_iff {j : Journal} : j.deliveredCount = 0 ↔ ∀ h ∈ j.held, h.delivered = false := by
  simp only [Journal.deliveredCount, List.countP_eq_zero, Bool.not_eq_true]

/-- Settles O42: by whether a DELIVERED record is held, and by the retry count. -/
theorem retransmitExpiryActs : Obligations.RetransmitExpiryActs := by
  intro timer s running due
  have isDue : isDue s.delivery.timer = true := by rw [running]; exact due
  refine ⟨fun none => ?_, fun ⟨h, mem, delivered⟩ => ?_⟩
  · refine congrArg Host.Outcome.next ?_
    rw [retransmitExpiry, if_pos isDue]
    exact if_pos (deliveredCount_eq_zero_iff.mpr none)
  · have some : ¬ s.journal.deliveredCount = 0 := fun none =>
      Bool.false_ne_true ((deliveredCount_eq_zero_iff.mp none h mem).symm.trans delivered)
    refine ⟨fun below => congrArg Host.Outcome.next ?_, fun limit => congrArg Host.Outcome.next ?_⟩
    · rw [retransmitExpiry, if_pos isDue]
      exact (if_neg some).trans (if_neg (Nat.not_le.mpr below))
    · rw [retransmitExpiry, if_pos isDue]
      exact (if_neg some).trans (if_pos limit)

/-! ## Records on the wire -/

/-- The number of a record's kind (R203). -/
def kindNumber : RecordBody → Nat
  | .edge _ _ _ => 1
  | .trip _ _ _ _ _ => 2
  | .restore _ _ => 3
  | .chatterOn _ _ => 4
  | .chatterOff _ => 4
  | .time _ => 5
  | .restart _ _ _ => 6
  | .gap _ _ => 7

def classNumber : RecordClass → Nat
  | .routine => 0
  | .alarm => 1

def qualityNumber : Quality → Nat
  | .unset => 0
  | .set => 1
  | .synced => 2
  | .holdover => 3

theorem kindOctet_fields (c : RecordClass) (q : Quality) : ∀ n : Fin 8,
    (c.code <<< 7) ||| (q.code <<< 5) ||| BitVec.ofNat 8 n.val
      = BitVec.ofNat 8 (128 * classNumber c + 32 * qualityNumber q + n.val) := by
  cases c <;> cases q <;> decide

theorem kindOctet_eq (r : Draft) :
    kindOctet r = BitVec.ofNat 8 (128 * classNumber r.cls + 32 * qualityNumber r.stamp.quality + kindNumber r.body) := by
  have kind : r.body.kindCode = BitVec.ofNat 8 (kindNumber r.body) ∧ kindNumber r.body < 8 := by
    cases r.body <;> exact ⟨rfl, by simp [kindNumber]⟩
  rw [kindOctet, kind.1]
  exact kindOctet_fields r.cls r.stamp.quality ⟨kindNumber r.body, kind.2⟩

theorem length_eq (b : RecordBody) : octets8 b.length = [BitVec.ofNat 8 (10 + b.fieldOctets.length)] := by
  cases b
  case trip snapshot => cases snapshot <;> rfl
  case restore snapshot => cases snapshot <;> rfl
  case time subkind => cases subkind <;> rfl
  all_goals rfl

theorem octets_eq_recordOctets (h : Held) : h.octets = recordOctets h := by
  rw [Held.octets, kindOctet_eq, length_eq]
  obtain ⟨seq, ⟨cls, stamp, body⟩, delivered⟩ := h
  cases body
  case edge line level recovered => cases level <;> cases recovered <;> rfl
  case trip watch onset outcome count snapshot => cases outcome <;> cases snapshot <;> rfl
  case restore watch snapshot => cases snapshot <;> rfl
  case time subkind => cases subkind <;> rfl
  case restart cause held returned => cases cause <;> rfl
  all_goals rfl

/-! ## The requests -/

/-- Settles O43: by the delivery mode. -/
theorem fetchReturnsOldest : Obligations.FetchReturnsOldest := by
  refine ⟨octets_eq_recordOctets, fun f rest maximum s waiting payload least most => ?_⟩
  have range : fetchMaximumInRange maximum = true := by simp [fetchMaximumInRange, least, most]
  have parsed : parseFetch f.payload = .ok maximum := by rw [payload]; exact parseFetch_encode range
  have served : serve .fetch f.payload s.popRequest = .ok (takeFetch maximum s.popRequest) := by
    simp only [serve, parsed, Except.map]
  have front := popRequest_of_front waiting.dispatchable.front
  have mode : s.popRequest.delivery.settings.mode = s.delivery.settings.mode := rfl
  refine ⟨fun stream => ?_, fun polled => ?_⟩
  · rw [takeFetch, mode, stream] at served
    exact exec_command_served (k := .fetch) waiting served (by rw [front]; rfl)
  · rw [takeFetch, mode, polled] at served
    have more : decide ((s.journal.held.take maximum).length < s.journal.heldCount) = decide (maximum < s.journal.held.length) := by
      rw [List.length_take, Journal.heldCount, decide_eq_decide]
      omega
    have fields : fetchFields s.journal (s.journal.held.take maximum)
        = octets16 s.journal.held.length
          ++ [BitVec.ofNat 8 ((if s.journal.gapOwed then 1 else 0) + (if maximum < s.journal.held.length then 2 else 0))]
          ++ octets8 (min maximum s.journal.held.length) ++ (s.journal.held.take maximum).flatMap Held.octets := by
      have flags : flagOctet s.journal.gapOwed ||| (flagOctet (decide (maximum < s.journal.held.length)) <<< 1)
          = BitVec.ofNat 8 ((if s.journal.gapOwed then 1 else 0) + (if maximum < s.journal.held.length then 2 else 0)) := by
        by_cases rest : maximum < s.journal.held.length <;> cases s.journal.gapOwed <;> simp [rest, flagOctet]
      rw [fetchFields, more, flags, List.length_take]
      rfl
    rw [← fields]
    exact exec_command_served (k := .fetch) waiting served (by rw [front]; rfl)

/-! ### ACK -/

theorem named_eq_false {n : SeqNo} {h : Held} : Held.named n h = false ↔ (h.seq = n → h.delivered = false) := by
  simp only [Held.named, Bool.and_eq_false_iff, decide_eq_false_iff_not]
  cases h.delivered <;> simp

section
variable {j : Journal} {n : SeqNo} {before behind : List Held} {h : Held} (held : j.held = before ++ h :: behind)
  (named : h.seq = n) (delivered : h.delivered = true) (first : ∀ x ∈ before, x.seq ≠ n)
include held named delivered first

theorem through_eq : j.through n = before.length + 1 := by
  have hit : Held.named n h = true := by simp [Held.named, named, delivered]
  have miss : ∀ x ∈ before, Held.named n x = false := fun x mem =>
    named_eq_false.mpr fun same => absurd same (first x mem)
  rw [Journal.through, held, List.findIdx_append]
  have none : before.findIdx (Held.named n) = before.length := List.findIdx_eq_length.mpr miss
  rw [none, if_neg (Nat.lt_irrefl _), List.findIdx_cons, hit, cond_true, Nat.zero_add]

/-- The removal, with the owed GAP record in the first freed slot (R15, R142). -/
theorem removeThrough_eq (capacity : j.held.length ≤ 384) (now : Stamp) :
    j.removeThrough now n =
      if j.gapOwed then
        { held := behind ++ [{ seq := j.next, record := { cls := .alarm, stamp := now, body := .gap j.lost j.displaced }
                               delivered := false }]
          next := j.next + 1, lost := 0, displaced := 0, gapOwed := false }
      else { j with held := behind } := by
  have dropped : j.held.drop (j.through n) = behind := by
    rw [through_eq held named delivered first, held]
    simp
  have room : ({ j with held := behind } : Journal).full = false := by
    rw [Journal.full_false_iff]
    rw [held, List.length_append, List.length_cons] at capacity
    show behind.length < 384
    omega
  rw [Journal.removeThrough, dropped]
  dsimp only
  rw [room]
  cases j.gapOwed <;> rfl

end

theorem deliveredSeqs_removeThrough {j : Journal} {n : SeqNo} {before behind : List Held} {h : Held}
    (held : j.held = before ++ h :: behind) (named : h.seq = n) (delivered : h.delivered = true)
    (first : ∀ x ∈ before, x.seq ≠ n) (capacity : j.held.length ≤ 384) (now : Stamp) :
    (j.removeThrough now n).held.filter (·.delivered) = behind.filter (·.delivered) := by
  rw [removeThrough_eq held named delivered first capacity]
  split
  · simp
  · rfl

theorem contains_seqs (held : List Held) (m : SeqNo) :
    ((held.filter (·.delivered)).map (·.seq)).contains m = held.any fun x => x.delivered && decide (x.seq = m) := by
  rw [Bool.eq_iff_iff]
  simp only [List.contains_iff_mem, List.mem_map, List.mem_filter, List.any_eq_true, Bool.and_eq_true, decide_eq_true_eq,
    and_assoc]

section
variable {d : Delivery} {j : Journal}

theorem acknowledged_timer_polled (polled : d.settings.mode = .polled) (j : Journal) : (d.acknowledged j).timer = none := by
  rw [Delivery.acknowledged, polled]

theorem acknowledged_timer_none (none : j.deliveredCount = 0) : (d.acknowledged j).timer = Option.none := by
  rw [Delivery.acknowledged, none]
  cases d.settings.mode <;> rfl

theorem acknowledged_timer_loaded (stream : d.settings.mode = .stream) (some : j.deliveredCount ≠ 0) :
    (d.acknowledged j).timer = Option.some ⟨d.settings.interval, false⟩ := by
  rw [Delivery.acknowledged, stream]
  exact if_neg some

end

theorem takeAck_refused {n : SeqNo} {s : State} (unnamed : ¬ s.journal.acknowledgeable n = true) :
    takeAck n s = .refuse .ackRange s := if_neg unnamed

theorem takeAck_taken {n : SeqNo} {s : State} {m : Nat} (named : s.journal.acknowledgeable n = true)
    (through : s.journal.through n = m) :
    takeAck n s = .ok [BitVec.ofNat 8 m] { s with
      journal := s.journal.removeThrough s.time.now n
      delivery := s.delivery.acknowledged (s.journal.removeThrough s.time.now n) } := by
  rw [takeAck, if_pos named, through]
  rfl

/-- Settles O44: by whether the number is that of a DELIVERED record. -/
theorem ackRemovesThrough : Obligations.AckRemovesThrough := by
  intro f rest n s waiting payload
  have parsed : parseAck f.payload = .ok n := by rw [payload]; exact parseAck_encode n
  have served : serve .ack f.payload s.popRequest = .ok (takeAck n s.popRequest) := by
    simp only [serve, parsed, Except.map]
  have front := popRequest_of_front waiting.dispatchable.front
  refine ⟨fun none => ?_, fun before h behind held named delivered first capacity => ?_⟩
  · have unnamed : ¬ s.journal.acknowledgeable n = true := by
      rw [Journal.acknowledgeable, Bool.not_eq_true]
      exact List.any_eq_false.mpr fun h mem => by simp [named_eq_false.mpr (none h mem)]
    rw [takeAck_refused (s := s.popRequest) unnamed] at served
    exact exec_command_served (k := .ack) waiting served (by rw [front]; rfl)
  · have acknowledgeable : s.journal.acknowledgeable n = true :=
      List.any_eq_true.mpr ⟨h, by simp [held], by simp [Held.named, named, delivered]⟩
    have through : s.journal.through n = before.length + 1 := through_eq held named delivered first
    rw [takeAck_taken (s := s.popRequest) acknowledgeable through] at served
    have remaining := deliveredSeqs_removeThrough held named delivered first capacity s.time.now
    have journal := removeThrough_eq held named delivered first capacity s.time.now
    have count : (s.journal.removeThrough s.time.now n).deliveredCount = behind.countP (·.delivered) := by
      rw [Journal.deliveredCount, List.countP_eq_length_filter, remaining, ← List.countP_eq_length_filter]
    refine ⟨{ s with
      journal := s.journal.removeThrough s.time.now n
      delivery := s.delivery.acknowledged (s.journal.removeThrough s.time.now n) },
      exec_command_served (k := .ack) waiting served (by rw [front]; rfl), journal, rfl, rfl, rfl, rfl, ?_, ?_, ?_, rfl⟩
    · show s.delivery.resend.filter (s.journal.removeThrough s.time.now n).deliveredSeqs.contains = _
      refine List.filter_congr fun m _ => ?_
      rw [Journal.deliveredSeqs, remaining, contains_seqs]
    · intro stopped
      obtain polled | none := stopped
      · exact acknowledged_timer_polled polled _
      · refine acknowledged_timer_none ?_
        rw [count]
        exact List.countP_eq_zero.mpr fun x mem => by simp [none x mem]
    · rintro stream ⟨x, mem, still⟩
      refine acknowledged_timer_loaded stream fun zero => ?_
      rw [count] at zero
      exact List.countP_eq_zero.mp zero x mem still

/-! ### The other requests -/

/-- Settles O45: by the field check. -/
theorem setDeliveryBeginsAgain : Obligations.SetDeliveryBeginsAgain := by
  intro f rest s waiting
  have front := popRequest_of_front waiting.dispatchable.front
  refine ⟨fun r payload window window' perReport perReport' interval interval' retryLimit retryLimit' => ?_,
    fun mode window perReport i1 i0 retryLimit payload outside => ?_⟩
  · have wellFormed : r.wellFormed = true := by
      simp only [DeliverySettings.wellFormed, Bool.and_eq_true, decide_eq_true_eq]
      omega
    have served : serve .setDelivery f.payload s.popRequest = .ok (takeSetDelivery r s.popRequest) := by
      simp only [serve, payload, parseSetDelivery_encode wellFormed, Except.map]
    exact exec_command_served (k := .setDelivery) waiting served (by rw [front]; rfl)
  · have misfits : ¬ fieldsFit .setDelivery f.payload := by
      rw [payload]
      simp only [fieldsFit, twoOctets]
      omega
    exact exec_command_refused waiting ((checked_serve .setDelivery _ _).badField (by rw [payload]; simp [acceptedLengths]) misfits)

/-- Settles O46: by the delivery state; and the journal cleared. -/
theorem resumeAndClear : Obligations.ResumeAndClear := by
  intro f rest s payload
  refine ⟨fun waiting => ?_, fun waiting => ?_⟩
  · have front := popRequest_of_front waiting.dispatchable.front
    have served : serve .resume f.payload s.popRequest = .ok (takeResume s.popRequest) := by
      simp only [serve, payload, parseEmpty, Except.map]
    have state : s.popRequest.delivery.state = s.delivery.state := rfl
    refine ⟨fun running => ?_, fun stalled => ?_⟩
    · rw [takeResume, state, running] at served
      exact exec_command_served (k := .resume) waiting served (by rw [front]; rfl)
    · rw [takeResume, state, stalled] at served
      exact exec_command_served (k := .resume) waiting served (by rw [front]; rfl)
  · have front := popRequest_of_front waiting.dispatchable.front
    have served : serve .clearJournal f.payload s.popRequest = .ok (takeClearJournal s.popRequest) := by
      simp only [serve, payload, parseEmpty, Except.map]
    exact exec_command_served (k := .clearJournal) waiting served (by rw [front]; rfl)

end Sys2Proof.Machine
end

section
/-! PROOF. The outputs (chapter 5): the ends of pulses, the requests by the owner of the output, and the driven states. -/

namespace Sys2Proof.Machine

open Sys2Proof.Claims

/-! ## Releases -/

theorem releaseWhere_output (p : Owner → Bool) (s : State) (o : Fin 8) :
    (releaseWhere p s).outputs[o]
      = if p s.outputs[o].owner = true then { s.outputs[o] with owner := .host none } else s.outputs[o] :=
  getElem_ofFn_fin _ o

theorem releaseWhere_output_pos {p : Owner → Bool} {s : State} {o : Fin 8} (h : p s.outputs[o].owner = true) :
    (releaseWhere p s).outputs[o] = { s.outputs[o] with owner := .host none } := by rw [releaseWhere_output, if_pos h]

theorem releaseWhere_output_neg {p : Owner → Bool} {s : State} {o : Fin 8} (h : ¬ p s.outputs[o].owner = true) :
    (releaseWhere p s).outputs[o] = s.outputs[o] := by rw [releaseWhere_output, if_neg h]

theorem watchPulseDue_iff {w : Fin 16} {x : Owner} :
    watchPulseDue w x = true ↔ ∃ p, x = .pulse w p ∧ p.timer.due = true := by
  cases x with
  | pulse v p =>
    simp only [watchPulseDue, Bool.and_eq_true, decide_eq_true_eq, Owner.pulse.injEq]
    exact ⟨fun ⟨same, due⟩ => ⟨p, ⟨same, rfl⟩, due⟩, fun ⟨q, ⟨same, pulse⟩, due⟩ => ⟨same, pulse ▸ due⟩⟩
  | _ => simp [watchPulseDue]

/-- Settles O26: the released outputs are those whose pulse is due. -/
theorem pulsesEnd : Obligations.PulsesEnd := by
  refine ⟨fun w s => ⟨watchPulseEnd w s, rfl, rfl, fun o => ⟨fun p pulse due => ?_, fun running => ?_⟩⟩,
    fun o p s host due => ?_⟩
  · exact releaseWhere_output_pos (watchPulseDue_iff.mpr ⟨p, pulse, due⟩)
  · refine releaseWhere_output_neg fun due => ?_
    obtain ⟨p, pulse, due⟩ := watchPulseDue_iff.mp due
    exact Bool.false_ne_true ((running p pulse).symm.trans due)
  · have ends : hostPulseDue s.outputs[o].owner = true := by
      rw [host]
      exact due
    exact congrArg Host.Outcome.next (if_pos ends)

/-! ## DRIVE_OUTPUT -/

section
variable {r : DriveOutput} {s : State}

theorem takeDriveOutput_drive {w : Fin 16} {level : Drive} (h : s.outputs[r.output].owner = .drive w level) :
    takeDriveOutput r s = refuseOwned w s := by rw [takeDriveOutput, h]

theorem takeDriveOutput_pulse {w : Fin 16} {p : Pulse} (h : s.outputs[r.output].owner = .pulse w p) :
    takeDriveOutput r s = refuseOwned w s := by rw [takeDriveOutput, h]

theorem takeDriveOutput_function {g : OutputFunction} (h : s.outputs[r.output].owner = .function g) :
    takeDriveOutput r s = .refuse .functionAssigned s := by rw [takeDriveOutput, h]

/-- The driven state of an output that has just been written (R88). -/
theorem driven_setOutput (s : State) (o : Fin 8) (x : Output) :
    (s.setOutput o x).driven o =
      match x.owner with
      | .host none => x.hostLevel
      | .host (some p) => p.level
      | .drive _ level => level
      | .pulse _ p => p.level
      | .function f => s.functionLevel f := by
  have written : (s.setOutput o x).outputs[o] = x := by simp
  rw [State.driven, written]
  rfl

theorem takeDriveOutput_level {p : Option Pulse} {level : Drive} (h : s.outputs[r.output].owner = .host p)
    (form : r.form = .level level) :
    takeDriveOutput r s = .ok [driveOctet level] (s.setOutput r.output { hostLevel := level, owner := .host none }) := by
  rw [takeDriveOutput, h, form]
  dsimp only
  rw [driven_setOutput, driveOctet_eq_code]

theorem takeDriveOutput_startPulse {p : Option Pulse} {level : Drive} {duration : Nat}
    (h : s.outputs[r.output].owner = .host p) (form : r.form = .pulse level duration) :
    takeDriveOutput r s
      = .ok [driveOctet level] (s.setOwner r.output (.host (some ⟨level, ⟨duration, false⟩⟩))) := by
  rw [takeDriveOutput, h, form]
  dsimp only
  rw [State.setOwner, driven_setOutput, driveOctet_eq_code]
  rfl

end

/-- Settles O27: by the owner and the form. -/
theorem driveOutputByOwner : Obligations.DriveOutputByOwner := by
  intro f rest r s waiting carried wellFormed
  have served : serve .driveOutput f.payload s.popRequest = .ok (takeDriveOutput r s.popRequest) := by
    simp only [serve, parseDriveOutput_carried carried wellFormed, Except.map]
  have front := popRequest_of_front waiting.dispatchable.front
  refine ⟨fun w level owner => ?_, fun w p owner => ?_, fun g owner => ?_, fun p level owner form => ?_,
    fun p level duration owner form => ?_⟩
  · rw [takeDriveOutput_drive (s := s.popRequest) owner] at served
    exact exec_command_served (k := .driveOutput) waiting served (by rw [front]; rfl)
  · rw [takeDriveOutput_pulse (s := s.popRequest) owner] at served
    exact exec_command_served (k := .driveOutput) waiting served (by rw [front]; rfl)
  · rw [takeDriveOutput_function (s := s.popRequest) owner] at served
    exact exec_command_served (k := .driveOutput) waiting served (by rw [front]; rfl)
  · rw [takeDriveOutput_level (s := s.popRequest) owner form] at served
    exact exec_command_served (k := .driveOutput) waiting served (by rw [front]; rfl)
  · rw [takeDriveOutput_startPulse (s := s.popRequest) owner form] at served
    exact exec_command_served (k := .driveOutput) waiting served (by rw [front]; rfl)

/-! ## SET_OUTPUT_FUNCTION -/

section
variable {r : SetOutputFunction} {s : State}

theorem takeSetOutputFunction_drive {w : Fin 16} {level : Drive} (h : s.outputs[r.output].owner = .drive w level) :
    takeSetOutputFunction r s = refuseOwned w s := by rw [takeSetOutputFunction, h]

theorem takeSetOutputFunction_pulse {w : Fin 16} {p : Pulse} (h : s.outputs[r.output].owner = .pulse w p) :
    takeSetOutputFunction r s = refuseOwned w s := by rw [takeSetOutputFunction, h]

theorem takeSetOutputFunction_assigns {g : OutputFunction} (h : s.outputs[r.output].owner.watch = none)
    (function : r.function = some g) :
    takeSetOutputFunction r s = .ok [driveOctet (s.functionLevel g)] (s.setOwner r.output (.function g)) := by
  have level : ((s.setOwner r.output (.function g)).driven r.output).code = driveOctet (s.functionLevel g) := by
    rw [State.setOwner, driven_setOutput, driveOctet_eq_code]
  unfold takeSetOutputFunction
  split
  case h_1 owner => rw [owner] at h; cases h
  case h_2 owner => rw [owner] at h; cases h
  all_goals
    rw [function]
    dsimp only
    rw [level]

theorem takeSetOutputFunction_general {g : OutputFunction} (h : s.outputs[r.output].owner = .function g)
    (function : r.function = none) :
    takeSetOutputFunction r s
      = .ok [driveOctet s.outputs[r.output].hostLevel] (s.setOwner r.output (.host none)) := by
  rw [takeSetOutputFunction, h, function]
  dsimp only
  rw [State.setOwner, driven_setOutput, driveOctet_eq_code]

theorem takeSetOutputFunction_kept {p : Option Pulse} (h : s.outputs[r.output].owner = .host p)
    (function : r.function = none) : takeSetOutputFunction r s = .ok [driveOctet (s.driven r.output)] s := by
  rw [takeSetOutputFunction, h, function, driveOctet_eq_code]

end

/-- Settles O28: by the owner and the function. -/
theorem setOutputFunctionByOwner : Obligations.SetOutputFunctionByOwner := by
  intro f rest r s waiting carried wellFormed
  have served : serve .setOutputFunction f.payload s.popRequest = .ok (takeSetOutputFunction r s.popRequest) := by
    simp only [serve, parseSetOutputFunction_carried carried wellFormed, Except.map]
  have front := popRequest_of_front waiting.dispatchable.front
  refine ⟨fun w level owner => ?_, fun w p owner => ?_, fun g owner function => ?_, fun g owner function => ?_,
    fun p owner function => ?_⟩
  · rw [takeSetOutputFunction_drive (s := s.popRequest) owner] at served
    exact exec_command_served (k := .setOutputFunction) waiting served (by rw [front]; rfl)
  · rw [takeSetOutputFunction_pulse (s := s.popRequest) owner] at served
    exact exec_command_served (k := .setOutputFunction) waiting served (by rw [front]; rfl)
  · rw [takeSetOutputFunction_assigns (s := s.popRequest) owner function] at served
    exact ⟨_, rfl, exec_command_served (k := .setOutputFunction) waiting served (by rw [front]; rfl)⟩
  · rw [takeSetOutputFunction_general (s := s.popRequest) owner function] at served
    exact exec_command_served (k := .setOutputFunction) waiting served (by rw [front]; rfl)
  · rw [takeSetOutputFunction_kept (s := s.popRequest) owner function] at served
    exact exec_command_served (k := .setOutputFunction) waiting served (by rw [front]; rfl)

/-! ## The driven state -/

theorem attention_iff {s : State} :
    s.attention = true ↔ s.announcer.answered = false ∨ s.delivery.state = .stalled
      ∨ s.delivery.settings.mode = .polled ∧ ∃ h ∈ s.journal.held, h.delivered = false := by
  simp [State.attention, Journal.pendingCount, List.countP_pos_iff, or_assoc]

/-- Settles O29: by the owner. -/
theorem drivenStateByOwner : Obligations.DrivenStateByOwner := by
  intro o s
  have attn : s.outputs[o].owner = .function .attn → s.driven o = if s.attention then .low else .released := by
    intro owner
    rw [State.driven, owner]
    rfl
  refine ⟨fun owner => ?_, fun p owner => ?_, fun w level owner => ?_, fun w p owner => ?_,
    fun rate owner period divided => ?_, fun owner => ⟨fun term => ?_, fun none => ?_⟩, fun running => ?_, fun held => ?_⟩
  · rw [State.driven, owner]
  · rw [State.driven, owner]
  · rw [State.driven, owner]
  · rw [State.driven, owner]
  · have wave : s.driven o = if s.time.tickCounter.toNat % period < period / 2 then .high else .low := by
      rw [State.driven, owner, divided]
      rfl
    exact ⟨fun first => by rw [wave, if_pos first], fun second => by rw [wave, if_neg (Nat.not_lt.mpr second)]⟩
  · rw [attn owner, if_pos (attention_iff.mpr term)]
  · rw [attn owner, if_neg fun term => none (attention_iff.mp term)]
  · have notHeld : s.isHeld = false := by simp [State.isHeld, running]
    rw [State.pin, notHeld, if_neg Bool.false_ne_true]
  · rw [State.pin, if_pos (s.isHeld_iff.mpr held)]

end Sys2Proof.Machine
end

section
/-! PROOF. The requests that read: the replies of the status requests, of QUERY_WATCH and of READ_OUTPUTS (R18, R41, R83,
R102, R123, R166, R187). -/

namespace Sys2Proof.Machine

open Sys2Proof.Claims

/-- A request that only reads is answered with what it read, and changes nothing (R178, R185). -/
theorem exec_command_reads {k : RequestKind} {f : Frame} {rest : List Frame} {s : State} (h : Waiting k f rest s)
    {fields : List Octet} (served : serve k f.payload s.popRequest = .ok (.ok fields s.popRequest)) :
    exec k.command s = .next (replied f rest 0x00 fields none s) :=
  exec_command_served h served (by rw [popRequest_of_front h.dispatchable.front]; rfl)

/-! ## Codes and present-or-absent fields -/

theorem causeOctet_eq_code (c : StartCause) : causeOctet c = c.code := by cases c <;> rfl

theorem rateOctet_eq_code (r : BitRate) : rateOctet r = r.code := by cases r <;> rfl

theorem parityOctet_eq_code (p : Parity) : parityOctet p = p.code := by cases p <;> rfl

theorem syncOctet_eq_code (y : SyncState) : syncOctet y = y.code := by cases y <;> rfl

theorem stateOctet_eq_code (x : WatchState) : stateOctet x = x.code := by cases x <;> rfl

theorem ownerOctet_eq_code (x : Owner) : ownerOctet x = x.code := by
  cases x with
  | host _ => rfl
  | function _ => rfl
  | drive w _ => exact (BitVec.ofNat_add 0x10 w.val).symm
  | pulse w _ => exact (BitVec.ofNat_add 0x10 w.val).symm

/-! ## Line maps (R41) -/

theorem getLsbD_mapOf (p : Fin 32 → Bool) (i : Fin 32) : (mapOf p).getLsbD i.val = p i := by
  rw [mapOf, BitVec.getLsbD_ofFnLE, dif_pos i.isLt]

theorem Line.isSettling_iff {l : Line} : l.isSettling = true ↔ ∃ captured left, l.filter = .settling captured left := by
  cases filter : l.filter <;> simp [Line.isSettling, filter]

/-! ## Time quality and the fields of READ_TIME (R110, R123) -/

theorem TimeBase.quality_unset {t : TimeBase} (h : t.everSet = false) : t.quality.code = 0 := by
  rw [TimeBase.quality, h]
  rfl

theorem TimeBase.quality_tracking {t : TimeBase} {limit : Countdown} (h : t.everSet = true) (sync : t.sync = .tracking limit) :
    t.quality.code = 2 := by
  rw [TimeBase.quality, h, sync]
  rfl

theorem TimeBase.quality_holdover {t : TimeBase} (h : t.everSet = true) (sync : t.sync = .holdover) :
    t.quality.code = 3 := by
  rw [TimeBase.quality, h, sync]
  rfl

theorem TimeBase.quality_set {t : TimeBase} (h : t.everSet = true) (tracking : ∀ limit, t.sync ≠ .tracking limit)
    (holdover : t.sync ≠ .holdover) : t.quality.code = 1 := by
  rw [TimeBase.quality, h]
  cases sync : t.sync with
  | tracking limit => exact absurd sync (tracking limit)
  | holdover => exact absurd sync holdover
  | _ => rfl

theorem SyncState.armFields_unarmed {y : SyncState}
    (h : ∀ remembered value option deadline, y ≠ .armed remembered value option deadline) : y.armFields = [0, 0] := by
  cases y with
  | armed remembered value option deadline => exact absurd rfl (h remembered value option deadline)
  | _ => rfl

theorem TimeBase.shownAge_some {t : TimeBase} {n : Nat} (age : t.lastPulseAge = some n) (shown : t.pulseInState = true) :
    t.shownAge = some n := by rw [TimeBase.shownAge, shown, if_pos rfl, age]

theorem TimeBase.shownAge_none {t : TimeBase} (h : t.lastPulseAge = none ∨ t.pulseInState = false) : t.shownAge = none := by
  rw [TimeBase.shownAge]
  rcases h with age | hidden
  · rw [age, ite_self]
  · rw [hidden, if_neg Bool.false_ne_true]

/-- Settles O38: each reply is read from the state as it stands. -/
theorem statusReplies : Obligations.StatusReplies := by
  intro f rest s payload
  refine ⟨fun waiting => ?_, fun waiting c counters => ?_, fun waiting held records => ?_, fun waiting => ?_, fun waiting => ?_⟩
  · rw [causeOctet_eq_code]
    exact exec_command_reads (k := .identify) waiting (by simp only [serve, payload, parseEmpty, Except.map]; rfl)
  · have served : serve .linkStatus f.payload s.popRequest = .ok (takeLinkStatus s.popRequest) := by
      simp only [serve, payload, parseEmpty, Except.map]
    rw [counters, rateOctet_eq_code, parityOctet_eq_code]
    exact exec_command_served (k := .linkStatus) waiting served
      (by rw [popRequest_of_front waiting.dispatchable.front]; rfl)
  · refine (exec_command_reads (k := .journalStatus) (fields := journalStatusFields s.journal) waiting
      (by simp only [serve, payload, parseEmpty, Except.map]; rfl)).trans ?_
    simp only [journalStatusFields, Journal.heldCount, Journal.pendingCount, Journal.deliveredCount, Journal.alarmCount, ← records]
    cases held <;> rfl
  · refine ⟨s.front.rawMap, s.front.filteredMap, s.front.settlingMap, s.front.suppressedMap,
      exec_command_reads (k := .readLines) waiting (by simp only [serve, payload, parseEmpty, Except.map]; rfl),
      fun i => ⟨?_, ?_, ?_, ?_⟩⟩
    · rw [FrontEnd.rawMap, getLsbD_mapOf, decide_eq_true_eq]
    · rw [FrontEnd.filteredMap, getLsbD_mapOf, decide_eq_true_eq]
    · rw [FrontEnd.settlingMap, getLsbD_mapOf, Line.isSettling_iff]
    · rw [FrontEnd.suppressedMap, getLsbD_mapOf, isSuppressed_iff]
  · refine ⟨s.time.quality.code, s.time.sync.armFields, presentOctets (s.time.shownAge.map octets16), ?_, ?_,
      fun everSet => ⟨?_, ?_, ?_, ?_⟩, ?_, ?_, ?_, ?_⟩
    · rw [syncOctet_eq_code]
      exact exec_command_reads (k := .readTime) waiting (by simp only [serve, payload, parseEmpty, Except.map]; rfl)
    · exact TimeBase.quality_unset
    · rintro (sync | sync) <;> exact TimeBase.quality_set everSet (by simp [sync]) (by simp [sync])
    · rintro ⟨remembered, value, option, deadline, sync⟩
      exact TimeBase.quality_set everSet (by simp [sync]) (by simp [sync])
    · rintro ⟨limit, sync⟩
      exact TimeBase.quality_tracking everSet sync
    · exact TimeBase.quality_holdover everSet
    · intro remembered value option deadline sync
      rw [sync]
      rfl
    · exact SyncState.armFields_unarmed
    · intro n age shown
      rw [TimeBase.shownAge_some age shown]
      rfl
    · intro absent
      rw [TimeBase.shownAge_none absent]
      rfl

/-! ## QUERY_WATCH and READ_OUTPUTS (R83, R102) -/

theorem ownedBy_iff {w : Fin 16} {x : Owner} : ownedBy w x ↔ x.watch = some w := by
  cases x <;> simp [ownedBy, Owner.watch]

theorem ownedOutput_of_unique {s : State} {w : Fin 16} {o : Fin 8} (owned : s.outputs[o].owner.watch = some w)
    (unique : ∀ q : Fin 8, s.outputs[q].owner.watch = some w → q = o) : s.ownedOutput w = some o := by
  cases found : s.ownedOutput w with
  | none => exact absurd owned (ownedOutput_eq_none_iff.mp found o)
  | some q => rw [unique q (of_decide_eq_true (List.find?_some found :))]

theorem pulseRemaining_of_ownedOutput {s : State} {w : Fin 16} {o : Fin 8} (h : s.ownedOutput w = some o) :
    s.pulseRemaining w = s.outputs[o].owner.runningPulse.map (·.timer.left) := by
  simp only [State.pulseRemaining, h]

theorem WatchState.qualifyLeft_none {x : WatchState} (h : ∀ t timer, x ≠ .qualifying t timer) : x.qualifyLeft = none := by
  cases x with
  | qualifying t timer => exact absurd rfl (h t timer)
  | _ => rfl

/-- The octets of the function and its frequency, which O6 and O7 show (R102, R205). -/
def functionOctets (x : Owner) : List Octet := functionCode x.assigned :: octets16 (functionHz x.assigned)

theorem functionOctets_of_unassigned {x : Owner} (h : ∀ g, x ≠ .function g) : functionOctets x = [0, 0, 0] := by
  have unassigned : x.assigned = none := by
    cases x with
    | function g => exact absurd rfl (h g)
    | _ => rfl
  rw [functionOctets, unassigned]
  decide

theorem readOutputsFields_eq (s : State) :
    readOutputsFields s
      = outputFields s 0 ++ outputFields s 1 ++ outputFields s 2 ++ outputFields s 3 ++ outputFields s 4
        ++ outputFields s 5 ++ outputFields s 6 ++ outputFields s 7 := by
  have outputs : List.finRange 8 = [0, 1, 2, 3, 4, 5, 6, 7] := by decide
  simp only [readOutputsFields, outputs, List.flatMap_cons, List.flatMap_nil, List.append_nil, List.append_assoc]

/-- Settles O39: each field is present as the watch and the output stand. -/
theorem watchAndOutputReplies : Obligations.WatchAndOutputReplies := by
  intro f rest s
  refine ⟨fun w waiting payload => ?_, fun waiting payload => ?_⟩
  · refine ⟨presentOctets (s.watches[w].definition.map definitionOctets),
      presentOctets ((s.ownedOutput w).map fun o => octets8 o.val), presentOctets ((s.pulseRemaining w).map octets16),
      presentOctets (s.watches[w].state.onset.map timeOctets), presentOctets (s.watches[w].state.qualifyLeft.map octets16),
      ?_, fun absent => ?_, fun d present => ?_, fun unowned => ?_, fun o owned unique => ?_, fun t onset => ?_, fun onset => ?_,
      fun t timer qualifying => ?_, fun idle => ?_⟩
    · rw [stateOctet_eq_code]
      exact exec_command_reads (k := .queryWatch) waiting
        (by simp only [serve, payload, parseWatchIndex_ofNat, Except.map]; rfl)
    · rw [absent]
      rfl
    · rw [present]
      rfl
    · have none := ownedOutput_eq_none_iff.mpr fun o owned => unowned o (ownedBy_iff.mpr owned)
      rw [pulseRemaining_of_ownedOutput_none none, none]
      exact ⟨rfl, rfl⟩
    · have found := ownedOutput_of_unique (ownedBy_iff.mp owned) fun q other => unique q (ownedBy_iff.mpr other)
      rw [pulseRemaining_of_ownedOutput found, found]
      refine ⟨rfl, fun level owner => ?_, fun p owner => ?_⟩
      · rw [owner]
        rfl
      · rw [owner]
        rfl
    · rw [onset]
      rfl
    · rw [onset]
      rfl
    · rw [qualifying]
      rfl
    · rw [WatchState.qualifyLeft_none idle]
      rfl
  · refine ⟨outputFields s, ?_, fun o => ⟨presentOctets (s.outputs[o].owner.runningPulse.map fun p => octets16 p.timer.left),
      if 6 ≤ o.val then functionOctets s.outputs[o].owner else [], ?_, fun none => ?_, fun p running => ?_, fun low => ?_,
      fun high => ?_⟩⟩
    · rw [← readOutputsFields_eq]
      exact exec_command_reads (k := .readOutputs) waiting (by simp only [serve, payload, parseEmpty, Except.map]; rfl)
    · rw [driveOctet_eq_code, driveOctet_eq_code, ownerOctet_eq_code]
      rfl
    · rw [none]
      rfl
    · rw [running]
      rfl
    · exact if_neg (by omega)
    · rw [if_pos high]
      refine ⟨fun rate owner => ?_, fun owner => ?_, functionOctets_of_unassigned⟩
      · rw [owner]
        rfl
      · rw [owner]
        rfl

end Sys2Proof.Machine
end

section
/-! PROOF. The host link (chapter 8) and the rest of the dispatcher (chapter 9): start bits and octets as the assembler takes
them, the judgement of a frame, the hand-overs and TXD, the deferred effects and the reply cache. -/

namespace Sys2Proof.Machine

open Sys2Proof.Claims

/-! ## Start bits and the timeout -/

theorem State.findsStartBit_eq {s : State} (running : s.hold = .running) (high confirmed : Bool) :
    s.findsStartBit high confirmed
      = match s.link.receiver with
        | .receiving => false
        | .looking => confirmed
        | .waitHigh => high := by
  rw [State.findsStartBit, State.isHeld, running]
  rfl

theorem exec_startBitFound_found {s u : State} {high confirmed : Bool} (finds : s.findsStartBit high confirmed = true)
    (found : u = s.found .receiver) :
    exec (.startBitFound high confirmed) s = .next (foundStart confirmed u) := by
  show Host.Outcome.next (startBitFound high confirmed s) = _
  rw [startBitFound, if_pos finds, found]

theorem exec_startBitFound_none {s : State} {high confirmed : Bool} (none : s.findsStartBit high confirmed = false) :
    exec (.startBitFound high confirmed) s = .next s := by
  show Host.Outcome.next (startBitFound high confirmed s) = _
  rw [startBitFound, none, if_neg Bool.false_ne_true]

theorem State.gapExpires_iff (s : State) :
    s.gapExpires = true ↔ s.hold = .running ∧ s.link.receiver ≠ .receiving ∧ s.link.assembler ≠ .hunt := by
  cases hold : s.hold <;> simp [State.gapExpires, State.isHeld, hold]

theorem abandonFrame_inFrame {s : State} (frame : s.link.assembler ≠ .hunt) :
    abandonFrame s = { s with link :=
      { s.link with
        assembler := .hunt
        counters := { s.link.counters with timeouts := saturating s.link.counters.timeouts } } } := by
  unfold abandonFrame
  split
  case h_1 hunt => exact absurd hunt frame
  case h_2 => rfl

/-- What is due, taken first, leaves the assembler alone. -/
theorem found_assembler {s u : State} {p : Party} (found : u = s.found p) : u.link.assembler = s.link.assembler := by
  rw [found, (found_untouched p s).link]

/-- Settles O47: by what the receiver does, and the frame in progress. -/
theorem startBitAndTimeout : Obligations.StartBitAndTimeout := by
  intro s u running found
  refine ⟨fun looking high => ⟨?_, ?_⟩, fun wait => ⟨?_, ?_, fun confirmed => ?_⟩, fun between frame => ?_, fun other => ?_⟩
  · exact exec_startBitFound_found (by rw [State.findsStartBit_eq running, looking]) found
  · exact exec_startBitFound_none (by rw [State.findsStartBit_eq running, looking])
  · exact exec_startBitFound_found (by rw [State.findsStartBit_eq running, wait]) found
  · exact exec_startBitFound_found (by rw [State.findsStartBit_eq running, wait]) found
  · exact exec_startBitFound_none (by rw [State.findsStartBit_eq running, wait])
  · show Host.Outcome.next (interOctetTimeout s) = _
    rw [interOctetTimeout, if_pos (s.gapExpires_iff.mpr ⟨running, between, frame⟩), ← found,
      abandonFrame_inFrame ((found_assembler found).trans_ne frame)]
  · show Host.Outcome.next (interOctetTimeout s) = _
    refine congrArg Host.Outcome.next (if_neg fun expires => ?_)
    obtain ⟨-, between, frame⟩ := s.gapExpires_iff.mp expires
    exact other.elim between frame

/-! ## Octets -/

/-- An octet that arrives is counted, and handed to the assembler with its mark (R154). -/
theorem takeOctet_eq (data : Octet) (parityLevel stopLevel : Level) (u : State) :
    takeOctet data parityLevel stopLevel u
      = assemble data (octetBad u data parityLevel stopLevel) { u with link := afterOctet u data parityLevel stopLevel } := by
  cases stopLevel <;> simp only [takeOctet, octetBad, afterOctet, parityBad_eq] <;> rfl

theorem exec_octetArrives {data : Octet} {parityLevel stopLevel : Level} {s u : State} (receiving : Receiving s)
    (found : u = s.found .receiver) :
    exec (.octetArrives data parityLevel stopLevel) s
      = .next (assemble data (octetBad u data parityLevel stopLevel)
          { u with link := afterOctet u data parityLevel stopLevel }) := by
  have notHeld : ¬ s.isHeld = true := fun held => s.isHeld_iff.mp held receiving.running
  show Host.Outcome.next (octetArrives data parityLevel stopLevel s) = _
  rw [octetArrives, if_neg notHeld, if_pos receiving.receiving, ← found, takeOctet_eq]

section
variable {data : Octet} {bad : Bool} {v : State}

theorem assemble_sync (hunt : v.link.assembler = .hunt) (sync : data = 0xC3) (good : bad = false) :
    assemble data bad v = { v with link := { v.link with assembler := .length } } := by
  rw [assemble, hunt]
  exact if_pos ⟨sync, good⟩

theorem assemble_noise (hunt : v.link.assembler = .hunt) (other : data ≠ 0xC3 ∨ bad = true) :
    assemble data bad v = { v with link :=
      { v.link with counters := { v.link.counters with noise := saturating v.link.counters.noise } } } := by
  rw [assemble, hunt]
  refine if_neg fun ⟨sync, good⟩ => ?_
  exact other.elim (· sync) fun bad => Bool.false_ne_true (good.symm.trans bad)

theorem assemble_length (length : v.link.assembler = .length) (least : 2 ≤ data.toNat) (most : data.toNat ≤ 252) :
    assemble data bad v = { v with link :=
      { v.link with assembler := .body data.toNat data.toNat [] (crcOctet 0xFFFF data) bad } } := by
  rw [assemble, length]
  exact if_pos ⟨least, most⟩

theorem assemble_lengthError (length : v.link.assembler = .length) (outside : data.toNat < 2 ∨ 252 < data.toNat) :
    assemble data bad v = { v with link :=
      { v.link with
        assembler := .hunt
        counters := { v.link.counters with lengthErrors := saturating v.link.counters.lengthErrors } } } := by
  rw [assemble, length]
  exact if_neg (by omega)

section
variable {len : Nat} {octets : List Octet} {crc : BitVec 16} {damaged : Bool}

theorem assemble_body {toCome : Nat} (body : v.link.assembler = .body len toCome octets crc damaged) :
    assemble data bad v
      = { v with link := { v.link with assembler := bodyOctet len toCome octets crc damaged data bad } } := by
  rw [assemble, body]
  rfl

theorem assemble_firstCheck (check : v.link.assembler = .check len octets crc damaged none) :
    assemble data bad v
      = { v with link := { v.link with assembler := .check len octets crc (damaged || bad) (some data) } } := by
  rw [assemble, check]
  rfl

theorem assemble_secondCheck {high : Octet} (check : v.link.assembler = .check len octets crc damaged (some high)) :
    assemble data bad v = frameEnds octets crc (high ++ data) (damaged || bad) v := by
  rw [assemble, check]

end

end

/-- Settles O48: the octet is a length or it is not. -/
theorem lengthOctet : Obligations.LengthOctet := by
  intro data parityLevel stopLevel s u receiving length found
  have taken := exec_octetArrives (data := data) (parityLevel := parityLevel) (stopLevel := stopLevel) receiving found
  have inLength : ({ u with link := afterOctet u data parityLevel stopLevel } : State).link.assembler = .length :=
    (found_assembler found).trans length
  refine ⟨fun least most => ?_, fun outside after same => ?_⟩
  · rw [taken, assemble_length inLength least most]
  · rw [taken, same, assemble_lengthError inLength outside]

/-- Settles O49: by the assembler's state. -/
theorem octetIsCollected : Obligations.OctetIsCollected := by
  intro data parityLevel stopLevel s u receiving found after bad same mark
  have taken : exec (.octetArrives data parityLevel stopLevel) s = .next (assemble data bad { u with link := after }) := by
    rw [same, mark, exec_octetArrives receiving found]
  have assembler : after.assembler = s.link.assembler := by
    rw [same]
    exact found_assembler found
  refine ⟨fun hunt sync good => ?_, fun hunt other => ?_, fun len toCome octets crc damaged body => ⟨fun more => ?_,
    fun last => ?_⟩, fun len octets crc damaged check => ?_⟩
  · rw [taken, assemble_sync (assembler.trans hunt) sync good]
  · rw [taken, assemble_noise (assembler.trans hunt) other]
  · rw [taken, assemble_body (assembler.trans body), bodyOctet, if_neg (Nat.not_le_of_lt more)]
  · rw [taken, assemble_body (assembler.trans body), bodyOctet, if_pos last]
  · rw [taken, assemble_firstCheck (assembler.trans check)]

/-! ## The end of a frame -/

theorem Announcer.answer_eq (a : Announcer) :
    a.answer =
      if a.answered then a
      else { a with answered := true, timer := none, due := if a.due = .repeated then .none else a.due } := by
  unfold Announcer.answer
  cases a.due <;> rfl

theorem frameArrives_eq (f : Frame) (s : State) : frameArrives f s = afterArrival f s := by
  rw [frameArrives, Announcer.answer_eq]
  rfl

/-- Settles O50: damaged, with a differing check, or complete; and what was due is taken first where an event comes later. -/
theorem frameIsJudged : Obligations.FrameIsJudged := by
  refine ⟨fun data parityLevel stopLevel len kind tag payload crc damaged high s u receiving check found after bad same mark =>
    ?_, fun s u p running bound found => ?_⟩
  · have ends : exec (.octetArrives data parityLevel stopLevel) s
        = .next (frameEnds (kind :: tag :: payload) crc (high ++ data) bad
            { u with link := afterOctet u data parityLevel stopLevel }) := by
      rw [exec_octetArrives receiving found, mark]
      exact congrArg Host.Outcome.next (assemble_secondCheck ((found_assembler found).trans check))
    rw [ends, frameEnds, same]
    refine ⟨fun harmed => congrArg Host.Outcome.next (if_pos harmed), fun whole differs => congrArg Host.Outcome.next ?_,
      fun whole agrees => congrArg Host.Outcome.next ?_⟩
    · rw [whole, if_neg Bool.false_ne_true]
      exact if_pos differs
    · rw [whole, if_neg Bool.false_ne_true, if_neg (not_not.mpr agrees), ← frameArrives_eq]
      rfl
  · have kept : Untouched s u := found ▸ found_untouched p s
    refine ⟨fun later => ?_, fun fresh due => ?_, found ▸ found_had p s, kept.link⟩
    · have done : u.dueEvents = [] := found ▸ found_done bound later.symm
      exact ⟨nothingWaits_of_dueEvents_nil (kept.hold.trans running) done, done⟩
    · rw [found, found_together due fresh]

/-! ## Hand-overs -/

theorem State.replyWaits_iff (s : State) :
    s.replyWaits = true ↔ s.hold = .running ∧ s.link.line = .free ∧ s.dispatcher.replies ≠ [] := by
  cases hold : s.hold <;> simp [State.replyWaits, State.lineFree, State.isHeld, hold]

theorem State.noticeWaits_iff (s : State) :
    s.noticeWaits = true ↔
      s.hold = .running ∧ s.link.line = .free ∧ s.dispatcher.replies = [] ∧ s.dispatcher.requests = []
        ∧ s.announcer.due ≠ .none := by
  cases hold : s.hold with
  | held => simp [State.noticeWaits, State.lineFree, State.isHeld, hold]
  | running =>
    simp only [State.noticeWaits, State.lineFree, State.canDispatch, State.isHeld, hold]
    by_cases replies : s.dispatcher.replies = [] <;> simp [replies, Config.replyCapacity, and_assoc]

theorem exec_replyHandOver_none {s : State} (none : ¬ s.replyWaits = true) : exec .replyHandOver s = .next s :=
  congrArg Host.Outcome.next (if_neg none)

theorem exec_startNoticeHandOver_none {s : State} (none : ¬ s.noticeWaits = true) : exec .startNoticeHandOver s = .next s :=
  congrArg Host.Outcome.next (if_neg none)

theorem exec_reportHandOver_none {s : State} (none : ¬ s.reportWaits = true) : exec .reportHandOver s = .next s :=
  congrArg Host.Outcome.next (if_neg none)

theorem exec_replyHandOver {s : State} {reply : Reply} {replies : List Reply} (running : s.hold = .running)
    (free : s.link.line = .free) (front : s.dispatcher.replies = reply :: replies) :
    exec .replyHandOver s = .next
      { s with
        dispatcher := { s.dispatcher with replies := replies }
        moment := { s.moment with transmitted := true }
        link := { s.link with line := .sending (.reply reply.effect) (onWire reply.frame) } } := by
  have waits : s.replyWaits = true := s.replyWaits_iff.mpr ⟨running, free, by rw [front]; exact List.cons_ne_nil _ _⟩
  show Host.Outcome.next (replyHandOver s) = _
  rw [replyHandOver, if_pos waits, front]
  rfl

theorem qualityOctet_eq_code (q : Quality) : qualityOctet q = q.code := by cases q <;> rfl

theorem exec_startNoticeHandOver {s : State} (waits : s.noticeWaits = true) :
    exec .startNoticeHandOver s = .next
      { s with
        announcer :=
          { s.announcer with
            due := .none
            number := if s.announcer.number < 255 then s.announcer.number + 1 else s.announcer.number
            timer := if s.announcer.answered then s.announcer.timer else some ⟨2048, false⟩ }
        moment := { s.moment with transmitted := true }
        link := { s.link with line := .sending .notice (onWire
          { kind := 0x82, tag := BitVec.ofNat 8 s.announcer.number
            payload := [causeOctet s.announcer.cause, 0x01] ++ octets16 s.journal.held.length
              ++ octets16 s.journal.next.toNat ++ [qualityOctet s.time.quality] }) } } := by
  rw [causeOctet_eq_code, qualityOctet_eq_code]
  exact congrArg Host.Outcome.next (if_pos waits)

/-! ## TXD (R153) -/

theorem length_txOctetLevels (settings : LinkSettings) (o : Octet) :
    (txOctetLevels settings o).length = bitTimes settings.parity := by
  cases parity : settings.parity <;> simp [txOctetLevels, parityBit, parity, bitTimes]

theorem txOctetLevels_getD (settings : LinkSettings) (o : Octet) {j : Nat} (inside : j < bitTimes settings.parity) :
    (txOctetLevels settings o).getD j .high = levelOfBit settings.parity o j := by
  have most : j < 11 := inside.trans_le (by rw [bitTimes]; split <;> omega)
  rw [txOctetLevels]
  cases settings.parity <;> interval_cases j <;> rfl

/-- Blocks of one length, one after another: the place in the whole gives the block and the place in it. -/
theorem getD_flatMap_blocks {α β : Type} {block : α → List β} {size : Nat} (sizes : ∀ a, (block a).length = size) (d : β)
    {j : Nat} (inside : j < size) {a : α} {as : List α} {k : Nat} (at_k : as[k]? = some a) :
    (as.flatMap block).getD (k * size + j) d = (block a).getD j d := by
  induction as generalizing k with
  | nil => cases at_k
  | cons b bs ih =>
    rw [List.flatMap_cons]
    cases k with
    | zero =>
      obtain rfl : b = a := Option.some.inj at_k
      rw [Nat.zero_mul, Nat.zero_add, List.getD_append _ _ _ _ (by rw [sizes]; exact inside)]
    | succ k =>
      have behind : (k + 1) * size + j = (block b).length + (k * size + j) := by rw [sizes]; ring
      rw [behind, List.getD_append_right _ _ _ _ (Nat.le_add_right _ _), Nat.add_sub_cancel_left]
      exact ih at_k

theorem length_flatMap_blocks {α β : Type} {block : α → List β} {size : Nat} (sizes : ∀ a, (block a).length = size)
    (as : List α) : (as.flatMap block).length = as.length * size := by
  simp [List.length_flatMap, sizes]

theorem Link.txd_sending {l : Link} {source : TxSource} {octets : List Octet} (sending : l.line = .sending source octets)
    (n : Nat) : l.txd n = (octets.flatMap (txOctetLevels l.settings)).getD n .high := by
  rw [Link.txd, Link.txLevels, sending]

theorem Link.txd_free {l : Link} (free : l.line = .free) (n : Nat) : l.txd n = .high := by
  rw [Link.txd, Link.txLevels, free]
  rfl

/-- Settles O51: each hand-over comes about only where its own frame waits; TXD is a sequence of blocks of one octet each. -/
theorem replyAndNoticeHandOver : Obligations.ReplyAndNoticeHandOver := by
  intro s
  refine ⟨fun reply replies => exec_replyHandOver, fun running free replies requests due => ?_, fun timer present due => ?_,
    fun waits => ⟨?_, ?_⟩, fun due => ?_, fun running requests slot => ?_, fun busy => ⟨?_, ?_, ?_⟩, Link.txd_free,
    fun source octets bits sending size => ⟨fun n behind => ?_, fun k o j at_k inside => ?_⟩⟩
  · exact exec_startNoticeHandOver (s.noticeWaits_iff.mpr ⟨running, free, replies, requests, due⟩)
  · refine congrArg Host.Outcome.next (if_pos ?_)
    rw [present]
    exact due
  · exact exec_startNoticeHandOver_none fun notice => waits (s.noticeWaits_iff.mp notice).2.2.1
  · exact exec_reportHandOver_none fun report => waits (s.reportWaits_iff.mp report).2.2.1
  · exact exec_reportHandOver_none fun report => due (s.reportWaits_iff.mp report).2.2.2.1
  · exact exec_startNoticeHandOver_none fun notice => requests (s.noticeWaits_iff.mp notice).2.2.2.1
  · exact exec_replyHandOver_none fun reply => busy (s.replyWaits_iff.mp reply).2.1
  · exact exec_startNoticeHandOver_none fun notice => busy (s.noticeWaits_iff.mp notice).2.1
  · exact exec_reportHandOver_none fun report => busy (s.reportWaits_iff.mp report).2.1
  · rw [Link.txd_sending sending, List.getD_eq_default]
    rw [length_flatMap_blocks (length_txOctetLevels _), ← size]
    exact behind
  · rw [size] at inside ⊢
    rw [Link.txd_sending sending, getD_flatMap_blocks (length_txOctetLevels _) _ inside at_k, txOctetLevels_getD _ _ inside]

/-! ## Deferred effects and the reply cache -/

theorem scopeOctet_eq_code (x : RestartScope) : scopeOctet x = x.code := by cases x <;> rfl

/-- Settles O52: the reply alone carries what is deferred. -/
theorem deferredEffectsTravel : Obligations.DeferredEffectsTravel := by
  intro f rest s
  refine ⟨fun settings waiting payload => ?_, fun scope waiting payload => ?_⟩
  · have served : serve .setLink f.payload s.popRequest = .ok (takeSetLink settings s.popRequest) := by
      simp only [serve, payload, rateOctet_eq_code, parityOctet_eq_code, parseSetLink, BitRate.ofCode_code, Parity.ofCode_code,
        Except.map]
    rw [rateOctet_eq_code, parityOctet_eq_code]
    exact exec_command_served (k := .setLink) waiting served (by rw [popRequest_of_front waiting.dispatchable.front]; rfl)
  · have served : serve .restart f.payload s.popRequest = .ok (takeRestart scope s.popRequest) := by
      simp only [serve, payload, scopeOctet_eq_code, parseRestart, RestartScope.ofCode_code, fieldsOr, Except.map]
    rw [scopeOctet_eq_code]
    exact exec_command_served (k := .restart) waiting served (by rw [popRequest_of_front waiting.dispatchable.front]; rfl)

/-- The command of a request kind, at a front of its kind with a slot free (R178). -/
theorem exec_command_dispatches {k : RequestKind} {f : Frame} {rest : List Frame} {s : State} (can : s.canDispatch = true)
    (front : s.dispatcher.requests = f :: rest) (code : RequestKind.ofCode f.kind = some k) :
    exec k.command s = .next (dispatched f (serve k f.payload s.popRequest) s) := by
  have dispatches : ∀ {α : Type} (parse : List Octet → Except Status α) (take : α → State → Taken),
      dispatch k parse take s = dispatched f ((parse f.payload).map fun a => take a s.popRequest) s := by
    intro α parse take
    rw [dispatch, if_pos can, front]
    exact (if_pos code).trans (dispatchFrame_eq f parse take s)
  cases k <;> exact congrArg Host.Outcome.next (dispatches _ _)

theorem dispatchUnknown_dispatches {f : Frame} {rest : List Frame} {s : State} (can : s.canDispatch = true)
    (front : s.dispatcher.requests = f :: rest) (unknown : RequestKind.ofCode f.kind = none) :
    dispatchUnknown s = dispatched f (.error .unknownKind) s := by
  rw [dispatchUnknown, if_pos can, front]
  exact (if_pos unknown).trans (dispatchFrame_eq f _ _ s)

/-- Settles O55: a repeat is found in the cache before any check. -/
theorem repeatIsAnsweredFromCache : Obligations.RepeatIsAnsweredFromCache := by
  intro f rest e s t running front slot cached tagged sameTag sameKind answered
  have can := canDispatch_of running front slot
  have found : s.dispatcher.repeatOf f = some e.frame := by
    rw [Dispatcher.repeatOf, cached]
    exact if_pos ⟨tagged, sameTag, sameKind⟩
  have answers : ∀ answer, dispatched f answer s = t := by
    intro answer
    rw [dispatched.eq_def, found, answered, popRequest_of_front front]
    rfl
  refine ⟨fun k kind => ?_, fun foreign => ?_⟩
  · rw [exec_command_dispatches can front (by rw [kind, requestOctet_eq_code, ofCode_code]), answers]
  · show Host.Outcome.next (dispatchUnknown s) = _
    rw [dispatchUnknown_dispatches can front (ofCode_eq_none_iff.mpr foreign), answers]

end Sys2Proof.Machine
end

section
/-! PROOF. The watches (chapters 3 and 4): the condition, the claim and the trip in the words of the statements; what one task
does, by the watch's state; and the run of the tasks of one event, task by task. -/

namespace Sys2Proof.Machine

open Sys2Proof.Claims

/-! ## The condition (R48, R52) -/

theorem pattern_iff {s : State} {d : WatchDef} : s.pattern d = true ↔ PatternHolds s d := by
  have every : ((List.finRange 32).all fun i =>
      !d.lineSet.getLsbD i.val || decide (s.front.lines[i].filtered = levelIn d.reference i)) = true ↔ AtReference s d := by
    simp only [List.all_eq_true, List.mem_finRange, true_implies, Bool.or_eq_true, Bool.not_eq_true', decide_eq_true_eq]
    exact forall_congr' fun i => by
      rw [← Bool.not_eq_true, ← imp_iff_not_or]
      rfl
  unfold State.pattern PatternHolds
  cases d.sense
  case matching => exact every
  case differing =>
    rw [Bool.not_eq_true', ← Bool.not_eq_true]
    exact not_congr every

theorem prerequisiteTripped_iff {s : State} {d : WatchDef} :
    s.prerequisiteTripped d = true
      ↔ ∀ p, d.prerequisite = some p → ∃ onset, s.watches[p].state = .tripped onset ∨ s.watches[p].state = .held onset := by
  unfold State.prerequisiteTripped
  split
  case h_1 none => simp [none]
  case h_2 p named => simp only [named, Option.some.injEq, forall_eq', isTripped_iff]

theorem condition_iff {s : State} {d : WatchDef} : s.condition d = true ↔ Holds s d := by
  rw [State.condition, Bool.and_eq_true, pattern_iff, prerequisiteTripped_iff, Holds]

theorem pattern_congr {s t : State} (front : t.front = s.front) (d : WatchDef) : t.pattern d = s.pattern d := by
  simp only [State.pattern, front]

theorem prerequisiteTripped_congr {s t : State} {d : WatchDef}
    (same : ∀ p, d.prerequisite = some p → t.watches[p].state.isTripped = s.watches[p].state.isTripped) :
    t.prerequisiteTripped d = s.prerequisiteTripped d := by
  unfold State.prerequisiteTripped
  split
  case h_1 => rfl
  case h_2 p named => exact same p named

/-- The condition is read from the levels, and from whether the prerequisite is TRIPPED or HELD (R48, R52). -/
theorem condition_congr {s t : State} {d : WatchDef} (front : t.front = s.front)
    (same : ∀ p, d.prerequisite = some p → t.watches[p].state.isTripped = s.watches[p].state.isTripped) :
    t.condition d = s.condition d := by
  rw [State.condition, State.condition, pattern_congr front, prerequisiteTripped_congr same]

/-! ## Dependents (R55) -/

theorem mem_dependents {s : State} {w v : Fin 16} :
    v ∈ s.dependents w ↔ ∃ d, s.watches[v].definition = some d ∧ d.prerequisite = some w := by
  rw [State.dependents, List.mem_filter, decide_eq_true_eq, State.prerequisite]
  cases s.watches[v].definition <;> simp

theorem dependents_eq_nil {s : State} {w : Fin 16} (h : NoDependents s w) : s.dependents w = [] := by
  refine List.eq_nil_iff_forall_not_mem.mpr fun v mem => ?_
  obtain ⟨d, present, named⟩ := mem_dependents.mp mem
  exact h v d present named

/-! ## The claim and the trip (R70, R90) -/

theorem claimOutput_eq (w : Fin 16) (o : Fin 8) (hold : Owner) (s : State) :
    claimOutput w o hold s = ((claimed w o hold s.outputs).1, { s with outputs := (claimed w o hold s.outputs).2 }) := by
  unfold claimOutput claimed
  cases owner : s.outputs[o].owner with
  | host | function => rfl
  | drive v | pulse v =>
    dsimp only
    split <;> rfl

theorem claim_eq_actedOn (w : Fin 16) (a : Action) (s : State) :
    claim w a s = ((actedOn w a s.outputs).1, { s with outputs := (actedOn w a s.outputs).2 }) := by
  cases a with
  | none => rfl
  | drive o level => exact claimOutput_eq w o _ s
  | pulse o level duration => exact claimOutput_eq w o _ s

/-- The part after a trip of watch `w`, before its record reaches the journal (R70). -/
def tripState (w : Fin 16) (d : WatchDef) (onset : TimeValue) (s : State) : State :=
  { s with
    watches := s.watches.set w.val (trippedWatch w onset s) w.isLt
    outputs := (actedOn w d.action s.outputs).2 }

theorem trip_eq {w : Fin 16} {d : WatchDef} (onset : TimeValue) {k : Work} (present : k.state.watches[w].definition = some d) :
    trip w onset k
      = ({ state := tripState w d onset k.state, sent := k.sent ++ [[tripRecord w d onset k.state.outputs k.state]] },
        [.tripped w]) := by
  rw [trip, present]
  dsimp only
  rw [claim_eq_actedOn]
  rfl

theorem getElem_tripState (w : Fin 16) (d : WatchDef) (onset : TimeValue) (s : State) (v : Fin 16) :
    (tripState w d onset s).watches[v] = if w = v then trippedWatch w onset s else s.watches[v] :=
  getElem_setWatch s w v (trippedWatch w onset s)

theorem tripState_definitions (w : Fin 16) (d : WatchDef) (onset : TimeValue) (s : State) :
    SameDefinitions s (tripState w d onset s) :=
  setWatch_definitions (s := s) (x := trippedWatch w onset s) rfl

theorem tripState_dependents {w v : Fin 16} {d : WatchDef} {onset : TimeValue} {s : State} (alone : NoDependents s v) :
    (tripState w d onset s).dependents v = [] := by
  rw [(tripState_definitions w d onset s).dependents, dependents_eq_nil alone]

theorem runTasks_tripped_alone {w : Fin 16} {k : Work} (alone : k.state.dependents w = []) (fuel : Nat) :
    runTasks (fuel + 1) [.tripped w] k = k := by
  rw [runTasks_single]
  show runTasks fuel (k.state.dependentTasks w _) k = k
  rw [dependentTasks_nil alone, runTasks_nil]

/-- A trip alone is over when its record has reached the journal. -/
theorem finish_tripState (w : Fin 16) (d : WatchDef) (onset : TimeValue) (s : State) :
    Work.finish { state := tripState w d onset s, sent := [[tripRecord w d onset s.outputs s]] } = afterTrip w d onset s :=
  send_single_eq _ _

/-- Where no watch depends on the one that trips, its trip is all that the event does. -/
theorem trip_alone {w : Fin 16} {d : WatchDef} {onset : TimeValue} {s : State}
    (present : s.watches[w].definition = some d) (alone : NoDependents s w) :
    ((trip w onset { state := s, sent := [] }).1.run (trip w onset { state := s, sent := [] }).2).finish
      = afterTrip w d onset s := by
  rw [trip_eq onset present]
  exact (congrArg Work.finish (runTasks_tripped_alone (tripState_dependents alone) 999999)).trans
    (finish_tripState w d onset s)

/-- Settles O24: the timer's expiry is a trip, and nothing else is. -/
theorem qualifyExpiryTrips : Obligations.QualifyExpiryTrips := by
  intro w s
  refine ⟨fun onset timer d qualifying present => ⟨fun due alone => ?_, fun runs => ?_⟩, fun other => ?_⟩
  · show Host.Outcome.next (qualifyExpiry w s) = _
    rw [qualifyExpiry, qualifying]
    exact congrArg Host.Outcome.next ((if_pos due).trans (trip_alone present alone))
  · show Host.Outcome.next (qualifyExpiry w s) = _
    rw [qualifyExpiry, qualifying]
    exact congrArg Host.Outcome.next (if_neg (Bool.eq_false_iff.mp runs))
  · obtain same | ⟨onset, timer, qualifying, -⟩ := qualifyExpiry_cases w s
    · exact congrArg Host.Outcome.next same
    · exact absurd qualifying (other onset timer)

/-! ## SET_WATCH (R59 to R61) -/

theorem chainsEnd_iff {s : State} {w : Fin 16} {d : WatchDef} :
    s.chainsEnd w d = true
      ↔ ∀ v, chainEnds (fun u => if u = w then d.prerequisite else s.prerequisite u) 4 v = true := by
  simp only [State.chainsEnd, List.all_eq_true, List.mem_finRange, true_implies]
  rfl

section
variable {r : SetWatch} {s : State}

theorem takeSetWatch_inUse (enabled : s.watches[r.watch].state ≠ .disabled) : takeSetWatch r s = .refuse .inUse s :=
  if_pos enabled

theorem takeSetWatch_absent (disabled : s.watches[r.watch].state = .disabled) (absent : r.definition = none) :
    takeSetWatch r s = .ok [] (s.setWatch r.watch { s.watches[r.watch] with definition := none }) := by
  rw [takeSetWatch, if_neg (not_not.mpr disabled), absent]

theorem takeSetWatch_badChain {d : WatchDef} (disabled : s.watches[r.watch].state = .disabled) (present : r.definition = some d)
    (bad : ¬ s.chainsEnd r.watch d = true) : takeSetWatch r s = .refuse .badChain s := by
  rw [takeSetWatch, if_neg (not_not.mpr disabled), present]
  exact if_neg bad

theorem takeSetWatch_written {d : WatchDef} (disabled : s.watches[r.watch].state = .disabled) (present : r.definition = some d)
    (ends : s.chainsEnd r.watch d = true) :
    takeSetWatch r s = .ok [] (s.setWatch r.watch { s.watches[r.watch] with definition := some d }) := by
  rw [takeSetWatch, if_neg (not_not.mpr disabled), present]
  exact if_pos ends

end

/-- Settles O20: by the watch's state, the definition and the chain check. -/
theorem setWatchWritesDefinition : Obligations.SetWatchWritesDefinition := by
  intro f rest r s waiting carried wellFormed
  have served : serve .setWatch f.payload s.popRequest = .ok (takeSetWatch r s.popRequest) := by
    simp only [serve, parseSetWatch_carried carried wellFormed, Except.map]
  have front := popRequest_of_front waiting.dispatchable.front
  refine ⟨fun enabled => ?_, fun disabled absent => ?_, fun d disabled present => ⟨fun bad => ?_, fun ends => ?_⟩⟩
  · rw [takeSetWatch_inUse (s := s.popRequest) enabled] at served
    exact exec_command_served (k := .setWatch) waiting served (by rw [front]; rfl)
  · rw [takeSetWatch_absent (s := s.popRequest) disabled absent] at served
    exact exec_command_served (k := .setWatch) waiting served (by rw [front]; rfl)
  · rw [takeSetWatch_badChain (s := s.popRequest) disabled present fun ends => bad (chainsEnd_iff.mp ends)] at served
    exact exec_command_served (k := .setWatch) waiting served (by rw [front]; rfl)
  · rw [takeSetWatch_written (s := s.popRequest) disabled present (chainsEnd_iff.mpr ends)] at served
    exact exec_command_served (k := .setWatch) waiting served (by rw [front]; rfl)

/-! ## What one task does, by the watch's state (R66, R68, R73, R74, R76) -/

section
variable {w : Fin 16} {d : WatchDef} {k : Work} (present : k.state.watches[w].definition = some d)
include present

theorem act_armed_fails {e : Evaluation} (armed : k.state.watches[w].state = .armed) (fails : ∀ onset, e ≠ .holds onset) :
    act w e k = (k, []) := by
  rw [act, present, armed]
  cases e with
  | holds onset => exact absurd rfl (fails onset)
  | fails | departure => rfl

theorem act_armed_qualifies {onset : TimeValue} (armed : k.state.watches[w].state = .armed)
    (ready : k.state.prerequisiteTripped d = true) (qualify : d.qualify ≠ 0) :
    act w (.holds (some onset)) k
      = ({ k with state := k.state.setWatchState w (.qualifying onset ⟨d.qualify, false⟩) }, []) := by
  rw [act, present, armed]
  exact (if_pos ready).trans (if_neg qualify)

theorem act_armed_trips {onset : TimeValue} (armed : k.state.watches[w].state = .armed)
    (ready : k.state.prerequisiteTripped d = true) (qualify : d.qualify = 0) :
    act w (.holds (some onset)) k = trip w onset k := by
  rw [act, present, armed]
  exact (if_pos ready).trans (if_pos qualify)

theorem act_qualifying_fails {onset : TimeValue} {timer : Countdown} {e : Evaluation}
    (qualifying : k.state.watches[w].state = .qualifying onset timer) (fails : ∀ onset, e ≠ .holds onset) :
    act w e k = ({ k with state := k.state.setWatchState w .armed }, []) := by
  rw [act, present, qualifying]
  cases e with
  | holds onset => exact absurd rfl (fails onset)
  | fails | departure => rfl

theorem act_qualifying_holds {onset : TimeValue} {timer : Countdown} {again : Option TimeValue}
    (qualifying : k.state.watches[w].state = .qualifying onset timer) : act w (.holds again) k = (k, []) := by
  rw [act, present, qualifying]

theorem act_tripped_fails {onset : TimeValue} {stamps : List Stamp} (tripped : k.state.watches[w].state = .tripped onset) :
    act w (.fails stamps) k = restore w onset d stamps k := by
  rw [act, present, tripped]

theorem act_tripped_holds {onset : TimeValue} {again : Option TimeValue}
    (tripped : k.state.watches[w].state = .tripped onset) : act w (.holds again) k = (k, []) := by
  rw [act, present, tripped]

omit present in
theorem act_held {onset : TimeValue} (held : k.state.watches[w].state = .held onset) (e : Evaluation) :
    act w e k = (k, []) := by
  rw [act, held]
  cases k.state.watches[w].definition <;> rfl

end

/-- An act that leaves nothing more to do is the whole run. -/
theorem run_act {w : Fin 16} {e : Evaluation} {k k' : Work} (acts : act w e k = (k', [])) : k.run [.act w e] = k' := by
  have done : runTask (.act w e) k = (k', []) := acts
  rw [run_single (congrArg Prod.snd done), done]

/-- An act that trips a watch on which no other depends. -/
theorem run_act_trips {w : Fin 16} {d : WatchDef} {e : Evaluation} {onset : TimeValue} {k : Work}
    (present : k.state.watches[w].definition = some d) (alone : NoDependents k.state w) (acts : act w e k = trip w onset k) :
    k.run [.act w e]
      = { state := tripState w d onset k.state, sent := k.sent ++ [[tripRecord w d onset k.state.outputs k.state]] } := by
  have done : runTask (.act w e) k = _ := acts.trans (trip_eq onset present)
  rw [Work.run]
  show runTasks (999998 + 1 + 1) _ _ = _
  rw [runTasks_single, done]
  exact runTasks_tripped_alone (tripState_dependents alone) 999998

/-! ## The evaluation at the taking (R80, R82) -/

theorem evaluation_enabled {s : State} {w : Fin 16} {d : WatchDef} (present : s.watches[w].definition = some d)
    (enabled : s.watches[w].state ≠ .disabled) (evaluate : WatchDef → Evaluation) :
    s.evaluation evaluate w = some (.act w (evaluate d)) := by
  rw [State.evaluation, present]
  exact if_neg enabled

theorem evaluation_disabled {s : State} {w : Fin 16} (disabled : s.watches[w].state = .disabled)
    (evaluate : WatchDef → Evaluation) : s.evaluation evaluate w = none := by
  unfold State.evaluation
  split
  · rfl
  · exact if_pos disabled

section
variable {s : State} {w : Fin 16} {d : WatchDef} {before : List Task} {b : State}
  (first : ({ state := s, sent := [] } : Work).run before = { state := b, sent := [] })
  (present : s.watches[w].definition = some d) (armed : s.watches[w].state = .armed)
include first present armed

/-- The run at a taking: the tasks that come first, then the watch's own evaluation. -/
theorem evaluateAtTaking_eq :
    evaluateAtTaking w before s
      = (({ state := b, sent := [] } : Work).run [.act w (s.evaluateTaking d)]).finish := by
  rw [evaluateAtTaking, first, evaluation_enabled present (by rw [armed]; exact nofun)]
  rfl

variable (kept : b.watches[w] = s.watches[w])
include kept

theorem evaluateAtTaking_fails (fails : s.condition d = false) : evaluateAtTaking w before s = b := by
  rw [evaluateAtTaking_eq first present armed, State.evaluateTaking, fails, if_neg Bool.false_ne_true,
    run_act (act_armed_fails (d := d) (by rw [kept, present]) (by rw [kept, armed]) fun _ => Evaluation.noConfusion)]
  rfl

variable (holds : s.condition d = true) (ready : b.prerequisiteTripped d = true)
include holds ready

theorem evaluateAtTaking_qualifies (qualify : d.qualify ≠ 0) :
    evaluateAtTaking w before s = b.setWatchState w (.qualifying s.time.time ⟨d.qualify, false⟩) := by
  rw [evaluateAtTaking_eq first present armed, State.evaluateTaking, if_pos holds,
    run_act (act_armed_qualifies (by rw [kept, present]) (by rw [kept, armed]) ready qualify)]
  rfl

theorem evaluateAtTaking_trips (qualify : d.qualify = 0) (alone : NoDependents b w) :
    evaluateAtTaking w before s = afterTrip w d s.time.time b := by
  have definition : b.watches[w].definition = some d := by rw [kept, present]
  rw [evaluateAtTaking_eq first present armed, State.evaluateTaking, if_pos holds,
    run_act_trips definition alone (act_armed_trips definition (by rw [kept, armed]) ready qualify)]
  exact finish_tripState w d s.time.time b

end

/-! ## ENABLE_WATCH (R80) -/

theorem afterTrip_state (w : Fin 16) (d : WatchDef) (onset : TimeValue) (s : State) :
    (afterTrip w d onset s).watches[w].state = .tripped onset := by
  show (tripState w d onset s).watches[w].state = _
  rw [getElem_tripState, if_pos rfl]
  rfl

/-- A trip does not ask for the state the watch was in. -/
theorem afterTrip_setWatchState (w : Fin 16) (d : WatchDef) (onset : TimeValue) (s : State) (x : WatchState) :
    afterTrip w d onset (s.setWatchState w x) = afterTrip w d onset s := by
  simp [afterTrip, trippedWatch, tripRecord, State.setWatchState, State.setWatch]

section
variable {s : State} {w : Fin 16} {d : WatchDef}

theorem enabledAs_setWatchState (x y : WatchState) : (enabledAs s w x).setWatchState w y = enabledAs s w y := by
  simp [enabledAs, State.setWatchState, State.setWatch]

theorem getElem_enabledAs (x : WatchState) (v : Fin 16) :
    (enabledAs s w x).watches[v] = if w = v then { s.watches[w] with state := x, tripCount := 0 } else s.watches[v] :=
  getElem_setWatch s w v _

theorem enabledAs_condition (disabled : s.watches[w].state = .disabled) : (enabledAs s w .armed).condition d = s.condition d :=
  condition_congr rfl fun p _ => by
    rw [getElem_enabledAs]
    split
    case isTrue same => rw [← same, disabled]; rfl
    case isFalse => rfl

theorem takeEnableWatch_inUse (present : s.watches[w].definition ≠ none) (enabled : s.watches[w].state ≠ .disabled) :
    takeEnableWatch w s = .refuse .inUse s := by
  rw [takeEnableWatch, if_neg present]
  exact if_pos enabled

theorem noDependents_congr {t : State} (same : SameDefinitions s t) : NoDependents t w ↔ NoDependents s w := by
  simp only [NoDependents, same _]

section
variable (present : s.watches[w].definition = some d) (disabled : s.watches[w].state = .disabled)
include present disabled

theorem takeEnableWatch_evaluated {t : State} (evaluated : evaluateAtTaking w [] (enabledAs s w .armed) = t) :
    takeEnableWatch w s = .ok [t.watches[w].state.code] t := by
  rw [takeEnableWatch, if_neg (by rw [present]; exact Option.some_ne_none d), if_neg (not_not.mpr disabled), ← evaluated]
  rfl

omit disabled in
theorem enabledAs_armed :
    (enabledAs s w .armed).watches[w].definition = some d ∧ (enabledAs s w .armed).watches[w].state = .armed := by
  rw [getElem_enabledAs, if_pos rfl]
  exact ⟨present, rfl⟩

theorem takeEnableWatch_fails (fails : ¬ Holds s d) : takeEnableWatch w s = .ok [1] (enabledAs s w .armed) := by
  obtain ⟨definition, armed⟩ := enabledAs_armed present
  have condition : (enabledAs s w .armed).condition d = false := by
    rw [enabledAs_condition disabled, Bool.eq_false_iff, Ne, condition_iff]
    exact fails
  rw [takeEnableWatch_evaluated present disabled (evaluateAtTaking_fails (run_nil _) definition armed rfl condition), armed]
  rfl

variable (holds : Holds s d)
include holds

theorem takeEnableWatch_qualifies (qualify : d.qualify ≠ 0) :
    takeEnableWatch w s = .ok [2] (enabledAs s w (.qualifying s.time.time ⟨d.qualify, false⟩)) := by
  obtain ⟨definition, armed⟩ := enabledAs_armed present
  have condition : (enabledAs s w .armed).condition d = true := (enabledAs_condition disabled).trans (condition_iff.mpr holds)
  have evaluated := evaluateAtTaking_qualifies (run_nil _) definition armed rfl condition
    (Bool.and_elim_right condition) qualify
  rw [enabledAs_setWatchState] at evaluated
  rw [takeEnableWatch_evaluated present disabled evaluated, getElem_enabledAs, if_pos rfl]
  rfl

theorem takeEnableWatch_trips (qualify : d.qualify = 0) (alone : NoDependents s w) :
    takeEnableWatch w s = .ok [3] (afterTrip w d s.time.time (enabledAs s w .disabled)) := by
  obtain ⟨definition, armed⟩ := enabledAs_armed present
  have condition : (enabledAs s w .armed).condition d = true := (enabledAs_condition disabled).trans (condition_iff.mpr holds)
  have definitions : SameDefinitions s (enabledAs s w .armed) :=
    setWatch_definitions (s := s) (x := { s.watches[w] with state := .armed, tripCount := 0 }) rfl
  have evaluated := evaluateAtTaking_trips (run_nil _) definition armed rfl condition
    (Bool.and_elim_right condition) qualify ((noDependents_congr definitions).mpr alone)
  rw [← afterTrip_setWatchState _ _ _ _ .disabled, enabledAs_setWatchState] at evaluated
  rw [takeEnableWatch_evaluated present disabled evaluated, afterTrip_state]
  rfl

end

end

/-- Settles O21: the two refusals, and the evaluation of the watch that has been armed. -/
theorem enableWatchEvaluates : Obligations.EnableWatchEvaluates := by
  intro f rest w s waiting payload
  have served : serve .enableWatch f.payload s.popRequest = .ok (takeEnableWatch w s.popRequest) := by
    simp only [serve, payload, parseWatchIndex_ofNat, Except.map]
  have front := popRequest_of_front waiting.dispatchable.front
  refine ⟨exec_enableWatch_notDefined waiting payload, fun present enabled => ?_, fun d present disabled =>
    ⟨fun fails => ?_, fun holds qualify => ?_, fun holds qualify alone => ?_⟩⟩
  · rw [takeEnableWatch_inUse (s := s.popRequest) present enabled] at served
    exact exec_command_served (k := .enableWatch) waiting served (by rw [front]; rfl)
  · rw [takeEnableWatch_fails (s := s.popRequest) present disabled fails] at served
    exact exec_command_served (k := .enableWatch) waiting served (by rw [front]; rfl)
  · rw [takeEnableWatch_qualifies (s := s.popRequest) present disabled holds qualify] at served
    exact exec_command_served (k := .enableWatch) waiting served (by rw [front]; rfl)
  · rw [takeEnableWatch_trips (s := s.popRequest) present disabled holds qualify alone] at served
    exact exec_command_served (k := .enableWatch) waiting served (by rw [front]; rfl)

end Sys2Proof.Machine
end

section
/-! PROOF. Events of several tasks at the watch engine: the departure of a prerequisite (R69, R81, R82) and its trip (R55,
R70). -/

namespace Sys2Proof.Machine

open Sys2Proof.Claims

/-! ## The run of tasks, one after another -/

/-- While tasks are left, one of them is done next, after a free choice (R53). -/
theorem runTasks_next {ts : List Task} (left : ts ≠ []) (fuel : Nat) (k : Work) :
    ∃ (i : Nat) (t : Task) (n : Nat), ts[i]? = some t
      ∧ runTasks (fuel + 1) ts k
        = runTasks fuel (ts.eraseIdx i ++ (runTask t { k with state := { k.state with choices := n } }).2)
            (runTask t { k with state := { k.state with choices := n } }).1 := by
  have some : 0 < (k.state.ready ts).length := List.length_pos_of_ne_nil (ready_ne_nil _ left)
  have inReady : (k.state.choose (k.state.ready ts).length).1 < (k.state.ready ts).length := k.state.choose_lt some
  have inTasks : (k.state.ready ts)[(k.state.choose (k.state.ready ts).length).1] < ts.length :=
    List.mem_range.mp (List.mem_filter.mp (List.getElem_mem inReady)).1
  obtain ⟨n, chosen⟩ := k.state.choose_eq (k.state.ready ts).length
  refine ⟨_, _, n, List.getElem?_eq_getElem inTasks, ?_⟩
  rw [runTasks]
  simp only [List.getElem?_eq_getElem inReady, List.getElem?_eq_getElem inTasks, chosen]

theorem sum_eraseIdx {α : Type} (cost : α → Nat) {as : List α} {i : Nat} {a : α} (at_i : as[i]? = some a) :
    (as.map cost).sum = cost a + ((as.eraseIdx i).map cost).sum := by
  obtain ⟨inside, rfl⟩ := List.getElem?_eq_some_iff.mp at_i
  rw [← (List.getElem_cons_eraseIdx_perm inside).map cost |>.sum_eq, List.map_cons, List.sum_cons]

/-- What every task keeps holds when no task is left, where each task costs more than those that follow from it. -/
theorem runTasks_keepsAll {P : Work → List Task → Prop} {cost : Task → Nat}
    (choice : ∀ k ts n, P k ts → P { k with state := { k.state with choices := n } } ts)
    (task : ∀ k ts i t, P k ts → ts[i]? = some t →
      P (runTask t k).1 (ts.eraseIdx i ++ (runTask t k).2) ∧ ((runTask t k).2.map cost).sum < cost t) :
    ∀ fuel ts k, (ts.map cost).sum ≤ fuel → P k ts → P (runTasks fuel ts k) [] := by
  intro fuel
  induction fuel with
  | zero =>
    intro ts k bound h
    cases ts with
    | nil => exact h
    | cons t ts =>
      have := (task k (t :: ts) 0 t h rfl).2
      simp only [List.map_cons, List.sum_cons] at bound
      omega
  | succ fuel ih =>
    intro ts k bound h
    by_cases left : ts = []
    · rw [left, runTasks_nil]
      exact left ▸ h
    · obtain ⟨i, t, n, at_i, next⟩ := runTasks_next left fuel k
      obtain ⟨kept, less⟩ := task _ ts i t (choice k ts n h) at_i
      rw [next]
      refine ih _ _ ?_ kept
      have split := sum_eraseIdx cost at_i
      rw [List.map_append, List.sum_append]
      omega

/-! ## A departure (R69) -/

theorem act_departure_idle {w : Fin 16} {k : Work}
    (idle : ∀ onset timer, k.state.watches[w].state ≠ .qualifying onset timer) : act w .departure k = (k, []) := by
  unfold act
  split
  · rfl
  · cases state : k.state.watches[w].state with
    | qualifying onset timer => exact absurd state (idle onset timer)
    | _ => rfl

/-- The departure of watch `w` as far as it has come: of the dependents, those that were QUALIFYING in `k` are ARMED, or have
their departure yet to act on. -/
structure Departing (w : Fin 16) (k k' : Work) (ts : List Task) : Prop where
  sent    : k'.sent = k.sent
  outputs : k'.state.outputs = k.state.outputs
  acts    : ∀ t ∈ ts, ∃ v ∈ k.state.dependents w, t = .act v .departure
  watches : ∀ v : Fin 16,
    k'.state.watches[v] = k.state.watches[v] ∧ (QualifyingUnder k.state w v → .act v .departure ∈ ts)
    ∨ QualifyingUnder k.state w v ∧ k'.state.watches[v] = { k.state.watches[v] with state := .armed }

/-- A task that is not the one erased stays. -/
theorem mem_rest {ts more : List Task} {i : Nat} {t x : Task} (at_i : ts[i]? = some t) (mem : x ∈ ts) (other : x ≠ t) :
    x ∈ ts.eraseIdx i ++ more :=
  List.mem_append_left _ ((mem_eraseIdx_of_ne at_i mem).resolve_left other)

theorem Departing.task {w : Fin 16} {k k' : Work} {ts : List Task} {i : Nat} {t : Task} (h : Departing w k k' ts)
    (at_i : ts[i]? = some t) :
    Departing w k (runTask t k').1 (ts.eraseIdx i ++ (runTask t k').2) ∧ (runTask t k').2 = [] := by
  obtain ⟨v, dependent, rfl⟩ := h.acts t (List.mem_of_getElem? at_i)
  obtain ⟨d, present, named⟩ := mem_dependents.mp dependent
  have definition : k'.state.watches[v].definition = some d := by
    obtain ⟨same, -⟩ | ⟨-, same⟩ := h.watches v <;> rw [same, present]
  have rest : ∀ t ∈ ts.eraseIdx i ++ [], ∃ v ∈ k.state.dependents w, t = .act v .departure := by
    rw [List.append_nil]
    exact fun t mem => h.acts t (List.mem_of_mem_eraseIdx mem)
  by_cases qualifying : ∃ onset timer, k'.state.watches[v].state = .qualifying onset timer
  · obtain ⟨onset, timer, state⟩ := qualifying
    have acts : runTask (.act v .departure) k' = ({ k' with state := k'.state.setWatchState v .armed }, []) :=
      act_qualifying_fails definition state fun _ => Evaluation.noConfusion
    have before : k'.state.watches[v] = k.state.watches[v] := by
      obtain ⟨same, -⟩ | ⟨-, armed⟩ := h.watches v
      · exact same
      · cases (congrArg Watch.state armed).symm.trans state
    rw [acts]
    refine ⟨⟨h.sent, h.outputs, rest, fun u => ?_⟩, rfl⟩
    show (k'.state.setWatch v _).watches[u] = _ ∧ _ ∨ _ ∧ (k'.state.setWatch v _).watches[u] = _
    rw [getElem_setWatch]
    by_cases same : v = u
    · subst same
      rw [if_pos rfl, before]
      exact .inr ⟨⟨⟨d, present, named⟩, onset, timer, before ▸ state⟩, rfl⟩
    · rw [if_neg same]
      refine (h.watches u).imp_left fun ⟨kept, owed⟩ => ⟨kept, fun under => mem_rest at_i (owed under) fun acts => ?_⟩
      exact same (Task.act.inj acts).1.symm
  · have acts : runTask (.act v .departure) k' = (k', []) :=
      act_departure_idle fun onset timer state => qualifying ⟨onset, timer, state⟩
    rw [acts]
    refine ⟨⟨h.sent, h.outputs, rest, fun u => ?_⟩, rfl⟩
    refine (h.watches u).imp_left fun ⟨kept, owed⟩ => ⟨kept, fun under => mem_rest at_i (owed under) fun acts => ?_⟩
    obtain ⟨rfl, -⟩ := Task.act.inj acts
    obtain ⟨-, onset, timer, state⟩ := under
    exact qualifying ⟨onset, timer, kept ▸ state⟩

theorem mem_dependentTasks {s : State} {w : Fin 16} {evaluate : WatchDef → Evaluation} {t : Task}
    (mem : t ∈ s.dependentTasks w evaluate) :
    ∃ (v : Fin 16) (d : WatchDef), v ∈ s.dependents w ∧ s.watches[v].definition = some d ∧ t = .act v (evaluate d) := by
  obtain ⟨v, dependent, evaluated⟩ := List.mem_filterMap.mp mem
  obtain ⟨d, present, -⟩ := mem_dependents.mp dependent
  refine ⟨v, d, dependent, present, ?_⟩
  rw [State.evaluation, present] at evaluated
  dsimp only at evaluated
  split at evaluated
  · cases evaluated
  · exact (Option.some.inj evaluated).symm

theorem length_dependentTasks (s : State) (w : Fin 16) (evaluate : WatchDef → Evaluation) :
    (s.dependentTasks w evaluate).length ≤ 16 :=
  (List.length_filterMap_le _ _).trans ((List.length_filter_le _ _).trans (by simp))

theorem act_mem_dependentTasks {s : State} {w v : Fin 16} {d : WatchDef} (present : s.watches[v].definition = some d)
    (named : d.prerequisite = some w) (enabled : s.watches[v].state ≠ .disabled) (evaluate : WatchDef → Evaluation) :
    .act v (evaluate d) ∈ s.dependentTasks w evaluate :=
  List.mem_filterMap.mpr ⟨v, mem_dependents.mpr ⟨d, present, named⟩, evaluation_enabled present enabled evaluate⟩

/-- A departure returns the QUALIFYING dependents to ARMED, and does nothing else. -/
theorem run_departed (w : Fin 16) (k : Work) : Departing w k (k.run [.departed w]) [] := by
  have start : Departing w k k (k.state.dependentTasks w fun _ => .departure) := by
    refine ⟨rfl, rfl, fun t mem => ?_, fun v => .inl ⟨rfl, fun ⟨⟨d, present, named⟩, onset, timer, state⟩ => ?_⟩⟩
    · obtain ⟨v, -, dependent, -, acts⟩ := mem_dependentTasks mem
      exact ⟨v, dependent, acts⟩
    · exact act_mem_dependentTasks present named (by rw [state]; exact nofun) _
  rw [Work.run]
  show Departing w k (runTasks (999999 + 1) _ _) []
  rw [runTasks_single]
  refine runTasks_keepsAll (cost := fun _ => 1)
    (fun k' ts n h => ⟨h.sent, h.outputs, h.acts, h.watches⟩) (fun k' ts i t h at_i => ?_) _ _ _ ?_ start
  · obtain ⟨kept, none⟩ := h.task at_i
    refine ⟨kept, ?_⟩
    rw [none]
    exact Nat.one_pos
  · have few := length_dependentTasks k.state w fun _ => .departure
    rw [List.map_const', List.sum_replicate, smul_eq_mul, mul_one]
    exact few.trans (by omega)

/-- What a departure does to the watches. -/
theorem Departing.watch {w : Fin 16} {k k' : Work} (h : Departing w k k' []) (v : Fin 16) :
    (QualifyingUnder k.state w v → k'.state.watches[v] = { k.state.watches[v] with state := .armed })
    ∧ (¬ QualifyingUnder k.state w v → k'.state.watches[v] = k.state.watches[v]) := by
  obtain ⟨same, none⟩ | ⟨under, armed⟩ := h.watches v
  · exact ⟨fun under => absurd (none under) (List.not_mem_nil), fun _ => same⟩
  · exact ⟨fun _ => armed, fun not => absurd under not⟩

theorem finish_unsent {k : Work} (none : k.sent = []) : k.finish = k.state := by
  rw [Work.finish, none, send_nil]

theorem Work.eq_of_unsent {k : Work} (none : k.sent = []) : k = { state := k.state, sent := [] } := by rw [← none]

/-! ## DISABLE_WATCH (R81) -/

/-- A request that changes watches, outputs and free choices alone. -/
theorem exec_command_field {k : RequestKind} {f : Frame} {rest : List Frame} {s : State} (h : Waiting k f rest s)
    {taken : Taken} (served : serve k f.payload s.popRequest = .ok taken) (outside : SameOutside s.popRequest taken.state) :
    exec k.command s = .next (replied f rest taken.status.code taken.fields taken.effect
      { s with watches := taken.state.watches, outputs := taken.state.outputs, choices := taken.state.choices }) :=
  exec_command_served h served (by
    rw [outside, popRequest_of_front h.dispatchable.front])

theorem qualifyingUnder_of_watches {s t : State} {w v : Fin 16} (same : t.watches[v] = s.watches[v]) :
    QualifyingUnder t w v ↔ QualifyingUnder s w v := by
  rw [QualifyingUnder, QualifyingUnder, same]

section
variable {w : Fin 16} {s : State}

theorem takeDisableWatch_released (o : Fin 8) :
    (ownedBy w s.outputs[o].owner →
        (releaseAll w (s.setWatchState w .disabled)).outputs[o] = { s.outputs[o] with owner := .host none })
    ∧ (¬ ownedBy w s.outputs[o].owner → (releaseAll w (s.setWatchState w .disabled)).outputs[o] = s.outputs[o]) := by
  refine ⟨fun owned => releaseWhere_output_pos (s := s.setWatchState w .disabled) ?_,
    fun other => releaseWhere_output_neg (s := s.setWatchState w .disabled) fun owned => ?_⟩
  · exact decide_eq_true (ownedBy_iff.mp owned)
  · exact other (ownedBy_iff.mpr (of_decide_eq_true owned))

theorem getElem_setWatchState (s : State) (w v : Fin 16) (x : WatchState) :
    (s.setWatchState w x).watches[v] = if w = v then { s.watches[w] with state := x } else s.watches[v] :=
  getElem_setWatch s w v _

theorem takeDisableWatch_outside : SameOutside s (takeDisableWatch w s).state := by
  have disabled : SameOutside s (releaseAll w (s.setWatchState w .disabled)) :=
    (setWatch_sameOutside s w _).trans (releaseWhere_sameOutside _ _)
  rw [takeDisableWatch_state]
  split
  · rw [finish_unsent (run_departed w _).sent]
    exact disabled.trans (run_sameOutside [.departed w] { state := releaseAll w (s.setWatchState w .disabled), sent := [] })
  · exact disabled

theorem takeDisableWatch_outputs :
    (takeDisableWatch w s).state.outputs = (releaseAll w (s.setWatchState w .disabled)).outputs := by
  rw [takeDisableWatch_state]
  split
  · rw [finish_unsent (run_departed w _).sent, (run_departed w _).outputs]
  · rfl

theorem takeDisableWatch_watch : (takeDisableWatch w s).state.watches[w] = { s.watches[w] with state := .disabled } := by
  have disabled : (releaseAll w (s.setWatchState w .disabled)).watches[w] = { s.watches[w] with state := .disabled } := by
    show (s.setWatchState w .disabled).watches[w] = _
    rw [getElem_setWatchState, if_pos rfl]
  rw [takeDisableWatch_state]
  split
  · rw [finish_unsent (run_departed w _).sent, ((run_departed w _).watch w).2, disabled]
    rintro ⟨-, onset, timer, state⟩
    rw [disabled] at state
    cases state
  · exact disabled

theorem takeDisableWatch_others {v : Fin 16} (other : v ≠ w) :
    (s.watches[w].state.isTripped = true → QualifyingUnder s w v →
      (takeDisableWatch w s).state.watches[v] = { s.watches[v] with state := .armed })
    ∧ (s.watches[w].state.isTripped = false ∨ ¬ QualifyingUnder s w v →
      (takeDisableWatch w s).state.watches[v] = s.watches[v]) := by
  have kept : (releaseAll w (s.setWatchState w .disabled)).watches[v] = s.watches[v] := by
    show (s.setWatchState w .disabled).watches[v] = _
    rw [getElem_setWatchState, if_neg other.symm]
  rw [takeDisableWatch_state]
  split
  case isTrue tripped =>
    have departs := (run_departed w { state := releaseAll w (s.setWatchState w .disabled), sent := [] }).watch v
    rw [qualifyingUnder_of_watches kept, kept] at departs
    rw [finish_unsent (run_departed w _).sent]
    exact ⟨fun _ => departs.1, fun either => departs.2 (either.resolve_left (by rw [tripped]; exact Bool.noConfusion))⟩
  case isFalse notTripped => exact ⟨fun tripped => absurd tripped notTripped, fun _ => kept⟩

end

/-- Settles O22: the watch DISABLED, its outputs released, and its departure at the dependents. -/
theorem disableWatchReleases : Obligations.DisableWatchReleases := by
  intro f rest w s waiting payload
  have served : serve .disableWatch f.payload s.popRequest = .ok (takeDisableWatch w s.popRequest) := by
    simp only [serve, payload, parseWatchIndex_ofNat, Except.map]
  have executed := exec_command_field (k := .disableWatch) waiting served takeDisableWatch_outside
  have watch := takeDisableWatch_watch (w := w) (s := s.popRequest)
  have others := fun v => takeDisableWatch_others (w := w) (s := s.popRequest) (v := v)
  have released := fun o => takeDisableWatch_released (w := w) (s := s.popRequest) o
  rw [← takeDisableWatch_outputs] at released
  have reply : (takeDisableWatch w s.popRequest).fields = [stateOctet s.watches[w].state] :=
    congrArg (· :: []) (stateOctet_eq_code _).symm
  rw [reply] at executed
  generalize (takeDisableWatch w s.popRequest).state = t at executed watch others released
  exact ⟨_, executed, watch, others, released, rfl⟩

/-! ## REARM_WATCH (R82) -/

theorem drivenBy_iff {w : Fin 16} {x : Owner} :
    (match x with | .drive v _ => decide (v = w) | _ => false) = true ↔ drivenBy w x := by
  cases x <;> simp [drivenBy]

theorem releaseDrive_output (w : Fin 16) (s : State) (o : Fin 8) :
    (drivenBy w s.outputs[o].owner → (releaseDrive w s).outputs[o] = { s.outputs[o] with owner := .host none })
    ∧ (¬ drivenBy w s.outputs[o].owner → (releaseDrive w s).outputs[o] = s.outputs[o]) :=
  ⟨fun driven => releaseWhere_output_pos (drivenBy_iff.mpr driven),
    fun other => releaseWhere_output_neg fun driven => other (drivenBy_iff.mp driven)⟩

/-- The outputs of a release, whatever way they are given. -/
theorem releaseDrive_eq {w : Fin 16} {s : State} {outputs : Vector Output 8}
    (each : ∀ o : Fin 8, (drivenBy w s.outputs[o].owner → outputs[o] = { s.outputs[o] with owner := .host none })
      ∧ (¬ drivenBy w s.outputs[o].owner → outputs[o] = s.outputs[o])) :
    releaseDrive w s = { s with outputs := outputs } := by
  have same : (releaseDrive w s).outputs = outputs := by
    refine Vector.ext fun o inside => ?_
    have released := releaseDrive_output w s ⟨o, inside⟩
    have given := each ⟨o, inside⟩
    by_cases driven : drivenBy w s.outputs[(⟨o, inside⟩ : Fin 8)].owner
    · exact (released.1 driven).trans (given.1 driven).symm
    · exact (released.2 driven).trans (given.2 driven).symm
  rw [← same]
  rfl

/-- The part at the taking of a REARM_WATCH, before anything is evaluated (R82). -/
def rearmed (w : Fin 16) (s : State) : State := releaseDrive w (s.setWatchState w .armed)

section
variable {w : Fin 16} {s : State}

theorem getElem_rearmed (v : Fin 16) :
    (rearmed w s).watches[v] = if w = v then { s.watches[w] with state := .armed } else s.watches[v] :=
  getElem_setWatchState s w v .armed

theorem rearmed_outside : SameOutside s (rearmed w s) := by
  rw [rearmed, releaseDrive]
  exact (setWatch_sameOutside s w { s.watches[w] with state := .armed }).trans (releaseWhere_sameOutside _ _)

theorem rearmed_condition {d : WatchDef} (foreign : d.prerequisite ≠ some w) : (rearmed w s).condition d = s.condition d :=
  condition_congr rfl fun p named => by
    rw [getElem_rearmed, if_neg]
    rintro rfl
    exact foreign named

theorem takeRearmWatch_tripped {onset : TimeValue} (tripped : s.watches[w].state = .tripped onset) :
    takeRearmWatch w s = .refuse .stillActive s := by
  rw [takeRearmWatch, tripped]

theorem takeRearmWatch_notTripped (notTripped : s.watches[w].state.isTripped = false) :
    takeRearmWatch w s = .refuse .notTripped s := by
  unfold takeRearmWatch
  cases state : s.watches[w].state with
  | tripped | held =>
    rw [state] at notTripped
    cases notTripped
  | _ => rfl

theorem takeRearmWatch_held {onset : TimeValue} {t : State} (held : s.watches[w].state = .held onset)
    (evaluated : evaluateAtTaking w [.departed w] (rearmed w s) = t) :
    takeRearmWatch w s = .ok [t.watches[w].state.code] t := by
  rw [takeRearmWatch, held, ← evaluated]
  rfl

section
variable {onset : TimeValue} {d : WatchDef} (held : s.watches[w].state = .held onset)
  (present : s.watches[w].definition = some d)
include present

omit present in
theorem rearmed_armed : (rearmed w s).watches[w].state = .armed := by
  rw [getElem_rearmed, if_pos rfl]

theorem rearmed_definition : (rearmed w s).watches[w].definition = some d := by
  rw [getElem_rearmed, if_pos rfl]
  exact present

section
variable (alone : NoDependents s w)
include alone

omit present in
theorem rearmed_departed_alone :
    ({ state := rearmed w s, sent := [] } : Work).run [.departed w] = { state := rearmed w s, sent := [] } := by
  have definitions : SameDefinitions s (rearmed w s) :=
    setWatch_definitions (s := s) (x := { s.watches[w] with state := .armed }) rfl
  have none : (rearmed w s).dependents w = [] := by rw [definitions.dependents, dependents_eq_nil alone]
  rw [Work.run]
  show runTasks (999999 + 1) _ _ = _
  rw [runTasks_single]
  show runTasks 999999 ((rearmed w s).dependentTasks w _) _ = _
  rw [dependentTasks_nil none, runTasks_nil]
  rfl

include held

theorem takeRearmWatch_fails (fails : ¬ Holds s d) : takeRearmWatch w s = .ok [1] (rearmed w s) := by
  have condition : (rearmed w s).condition d = false := by
    rw [rearmed_condition (alone w d present), Bool.eq_false_iff, Ne, condition_iff]
    exact fails
  rw [takeRearmWatch_held held (evaluateAtTaking_fails (rearmed_departed_alone alone) (rearmed_definition present)
    rearmed_armed rfl condition), rearmed_armed]
  rfl

variable (holds : Holds s d)
include holds

theorem takeRearmWatch_qualifies (qualify : d.qualify ≠ 0) :
    takeRearmWatch w s = .ok [2] ((rearmed w s).setWatchState w (.qualifying s.time.time ⟨d.qualify, false⟩)) := by
  have condition : (rearmed w s).condition d = true :=
    (rearmed_condition (alone w d present)).trans (condition_iff.mpr holds)
  rw [takeRearmWatch_held held (evaluateAtTaking_qualifies (rearmed_departed_alone alone) (rearmed_definition present)
    rearmed_armed rfl condition (Bool.and_elim_right condition) qualify), getElem_setWatchState, if_pos rfl]
  rfl

theorem takeRearmWatch_trips (qualify : d.qualify = 0) :
    takeRearmWatch w s = .ok [3] (afterTrip w d s.time.time (rearmed w s)) := by
  have condition : (rearmed w s).condition d = true :=
    (rearmed_condition (alone w d present)).trans (condition_iff.mpr holds)
  have definitions : SameDefinitions s (rearmed w s) :=
    setWatch_definitions (s := s) (x := { s.watches[w] with state := .armed }) rfl
  rw [takeRearmWatch_held held (evaluateAtTaking_trips (rearmed_departed_alone alone) (rearmed_definition present)
    rearmed_armed rfl condition (Bool.and_elim_right condition) qualify ((noDependents_congr definitions).mpr alone)),
    afterTrip_state]
  rfl

end

end

end

/-- Where the condition is false, the departure alone reaches the dependents (R69). -/
theorem takeRearmWatch_departs {w : Fin 16} {s : State} {onset : TimeValue} (held : s.watches[w].state = .held onset)
    {d : WatchDef} (present : s.watches[w].definition = some d) (fails : ¬ Holds s d) (foreign : d.prerequisite ≠ some w) :
    takeRearmWatch w s
      = .ok [1] (({ state := rearmed w s, sent := [] } : Work).run [.departed w]).state := by
  have departs := run_departed w { state := rearmed w s, sent := [] }
  have kept := (departs.watch w).2 fun ⟨_, _, _, qualifying⟩ => by
    rw [rearmed_armed] at qualifying
    cases qualifying
  have condition : (rearmed w s).condition d = false := by
    rw [rearmed_condition foreign, Bool.eq_false_iff, Ne, condition_iff]
    exact fails
  have unsent : ({ state := rearmed w s, sent := [] } : Work).run [.departed w]
      = { state := (({ state := rearmed w s, sent := [] } : Work).run [.departed w]).state, sent := [] } :=
    Work.eq_of_unsent departs.sent
  rw [takeRearmWatch_held held (evaluateAtTaking_fails unsent (rearmed_definition present) rearmed_armed kept condition), kept,
    rearmed_armed]
  rfl

/-- What the departure leaves: each dependent that was QUALIFYING is ARMED, and no other watch changes (R69). -/
theorem takeRearmWatch_leaves {w : Fin 16} {s : State}
    (taken : takeRearmWatch w s = .ok [1] (({ state := rearmed w s, sent := [] } : Work).run [.departed w]).state) :
    ∃ t, takeRearmWatch w s = .ok [1] t ∧ SameOutside s t
      ∧ t.watches[w] = { s.watches[w] with state := .armed }
      ∧ (∀ v : Fin 16, v ≠ w →
        (QualifyingUnder s w v → t.watches[v] = { s.watches[v] with state := .armed })
        ∧ (¬ QualifyingUnder s w v → t.watches[v] = s.watches[v]))
      ∧ t.outputs = (releaseDrive w (s.setWatchState w .armed)).outputs := by
  have departs := run_departed w { state := rearmed w s, sent := [] }
  have outside := (rearmed_outside (w := w) (s := s)).trans (run_sameOutside [.departed w] { state := rearmed w s, sent := [] })
  generalize ({ state := rearmed w s, sent := [] } : Work).run [.departed w] = k' at departs outside taken
  refine ⟨k'.state, taken, outside, ?_, fun v other => ?_, departs.outputs⟩
  · rw [(departs.watch w).2, getElem_rearmed, if_pos rfl]
    rintro ⟨-, _, _, qualifying⟩
    cases rearmed_armed.symm.trans qualifying
  · have kept : (rearmed w s).watches[v] = s.watches[v] := (getElem_rearmed v).trans (if_neg other.symm)
    have after := departs.watch v
    rw [qualifyingUnder_of_watches kept, kept] at after
    exact after

/-- A REARM_WATCH that leads to the departure alone. -/
theorem exec_rearmWatch_leaves {f : Frame} {rest : List Frame} {w : Fin 16} {s : State} (waiting : Waiting .rearmWatch f rest s)
    (payload : f.payload = [BitVec.ofNat 8 w.val])
    (taken : takeRearmWatch w s.popRequest
      = .ok [1] (({ state := rearmed w s.popRequest, sent := [] } : Work).run [.departed w]).state) :
    ∃ t, exec .rearmWatch s = .next (replied f rest 0x00 [1] none t)
      ∧ t.watches[w] = { s.watches[w] with state := .armed }
      ∧ (∀ v : Fin 16, v ≠ w →
        (QualifyingUnder s w v → t.watches[v] = { s.watches[v] with state := .armed })
        ∧ (¬ QualifyingUnder s w v → t.watches[v] = s.watches[v]))
      ∧ (∀ o : Fin 8, (drivenBy w s.outputs[o].owner → t.outputs[o] = { s.outputs[o] with owner := .host none })
        ∧ (¬ drivenBy w s.outputs[o].owner → t.outputs[o] = s.outputs[o]))
      ∧ t = { s with watches := t.watches, outputs := t.outputs, choices := t.choices } := by
  obtain ⟨t, taken, outside, watch, others, outputs⟩ := takeRearmWatch_leaves taken
  have served : serve .rearmWatch f.payload s.popRequest = .ok (.ok [1] t) := by
    simp only [serve, payload, parseWatchIndex_ofNat, Except.map, taken]
  refine ⟨_, exec_command_field (k := .rearmWatch) waiting served outside, watch, others, fun o => ?_, rfl⟩
  show (_ → t.outputs[o] = _) ∧ (_ → t.outputs[o] = _)
  rw [outputs]
  exact releaseDrive_output w (s.popRequest.setWatchState w .armed) o

/-- Settles O23: the refusals, the evaluation of the watch that has been rearmed, and its departure at the dependents. -/
theorem rearmWatchEvaluates : Obligations.RearmWatchEvaluates := by
  intro f rest w s waiting payload
  have served : serve .rearmWatch f.payload s.popRequest = .ok (takeRearmWatch w s.popRequest) := by
    simp only [serve, payload, parseWatchIndex_ofNat, Except.map]
  have front := popRequest_of_front waiting.dispatchable.front
  refine ⟨fun onset tripped => ?_, fun notTripped => ?_, fun onset d outputs held present alone each =>
    ⟨fun fails => ?_, fun holds qualify => ?_, fun holds qualify => ?_⟩, fun onset d held present fails foreign => ?_⟩
  · rw [takeRearmWatch_tripped (s := s.popRequest) tripped] at served
    exact exec_command_served (k := .rearmWatch) waiting served (by rw [front]; rfl)
  · rw [takeRearmWatch_notTripped (s := s.popRequest) notTripped] at served
    exact exec_command_served (k := .rearmWatch) waiting served (by rw [front]; rfl)
  · rw [takeRearmWatch_fails (s := s.popRequest) held present alone fails, rearmed,
      releaseDrive_eq (s := s.popRequest.setWatchState w .armed) each] at served
    exact exec_command_served (k := .rearmWatch) waiting served (by rw [front]; rfl)
  · rw [takeRearmWatch_qualifies (s := s.popRequest) held present alone holds qualify, rearmed,
      releaseDrive_eq (s := s.popRequest.setWatchState w .armed) each] at served
    refine exec_command_served (k := .rearmWatch) waiting served ?_
    rw [front]
    simp [Taken.ok, withState, State.setWatchState, State.setWatch]
  · rw [takeRearmWatch_trips (s := s.popRequest) held present alone holds qualify, rearmed,
      releaseDrive_eq (s := s.popRequest.setWatchState w .armed) each] at served
    refine exec_command_served (k := .rearmWatch) waiting served ?_
    rw [front]
    exact afterTrip_setWatchState w d s.time.time
      { s with dispatcher := { s.dispatcher with requests := rest }, outputs := outputs } .armed
  · exact exec_rearmWatch_leaves waiting payload
      (takeRearmWatch_departs (s := s.popRequest) held present fails foreign)

end Sys2Proof.Machine
end

section
/-! PROOF. A trip and the watches that depend on it (R55, R66, R70), whatever else the event does. -/

namespace Sys2Proof.Machine

open Sys2Proof.Claims

/-! ## A watch that acts once -/

/-- The watch a task is about. -/
def Task.watch : Task → Fin 16
  | .act w _ => w
  | .tripped w => w
  | .departed w => w

theorem act_more_watch {w : Fin 16} {e : Evaluation} {k : Work} {t : Task} (mem : t ∈ (act w e k).2) :
    t = .tripped w ∨ t = .departed w := by
  obtain none | trips | departs := act_more w e k
  · rw [none] at mem
    cases mem
  · exact .inl (List.mem_singleton.mp (trips ▸ mem))
  · exact .inr (List.mem_singleton.mp (departs ▸ mem))

/-- What follows from a task: nothing but the trip or departure of its watch, or the acts of the dependents of it. -/
theorem runTask_more {t x : Task} {k : Work} (mem : x ∈ (runTask t k).2) :
    (x = .tripped t.watch ∨ x = .departed t.watch) ∨ x.watch ∈ k.state.dependents t.watch := by
  cases t with
  | act w e => exact .inl (act_more_watch mem)
  | tripped w | departed w =>
    obtain ⟨v, d, dependent, -, rfl⟩ := mem_dependentTasks mem
    exact .inr dependent

theorem runTask_watch_of_ne {t : Task} {k : Work} {v : Fin 16} (other : t.watch ≠ v) :
    (runTask t k).1.state.watches[v] = k.state.watches[v] := by
  cases t with
  | act w e => exact act_watch_of_ne other
  | tripped | departed => rfl

theorem act_watches_of_other {t : Task} {k : Work} {v : Fin 16} (other : ∀ e, t ≠ .act v e) :
    (runTask t k).1.state.watches[v] = k.state.watches[v] := by
  cases t with
  | act w e =>
    refine act_watch_of_ne ?_
    rintro rfl
    exact other e rfl
  | tripped | departed => rfl

/-- The tasks of an event that are still to be done, in which watch `v` acts on the evaluation `E` alone: it is `before`, with
its act yet to come, or `after`. The tasks touch watches in `reach`, of which none is the prerequisite of `v`. -/
structure ActsOnce (s : State) (v : Fin 16) (E : Evaluation) (before after : Watch) (reach : Fin 16 → Prop) (u : State)
    (ts : List Task) : Prop where
  outside : SameOutside s u
  same    : SameDefinitions s u
  reached : ∀ t ∈ ts, reach t.watch
  acts    : ∀ e, .act v e ∈ ts → e = E
  above   : ∀ p, s.prerequisite v = some p → u.watches[p] = s.watches[p]
  watch   : u.watches[v] = before ∧ .act v E ∈ ts ∨ u.watches[v] = after

section
variable {s : State} {v : Fin 16} {E : Evaluation} {before after : Watch} {reach : Fin 16 → Prop}
  (closed : ∀ x y, reach x → s.prerequisite y = some x → reach y)
  (avoids : ∀ p, s.prerequisite v = some p → ¬ reach p)
  (acts : ∀ k : Work, SameOutside s k.state → SameDefinitions s k.state →
    (∀ p, s.prerequisite v = some p → k.state.watches[p] = s.watches[p]) →
    k.state.watches[v] = before ∨ k.state.watches[v] = after → (act v E k).1.state.watches[v] = after)
include closed avoids acts

theorem ActsOnce.task {k : Work} {ts : List Task} {i : Nat} {t : Task} (h : ActsOnce s v E before after reach k.state ts)
    (at_i : ts[i]? = some t) :
    ActsOnce s v E before after reach (runTask t k).1.state (ts.eraseIdx i ++ (runTask t k).2) := by
  have reached := h.reached t (List.mem_of_getElem? at_i)
  have dependent {x : Fin 16} (mem : x ∈ k.state.dependents t.watch) : s.prerequisite x = some t.watch := by
    rw [h.same.dependents] at mem
    simpa [State.dependents] using mem
  refine ⟨h.outside.trans (runTask_sameOutside t k), h.same.trans (runTask_definitions t k), fun x mem => ?_,
    fun e mem => ?_, fun p named => ?_, ?_⟩
  · obtain old | new := List.mem_append.mp mem
    · exact h.reached x (List.mem_of_mem_eraseIdx old)
    · obtain (rfl | rfl) | below := runTask_more new
      · exact reached
      · exact reached
      · exact closed _ _ reached (dependent below)
  · obtain old | new := List.mem_append.mp mem
    · exact h.acts e (List.mem_of_mem_eraseIdx old)
    · obtain (none | none) | below := runTask_more new
      · cases none
      · cases none
      · exact absurd reached (avoids _ (dependent below))
  · rw [runTask_watch_of_ne, h.above p named]
    rintro rfl
    exact avoids _ named reached
  · by_cases own : t = .act v E
    · subst own
      refine .inr (acts k h.outside h.same h.above ?_)
      exact h.watch.imp_left And.left
    · have other : ∀ e, t ≠ .act v e := fun e same => by
        rw [h.acts e (same ▸ List.mem_of_getElem? at_i)] at same
        exact own same
      rw [act_watches_of_other other]
      exact h.watch.imp_left fun ⟨kept, owed⟩ => ⟨kept, mem_rest at_i owed (Ne.symm own)⟩

/-- However the rest of the event goes, the watch is as its one act leaves it. -/
theorem ActsOnce.run {k : Work} {ts : List Task} (h : ActsOnce s v E before after reach k.state ts) (chain : s.ChainLaw)
    {fuel : Nat} (bound : tasksCost s ts ≤ fuel) :
    ActsOnce s v E before after reach (runTasks fuel ts k).state [] := by
  refine runTasks_done (ActsOnce s v E before after reach)
    (fun u ts n h => ⟨h.outside.trans rfl, h.same, h.reached, h.acts, h.above, h.watch⟩)
    (fun t ts k i at_i h => h.task closed avoids acts at_i) fuel ts k (h.same.chainLaw chain) ?_ h
  rw [h.same.tasksCost]
  exact bound

end

theorem ActsOnce.done {s u : State} {v : Fin 16} {E : Evaluation} {before after : Watch} {reach : Fin 16 → Prop}
    (h : ActsOnce s v E before after reach u []) : u.watches[v] = after :=
  h.watch.resolve_left fun ⟨_, owed⟩ => List.not_mem_nil owed

/-! ## The dependents of a trip -/

theorem finish_watches (k : Work) : k.finish.watches = k.state.watches := by
  obtain ⟨j, n, finished, -⟩ := finish_eq k
  rw [finished]

section
variable {w v : Fin 16} {onset : TimeValue} {c d : WatchDef} {s : State}

theorem run_tripped (w : Fin 16) (k : Work) :
    k.run [.tripped w] = runTasks 999999 (k.state.dependentTasks w fun d => k.state.evaluateTrip d w) k := by
  rw [Work.run]
  exact runTasks_single 999999 (.tripped w) k

theorem exec_qualifyExpiry_due {timer : Countdown} (present : s.watches[w].definition = some c)
    (qualifying : s.watches[w].state = .qualifying onset timer) (due : timer.due = true) :
    exec (.qualifyExpiry w) s = .next
      (({ state := tripState w c onset s, sent := [[tripRecord w c onset s.outputs s]] } : Work).run [.tripped w]).finish := by
  show Host.Outcome.next (qualifyExpiry w s) = _
  rw [qualifyExpiry, qualifying]
  dsimp only
  rw [if_pos due, trip_eq onset present]
  rfl

theorem tripState_isTripped : (tripState w c onset s).watches[w].state.isTripped = true := by
  rw [getElem_tripState, if_pos rfl]
  rfl

/-- At a trip the condition of a dependent is its pattern (R55). -/
theorem evaluateTrip_tripState (named : d.prerequisite = some w) :
    (tripState w c onset s).evaluateTrip d w = if s.pattern d then .holds (some s.time.time) else .fails [] := by
  have ready : (tripState w c onset s).prerequisiteTripped d = true := by
    rw [State.prerequisiteTripped, named]
    exact tripState_isTripped
  have time : (tripState w c onset s).watches[w].tripTime = s.time.time := by
    rw [getElem_tripState, if_pos rfl]
    rfl
  have pattern : (tripState w c onset s).pattern d = s.pattern d := pattern_congr rfl d
  rw [State.evaluateTrip, State.condition, ready, Bool.and_true, pattern, time]

section
variable (presentW : s.watches[w].definition = some c) (present : s.watches[v].definition = some d)
  (named : d.prerequisite = some w) (armed : s.watches[v].state = .armed) (chain : s.ChainLaw)
include present named

theorem prerequisite_of_named : s.prerequisite v = some w := by
  rw [State.prerequisite, present]
  exact named

include armed chain

/-- The dependent ends as its act at the trip leaves it. -/
theorem trip_dependent_ends {after : Watch} {E : Evaluation}
    (evaluated : (tripState w c onset s).evaluateTrip d w = E)
    (acts : ∀ k : Work, SameOutside (tripState w c onset s) k.state → k.state.watches[v].definition = some d →
      k.state.prerequisiteTripped d = true → k.state.watches[v] = s.watches[v] ∨ k.state.watches[v] = after →
      (act v E k).1.state.watches[v] = after) (sent : List (List Draft)) :
    ((({ state := tripState w c onset s, sent } : Work).run [.tripped w]).state.watches[w] = trippedWatch w onset s)
    ∧ (({ state := tripState w c onset s, sent } : Work).run [.tripped w]).state.watches[v] = after := by
  have same := tripState_definitions w c onset s
  have below : s.prerequisite v = some w := prerequisite_of_named present named
  have apart : w ≠ v := (prerequisite_ne chain below).symm
  have kept : (tripState w c onset s).watches[v] = s.watches[v] := (getElem_tripState ..).trans (if_neg apart)
  have definition : (tripState w c onset s).watches[v].definition = some d := by rw [kept, present]
  have ends : ActsOnce (tripState w c onset s) v E s.watches[v] after (fun x => room s x < room s w)
      (({ state := tripState w c onset s, sent } : Work).run [.tripped w]).state [] := by
    rw [run_tripped]
    refine ActsOnce.run (k := { state := tripState w c onset s, sent })
      (fun x y reached named => ?_) (fun p named reached => ?_) (fun k outside same' above watch => ?_)
      ⟨.refl _, .refl _, fun t mem => ?_, fun e mem => ?_, fun _ _ => rfl, .inl ⟨kept, ?_⟩⟩ (same.chainLaw chain) ?_
    · rw [same.prerequisite] at named
      have := room_dependent chain named
      omega
    · rw [same.prerequisite, below] at named
      cases named
      exact Nat.lt_irrefl _ reached
    · refine acts k outside ((same' v).trans definition) ?_ watch
      rw [State.prerequisiteTripped, named]
      show k.state.watches[w].state.isTripped = true
      rw [above w (by rw [same.prerequisite, below]), tripState_isTripped]
    · obtain ⟨x, e, dependent, -, rfl⟩ := mem_dependentTasks mem
      rw [same.dependents] at dependent
      have := room_dependent chain (by simpa [State.dependents] using dependent : s.prerequisite x = some w)
      exact Nat.lt_of_succ_le this
    · obtain ⟨x, e', -, definition', acts⟩ := mem_dependentTasks mem
      obtain ⟨rfl, rfl⟩ := Task.act.inj acts
      cases definition.symm.trans definition'
      exact evaluated
    · rw [← evaluated]
      exact act_mem_dependentTasks definition named (by rw [kept, armed]; exact nofun)
        fun d => (tripState w c onset s).evaluateTrip d w
    · have cost := dependentTasks_cost (same.chainLaw chain) w fun d => (tripState w c onset s).evaluateTrip d w
      have most := actCost_le (tripState w c onset s) w
      exact (Nat.le_of_succ_le cost).trans (by omega)
  refine ⟨(ends.above w (by rw [same.prerequisite, below])).trans ?_, ends.done⟩
  rw [getElem_tripState, if_pos rfl]

end

end

theorem act_qualified {w : Fin 16} {d : WatchDef} {onset : TimeValue} {k : Work} {x : Watch}
    (present : k.state.watches[w].definition = some d) (ready : k.state.prerequisiteTripped d = true) (qualify : d.qualify ≠ 0)
    (armed : x.state = .armed)
    (watch : k.state.watches[w] = x
      ∨ k.state.watches[w] = { x with state := .qualifying onset ⟨d.qualify, false⟩ }) :
    (act w (.holds (some onset)) k).1.state.watches[w] = { x with state := .qualifying onset ⟨d.qualify, false⟩ } := by
  obtain same | done := watch
  · rw [act_armed_qualifies present (by rw [same, armed]) ready qualify]
    show (k.state.setWatchState w _).watches[w] = _
    rw [getElem_setWatchState, if_pos rfl, same]
  · rw [act_qualifying_holds present (by rw [done]), done]

theorem act_trips {w : Fin 16} {d : WatchDef} {onset : TimeValue} {k : Work} {s : State}
    (present : k.state.watches[w].definition = some d) (ready : k.state.prerequisiteTripped d = true) (qualify : d.qualify = 0)
    (armed : s.watches[w].state = .armed) (time : k.state.time = s.time)
    (watch : k.state.watches[w] = s.watches[w] ∨ k.state.watches[w] = trippedWatch w onset s) :
    (act w (.holds (some onset)) k).1.state.watches[w] = trippedWatch w onset s := by
  obtain same | done := watch
  · rw [act_armed_trips present (by rw [same, armed]) ready qualify, trip_eq onset present]
    show (tripState w d onset k.state).watches[w] = _
    rw [getElem_tripState, if_pos rfl, trippedWatch, same, time]
    rfl
  · rw [act_tripped_holds present (by rw [done]; rfl), done]

/-! ## One dependent that trips at the same event -/

/-- The records of two sent apart enter in either order (R7). -/
theorem finish_pair (s : State) (a b : Draft) :
    ∃ j n, Work.finish { state := s, sent := [[a], [b]] } = { s with journal := j, choices := n }
      ∧ EitherOrder s [a] [b] j := by
  obtain ⟨n, first | second⟩ := send_pair a b s
  · exact ⟨_, n, first, .inl rfl⟩
  · exact ⟨_, n, second, .inr rfl⟩

theorem filter_finRange_eq : ∀ v : Fin 16, ((List.finRange 16).filter fun x => decide (x = v)) = [v] := by decide

theorem dependents_single {s : State} {w v : Fin 16} {d : WatchDef} (present : s.watches[v].definition = some d)
    (named : d.prerequisite = some w)
    (only : ∀ (x : Fin 16) (e : WatchDef), s.watches[x].definition = some e → e.prerequisite = some w → x = v) :
    s.dependents w = [v] := by
  rw [← filter_finRange_eq v, State.dependents]
  refine List.filter_congr fun x _ => decide_eq_decide.mpr ⟨fun below => ?_, fun same => ?_⟩
  · obtain ⟨e, definition, named⟩ := mem_dependents.mp (List.mem_filter.mpr ⟨List.mem_finRange x, decide_eq_true below⟩)
    exact only x e definition named
  · rw [same]
    exact prerequisite_of_named present named

/-- The two trips, in the words of the statement. -/
theorem tripState_pair {w v : Fin 16} {onset : TimeValue} {c d : WatchDef} {s : State} (apart : w ≠ v) :
    tripState v d s.time.time (tripState w c onset s)
      = { s with
          watches := (s.watches.set w.val (trippedWatch w onset s) w.isLt).set v.val (trippedWatch v s.time.time s) v.isLt
          outputs := (actedOn v d.action (actedOn w c.action s.outputs).2).2 } := by
  have kept : (tripState w c onset s).watches[v] = s.watches[v] := (getElem_tripState ..).trans (if_neg apart)
  have watch : trippedWatch v s.time.time (tripState w c onset s) = trippedWatch v s.time.time s := by
    rw [trippedWatch, trippedWatch, kept]
    rfl
  rw [tripState, watch]
  rfl

section
variable {w v : Fin 16} {onset : TimeValue} {c d : WatchDef} {s : State} (present : s.watches[v].definition = some d)
  (named : d.prerequisite = some w) (armed : s.watches[v].state = .armed) (pattern : PatternHolds s d)
  (qualify : d.qualify = 0) (apart : w ≠ v) (alone : NoDependents s v)
  (only : ∀ (x : Fin 16) (e : WatchDef), s.watches[x].definition = some e → e.prerequisite = some w → x = v)
include present named armed pattern qualify apart alone only

/-- The trip, then that of the dependent, and nothing more. -/
theorem run_tripped_pair (sent : List (List Draft)) :
    ({ state := tripState w c onset s, sent } : Work).run [.tripped w]
      = { state := tripState v d s.time.time (tripState w c onset s)
          sent := sent ++ [[tripRecord v d s.time.time (actedOn w c.action s.outputs).2 s]] } := by
  have same := tripState_definitions w c onset s
  have kept : (tripState w c onset s).watches[v] = s.watches[v] := (getElem_tripState ..).trans (if_neg apart)
  have definition : (tripState w c onset s).watches[v].definition = some d := by rw [kept, present]
  have enabled : (tripState w c onset s).watches[v].state = .armed := by rw [kept, armed]
  have ready : (tripState w c onset s).prerequisiteTripped d = true := by
    rw [State.prerequisiteTripped, named]
    exact tripState_isTripped
  have tasks : ((tripState w c onset s).dependentTasks w fun d => (tripState w c onset s).evaluateTrip d w)
      = [.act v (.holds (some s.time.time))] := by
    rw [State.dependentTasks, same.dependents, dependents_single present named only, List.filterMap_cons,
      evaluation_enabled definition (by rw [enabled]; exact nofun), evaluateTrip_tripState named,
      if_pos (pattern_iff.mpr pattern)]
    rfl
  have record : tripRecord v d s.time.time (tripState w c onset s).outputs (tripState w c onset s)
      = tripRecord v d s.time.time (actedOn w c.action s.outputs).2 s := by
    rw [tripRecord, tripRecord, kept]
    rfl
  have acts : runTask (.act v (.holds (some s.time.time))) { state := tripState w c onset s, sent }
      = ({ state := tripState v d s.time.time (tripState w c onset s)
           sent := sent ++ [[tripRecord v d s.time.time (actedOn w c.action s.outputs).2 s]] }, [.tripped v]) := by
    rw [← record]
    exact (act_armed_trips (k := { state := tripState w c onset s, sent }) definition enabled ready qualify).trans
      (trip_eq s.time.time definition)
  have none : (tripState v d s.time.time (tripState w c onset s)).dependents v = [] := by
    rw [(tripState_definitions v d s.time.time (tripState w c onset s)).dependents, same.dependents, dependents_eq_nil alone]
  rw [run_tripped, tasks]
  show runTasks (999997 + 1 + 1) _ _ = _
  rw [runTasks_single, acts]
  exact runTasks_tripped_alone none 999997

end

/-- Settles O25: each dependent by its own act, and the one dependent that trips too. -/
theorem tripReachesDependents : Obligations.TripReachesDependents := by
  intro w v onset timer c d s presentW qualifying due present named armed
  have executed := exec_qualifyExpiry_due presentW qualifying due
  refine ⟨fun chain => ⟨_, executed, ?_⟩, fun pattern qualify only alone => ?_⟩
  · have evaluated := evaluateTrip_tripState (c := c) (onset := onset) (s := s) named
    have ends := fun after acts => trip_dependent_ends (c := c) (onset := onset) (after := after) present named armed chain
      evaluated acts [[tripRecord w c onset s.outputs s]]
    rw [finish_watches]
    by_cases pattern : s.pattern d = true
    · have holds := pattern_iff.mp pattern
      rw [if_pos pattern] at ends
      by_cases qualify : d.qualify = 0
      · obtain ⟨watch, dependent⟩ := ends _ fun k outside definition ready =>
          act_trips definition ready qualify armed outside.time
        exact ⟨watch, fun _ some => absurd qualify some, fun _ _ => dependent, fun none => absurd holds none⟩
      · obtain ⟨watch, dependent⟩ := ends _ fun k _ definition ready => act_qualified definition ready qualify armed
        exact ⟨watch, fun _ _ => dependent, fun _ none => absurd none qualify, fun none => absurd holds none⟩
    · have fails := fun holds => pattern (pattern_iff.mpr holds)
      rw [if_neg pattern] at ends
      obtain ⟨watch, dependent⟩ := ends s.watches[v] fun k _ definition _ same => by
        have state : k.state.watches[v] = s.watches[v] := or_self_iff.mp same
        rw [act_armed_fails definition (by rw [state, armed]) fun _ => Evaluation.noConfusion, state]
      exact ⟨watch, fun holds => absurd holds fails, fun holds => absurd holds fails, fun _ => dependent⟩
  · have apart : w ≠ v := by
      rintro rfl
      cases qualifying.symm.trans armed
    obtain ⟨j, n, finished, order⟩ := finish_pair (tripState v d s.time.time (tripState w c onset s))
      (tripRecord w c onset s.outputs s) (tripRecord v d s.time.time (actedOn w c.action s.outputs).2 s)
    rw [run_tripped_pair present named armed pattern qualify apart alone only] at executed
    refine ⟨_, executed.trans (congrArg Host.Outcome.next finished), ?_, order⟩
    rw [tripState_pair apart]

end Sys2Proof.Machine
end

section
/-! PROOF. The delivery of one edge to the watches (R30, R53, R54, R73 to R75), and the sample with one edge. -/

namespace Sys2Proof.Machine

open Sys2Proof.Claims

/-! ## Lists with one thing in them -/

theorem filterMap_finRange_single {n : Nat} {β : Type} {f : Fin n → Option β} {i : Fin n} {b : β} (at_i : f i = some b)
    (others : ∀ j, j ≠ i → f j = none) : (List.finRange n).filterMap f = [b] := by
  have nodup := List.nodup_finRange n
  obtain ⟨before, after, split⟩ := List.append_of_mem (List.mem_finRange i)
  rw [split, List.nodup_append, List.nodup_cons] at nodup
  obtain ⟨-, ⟨notAfter, -⟩, apart⟩ := nodup
  have silent : ∀ l : List (Fin n), i ∉ l → l.filterMap f = [] := fun l out =>
    List.filterMap_eq_nil_iff.mpr fun j mem => others j fun same => out (same ▸ mem)
  rw [split, List.filterMap_append, List.filterMap_cons, at_i,
    silent before fun mem => apart i mem i List.mem_cons_self rfl, silent after notAfter]
  rfl

theorem flatMap_finRange_single {n : Nat} {β : Type} {f : Fin n → List β} {i : Fin n}
    (others : ∀ j, j ≠ i → f j = []) : (List.finRange n).flatMap f = f i := by
  have nodup := List.nodup_finRange n
  obtain ⟨before, after, split⟩ := List.append_of_mem (List.mem_finRange i)
  rw [split, List.nodup_append, List.nodup_cons] at nodup
  obtain ⟨-, ⟨notAfter, -⟩, apart⟩ := nodup
  have silent : ∀ l : List (Fin n), i ∉ l → l.flatMap f = [] := fun l out =>
    List.flatMap_eq_nil_iff.mpr fun j mem => others j fun same => out (same ▸ mem)
  rw [split, List.flatMap_append, List.flatMap_cons, silent before fun mem => apart i mem i List.mem_cons_self rfl,
    silent after notAfter, List.nil_append, List.append_nil]

/-! ## The evaluation of a delivery (R53, R54) -/

/-- The pattern condition is read from the filtered levels of the lines of the set (R48). -/
theorem pattern_filtered {s t : State} {d : WatchDef}
    (same : ∀ k : Fin 32, d.lineSet.getLsbD k.val = true → t.front.lines[k].filtered = s.front.lines[k].filtered) :
    t.pattern d = s.pattern d := by
  have levels : ∀ k : Fin 32,
      (!d.lineSet.getLsbD k.val || decide (t.front.lines[k].filtered = levelIn d.reference k))
        = (!d.lineSet.getLsbD k.val || decide (s.front.lines[k].filtered = levelIn d.reference k)) := by
    intro k
    cases on : d.lineSet.getLsbD k.val with
    | false => rfl
    | true => rw [same k on]
  simp only [State.pattern, levels]

section
variable {d : WatchDef} {x : Edge}

theorem edgesOn_on (on : d.lineSet.getLsbD x.line.val = true) : edgesOn d [x] = [x] := List.filter_cons_of_pos on

theorem edgesOn_off (off : d.lineSet.getLsbD x.line.val = false) : edgesOn d [x] = [] :=
  List.filter_cons_of_neg (Bool.eq_false_iff.mp off)

theorem leaving_single (leaves : x.level ≠ levelIn d.reference x.line) : leaving d [x] = [x] :=
  List.filter_cons_of_pos (decide_eq_true leaves)

theorem patternOnset_single (formed : d.sense = .matching ∨ x.level ≠ levelIn d.reference x.line) :
    patternOnset d [x] = some x.stamp.time := by
  unfold patternOnset
  split
  case h_1 => rfl
  case h_2 differing =>
    rw [leaving_single (formed.resolve_left fun matching => nomatch differing.symm.trans matching)]
    rfl

theorem stampsAt_single : stampsAt [x] (some x.stamp.time) = [x.stamp] := by
  simp [stampsAt, List.eraseDups_cons]

theorem restoreStamps_single {s : State} (fails : s.pattern d = false)
    (formed : d.sense = .differing ∨ x.level ≠ levelIn d.reference x.line) : restoreStamps s d [x] = [x.stamp] := by
  rw [restoreStamps, fails, if_neg Bool.false_ne_true]
  split
  case h_1 matching =>
    rw [leaving_single (formed.resolve_left fun differing => nomatch matching.symm.trans differing)]
    exact stampsAt_single
  case h_2 => exact stampsAt_single

end

/-- What a delivery gives one watch to do. -/
def deliveryTask (s : State) (edges : List Edge) (v : Fin 16) : Option Task :=
  match s.watches[v].definition with
  | none => none
  | some d => if edgesOn d edges = [] then none else s.evaluation (fun d => s.evaluateDelivery d edges) v

theorem deliveryTasks_eq (s : State) (edges : List Edge) :
    s.deliveryTasks edges = (List.finRange 16).filterMap (deliveryTask s edges) := rfl

theorem mem_deliveryTasks {s : State} {edges : List Edge} {t : Task} :
    t ∈ s.deliveryTasks edges ↔
      ∃ (v : Fin 16) (c : WatchDef), s.watches[v].definition = some c ∧ edgesOn c edges ≠ []
        ∧ s.watches[v].state ≠ .disabled ∧ t = .act v (s.evaluateDelivery c edges) := by
  rw [deliveryTasks_eq, List.mem_filterMap]
  refine exists_congr fun v => ⟨fun ⟨_, task⟩ => ?_, fun ⟨c, definition, on, enabled, task⟩ => ⟨List.mem_finRange v, ?_⟩⟩
  · unfold deliveryTask at task
    split at task
    case h_1 => cases task
    case h_2 c definition =>
      split at task
      case isTrue => cases task
      case isFalse on =>
        rw [State.evaluation, definition] at task
        dsimp only at task
        split at task
        case isTrue => cases task
        case isFalse enabled => exact ⟨c, definition, on, enabled, (Option.some.inj task).symm⟩
  · rw [deliveryTask, definition, task]
    exact (if_neg on).trans (evaluation_enabled definition enabled _)

/-- A watch that a delivery does not reach: it is DISABLED, or its line set holds no line of an edge. -/
def Unreached (s : State) (edges : List Edge) (v : Fin 16) : Prop :=
  s.watches[v].state = .disabled ∨ ∀ c, s.watches[v].definition = some c → edgesOn c edges = []

section
variable {s : State} {edges : List Edge}

theorem deliveryTask_unreached {v : Fin 16} (unreached : Unreached s edges v) : deliveryTask s edges v = none := by
  unfold deliveryTask
  split
  case h_1 => rfl
  case h_2 c definition =>
    obtain disabled | off := unreached
    · rw [evaluation_disabled disabled, ite_self]
    · exact if_pos (off c definition)

theorem deliveryTasks_none (unreached : ∀ v, Unreached s edges v) : s.deliveryTasks edges = [] := by
  rw [deliveryTasks_eq]
  exact List.filterMap_eq_nil_iff.mpr fun v _ => deliveryTask_unreached (unreached v)

theorem deliveryTasks_single {w : Fin 16} {d : WatchDef} (definition : s.watches[w].definition = some d)
    (on : edgesOn d edges ≠ []) (enabled : s.watches[w].state ≠ .disabled)
    (others : ∀ v, v ≠ w → Unreached s edges v) :
    s.deliveryTasks edges = [.act w (s.evaluateDelivery d edges)] := by
  rw [deliveryTasks_eq]
  refine filterMap_finRange_single ?_ fun v other => deliveryTask_unreached (others v other)
  rw [deliveryTask, definition]
  exact (if_neg on).trans (evaluation_enabled definition enabled _)

theorem departsAt_off {p : Fin 16} (off : ∀ c, s.watches[p].definition = some c → edgesOn c edges = []) :
    s.departsAt edges p = false := by
  unfold State.departsAt State.restoresAt
  cases definition : s.watches[p].definition with
  | none => rfl
  | some c =>
    cases s.watches[p].state with
    | tripped => simp [off c definition]
    | _ => rfl

theorem departsAt_restored {p : Fin 16} {e : WatchDef} {onset : TimeValue} (definition : s.watches[p].definition = some e)
    (tripped : s.watches[p].state = .tripped onset) (on : edgesOn e edges ≠ []) (fails : s.condition e = false)
    (auto : e.rearm = .auto) : s.departsAt edges p = true := by
  rw [State.departsAt, State.restoresAt, definition, tripped]
  simp [on, fails, auto]

theorem evaluateDelivery_fails {d : WatchDef} (fails : s.condition d = false) :
    s.evaluateDelivery d edges = .fails (restoreStamps s d (edgesOn d edges)) := by
  rw [State.evaluateDelivery, fails]
  rfl

theorem evaluateDelivery_holds {d : WatchDef} (holds : s.condition d = true)
    (stays : ∀ p, d.prerequisite = some p → s.departsAt edges p = false) :
    s.evaluateDelivery d edges = .holds ((patternOnset d (edgesOn d edges)).map (s.onsetFrom d)) := by
  have stay : d.prerequisite.any (s.departsAt edges) = false := by
    cases named : d.prerequisite with
    | none => rfl
    | some p => exact stays p named
  rw [evaluateDelivery_plain stay, if_pos holds]

/-- With a prerequisite that departs at the delivery itself, the condition never counts as true (R56). -/
theorem evaluateDelivery_departs {d : WatchDef} {p : Fin 16} (named : d.prerequisite = some p)
    (departs : s.departsAt edges p = true) (onset : Option TimeValue) : s.evaluateDelivery d edges ≠ .holds onset := by
  rw [State.evaluateDelivery, named]
  simp only [Option.any_some, departs, if_true]
  split <;> exact Evaluation.noConfusion

end

theorem deliver_none {edges : List Edge} {k : Work} (unreached : ∀ v, Unreached k.state edges v) : deliver edges k = k := by
  rw [deliver, deliveryTasks_none unreached, run_nil]

/-! ## Trips and restores with every dependent DISABLED -/

theorem dependentTasks_disabled {s : State} {w : Fin 16} (evaluate : WatchDef → Evaluation)
    (disabled : ∀ v, s.prerequisite v = some w → s.watches[v].state = .disabled) : s.dependentTasks w evaluate = [] :=
  List.filterMap_eq_nil_iff.mpr fun v dependent =>
    evaluation_disabled (disabled v (by simpa [State.dependents] using dependent)) evaluate

theorem prerequisite_eq {s : State} {w : Fin 16} {d : WatchDef} (definition : s.watches[w].definition = some d) :
    s.prerequisite w = d.prerequisite := by
  rw [State.prerequisite, definition]

/-- An act that trips a watch whose dependents are all DISABLED. -/
theorem run_act_trips_disabled {w : Fin 16} {d : WatchDef} {e : Evaluation} {onset : TimeValue} {k : Work}
    (present : k.state.watches[w].definition = some d)
    (disabled : ∀ v, k.state.prerequisite v = some w → v ≠ w ∧ k.state.watches[v].state = .disabled)
    (acts : act w e k = trip w onset k) :
    k.run [.act w e]
      = { state := tripState w d onset k.state, sent := k.sent ++ [[tripRecord w d onset k.state.outputs k.state]] } := by
  have done : runTask (.act w e) k = _ := acts.trans (trip_eq onset present)
  have none (evaluate : WatchDef → Evaluation) : (tripState w d onset k.state).dependentTasks w evaluate = [] :=
    dependentTasks_disabled evaluate fun v named => by
      rw [(tripState_definitions w d onset k.state).prerequisite] at named
      obtain ⟨other, state⟩ := disabled v named
      rw [getElem_tripState, if_neg other.symm, state]
  rw [Work.run]
  show runTasks (999997 + 1 + 1 + 1) _ _ = _
  rw [runTasks_single, done, runTasks_single]
  show runTasks _ ((tripState w d onset k.state).dependentTasks w _) _ = _
  rw [none, runTasks_nil]
  rfl

/-- A restore's record, with a stamp that is the one it may carry where there is one (R75). -/
theorem sendRestore_sent (w : Fin 16) (d : WatchDef) (stamps : List Stamp) (k : Work) :
    ∃ (stamp : Stamp) (n : Nat), (∀ captured, stamps = [captured] → stamp = captured)
      ∧ sendRestore w d stamps k
        = { state := { k.state with choices := n }
            sent := k.sent ++ (restoreRecords w d stamp k.state.front.filteredMap).map ([·]) } := by
  have picked : ∃ (stamp : Stamp) (n : Nat), (∀ captured, stamps = [captured] → stamp = captured)
      ∧ k.state.pickStamp stamps = (stamp, { k.state with choices := n }) := by
    obtain ⟨n, chosen⟩ := k.state.choose_eq stamps.length
    rcases drawn : k.state.choose stamps.length with ⟨i, u⟩
    rw [drawn] at chosen
    rw [State.pickStamp, drawn]
    dsimp only at chosen ⊢
    cases at_choice : stamps[i]? with
    | some stamp =>
      refine ⟨stamp, n, fun captured single => ?_, by rw [chosen]⟩
      subst single
      exact List.mem_singleton.mp (List.mem_of_getElem? at_choice)
    | none =>
      refine ⟨_, _, fun captured single => ?_, by rw [chosen]; rfl⟩
      subst single
      obtain rfl : i = 0 := (congrArg Prod.fst ((State.choose_one _ (Nat.le_refl 1)).symm.trans drawn)).symm
      cases at_choice
  obtain ⟨stamp, n, single, picked⟩ := picked
  unfold sendRestore restoreRecords
  split
  case h_1 none =>
    refine ⟨stamp, k.state.choices, single, ?_⟩
    rw [none]
    exact (congrArg (Work.mk k.state) (List.append_nil _)).symm
  case h_2 reporting asked =>
    refine ⟨stamp, n, single, ?_⟩
    rw [picked]
    cases report : d.restore with
    | none => exact absurd report asked
    | plain | withSnapshot => rfl

/-! ## The sample with one edge -/

/-- The edge that line `i` makes at the present sample, with the stamp given. -/
def edgeAt (s : State) (i : Fin 32) (captured : Stamp) : Edge :=
  { line := i, level := rawLevel s i, stamp := captured, recovered := false }

theorem uneventful_of_idle {s : State} {i : Fin 32} (h : Idle s i) : Uneventful s i := by
  rw [Uneventful, h.1]
  exact edgeMade_idle h

/-- One line makes an edge that passes chatter supervision, and no other line does anything that is delivered or recorded. -/
theorem takeSample_edge {s : State} {i : Fin 32} {captured : Stamp} {chatter : Chatter} (later : s.front.firstSample = false)
    (made : edgeMade s i = some captured) (passed : passedTo s.front.lines[i] = some chatter)
    (others : ∀ j, j ≠ i → Uneventful s j) :
    s.sampleEdges = [edgeAt s i captured]
    ∧ takeSample s = (deliver [edgeAt s i captured]
        { state := s.sampled
          sent := [edgeRecords s.front.lines[i].config.recording i (rawLevel s i) captured false] }).finish := by
  have edges : s.sampleEdges = [edgeAt s i captured] := by
    refine filterMap_finRange_single (i := i) ?_ fun j other => ?_
    · rw [sampleResults_getElem, sampleResult_edge (unsuppressed_of_passedTo passed) made, superviseEdge_passed passed]
      rfl
    · rw [sampleResults_getElem]
      exact (sampleResult_uneventful (others j other)).1
  refine ⟨edges, ?_⟩
  rw [takeSample_later later, edges, lines_sent, flatMap_finRange_single (i := i), lineRecords_passed made passed]
  intro j other
  rw [← sampleResult_sent]
  exact (sampleResult_uneventful (others j other)).2

section
variable {s : State} {i : Fin 32} {captured : Stamp} (lone : LoneEdge s i captured)
include lone

theorem loneEdge_made : edgeMade s i = some captured := edgeMade_of_stamp lone.stamp lone.differs

theorem loneEdge_passed : passedTo s.front.lines[i] = some .quiet := by
  rw [passedTo, lone.quiet, if_pos lone.limit]

theorem loneEdge_sampled : s.sampled = settled s i := by
  have line : s.sampled.front.lines[i]
      = { s.front.lines[i] with raw := rawLevel s i, filtered := rawLevel s i, filter := .stable } := by
    rw [sampled_line_passed (loneEdge_made lone) (loneEdge_passed lone), ← lone.quiet]
  have lines := sampled_lines_others lone.others
  rw [line] at lines
  rw [settled, ← lines]
  simp only [State.sampled]

theorem loneEdge_edges : s.sampleEdges = [edgeAt s i captured] :=
  (takeSample_edge lone.sampling.later (loneEdge_made lone) (loneEdge_passed lone) fun j other => uneventful_of_idle (lone.others j other)).1

theorem loneEdge_takeSample :
    takeSample s = (deliver [edgeAt s i captured]
      { state := settled s i
        sent := [edgeRecords s.front.lines[i].config.recording i (rawLevel s i) captured false] }).finish := by
  rw [← loneEdge_sampled lone]
  exact (takeSample_edge lone.sampling.later (loneEdge_made lone) (loneEdge_passed lone) fun j other => uneventful_of_idle (lone.others j other)).2

/-- The command that takes the edge takes the sample, where no request comes first. -/
theorem loneEdge_exec {c : Instr} (takes : TakesEdge s i c) (alone : s.requestsFirst = false) :
    exec c s = .next (takeSample s) := by
  rw [takesEdge_eq_sample takes lone.sampling lone.stamp lone.differs (fun n suppressed => nomatch lone.quiet.symm.trans suppressed),
    exec_sample_alone lone.sampling alone]

end

/-! ## Records sent in two streams -/

theorem edgeRecords_cases (recording : Recording) (i : Fin 32) (level : Level) (stamp : Stamp) (recovered : Bool) :
    edgeRecords recording i level stamp recovered = []
      ∨ ∃ r, edgeRecords recording i level stamp recovered = [r] := by
  cases recording
  · exact .inl rfl
  · exact .inr ⟨_, rfl⟩
  · exact .inr ⟨_, rfl⟩

theorem restoreRecords_cases (w : Fin 16) (d : WatchDef) (stamp : Stamp) (snapshot : LineMap) :
    restoreRecords w d stamp snapshot = [] ∨ ∃ r, restoreRecords w d stamp snapshot = [r] := by
  unfold restoreRecords
  cases d.restore
  · exact .inl rfl
  · exact .inr ⟨_, rfl⟩
  · exact .inr ⟨_, rfl⟩

/-- Two streams of one record each, or none, enter in either order (R7). -/
theorem finish_either (s : State) {a b : List Draft} (one : a = [] ∨ ∃ r, a = [r]) (other : b = [] ∨ ∃ r, b = [r]) :
    ∃ j n, Work.finish { state := s, sent := [a] ++ b.map ([·]) } = { s with journal := j, choices := n }
      ∧ EitherOrder s a b j := by
  obtain rfl | ⟨r, rfl⟩ := other
  · refine ⟨arrived s a, s.choices, send_single_eq a s, .inl ?_⟩
    rw [List.append_nil]
  · obtain rfl | ⟨q, rfl⟩ := one
    · exact ⟨arrived s [r], s.choices, rfl, .inl rfl⟩
    · exact finish_pair s q r

end Sys2Proof.Machine
end

section
/-! PROOF. What a delivered edge does to a watch with no prerequisite (R53, R54, R66, R68, R73, R74): the watch by its own act,
whatever the rest of the event does; and the records where every other watch is DISABLED. -/

namespace Sys2Proof.Machine

open Sys2Proof.Claims

/-! ## A watch by its own act -/

/-- However the rest of the event goes, a watch that no trip or departure reaches is as its one act leaves it. -/
theorem ActsOnce.runFew {s : State} {v : Fin 16} {E : Evaluation} {before after : Watch} (root : s.prerequisite v = none)
    (acts : ∀ k : Work, SameOutside s k.state → SameDefinitions s k.state →
      (∀ p, s.prerequisite v = some p → k.state.watches[p] = s.watches[p]) →
      k.state.watches[v] = before ∨ k.state.watches[v] = after → (act v E k).1.state.watches[v] = after)
    {k : Work} {ts : List Task} (h : ActsOnce s v E before after (fun _ => True) k.state ts) (chain : s.ChainLaw)
    (few : ts.length ≤ 16) : (k.run ts).state.watches[v] = after := by
  have none : ∀ p, s.prerequisite v = some p → ¬ True := fun p named => nomatch root.symm.trans named
  have done := run_done (ActsOnce s v E before after fun _ => True)
    (fun u ts n h => ⟨h.outside.trans rfl, h.same, h.reached, h.acts, h.above, h.watch⟩)
    (fun t ts k i at_i h => h.task (fun _ _ _ _ => trivial) none acts at_i) ts k (h.same.chainLaw chain) few h
  exact done.done

section
variable {a : State} {edges : List Edge} {w : Fin 16} {d : WatchDef} {after : Watch} (definition : a.watches[w].definition = some d)
  (root : d.prerequisite = none) (chain : a.ChainLaw)
include definition root

omit definition in
theorem condition_root : a.condition d = a.pattern d := by
  rw [State.condition, State.prerequisiteTripped, root, Bool.and_true]

include chain

/-- The watch after a delivery that reaches it. -/
theorem deliver_acts (on : edgesOn d edges ≠ []) (enabled : a.watches[w].state ≠ .disabled)
    (acts : ∀ k : Work, k.state.watches[w].definition = some d →
      k.state.watches[w] = a.watches[w] ∨ k.state.watches[w] = after →
      (act w (a.evaluateDelivery d edges) k).1.state.watches[w] = after) (sent : List (List Draft)) :
    (deliver edges { state := a, sent }).state.watches[w] = after := by
  refine ActsOnce.runFew (k := { state := a, sent }) ((prerequisite_eq definition).trans root)
    (fun k _ same _ watch => acts k ((same w).trans definition) watch)
    ⟨.refl _, .refl _, fun _ _ => trivial, fun e mem => ?_, fun _ _ => rfl, .inl ⟨rfl, ?_⟩⟩ chain
    (deliveryTasks_length a edges)
  · obtain ⟨v, c, definition', -, -, acts⟩ := mem_deliveryTasks.mp mem
    obtain ⟨rfl, rfl⟩ := Task.act.inj acts
    cases definition.symm.trans definition'
    rfl
  · exact mem_deliveryTasks.mpr ⟨w, d, definition, on, enabled, rfl⟩

/-- A DISABLED watch stays as it is. -/
theorem deliver_disabled (disabled : a.watches[w].state = .disabled) (sent : List (List Draft)) :
    (deliver edges { state := a, sent }).state.watches[w] = a.watches[w] := by
  refine ActsOnce.runFew (k := { state := a, sent }) (E := .departure) (before := a.watches[w])
    ((prerequisite_eq definition).trans root)
    (fun k _ _ _ watch => ?_)
    ⟨.refl _, .refl _, fun _ _ => trivial, fun e mem => ?_, fun _ _ => rfl, .inr rfl⟩ chain (deliveryTasks_length a edges)
  · have same : k.state.watches[w] = a.watches[w] := or_self_iff.mp watch
    rw [act_departure_idle, same]
    intro onset timer qualifying
    rw [same, disabled] at qualifying
    cases qualifying
  · obtain ⟨v, c, -, -, enabled, acts⟩ := mem_deliveryTasks.mp mem
    obtain ⟨rfl, -⟩ := Task.act.inj acts
    exact absurd disabled enabled

end

/-- An act on a false condition: QUALIFYING to ARMED, TRIPPED by the rearm, and nothing else. -/
theorem act_fails_watch {w : Fin 16} {d : WatchDef} {stamps : List Stamp} {k : Work}
    (definition : k.state.watches[w].definition = some d) :
    (act w (.fails stamps) k).1.state.watches[w]
      = match k.state.watches[w].state with
        | .qualifying _ _ => { k.state.watches[w] with state := .armed }
        | .tripped onset => { k.state.watches[w] with state := if d.rearm = .auto then .armed else .held onset }
        | _ => k.state.watches[w] := by
  cases state : k.state.watches[w].state with
  | armed => rw [act_armed_fails definition state fun _ => Evaluation.noConfusion]
  | qualifying onset timer =>
    rw [act_qualifying_fails definition state fun _ => Evaluation.noConfusion]
    exact (getElem_setWatchState k.state w w .armed).trans (if_pos rfl)
  | tripped onset =>
    rw [act_tripped_fails definition state]
    have watches := restore_watches w onset d stamps k
    cases rearm : d.rearm <;> rw [rearm] at watches <;> rw [watches] <;>
      exact (getElem_setWatchState k.state w w _).trans (if_pos rfl)
  | held onset => rw [act_held state]
  | disabled =>
    have idle : act w (.fails stamps) k = (k, []) := by rw [act, definition, state]
    rw [idle]

/-- What an act on a false condition leaves of a watch. -/
def failed (d : WatchDef) (x : Watch) : Watch :=
  match x.state with
  | .qualifying _ _ => { x with state := .armed }
  | .tripped onset => { x with state := if d.rearm = .auto then .armed else .held onset }
  | _ => x

theorem failed_failed (d : WatchDef) (x : Watch) : failed d (failed d x) = failed d x := by
  obtain ⟨definition, state, count, time⟩ := x
  cases state with
  | tripped onset => cases rearm : d.rearm <;> simp [failed, rearm]
  | _ => rfl

/-- An act on a false condition again changes nothing. -/
theorem act_fails_ends {w : Fin 16} {d : WatchDef} {stamps : List Stamp} {k : Work} {x : Watch}
    (definition : k.state.watches[w].definition = some d)
    (watch : k.state.watches[w] = x ∨ k.state.watches[w] = failed d x) :
    (act w (.fails stamps) k).1.state.watches[w] = failed d x := by
  have acted : (act w (.fails stamps) k).1.state.watches[w] = failed d k.state.watches[w] := act_fails_watch definition
  obtain same | done := watch
  · rw [acted, same]
  · rw [acted, done, failed_failed]

theorem act_holds_idle {w : Fin 16} {onset : Option TimeValue} {k : Work} {x : Watch}
    (notArmed : x.state ≠ .armed) (watch : k.state.watches[w] = x ∨ k.state.watches[w] = x) :
    (act w (.holds onset) k).1.state.watches[w] = x := by
  have same : k.state.watches[w] = x := or_self_iff.mp watch
  have idle : act w (.holds onset) k = (k, []) := by
    unfold act
    split
    · rfl
    · cases state : k.state.watches[w].state with
      | armed => exact absurd (same ▸ state) notArmed
      | _ => rfl
  rw [idle, same]

/-! ## The clauses with no prerequisite -/

section
variable {c : Instr} {s : State} {i : Fin 32} {captured : Stamp} {w : Fin 16} {d : WatchDef} (lone : LoneEdge s i captured)
  (takes : TakesEdge s i c) (definition : s.watches[w].definition = some d) (on : d.lineSet.getLsbD i.val = true)
include lone takes definition on

omit lone takes definition in
theorem edgesOn_edgeAt : edgesOn d [edgeAt s i captured] = [edgeAt s i captured] := edgesOn_on on

omit lone takes definition in
theorem edgesOn_edgeAt_ne : edgesOn d [edgeAt s i captured] ≠ [] := by
  rw [edgesOn_edgeAt on]
  exact List.cons_ne_nil _ _

omit takes lone definition in
/-- The evaluation of the watch on the edge, with no prerequisite (R53, R54). -/
theorem evaluateDelivery_root (root : d.prerequisite = none) :
    (settled s i).evaluateDelivery d [edgeAt s i captured]
      = if (settled s i).pattern d then .holds (patternOnset d [edgeAt s i captured])
        else .fails (restoreStamps (settled s i) d [edgeAt s i captured]) := by
  have condition : (settled s i).condition d = (settled s i).pattern d := condition_root root
  have onset : (settled s i).onsetFrom d = id := by
    funext t
    rw [State.onsetFrom, root]
    rfl
  split
  case isTrue holds =>
    rw [evaluateDelivery_holds (condition.trans holds) (fun p named => nomatch root.symm.trans named), onset, Option.map_id,
      edgesOn_edgeAt on]
    rfl
  case isFalse fails =>
    rw [evaluateDelivery_fails (condition.trans (Bool.eq_false_iff.mpr fails)), edgesOn_edgeAt on]

/-- With no request before the sample, a watch with no prerequisite does what its own act does. -/
theorem edge_reaches_root (root : d.prerequisite = none) (chain : s.ChainLaw) (alone : SampleAlone s) :
    ∃ t, exec c s = .next t
      ∧ (s.watches[w].state = .armed → d.qualify ≠ 0 → PatternHolds (settled s i) d →
          (d.sense = .matching ∨ LeavesReference s i d) →
          t.watches[w] = { s.watches[w] with state := .qualifying captured.time ⟨d.qualify, false⟩ })
      ∧ (¬ PatternHolds (settled s i) d → s.watches[w].state ≠ .disabled → t.watches[w] = failed d s.watches[w])
      ∧ (PatternHolds (settled s i) d → s.watches[w].state ≠ .armed → s.watches[w].state ≠ .disabled →
          t.watches[w] = s.watches[w])
      ∧ (s.watches[w].state = .disabled → t.watches[w] = s.watches[w]) := by
  have sent := [edgeRecords s.front.lines[i].config.recording i (rawLevel s i) captured false]
  have present : (settled s i).watches[w].definition = some d := definition
  have chain' : (settled s i).ChainLaw := chain
  have reaches := edgesOn_edgeAt_ne (s := s) (captured := captured) on
  have evaluated := evaluateDelivery_root (s := s) (captured := captured) on root
  refine ⟨takeSample s, loneEdge_exec lone takes (requestsFirst_alone alone), fun armed qualify holds formed => ?_,
    fun fails enabled => ?_, fun holds other enabled => ?_, fun disabled => ?_⟩ <;>
    rw [loneEdge_takeSample lone, finish_watches]
  · rw [if_pos (pattern_iff.mpr holds), patternOnset_single formed] at evaluated
    refine deliver_acts present root chain' reaches (by rw [show (settled s i).watches[w].state = .armed from armed]; exact nofun)
      (fun k definition watch => ?_) _
    rw [evaluated]
    refine act_qualified definition ?_ qualify armed watch
    rw [State.prerequisiteTripped, root]
  · rw [if_neg fun holds => fails (pattern_iff.mp holds)] at evaluated
    refine deliver_acts present root chain' reaches enabled (fun k definition watch => ?_) _
    rw [evaluated]
    exact act_fails_ends definition watch
  · rw [if_pos (pattern_iff.mpr holds)] at evaluated
    refine deliver_acts present root chain' reaches enabled (fun k definition watch => ?_) _
    rw [evaluated]
    exact act_holds_idle other watch
  · exact deliver_disabled present root chain' disabled _

end

/-! ## With every other watch DISABLED -/

section
variable {a : State} {x : Edge} {w : Fin 16} {d : WatchDef} (definition : a.watches[w].definition = some d)
  (on : d.lineSet.getLsbD x.line.val = true) (enabled : a.watches[w].state ≠ .disabled)
  (others : ∀ v, v ≠ w → Unreached a [x] v)
include definition on enabled others

/-- The watch alone has something to do. -/
theorem deliver_single (sent : List (List Draft)) :
    deliver [x] { state := a, sent } = Work.run { state := a, sent } [.act w (a.evaluateDelivery d [x])] := by
  rw [deliver, deliveryTasks_single definition (by rw [edgesOn_on on]; exact List.cons_ne_nil _ _) enabled others]

end

section
variable {a : State} {w : Fin 16} {d : WatchDef} {onset : TimeValue} {captured : Stamp} {sent : List (List Draft)}
  (definition : a.watches[w].definition = some d) (tripped : a.watches[w].state = .tripped onset)
include definition tripped

/-- The outputs after a restore: under AUTO a DRIVE output is let go (R73, R74). -/
def restoredOutputs (w : Fin 16) (d : WatchDef) (a : State) : Vector Output 8 :=
  if d.rearm = .auto then (releaseDrive w a).outputs else a.outputs

/-- A restore with no enabled dependent. -/
theorem run_act_restores (disabled : ∀ v, a.prerequisite v = some w → v ≠ w ∧ a.watches[v].state = .disabled) :
    ∃ (stamp : Stamp) (n : Nat), stamp = captured ∧
      Work.run { state := a, sent } [.act w (.fails [captured])]
        = { state := { a with
              watches := a.watches.set w.val (failed d a.watches[w]) w.isLt
              outputs := restoredOutputs w d a, choices := n }
            sent := sent ++ (restoreRecords w d stamp a.front.filteredMap).map ([·]) } := by
  have acts : runTask (.act w (.fails [captured])) { state := a, sent } = restore w onset d [captured] { state := a, sent } :=
    act_tripped_fails (k := { state := a, sent }) definition tripped
  rw [Work.run]
  show ∃ stamp n, stamp = captured ∧ runTasks (999997 + 1 + 1 + 1) _ _ = _
  rw [runTasks_single, acts, restore]
  cases rearm : d.rearm with
  | auto =>
    obtain ⟨stamp, n, single, done⟩ := sendRestore_sent w d [captured]
      { state := releaseDrive w (a.setWatchState w .armed), sent }
    have none (evaluate : WatchDef → Evaluation) (n : Nat) :
        ({ releaseDrive w (a.setWatchState w .armed) with choices := n } : State).dependentTasks w evaluate = [] :=
      dependentTasks_disabled evaluate fun v named => by
        have same : SameDefinitions a (a.setWatchState w .armed) :=
          setWatch_definitions (s := a) (x := { a.watches[w] with state := .armed }) rfl
        obtain ⟨other, state⟩ := disabled v ((congrFun same.prerequisite v).symm.trans named)
        show (a.setWatchState w .armed).watches[v].state = _
        rw [getElem_setWatchState, if_neg other.symm, state]
    refine ⟨stamp, n, single captured rfl, ?_⟩
    dsimp only
    rw [done, runTasks_single]
    show runTasks _ (({ releaseDrive w (a.setWatchState w .armed) with choices := n } : State).dependentTasks w _) _ = _
    rw [none, runTasks_nil, failed, tripped]
    simp only [rearm, if_true, restoredOutputs]
    rfl
  | manual =>
    obtain ⟨stamp, n, single, done⟩ := sendRestore_sent w d [captured] { state := a.setWatchState w (.held onset), sent }
    refine ⟨stamp, n, single captured rfl, ?_⟩
    dsimp only
    rw [done, runTasks_nil, failed, tripped]
    simp only [rearm, reduceCtorEq, if_false, restoredOutputs]
    rfl

end

section
variable {c : Instr} {s : State} {i : Fin 32} {captured : Stamp} {w : Fin 16} {d : WatchDef} (lone : LoneEdge s i captured)
  (takes : TakesEdge s i c) (definition : s.watches[w].definition = some d) (on : d.lineSet.getLsbD i.val = true)
  (root : d.prerequisite = none) (others : ∀ v, v ≠ w → s.watches[v].state = .disabled)
include lone takes definition on root others

omit lone takes on root definition in
/-- No request comes before a sample where the one enabled watch has no prerequisite. -/
theorem sampleAlone_root (definition : s.watches[w].definition = some d) (root : d.prerequisite = none) : SampleAlone s :=
  .inr fun v p e definition' armed _ named => by
    by_cases same : v = w
    · subst same
      cases definition.symm.trans definition'
      cases root.symm.trans named
    · cases (others v same).symm.trans armed

omit lone takes on in
theorem root_dependents (v : Fin 16) (named : (settled s i).prerequisite v = some w) :
    v ≠ w ∧ (settled s i).watches[v].state = .disabled := by
  have other : v ≠ w := by
    rintro rfl
    exact nomatch (((prerequisite_eq definition).trans root).symm.trans named)
  exact ⟨other, others v other⟩

/-- A trip at the delivery (R66, R70, R71). -/
theorem edge_trips_root (armed : s.watches[w].state = .armed) (qualify : d.qualify = 0)
    (holds : PatternHolds (settled s i) d) (formed : d.sense = .matching ∨ LeavesReference s i d) :
    ∃ t, exec c s = .next t
      ∧ t.watches[w] = trippedWatch w captured.time s
      ∧ t.outputs = (actedOn w d.action s.outputs).2
      ∧ EitherOrder s (edgeRecords s.front.lines[i].config.recording i (rawLevel s i) captured false)
          [tripRecord w d captured.time s.outputs (settled s i)] t.journal := by
  have evaluated := evaluateDelivery_root (s := s) (captured := captured) on root
  rw [if_pos (pattern_iff.mpr holds), patternOnset_single formed] at evaluated
  have present : (settled s i).watches[w].definition = some d := definition
  have state : (settled s i).watches[w].state = .armed := armed
  have ready : (settled s i).prerequisiteTripped d = true := by rw [State.prerequisiteTripped, root]
  obtain ⟨j, n, finished, order⟩ := finish_either (tripState w d captured.time (settled s i))
    (edgeRecords_cases s.front.lines[i].config.recording i (rawLevel s i) captured false)
    (.inr ⟨tripRecord w d captured.time s.outputs (settled s i), rfl⟩)
  have taken : takeSample s = { tripState w d captured.time (settled s i) with journal := j, choices := n } := by
    rw [loneEdge_takeSample lone, deliver_single present on (by rw [state]; exact nofun) fun v other => .inl (others v other),
      evaluated, run_act_trips_disabled (k := { state := settled s i, sent := _ }) present
        (root_dependents definition root others) (act_armed_trips (k := { state := settled s i, sent := _ }) present state ready
          qualify)]
    exact finished
  refine ⟨_, loneEdge_exec lone takes (requestsFirst_alone (sampleAlone_root others definition root)), ?_, ?_, ?_⟩
  · rw [taken]
    exact (getElem_tripState w d captured.time (settled s i) w).trans (if_pos rfl)
  · rw [taken]
    rfl
  · rw [taken]
    exact order

/-- A restore at the delivery (R73 to R75). -/
theorem edge_restores_root {onset : TimeValue} (tripped : s.watches[w].state = .tripped onset)
    (fails : ¬ PatternHolds (settled s i) d) (formed : d.sense = .differing ∨ LeavesReference s i d) :
    ∃ t, exec c s = .next t
      ∧ t.watches[w] = { s.watches[w] with state := if d.rearm = .auto then .armed else .held onset }
      ∧ (∀ o : Fin 8,
          (d.rearm = .auto → drivenBy w s.outputs[o].owner → t.outputs[o] = { s.outputs[o] with owner := .host none })
          ∧ (d.rearm = .manual ∨ ¬ drivenBy w s.outputs[o].owner → t.outputs[o] = s.outputs[o]))
      ∧ EitherOrder s (edgeRecords s.front.lines[i].config.recording i (rawLevel s i) captured false)
          (restoreRecords w d captured (settled s i).front.filteredMap) t.journal := by
  have evaluated := evaluateDelivery_root (s := s) (captured := captured) on root
  have pattern : (settled s i).pattern d = false := Bool.eq_false_iff.mpr fun holds => fails (pattern_iff.mp holds)
  rw [if_neg (Bool.eq_false_iff.mp pattern), restoreStamps_single (x := edgeAt s i captured) pattern formed] at evaluated
  have present : (settled s i).watches[w].definition = some d := definition
  have state : (settled s i).watches[w].state = .tripped onset := tripped
  obtain ⟨stamp, n, same, restores⟩ := run_act_restores (captured := captured)
    (sent := [edgeRecords s.front.lines[i].config.recording i (rawLevel s i) captured false]) present state
    (root_dependents definition root others)
  subst same
  obtain ⟨j, m, finished, order⟩ := finish_either
    { settled s i with
      watches := (settled s i).watches.set w.val (failed d (settled s i).watches[w]) w.isLt
      outputs := restoredOutputs w d (settled s i), choices := n }
    (edgeRecords_cases s.front.lines[i].config.recording i (rawLevel s i) stamp false)
    (restoreRecords_cases w d stamp (settled s i).front.filteredMap)
  have taken : takeSample s = { settled s i with
      watches := (settled s i).watches.set w.val (failed d (settled s i).watches[w]) w.isLt
      outputs := restoredOutputs w d (settled s i), journal := j, choices := m } := by
    rw [loneEdge_takeSample lone, deliver_single present on (by rw [state]; exact nofun) fun v other => .inl (others v other),
      evaluated]
    exact (congrArg Work.finish restores).trans finished
  refine ⟨_, loneEdge_exec lone takes (requestsFirst_alone (sampleAlone_root others definition root)), ?_, fun o => ?_, ?_⟩
  · rw [taken]
    have watch : failed d s.watches[w] = { s.watches[w] with state := if d.rearm = .auto then .armed else .held onset } := by
      rw [failed, tripped]
    exact ((getElem_setWatch (settled s i) w w _).trans (if_pos rfl)).trans watch
  · rw [taken]
    have released := releaseDrive_output w (settled s i) o
    show (_ → _ → (restoredOutputs w d (settled s i))[o] = _) ∧ (_ → (restoredOutputs w d (settled s i))[o] = _)
    cases rearm : d.rearm with
    | auto =>
      rw [restoredOutputs, if_pos rearm]
      exact ⟨fun _ => released.1, fun other => released.2 (other.resolve_left nofun)⟩
    | manual =>
      rw [restoredOutputs, if_neg (by rw [rearm]; exact nofun)]
      exact ⟨nofun, fun _ => rfl⟩
  · rw [taken]
    exact order

end

end Sys2Proof.Machine
end

section
/-! PROOF. A delivered edge and a watch whose prerequisite has no edge (R54, R66), with the requests that may come before the
delivery (R56, R178). -/

namespace Sys2Proof.Machine

open Sys2Proof.Claims

/-- Watch `w` names watch `p` as its prerequisite, and every other watch is DISABLED. -/
structure Pair (s : State) (w p : Fin 16) (d : WatchDef) : Prop where
  definition : s.watches[w].definition = some d
  named      : d.prerequisite = some p
  apart      : p ≠ w
  others     : ∀ v, v ≠ w → v ≠ p → s.watches[v].state = .disabled

theorem Pair.congr {s t : State} {w p : Fin 16} {d : WatchDef} (h : Pair s w p d) (same : t.watches = s.watches) :
    Pair t w p d := by
  obtain ⟨definition, named, apart, others⟩ := h
  exact ⟨by rw [same]; exact definition, named, apart, fun v notW notP => by rw [same]; exact others v notW notP⟩

theorem sampleAlone_untripped {s : State} (untripped : ∀ v : Fin 16, s.watches[v].state.isTripped = false) : SampleAlone s :=
  .inr fun _ p _ _ _ _ _ onset => by
    constructor <;>
    · intro state
      have tripped := untripped p
      rw [state] at tripped
      cases tripped

section
variable {a : State} {x : Edge} {w p : Fin 16} {d : WatchDef} (pair : Pair a w p d)
  (armed : a.watches[w].state = .armed)
  (off : ∀ e, a.watches[p].definition = some e → e.lineSet.getLsbD x.line.val = false)
include pair armed

omit armed in
theorem Pair.condition : a.condition d = (a.pattern d && a.watches[p].state.isTripped) := by
  rw [State.condition, State.prerequisiteTripped, pair.named]

theorem Pair.untripped (untripped : a.watches[p].state.isTripped = false) (v : Fin 16) :
    a.watches[v].state.isTripped = false := by
  by_cases sameW : v = w
  · rw [sameW, armed]
    rfl
  · by_cases sameP : v = p
    · rw [sameP, untripped]
    · rw [pair.others v sameW sameP]
      rfl

include off

omit armed in
theorem Pair.unreached (v : Fin 16) (other : v ≠ w) : Unreached a [x] v := by
  by_cases same : v = p
  · subst same
    exact .inr fun e definition => edgesOn_off (off e definition)
  · exact .inl (pair.others v other same)

/-- With the prerequisite neither TRIPPED nor HELD, the delivery does nothing. -/
theorem Pair.deliver_untripped (untripped : a.watches[p].state.isTripped = false) (sent : List (List Draft)) :
    deliver [x] { state := a, sent } = { state := a, sent } := by
  have fails : a.condition d = false := by rw [pair.condition, untripped, Bool.and_false]
  cases on : d.lineSet.getLsbD x.line.val with
  | true =>
    rw [deliver_single pair.definition on (by rw [armed]; exact nofun) (pair.unreached off), evaluateDelivery_fails fails,
      run_act (act_armed_fails (k := { state := a, sent }) pair.definition armed fun _ => Evaluation.noConfusion)]
  | false =>
    refine deliver_none fun v => ?_
    by_cases same : v = w
    · subst same
      refine .inr fun e definition => edgesOn_off ?_
      cases pair.definition.symm.trans definition
      exact on
    · exact pair.unreached off v same

variable (on : d.lineSet.getLsbD x.line.val = true) (tripped : a.watches[p].state.isTripped = true) (holds : a.pattern d = true)
include on tripped holds

theorem Pair.deliver_holds (sent : List (List Draft)) :
    deliver [x] { state := a, sent }
      = Work.run { state := a, sent } [.act w (.holds ((patternOnset d [x]).map (a.onsetFrom d)))] := by
  have condition : a.condition d = true := by rw [pair.condition, holds, tripped, Bool.and_true]
  have stays (q : Fin 16) (named : d.prerequisite = some q) : a.departsAt [x] q = false := by
    cases pair.named.symm.trans named
    exact departsAt_off fun e definition => edgesOn_off (off e definition)
  rw [deliver_single pair.definition on (by rw [armed]; exact nofun) (pair.unreached off),
    evaluateDelivery_holds condition stays, edgesOn_on on]

/-- With a qualify time of 0 the delivery trips the watch, unless the prerequisite departs first (R56, R66). -/
theorem Pair.tripsDependent (qualify : d.qualify = 0) : a.tripsDependent [x] p = true := by
  have condition : a.condition d = true := by rw [pair.condition, holds, tripped, Bool.and_true]
  have stays : a.departsAt [x] p = false := departsAt_off fun e definition => edgesOn_off (off e definition)
  have once : a.tripsAtOnce p w = true := tripsAtOnce_iff.mpr ⟨d, pair.definition, armed, qualify, pair.named⟩
  have reached : (a.watches[w].definition.any fun d => decide (edgesOn d [x] ≠ []) && a.condition d) = true := by
    rw [pair.definition, Option.any_some, edgesOn_on on, condition]
    rfl
  rw [State.tripsDependent, stays, Bool.not_false, Bool.true_and]
  exact List.any_eq_true.mpr ⟨w, List.mem_finRange w, by rw [once, reached]; rfl⟩

variable (formed : d.sense = .matching ∨ x.level ≠ levelIn d.reference x.line)
include formed

/-- The onset is the later of the edge's time and the prerequisite's trip time (R54). -/
theorem Pair.deliver_formed (sent : List (List Draft)) :
    deliver [x] { state := a, sent }
      = Work.run { state := a, sent } [.act w (.holds (some (laterTime x.stamp.time a.watches[p].tripTime)))] := by
  have onset : a.onsetFrom d x.stamp.time = laterTime x.stamp.time a.watches[p].tripTime := by
    rw [State.onsetFrom, pair.named]
  rw [pair.deliver_holds armed off on tripped holds, patternOnset_single formed, Option.map_some, onset]

omit off on holds formed armed in
theorem Pair.ready : a.prerequisiteTripped d = true := by
  rw [State.prerequisiteTripped, pair.named]
  exact tripped

theorem Pair.deliver_qualifies (qualify : d.qualify ≠ 0) (sent : List (List Draft)) :
    deliver [x] { state := a, sent }
      = { state := a.setWatchState w (.qualifying (laterTime x.stamp.time a.watches[p].tripTime) ⟨d.qualify, false⟩), sent } := by
  rw [pair.deliver_formed armed off on tripped holds formed,
    run_act (act_armed_qualifies (k := { state := a, sent }) pair.definition armed (pair.ready tripped) qualify)]

theorem Pair.deliver_trips (qualify : d.qualify = 0) (alone : NoDependents a w) (sent : List (List Draft)) :
    deliver [x] { state := a, sent }
      = { state := tripState w d (laterTime x.stamp.time a.watches[p].tripTime) a
          sent := sent ++ [[tripRecord w d (laterTime x.stamp.time a.watches[p].tripTime) a.outputs a]] } := by
  rw [pair.deliver_formed armed off on tripped holds formed,
    run_act_trips (k := { state := a, sent }) pair.definition alone
      (act_armed_trips (k := { state := a, sent }) pair.definition armed (pair.ready tripped) qualify)]

end

/-! ## The sample, with no request before it -/

theorem isTripped_of {s : State} {p : Fin 16} {onset : TimeValue}
    (tripped : s.watches[p].state = .tripped onset ∨ s.watches[p].state = .held onset) :
    s.watches[p].state.isTripped = true := isTripped_iff.mpr ⟨onset, tripped⟩

section
variable {s : State} {i : Fin 32} {captured : Stamp} {w p : Fin 16} {d : WatchDef} (lone : LoneEdge s i captured)
  (pair : Pair s w p d) (armed : s.watches[w].state = .armed)
  (off : ∀ e, s.watches[p].definition = some e → e.lineSet.getLsbD i.val = false)
include lone pair armed off

/-- The prerequisite is neither TRIPPED nor HELD: the sample is the edge and its record. -/
theorem takeSample_untripped (untripped : s.watches[p].state.isTripped = false) :
    takeSample s = { settled s i with
      journal := arrived s (edgeRecords s.front.lines[i].config.recording i (rawLevel s i) captured false) } := by
  have settledPair : Pair (settled s i) w p d := pair.congr rfl
  rw [loneEdge_takeSample lone,
    settledPair.deliver_untripped (x := edgeAt s i captured) armed off untripped]
  exact send_single_eq _ _

variable (on : d.lineSet.getLsbD i.val = true) (tripped : s.watches[p].state.isTripped = true)
  (holds : PatternHolds (settled s i) d) (formed : d.sense = .matching ∨ LeavesReference s i d)
include on tripped holds formed

theorem takeSample_qualifies (qualify : d.qualify ≠ 0) :
    (takeSample s).watches[w]
      = { s.watches[w] with
          state := .qualifying (laterTime captured.time s.watches[p].tripTime) ⟨d.qualify, false⟩ } := by
  have settledPair : Pair (settled s i) w p d := pair.congr rfl
  rw [loneEdge_takeSample lone, finish_watches,
    settledPair.deliver_qualifies (x := edgeAt s i captured) armed off on tripped (pattern_iff.mpr holds) formed qualify]
  exact (getElem_setWatchState (settled s i) w w _).trans (if_pos rfl)

theorem takeSample_trips (qualify : d.qualify = 0) (alone : NoDependents s w) :
    (takeSample s).watches[w] = trippedWatch w (laterTime captured.time s.watches[p].tripTime) s
      ∧ (takeSample s).outputs = (actedOn w d.action s.outputs).2
      ∧ EitherOrder s (edgeRecords s.front.lines[i].config.recording i (rawLevel s i) captured false)
          [tripRecord w d (laterTime captured.time s.watches[p].tripTime) s.outputs (settled s i)] (takeSample s).journal := by
  have settledPair : Pair (settled s i) w p d := pair.congr rfl
  obtain ⟨j, n, finished, order⟩ := finish_either
    (tripState w d (laterTime captured.time s.watches[p].tripTime) (settled s i))
    (edgeRecords_cases s.front.lines[i].config.recording i (rawLevel s i) captured false)
    (.inr ⟨tripRecord w d (laterTime captured.time s.watches[p].tripTime) s.outputs (settled s i), rfl⟩)
  have taken : takeSample s = { tripState w d (laterTime captured.time s.watches[p].tripTime) (settled s i) with
      journal := j, choices := n } := by
    rw [loneEdge_takeSample lone,
      settledPair.deliver_trips (x := edgeAt s i captured) armed off on tripped (pattern_iff.mpr holds) formed qualify alone]
    exact finished
  refine ⟨?_, ?_, ?_⟩
  · rw [taken]
    exact (getElem_tripState w d _ (settled s i) w).trans (if_pos rfl)
  · rw [taken]
    rfl
  · rw [taken]
    exact order

/-! ## Requests before the sample -/

omit formed in
/-- A request at the front that may take the prerequisite out of TRIPPED and HELD comes before the sample (R56). -/
theorem requestsFirst_of_departs (qualify : d.qualify = 0) {f : Frame} {rest : List Frame} (waits : Dispatchable f rest s)
    (departs : s.requestDeparts p f = true) : s.requestsFirst = true := by
  have delivers : s.sampleDelivers = true := by
    rw [State.sampleDelivers, sampleReady_of lone.sampling, lone.sampling.later]
    rfl
  have now : f ∈ s.dispatchedNow := by
    have slots : ∀ n, 0 < n → f ∈ s.dispatcher.requests.take n := fun n some => by
      obtain ⟨m, rfl⟩ := Nat.exists_eq_add_of_lt some
      rw [waits.front, Nat.zero_add]
      exact List.mem_cons_self
    have running : ¬ s.isHeld = true := fun held => s.isHeld_iff.mp held waits.running
    rw [State.dispatchedNow, if_neg running]
    have slot := waits.slot
    exact slots _ (by simp only [Config.replyCapacity]; omega)
  have settledPair : Pair (settled s i) w p d := pair.congr rfl
  have trips : (settled s i).tripsDependent [edgeAt s i captured] p = true :=
    settledPair.tripsDependent (x := edgeAt s i captured) armed off on tripped (pattern_iff.mpr holds) qualify
  rw [State.requestsFirst, delivers, Bool.true_and, loneEdge_sampled lone, loneEdge_edges lone]
  refine List.any_eq_true.mpr ⟨p, List.mem_finRange p, ?_⟩
  rw [trips, Bool.and_true]
  exact List.any_eq_true.mpr ⟨f, now, departs⟩

end

/-- A lone edge is read from the lines, the hold and the time. -/
theorem loneEdge_congr {s t : State} {i : Fin 32} {captured : Stamp} (lone : LoneEdge s i captured)
    (front : t.front = s.front) (hold : t.hold = s.hold) (time : t.time = s.time) : LoneEdge t i captured := by
  have raw (j : Fin 32) : rawLevel t j = rawLevel s j := by rw [rawLevel, rawLevel, front]
  obtain ⟨⟨running, due, later⟩, others, stamp, differs, quiet, limit⟩ := lone
  refine ⟨⟨hold.trans running, by rw [front]; exact due, by rw [front]; exact later⟩, fun j other => ?_, ?_, ?_, ?_, ?_⟩
  · rw [Idle, raw, front]
    exact others j other
  · rw [EdgeStamp, front, time]
    exact stamp
  · rw [raw, front]
    exact differs
  · rw [front]
    exact quiet
  · rw [front]
    exact limit

/-- One request is dispatched before the sample, and the sample is taken in the state after it (R56). -/
theorem exec_sample_behind {k : RequestKind} {f : Frame} {rest : List Frame} {s t : State} (sampling : Sampling s)
    (first : s.requestsFirst = true) (waiting : Waiting k f rest s) (dispatches : exec k.command s = .next t)
    (alone : t.requestsFirst = false) (ready : t.sampleReady = true) : exec .sample s = .next (takeSample t) := by
  have can := canDispatch_of waiting.dispatchable.running waiting.dispatchable.front waiting.dispatchable.slot
  have oldest : dispatchOldest s = t := by
    have code : RequestKind.ofCode f.kind = some k := by rw [waiting.kind, requestOctet_eq_code, ofCode_code]
    exact Host.Outcome.next.inj ((dispatchOldest_exec waiting.dispatchable.front code).symm.trans dispatches)
  have behind : departFirst departFuel s = t := by
    show departFirst (9 + 1) s = t
    rw [departFirst, if_pos first, dispatcherEvent, if_pos can, oldest, departFirst_alone alone]
  refine congrArg Host.Outcome.next ?_
  rw [sample, if_pos (sampleReady_of sampling), sampleBehind, behind, if_pos ready]

section
variable {c : Instr} {s : State} {i : Fin 32} {captured : Stamp} {w p : Fin 16} {d : WatchDef} (lone : LoneEdge s i captured)
  (takes : TakesEdge s i c) (pair : Pair s w p d) (armed : s.watches[w].state = .armed)
  (off : ∀ e, s.watches[p].definition = some e → e.lineSet.getLsbD i.val = false)
  (on : d.lineSet.getLsbD i.val = true) (tripped : s.watches[p].state.isTripped = true)
  (holds : PatternHolds (settled s i) d) (formed : d.sense = .matching ∨ LeavesReference s i d)
include lone takes

omit takes in
/-- The command is the sample, whatever comes before it. -/
theorem loneEdge_sample (takes : TakesEdge s i c) : exec c s = exec .sample s :=
  takesEdge_eq_sample takes lone.sampling lone.stamp lone.differs fun _ suppressed => nomatch lone.quiet.symm.trans suppressed

include pair armed off on tripped holds formed

omit formed in
/-- A request that takes the prerequisite out of TRIPPED and HELD, and leaves the other watches: the delivery, taken after it,
finds the condition false (R56). -/
theorem departure_comes_first (qualify : d.qualify = 0) {k : RequestKind} {f : Frame} {rest : List Frame} {u : State}
    {status : Octet} {fields : List Octet} (waiting : Waiting k f rest s) (departs : s.requestDeparts p f = true)
    (dispatches : exec k.command s = .next (replied f rest status fields none u))
    (frame : u = { s with watches := u.watches, outputs := u.outputs, choices := u.choices })
    (gone : u.watches[p].state.isTripped = false) (definition : u.watches[p].definition = s.watches[p].definition)
    (kept : u.watches[w] = s.watches[w]) (others : ∀ v, v ≠ w → v ≠ p → u.watches[v].state = .disabled) :
    exec c s = .next (replied f rest status fields none
        { settled u i with
          journal := arrived u (edgeRecords s.front.lines[i].config.recording i (rawLevel s i) captured false) })
      ∧ u.journal = s.journal ∧ u.front = s.front := by
  have front : u.front = s.front := by rw [frame]
  have journal : u.journal = s.journal := by rw [frame]
  have hold : u.hold = s.hold := by rw [frame]
  have time : u.time = s.time := by rw [frame]
  have loneAfter : LoneEdge (replied f rest status fields none u) i captured := loneEdge_congr lone front hold time
  have pairAfter : Pair (replied f rest status fields none u) w p d :=
    ⟨(congrArg Watch.definition kept).trans pair.definition, pair.named, pair.apart, others⟩
  have armedAfter : (replied f rest status fields none u).watches[w].state = .armed := (congrArg Watch.state kept).trans armed
  have offAfter : ∀ e, (replied f rest status fields none u).watches[p].definition = some e → e.lineSet.getLsbD i.val = false :=
    fun e present => off e (definition.symm.trans present)
  have first := requestsFirst_of_departs lone pair armed off on tripped holds qualify waiting.dispatchable departs
  refine ⟨?_, journal, front⟩
  rw [loneEdge_sample lone takes, exec_sample_behind lone.sampling first waiting dispatches
    (requestsFirst_alone (sampleAlone_untripped (pairAfter.untripped armedAfter gone))) (sampleReady_of loneAfter.sampling),
    takeSample_untripped loneAfter pairAfter armedAfter offAfter gone]
  have raw : rawLevel (replied f rest status fields none u) i = rawLevel s i := by
    show rawLevel u i = rawLevel s i
    rw [rawLevel, rawLevel, front]
  rw [raw]
  show Host.Outcome.next { settled (replied f rest status fields none u) i with
    journal := arrived u (edgeRecords u.front.lines[i].config.recording i (rawLevel s i) captured false) } = _
  rw [front]
  rfl

/-- A refused request may be dispatched first, and changes nothing of that. -/
theorem edge_trips_refused (qualify : d.qualify = 0) (alone : NoDependents s w) {k : RequestKind} {f : Frame}
    {status : Octet} (waiting : Waiting k f [] s)
    (refused : exec k.command s = .next (replied f [] status [] none s)) :
    ∃ t, exec c s = .next t
      ∧ t.watches[w] = trippedWatch w (laterTime captured.time s.watches[p].tripTime) s
      ∧ t.outputs = (actedOn w d.action s.outputs).2
      ∧ EitherOrder s (edgeRecords s.front.lines[i].config.recording i (rawLevel s i) captured false)
          [tripRecord w d (laterTime captured.time s.watches[p].tripTime) s.outputs (settled s i)] t.journal := by
  cases first : s.requestsFirst with
  | false =>
    exact ⟨_, loneEdge_exec lone takes first, takeSample_trips lone pair armed off on tripped holds formed qualify alone⟩
  | true =>
    have loneAfter : LoneEdge (replied f [] status [] none s) i captured := loneEdge_congr lone rfl rfl rfl
    have pairAfter : Pair (replied f [] status [] none s) w p d := pair.congr rfl
    have quiet : (replied f [] status [] none s).requestsFirst = false :=
      requestsFirst_alone (.inl fun _ mem => nomatch mem)
    refine ⟨_, (loneEdge_sample lone takes).trans (exec_sample_behind lone.sampling first waiting refused quiet
      (sampleReady_of loneAfter.sampling)), ?_⟩
    exact takeSample_trips loneAfter pairAfter armed off on tripped holds formed qualify alone

end

/-! ## The requests -/

theorem requestDeparts_disableWatch {f : Frame} {rest : List Frame} {s : State} {p : Fin 16}
    (waiting : Waiting .disableWatch f rest s) (payload : f.payload = [BitVec.ofNat 8 p.val]) :
    s.requestDeparts p f = true := by
  have code : RequestKind.ofCode f.kind = some .disableWatch := by rw [waiting.kind, requestOctet_eq_code, ofCode_code]
  rw [State.requestDeparts, code]
  exact decide_eq_true payload

theorem requestDeparts_rearmWatch {f : Frame} {rest : List Frame} {s : State} {p : Fin 16} {onset : TimeValue}
    (waiting : Waiting .rearmWatch f rest s) (payload : f.payload = [BitVec.ofNat 8 p.val])
    (held : s.watches[p].state = .held onset) : s.requestDeparts p f = true := by
  have code : RequestKind.ofCode f.kind = some .rearmWatch := by rw [waiting.kind, requestOctet_eq_code, ofCode_code]
  have mayRearm : s.mayRearm p = true := by
    rw [State.mayRearm, held]
  rw [State.requestDeparts, code]
  dsimp only
  rw [mayRearm, Bool.and_true]
  exact decide_eq_true payload

/-- A HELD watch without a definition has nothing to evaluate at its rearm. -/
theorem takeRearmWatch_undefined {w : Fin 16} {s : State} {onset : TimeValue} (held : s.watches[w].state = .held onset)
    (absent : s.watches[w].definition = none) :
    takeRearmWatch w s = .ok [1] (({ state := rearmed w s, sent := [] } : Work).run [.departed w]).state := by
  have departs := run_departed w { state := rearmed w s, sent := [] }
  have kept := (departs.watch w).2 fun ⟨_, _, _, qualifying⟩ => by
    rw [rearmed_armed] at qualifying
    cases qualifying
  have undefined : (rearmed w s).evaluation (rearmed w s).evaluateTaking w = none := by
    rw [State.evaluation, getElem_rearmed, if_pos rfl, absent]
  have evaluated : evaluateAtTaking w [.departed w] (rearmed w s)
      = (({ state := rearmed w s, sent := [] } : Work).run [.departed w]).state := by
    rw [evaluateAtTaking, undefined]
    show (Work.run _ []).finish = _
    rw [run_nil, finish_unsent departs.sent]
  rw [takeRearmWatch_held held evaluated, kept, rearmed_armed]
  rfl

/-- A rearm of a HELD watch whose condition is false, or that has no definition. -/
theorem exec_rearmWatch_departs {f : Frame} {rest : List Frame} {w : Fin 16} {s : State} {onset : TimeValue}
    (waiting : Waiting .rearmWatch f rest s) (payload : f.payload = [BitVec.ofNat 8 w.val])
    (held : s.watches[w].state = .held onset)
    (fails : ∀ e, s.watches[w].definition = some e → e.prerequisite ≠ some w ∧ ¬ Holds s e) :
    ∃ t, exec .rearmWatch s = .next (replied f rest 0x00 [1] none t)
      ∧ t.watches[w] = { s.watches[w] with state := .armed }
      ∧ (∀ v : Fin 16, v ≠ w →
        (QualifyingUnder s w v → t.watches[v] = { s.watches[v] with state := .armed })
        ∧ (¬ QualifyingUnder s w v → t.watches[v] = s.watches[v]))
      ∧ (∀ o : Fin 8, (drivenBy w s.outputs[o].owner → t.outputs[o] = { s.outputs[o] with owner := .host none })
        ∧ (¬ drivenBy w s.outputs[o].owner → t.outputs[o] = s.outputs[o]))
      ∧ t = { s with watches := t.watches, outputs := t.outputs, choices := t.choices } := by
  refine exec_rearmWatch_leaves waiting payload ?_
  cases definition : s.watches[w].definition with
  | none => exact takeRearmWatch_undefined (s := s.popRequest) held definition
  | some e => exact takeRearmWatch_departs (s := s.popRequest) held definition (fails e definition).2 (fails e definition).1

end Sys2Proof.Machine
end

section
/-! PROOF. A delivery that restores a prerequisite under AUTO: the watch under it never trips, and is ARMED after (R56, R69,
R73). -/

namespace Sys2Proof.Machine

open Sys2Proof.Claims

/-- Watch `w` is ARMED or QUALIFYING under `p`, which is TRIPPED under AUTO rearm, and every other watch is DISABLED. -/
structure Departure (a : State) (w p : Fin 16) (d e : WatchDef) : Prop where
  pair    : Pair a w p d
  upper   : a.watches[p].definition = some e
  tripped : ∃ onset, a.watches[p].state = .tripped onset
  auto    : e.rearm = .auto
  lower   : a.watches[w].state = .armed ∨ ∃ onset timer, a.watches[w].state = .qualifying onset timer

theorem Departure.congr {s t : State} {w p : Fin 16} {d e : WatchDef} (h : Departure s w p d e)
    (same : t.watches = s.watches) : Departure t w p d e := by
  obtain ⟨pair, upper, tripped, auto, lower⟩ := h
  exact ⟨pair.congr same, by rw [same]; exact upper, by rw [same]; exact tripped, auto, by rw [same]; exact lower⟩

/-- A task of the event: an act on a false condition, or the departure of the prerequisite. -/
inductive RestoreTask (w p : Fin 16) (stamps : List Stamp) : Task → Prop
  | lower (E : Evaluation) (fails : ∀ onset, E ≠ .holds onset) : RestoreTask w p stamps (.act w E)
  | upper : RestoreTask w p stamps (.act p (.fails stamps))
  | departed : RestoreTask w p stamps (.departed p)
  | again : RestoreTask w p stamps (.act p .departure)

/-- The restore as far as it has come: the prerequisite has yet to act, or has departed with its record sent; the watch under
it has yet to act on that, or is ARMED. -/
structure Restoring (a : State) (w p : Fin 16) (e : WatchDef) (stamps : List Stamp) (sent : List (List Draft)) (k : Work)
    (ts : List Task) : Prop where
  outside : SameOutside a k.state
  same    : SameDefinitions a k.state
  tasks   : ∀ t ∈ ts, RestoreTask w p stamps t
  others  : ∀ v, v ≠ w → v ≠ p → k.state.watches[v] = a.watches[v]
  upper   : k.state.watches[p] = a.watches[p] ∧ k.state.outputs = a.outputs ∧ k.sent = sent ∧ .act p (.fails stamps) ∈ ts
    ∨ k.state.watches[p] = { a.watches[p] with state := .armed } ∧ k.state.outputs = (releaseDrive p a).outputs
      ∧ ∃ stamp, (∀ captured, stamps = [captured] → stamp = captured)
        ∧ k.sent = sent ++ (restoreRecords p e stamp a.front.filteredMap).map ([·])
  lower   : k.state.watches[w] = a.watches[w]
      ∧ ((∃ E, .act w E ∈ ts) ∨ .departed p ∈ ts ∨ k.state.watches[p].state.isTripped = true)
    ∨ k.state.watches[w] = { a.watches[w] with state := .armed }

theorem releaseDrive_outputs {p : Fin 16} {s t : State} (same : t.outputs = s.outputs) :
    (releaseDrive p t).outputs = (releaseDrive p s).outputs := by
  simp only [releaseDrive, releaseWhere, same]

/-- How many tasks follow from a task of a restore at most, that task included. -/
def restoreCost (p : Fin 16) : Task → Nat
  | .act v (.fails _) => if v = p then 18 else 1
  | .act _ _ => 1
  | .departed _ => 17
  | .tripped _ => 1

section
variable {a : State} {w p : Fin 16} {d e : WatchDef} {stamps : List Stamp} {sent : List (List Draft)}
  (departure : Departure a w p d e)
include departure

omit departure in
/-- The restore of a TRIPPED watch under AUTO. -/
theorem act_restores {k : Work} {onset : TimeValue} (definition : k.state.watches[p].definition = some e)
    (tripped : k.state.watches[p].state = .tripped onset) (auto : e.rearm = .auto) :
    ∃ (stamp : Stamp) (n : Nat), (∀ captured, stamps = [captured] → stamp = captured)
      ∧ runTask (.act p (.fails stamps)) k
        = ({ state := { rearmed p k.state with choices := n }
             sent := k.sent ++ (restoreRecords p e stamp k.state.front.filteredMap).map ([·]) }, [.departed p]) := by
  obtain ⟨stamp, n, single, sends⟩ := sendRestore_sent p e stamps { k with state := rearmed p k.state }
  refine ⟨stamp, n, single, (act_tripped_fails definition tripped).trans ?_⟩
  have front : (rearmed p k.state).front = k.state.front := rearmed_outside.front
  dsimp only at sends
  rw [front] at sends
  rw [restore, auto]
  exact congrArg (·, [Task.departed p]) sends

omit departure in
theorem Restoring.rest {k : Work} {ts : List Task} {i : Nat} (h : Restoring a w p e stamps sent k ts) :
    ∀ t ∈ ts.eraseIdx i ++ [], RestoreTask w p stamps t := by
  rw [List.append_nil]
  exact fun t mem => h.tasks t (List.mem_of_mem_eraseIdx mem)

theorem Restoring.lowerState {k : Work} {ts : List Task} (h : Restoring a w p e stamps sent k ts) :
    k.state.watches[w].state = .armed
    ∨ ∃ onset timer, k.state.watches[w].state = .qualifying onset timer ∧ k.state.watches[w] = a.watches[w] := by
  obtain ⟨same, -⟩ | armed := h.lower
  · rw [same]
    exact departure.lower.imp_right fun ⟨onset, timer, qualifying⟩ => ⟨onset, timer, qualifying, rfl⟩
  · rw [armed]
    exact .inl rfl

/-- A task that changes nothing: what is owed is owed by the rest. -/
theorem Restoring.idle {k : Work} {ts : List Task} {i : Nat} {t : Task} (h : Restoring a w p e stamps sent k ts)
    (at_i : ts[i]? = some t) (acted : t = .act p (.fails stamps) → k.state.watches[p].state.isTripped = false)
    (stays : t ≠ .departed p)
    (armed : (∃ E, t = .act w E) → k.state.watches[w].state = .armed) :
    Restoring a w p e stamps sent k (ts.eraseIdx i ++ []) := by
  refine ⟨h.outside, h.same, h.rest, h.others, ?_, ?_⟩
  · refine h.upper.imp_left fun ⟨kept, outputs, unsent, owed⟩ => ⟨kept, outputs, unsent, mem_rest at_i owed ?_⟩
    rintro rfl
    obtain ⟨onset, tripped⟩ := departure.tripped
    have := acted rfl
    rw [kept, tripped] at this
    cases this
  · obtain ⟨same, owed⟩ | done := h.lower
    · by_cases own : ∃ E, t = .act w E
      · refine .inr ?_
        have state := armed own
        rw [same] at state ⊢
        rw [← state]
      · refine .inl ⟨same, ?_⟩
        obtain ⟨E, acts⟩ | departs | tripped := owed
        · exact .inl ⟨E, mem_rest at_i acts fun same => own ⟨E, same.symm⟩⟩
        · exact .inr (.inl (mem_rest at_i departs (Ne.symm stays)))
        · exact .inr (.inr tripped)
    · exact .inr done

theorem Restoring.task {k : Work} {ts : List Task} {i : Nat} {t : Task} (h : Restoring a w p e stamps sent k ts)
    (at_i : ts[i]? = some t) :
    Restoring a w p e stamps sent (runTask t k).1 (ts.eraseIdx i ++ (runTask t k).2)
      ∧ ((runTask t k).2.map (restoreCost p)).sum < restoreCost p t := by
  have apart := departure.pair.apart
  have definitionW : k.state.watches[w].definition = some d := (h.same w).trans departure.pair.definition
  have definitionP : k.state.watches[p].definition = some e := (h.same p).trans departure.upper
  cases h.tasks t (List.mem_of_getElem? at_i) with
  | lower E fails =>
    have cost : 0 < restoreCost p (.act w E) := by
      cases E <;> simp [restoreCost, apart.symm]
    obtain armed | ⟨onset, timer, qualifying, same⟩ := h.lowerState departure
    · have acts : runTask (.act w E) k = (k, []) := act_armed_fails definitionW armed fails
      rw [acts]
      exact ⟨h.idle departure at_i (fun same => absurd (Task.act.inj same).1.symm apart) nofun fun _ => armed, cost⟩
    · have acts : runTask (.act w E) k = ({ k with state := k.state.setWatchState w .armed }, []) :=
        act_qualifying_fails definitionW qualifying fails
      have others (v : Fin 16) (other : v ≠ w) : (k.state.setWatchState w .armed).watches[v] = k.state.watches[v] := by
        rw [getElem_setWatchState, if_neg other.symm]
      rw [acts]
      refine ⟨⟨h.outside.trans (setWatch_sameOutside _ _ _), h.same.trans (setWatch_definitions rfl), h.rest,
        fun v notW notP => (others v notW).trans (h.others v notW notP), ?_, .inr ?_⟩, cost⟩
      · show (k.state.setWatchState w .armed).watches[p] = _ ∧ _ ∨ (k.state.setWatchState w .armed).watches[p] = _ ∧ _
        rw [others p apart]
        refine h.upper.imp_left fun ⟨kept, outputs, unsent, owed⟩ => ⟨kept, outputs, unsent, mem_rest at_i owed fun same => ?_⟩
        exact apart (Task.act.inj same).1
      · show (k.state.setWatchState w .armed).watches[w] = _
        rw [getElem_setWatchState, if_pos rfl, same]
  | upper =>
    have cost : restoreCost p (.act p (.fails stamps)) = 18 := if_pos rfl
    obtain ⟨kept, outputs, unsent, owed⟩ | ⟨armed, rest⟩ := h.upper
    · obtain ⟨onset, tripped⟩ := departure.tripped
      have state : k.state.watches[p].state = .tripped onset := by rw [kept, tripped]
      obtain ⟨stamp, n, single, acts⟩ := act_restores (stamps := stamps) definitionP state departure.auto
      have outside : SameOutside k.state (rearmed p k.state) := rearmed_outside
      have watch (v : Fin 16) := getElem_rearmed (s := k.state) (w := p) v
      have released : (rearmed p k.state).outputs = (releaseDrive p a).outputs := releaseDrive_outputs outputs
      rw [acts, cost, h.outside.front, unsent]
      generalize rearmed p k.state = u at outside watch released
      refine ⟨⟨(h.outside.trans outside).trans rfl, fun v => ?_, fun t mem => ?_, fun v notW notP => ?_,
        .inr ⟨((watch p).trans (if_pos rfl)).trans (by rw [kept]), released, stamp, single, rfl⟩, ?_⟩, ?_⟩
      · refine Eq.trans (congrArg Watch.definition (watch v)) (Eq.trans ?_ (h.same v))
        split
        · next own => rw [← own]
        · rfl
      · obtain old | new := List.mem_append.mp mem
        · exact h.tasks t (List.mem_of_mem_eraseIdx old)
        · rw [List.mem_singleton.mp new]
          exact .departed
      · exact ((watch v).trans (if_neg (Ne.symm notP))).trans (h.others v notW notP)
      · have unchanged : u.watches[w] = k.state.watches[w] := (watch w).trans (if_neg apart)
        refine h.lower.imp (fun ⟨same, _⟩ => ⟨unchanged.trans same, .inr (.inl ?_)⟩) unchanged.trans
        exact List.mem_append_right _ (List.mem_singleton_self _)
      · show ([Task.departed p].map (restoreCost p)).sum < 18
        simp [restoreCost]
    · have state : k.state.watches[p].state = .armed := by rw [armed]
      have acts : runTask (.act p (.fails stamps)) k = (k, []) :=
        act_armed_fails definitionP state fun _ => Evaluation.noConfusion
      rw [acts, cost]
      refine ⟨h.idle departure at_i (fun _ => by rw [state]; rfl) nofun fun ⟨E, same⟩ => ?_, Nat.succ_pos 17⟩
      exact absurd (Task.act.inj same).1 apart
  | departed =>
    have done : (runTask (.departed p) k).1 = k := rfl
    have more : (runTask (.departed p) k).2 = k.state.dependentTasks p fun _ => .departure := rfl
    have departs (t : Task) (mem : t ∈ k.state.dependentTasks p fun _ => .departure) : ∃ v, t = .act v .departure := by
      obtain ⟨v, -, -, -, acts⟩ := mem_dependentTasks mem
      exact ⟨v, acts⟩
    rw [done, more]
    refine ⟨⟨h.outside, h.same, fun t mem => ?_, h.others, ?_, ?_⟩, ?_⟩
    · obtain old | new := List.mem_append.mp mem
      · exact h.tasks t (List.mem_of_mem_eraseIdx old)
      · obtain ⟨v, dependent, evaluated⟩ := List.mem_filterMap.mp new
        obtain ⟨v', rfl⟩ := departs t new
        have enabled : k.state.watches[v].state ≠ .disabled := fun disabled => by
          rw [evaluation_disabled disabled] at evaluated
          cases evaluated
        obtain ⟨c, present, -⟩ := mem_dependents.mp dependent
        rw [evaluation_enabled present enabled] at evaluated
        obtain ⟨rfl, -⟩ := Task.act.inj (Option.some.inj evaluated)
        by_cases sameW : v = w
        · exact sameW ▸ .lower .departure fun _ => Evaluation.noConfusion
        · by_cases sameP : v = p
          · exact sameP ▸ .again
          · rw [h.others v sameW sameP, departure.pair.others v sameW sameP] at enabled
            exact absurd rfl enabled
    · exact h.upper.imp_left fun ⟨kept, outputs, unsent, owed⟩ => ⟨kept, outputs, unsent, mem_rest at_i owed nofun⟩
    · refine h.lower.imp_left fun ⟨same, _⟩ => ⟨same, .inl ⟨.departure, List.mem_append_right _ ?_⟩⟩
      refine act_mem_dependentTasks definitionW departure.pair.named ?_ _
      obtain armed | ⟨onset, timer, qualifying, -⟩ := h.lowerState departure
      · rw [armed]
        exact nofun
      · rw [qualifying]
        exact nofun
    · have each : ∀ t ∈ k.state.dependentTasks p fun _ => .departure, restoreCost p t ≤ 1 := fun t mem => by
        obtain ⟨v, rfl⟩ := departs t mem
        exact Nat.le_refl 1
      have few := length_dependentTasks k.state p fun _ => .departure
      have sum := List.sum_le_card_nsmul ((k.state.dependentTasks p fun _ => .departure).map (restoreCost p)) 1 fun n mem => by
        obtain ⟨t, inside, rfl⟩ := List.mem_map.mp mem
        exact each t inside
      rw [List.length_map, smul_eq_mul, mul_one] at sum
      exact Nat.lt_succ_of_le (sum.trans few)
  | again =>
    have idle : ∀ onset timer, k.state.watches[p].state ≠ .qualifying onset timer := by
      obtain ⟨onset, tripped⟩ := departure.tripped
      obtain ⟨kept, -⟩ | ⟨armed, -⟩ := h.upper
      · rw [kept, tripped]
        exact nofun
      · rw [armed]
        exact nofun
    have acts : runTask (.act p .departure) k = (k, []) := act_departure_idle idle
    rw [acts]
    refine ⟨h.idle departure at_i (fun same => nomatch (Task.act.inj same).2) nofun fun ⟨E, same⟩ => ?_, Nat.one_pos⟩
    exact absurd (Task.act.inj same).1 apart

section
variable {x : Edge} (on : e.lineSet.getLsbD x.line.val = true) (fails : a.pattern e = false)
include on fails

omit departure on in
theorem condition_of_pattern : a.condition e = false := by rw [State.condition, fails, Bool.false_and]

theorem Departure.departsAt : a.departsAt [x] p = true := by
  obtain ⟨onset, tripped⟩ := departure.tripped
  refine departsAt_restored departure.upper tripped ?_ (condition_of_pattern fails) departure.auto
  rw [edgesOn_on on]
  exact List.cons_ne_nil _ _

/-- The delivery restores the prerequisite, and leaves the watch under it ARMED. -/
theorem deliver_restores (sent : List (List Draft)) :
    Restoring a w p e (restoreStamps a e [x]) sent (deliver [x] { state := a, sent }) [] := by
  obtain ⟨onset, tripped⟩ := departure.tripped
  have reaches : edgesOn e [x] ≠ [] := by
    rw [edgesOn_on on]
    exact List.cons_ne_nil _ _
  have evaluated : a.evaluateDelivery e [x] = .fails (restoreStamps a e [x]) := by
    rw [evaluateDelivery_fails (condition_of_pattern fails), edgesOn_on on]
  have owed : Task.act p (.fails (restoreStamps a e [x])) ∈ a.deliveryTasks [x] :=
    mem_deliveryTasks.mpr ⟨p, e, departure.upper, reaches, by rw [tripped]; exact nofun, by rw [evaluated]⟩
  have start : Restoring a w p e (restoreStamps a e [x]) sent { state := a, sent } (a.deliveryTasks [x]) := by
    refine ⟨.refl a, .refl a, fun t mem => ?_, fun _ _ _ => rfl, .inl ⟨rfl, rfl, rfl, owed⟩,
      .inl ⟨rfl, .inr (.inr (by rw [tripped]; rfl))⟩⟩
    obtain ⟨v, c, definition, -, enabled, rfl⟩ := mem_deliveryTasks.mp mem
    by_cases sameW : v = w
    · subst sameW
      cases definition.symm.trans departure.pair.definition
      exact .lower _ (evaluateDelivery_departs departure.pair.named (departure.departsAt on fails))
    · by_cases sameP : v = p
      · subst sameP
        cases definition.symm.trans departure.upper
        rw [evaluated]
        exact .upper
      · exact absurd (departure.pair.others v sameW sameP) enabled
  refine runTasks_keepsAll (cost := restoreCost p)
    (fun k ts n h => ⟨h.outside.trans rfl, h.same, h.tasks, h.others, h.upper, h.lower⟩)
    (fun k ts i t h at_i => h.task departure at_i) taskFuel _ _ ?_ start
  have each : ∀ n ∈ (a.deliveryTasks [x]).map (restoreCost p), n ≤ 18 := fun n mem => by
    obtain ⟨t, -, rfl⟩ := List.mem_map.mp mem
    unfold restoreCost
    split
    · split <;> omega
    · omega
    · omega
    · omega
  have sum := List.sum_le_card_nsmul _ 18 each
  rw [List.length_map, smul_eq_mul] at sum
  have few := deliveryTasks_length a [x]
  exact sum.trans ((Nat.mul_le_mul_right 18 few).trans (by decide))

end

omit departure in
/-- The restore, once it is over. -/
theorem Restoring.done {k : Work} (h : Restoring a w p e stamps sent k []) :
    k.state.watches[w] = { a.watches[w] with state := .armed }
    ∧ k.state.watches[p] = { a.watches[p] with state := .armed }
    ∧ k.state.outputs = (releaseDrive p a).outputs
    ∧ ∃ stamp, (∀ captured, stamps = [captured] → stamp = captured)
      ∧ k.sent = sent ++ (restoreRecords p e stamp a.front.filteredMap).map ([·]) := by
  obtain ⟨upper, outputs, sent⟩ := h.upper.resolve_left fun ⟨_, _, _, owed⟩ => List.not_mem_nil owed
  refine ⟨h.lower.resolve_left fun ⟨_, owed⟩ => ?_, upper, outputs, sent⟩
  obtain ⟨E, acts⟩ | departs | tripped := owed
  · exact List.not_mem_nil acts
  · exact List.not_mem_nil departs
  · rw [upper] at tripped
    cases tripped

end

/-! ## The sample -/

theorem Departure.armed_eq {a : State} {w p : Fin 16} {d e : WatchDef} (departure : Departure a w p d e) {v : Fin 16}
    (armed : a.watches[v].state = .armed) : v = w := by
  by_contra notW
  by_cases sameP : v = p
  · obtain ⟨onset, tripped⟩ := departure.tripped
    rw [sameP, tripped] at armed
    cases armed
  · rw [departure.pair.others v notW sameP] at armed
    cases armed

/-- A delivery that is itself the departure trips no dependent (R56). -/
theorem Departure.tripsDependent {a : State} {w p : Fin 16} {d e : WatchDef} (departure : Departure a w p d e)
    {edges : List Edge} (departs : a.departsAt edges p = true) (q : Fin 16) : a.tripsDependent edges q = false := by
  refine Bool.eq_false_iff.mpr fun trips => ?_
  obtain ⟨v, c, definition, armed, -, named, -, -⟩ := tripsDependent_prerequisite trips
  obtain rfl := departure.armed_eq armed
  cases definition.symm.trans departure.pair.definition
  cases departure.pair.named.symm.trans named
  simp only [State.tripsDependent, departs, Bool.not_true, Bool.false_and, Bool.false_eq_true] at trips

/-- No request comes before a sample whose delivery is itself the departure (R56). -/
theorem requestsFirst_departs {s : State} {w p : Fin 16} {d e : WatchDef} (departure : Departure s.sampled w p d e)
    (departs : s.sampled.departsAt s.sampleEdges p = true) : s.requestsFirst = false := by
  refine Bool.eq_false_iff.mpr fun first => ?_
  simp only [State.requestsFirst, Bool.and_eq_true, List.any_eq_true] at first
  obtain ⟨-, q, -, -, trips⟩ := first
  exact Bool.eq_false_iff.mp (departure.tripsDependent departs q) trips

theorem arrived_congr {s t : State} (time : t.time = s.time) (journal : t.journal = s.journal) (records : List Draft) :
    arrived t records = arrived s records := by
  rw [arrived, arrived, time, journal]

section
variable {c : Instr} {s : State} {i : Fin 32} {captured : Stamp} {w p : Fin 16} {d e : WatchDef} (lone : LoneEdge s i captured)
  (departure : Departure s w p d e) (on : e.lineSet.getLsbD i.val = true) (fails : ¬ PatternHolds (settled s i) e)
include lone departure on fails

omit lone departure on in
theorem settled_fails : (settled s i).pattern e = false := Bool.eq_false_iff.mpr fun holds => fails (pattern_iff.mp holds)

theorem loneEdge_requestsFirst : s.requestsFirst = false := by
  have settledDeparture : Departure (settled s i) w p d e := departure.congr rfl
  refine requestsFirst_departs (departure.congr (sampled_watches s)) ?_
  rw [loneEdge_sampled lone, loneEdge_edges lone]
  exact settledDeparture.departsAt on (settled_fails fails)

/-- The sample whose edge restores the prerequisite. -/
theorem takeSample_restores :
    (takeSample s).watches[w] = { s.watches[w] with state := .armed }
    ∧ (takeSample s).watches[p] = { s.watches[p] with state := .armed }
    ∧ (takeSample s).outputs = (releaseDrive p s).outputs
    ∧ ∃ stamp, (∀ captured', restoreStamps (settled s i) e [edgeAt s i captured] = [captured'] → stamp = captured')
      ∧ EitherOrder s (edgeRecords s.front.lines[i].config.recording i (rawLevel s i) captured false)
          (restoreRecords p e stamp (settled s i).front.filteredMap) (takeSample s).journal := by
  have settledDeparture : Departure (settled s i) w p d e := departure.congr rfl
  have taken := loneEdge_takeSample lone
  have restores := deliver_restores settledDeparture (x := edgeAt s i captured) on (settled_fails fails)
    [edgeRecords s.front.lines[i].config.recording i (rawLevel s i) captured false]
  generalize deliver [edgeAt s i captured] { state := settled s i, sent := _ } = k at taken restores
  obtain ⟨lower, upper, outputs, stamp, single, sent⟩ := restores.done
  obtain ⟨j, n, finished, order⟩ := finish_either k.state
    (edgeRecords_cases s.front.lines[i].config.recording i (rawLevel s i) captured false)
    (restoreRecords_cases p e stamp (settled s i).front.filteredMap)
  have final : takeSample s = { k.state with journal := j, choices := n } := by
    rw [taken, ← finished, ← sent]
  rw [EitherOrder, arrived_congr (s := s) restores.outside.time restores.outside.journal,
    arrived_congr (s := s) restores.outside.time restores.outside.journal] at order
  rw [final]
  exact ⟨lower, upper, outputs.trans (releaseDrive_outputs rfl), stamp, single, order⟩

end

/-- Settles O16: by the prerequisite, and whether it departs at the delivery or before it. -/
theorem edgeReachesWatch : Obligations.EdgeReachesWatch := by
  intro c s i captured w d lone takes definition on
  refine ⟨fun root chain alone => ?_, fun root others edge records => ⟨fun armed qualify holds formed => ?_,
    fun onset tripped fails formed => ?_⟩, fun p onset named apart tripped off others armed holds formed began edge begins
    records => ?_, fun p e onset named apart upper tripped auto onP fails formed others lower => ?_⟩
  · obtain ⟨t, executed, qualifies, failing, holding, disabled⟩ :=
      edge_reaches_root lone takes definition on root chain alone
    refine ⟨t, executed, qualifies, fun armed fails => ?_, fun onset timer qualifying fails => ?_,
      fun onset timer qualifying holds => ?_, fun onset tripped fails => ?_, fun onset tripped holds => ?_,
      fun onset held => ?_, disabled⟩
    · rw [failing fails (by rw [armed]; exact nofun), failed, armed]
    · rw [failing fails (by rw [qualifying]; exact nofun), failed, qualifying]
    · exact holding holds (by rw [qualifying]; exact nofun) (by rw [qualifying]; exact nofun)
    · rw [failing fails (by rw [tripped]; exact nofun), failed, tripped]
    · exact holding holds (by rw [tripped]; exact nofun) (by rw [tripped]; exact nofun)
    · by_cases holds : PatternHolds (settled s i) d
      · exact holding holds (by rw [held]; exact nofun) (by rw [held]; exact nofun)
      · rw [failing holds (by rw [held]; exact nofun), failed, held]
  · rw [records]
    exact edge_trips_root lone takes definition on root others armed qualify holds formed
  · rw [records]
    exact edge_restores_root lone takes definition on root others tripped fails formed
  · have pair : Pair s w p d := ⟨definition, named, apart, others⟩
    have isTripped := isTripped_of tripped
    subst begins records
    refine ⟨fun qualify => ?_, fun qualify alone empty => ?_, fun f rest qualify payload => ⟨fun waiting => ?_,
      fun waiting held fails => ?_, fun waiting tripped alone => ?_⟩⟩
    · have alone : SampleAlone s := .inr fun v q e definition' armed' zero named' => by
        by_cases sameW : v = w
        · subst sameW
          cases definition.symm.trans definition'
          exact absurd zero qualify
        · by_cases sameP : v = p
          · rw [sameP] at armed'
            rw [armed'] at isTripped
            cases isTripped
          · cases (others v sameW sameP).symm.trans armed'
      exact ⟨_, loneEdge_exec lone takes (requestsFirst_alone alone),
        takeSample_qualifies lone pair armed off on isTripped holds formed qualify⟩
    · have alone' : SampleAlone s := .inl fun f mem => by
        rw [empty] at mem
        cases mem
      exact ⟨_, loneEdge_exec lone takes (requestsFirst_alone alone'),
        takeSample_trips lone pair armed off on isTripped holds formed qualify alone⟩
    · obtain ⟨u, dispatches, gone, rest', released, frame⟩ := disableWatchReleases f rest p s waiting payload
      have kept (v : Fin 16) (notP : v ≠ p) (idle : ∀ onset timer, s.watches[v].state ≠ .qualifying onset timer) :
          u.watches[v] = s.watches[v] :=
        (rest' v notP).2 (.inr fun ⟨_, onset, timer, qualifying⟩ => idle onset timer qualifying)
      have keptW := kept w apart.symm (by rw [armed]; exact nofun)
      obtain ⟨executed, journal, front⟩ := departure_comes_first lone takes pair armed off on isTripped holds qualify
        waiting (requestDeparts_disableWatch waiting payload) dispatches frame (by rw [gone]; rfl) (by rw [gone]) keptW
        fun v notW notP => by rw [kept v notP (by rw [others v notW notP]; exact nofun), others v notW notP]
      exact ⟨u, dispatches, executed, keptW, journal, front, fun o => (released o).2⟩
    · obtain ⟨u, dispatches, gone, rest', released, frame⟩ := exec_rearmWatch_departs waiting payload held fails
      have kept (v : Fin 16) (notP : v ≠ p) (idle : ∀ onset timer, s.watches[v].state ≠ .qualifying onset timer) :
          u.watches[v] = s.watches[v] :=
        (rest' v notP).2 fun ⟨_, onset, timer, qualifying⟩ => idle onset timer qualifying
      have keptW := kept w apart.symm (by rw [armed]; exact nofun)
      obtain ⟨executed, journal, front⟩ := departure_comes_first lone takes pair armed off on isTripped holds qualify
        waiting (requestDeparts_rearmWatch waiting payload held) dispatches frame (by rw [gone]; rfl) (by rw [gone]) keptW
        fun v notW notP => by rw [kept v notP (by rw [others v notW notP]; exact nofun), others v notW notP]
      refine ⟨u, dispatches, executed, keptW, journal, front, fun o foreign => (released o).2 fun driven => foreign ?_⟩
      cases owner : s.outputs[o].owner with
      | drive v level =>
        rw [owner] at driven
        exact driven
      | _ =>
        rw [owner] at driven
        cases driven
    · exact edge_trips_refused lone takes pair armed off on isTripped holds formed qualify alone waiting
        ((rearmWatchEvaluates f [] p s waiting payload).1 onset tripped)
  · have pair : Pair s w p d := ⟨definition, named, apart, others⟩
    have departure : Departure s w p d e := ⟨pair, upper, ⟨onset, tripped⟩, auto, lower⟩
    obtain ⟨watch, prerequisite, outputs, stamp, single, order⟩ := takeSample_restores lone departure onP fails
    have stamped : stamp = captured :=
      single captured (restoreStamps_single (x := edgeAt s i captured) (settled_fails fails) formed)
    subst stamped
    refine ⟨_, loneEdge_exec lone takes (loneEdge_requestsFirst lone departure onP fails), watch, prerequisite, fun o => ?_,
      order⟩
    rw [outputs]
    exact releaseDrive_output p s o

end Sys2Proof.Machine
end

section
/-! PROOF. The end of suppressions by a CONFIGURE_LINES (R36, R37): what it does to the lines, to watches under a
prerequisite, and to the journal. -/

namespace Sys2Proof.Machine

open Sys2Proof.Claims

/-! ## Records that are no TRIP records -/

/-- A record of another kind than TRIP. -/
def NoTrip (r : Draft) : Prop := ∀ v began outcome count snapshot, r.body ≠ .trip v began outcome count snapshot

theorem mem_held_enter {j : Journal} {r : Draft} {h : Held} (mem : h ∈ (j.enter r).held) : h ∈ j.held ∨ h.record = r := by
  obtain old | new := List.mem_append.mp mem
  · exact .inl old
  · exact .inr (by rw [List.mem_singleton.mp new])

theorem mem_held_arrivePlain {j : Journal} {r : Draft} {h : Held} (mem : h ∈ (j.arrivePlain r).held) :
    h ∈ j.held ∨ h.record = r := by
  unfold Journal.arrivePlain at mem
  split at mem
  · unfold Journal.arriveFull at mem
    split at mem
    · exact .inl mem
    · split at mem
      · exact (mem_held_enter mem).imp_left List.mem_of_mem_eraseP
      · exact .inl mem
  · exact mem_held_enter mem

/-- What the journal holds after an arrival it held before, or it is the record that arrives, or a GAP record (R11, R15). -/
theorem mem_held_arrive {j : Journal} {now : Stamp} {r : Draft} {h : Held} (mem : h ∈ (j.arrive now r).held) :
    h ∈ j.held ∨ h.record = r ∨ ∃ lost displaced, h.record.body = .gap lost displaced := by
  unfold Journal.arrive at mem
  split at mem
  · obtain inGap | arrived := mem_held_arrivePlain mem
    · obtain old | gap := mem_held_enter inGap
      · exact .inl old
      · exact .inr (.inr ⟨_, _, by rw [gap]⟩)
    · exact .inr (.inl arrived)
  · exact (mem_held_arrivePlain mem).imp_right .inl

theorem noNewTrip_trans {s t u : State} (first : NoNewTrip s t) (second : NoNewTrip t u) : NoNewTrip s u :=
  fun h mem trip => first h (second h mem trip) trip

theorem noNewTrip_of_journal {s t : State} (same : t.journal = s.journal) : NoNewTrip s t := fun _ mem _ => same ▸ mem

theorem arrive_noNewTrip {r : Draft} (other : NoTrip r) (s : State) : NoNewTrip s (s.arrive r) := by
  intro h mem trip
  obtain ⟨v, began, outcome, count, snapshot, body⟩ := trip
  obtain old | record | ⟨lost, displaced, gap⟩ := mem_held_arrive mem
  · exact old
  · exact absurd (record ▸ body) (other v began outcome count snapshot)
  · cases gap.symm.trans body

theorem arriveTogether_noNewTrip (fuel : Nat) (streams : List (List Draft)) (s : State)
    (others : ∀ stream ∈ streams, ∀ r ∈ stream, NoTrip r) : NoNewTrip s (arriveTogether fuel streams s) := by
  induction fuel generalizing streams s with
  | zero => exact noNewTrip_of_journal rfl
  | succ fuel ih =>
    unfold arriveTogether
    dsimp only
    obtain ⟨n, drawn⟩ := s.choose_eq (streams.filter fun rs => !rs.isEmpty).length
    have unchanged : NoNewTrip s (s.choose (streams.filter fun rs => !rs.isEmpty).length).2 :=
      noNewTrip_of_journal (by rw [drawn])
    split
    · next r rest at_choice =>
      have stream := others _ (List.mem_of_mem_filter (List.mem_of_getElem? at_choice))
      refine noNewTrip_trans unchanged (noNewTrip_trans (arrive_noNewTrip (stream r List.mem_cons_self) _) (ih _ _ ?_))
      intro others' mem r' inside
      obtain old | rfl := List.mem_or_eq_of_mem_set mem
      · exact others _ (List.mem_of_mem_filter old) r' inside
      · exact stream r' (List.mem_cons_of_mem r inside)
    · exact unchanged

/-- What has been sent so far holds no TRIP record. -/
def SentNoTrip (sent : List (List Draft)) : Prop := ∀ stream ∈ sent, ∀ r ∈ stream, NoTrip r

theorem finish_noNewTrip {k : Work} (others : SentNoTrip k.sent) : NoNewTrip k.state k.finish :=
  arriveTogether_noNewTrip _ _ _ others

theorem SentNoTrip.append {sent more : List (List Draft)} (first : SentNoTrip sent) (second : SentNoTrip more) :
    SentNoTrip (sent ++ more) :=
  fun stream mem => (List.mem_append.mp mem).elim (first stream) (second stream)

theorem edgeRecords_noTrip {recording : Recording} {i : Fin 32} {level : Level} {stamp : Stamp} {recovered : Bool} :
    ∀ r ∈ edgeRecords recording i level stamp recovered, NoTrip r := by
  cases recording <;> simp [edgeRecords, NoTrip]

theorem restoreRecords_noTrip {w : Fin 16} {d : WatchDef} {stamp : Stamp} {snapshot : LineMap} :
    SentNoTrip ((restoreRecords w d stamp snapshot).map ([·])) := by
  unfold SentNoTrip restoreRecords
  cases d.restore <;> simp [NoTrip]

/-! ## The end of one suppression -/

/-- The part once the suppression of line `x` has ended (R36, R37). -/
def ended (x : Fin 32) (s : State) : State :=
  s.setLine x { s.front.lines[x] with filtered := s.front.lines[x].raw, filter := .stable, chatter := .quiet }

/-- The RECOVERED edge of line `x` (R37). -/
def recoveredEdge (x : Fin 32) (s : State) : Edge :=
  { line := x, level := s.front.lines[x].raw, stamp := s.time.now, recovered := true }

/-- The records that the end of a suppression sends (R31, R36). -/
def endRecords (x : Fin 32) (s : State) : List Draft :=
  (if s.front.lines[x].raw = s.front.lines[x].filtered then []
    else edgeRecords s.front.lines[x].config.recording x s.front.lines[x].raw s.time.now true)
    ++ [{ cls := .routine, stamp := s.time.now, body := .chatterOff x }]

theorem endRecords_noTrip (x : Fin 32) (s : State) : SentNoTrip [endRecords x s] := by
  intro stream mem r inside
  rw [List.mem_singleton.mp mem] at inside
  obtain edge | off := List.mem_append.mp inside
  · split at edge
    · cases edge
    · exact edgeRecords_noTrip r edge
  · rw [List.mem_singleton.mp off]
    exact fun _ _ _ _ _ => nofun

theorem endAtTaking_eq (x : Fin 32) (k : Work) :
    endAtTaking x k
      = deliver (if k.state.front.lines[x].raw = k.state.front.lines[x].filtered then [] else [recoveredEdge x k.state])
          { state := ended x k.state, sent := k.sent ++ [endRecords x k.state] } := by
  rw [endAtTaking, endSuppression_eq]
  dsimp only
  congr 1
  split <;> rfl

theorem endAtTaking_recovers {x : Fin 32} {k : Work}
    (differs : k.state.front.lines[x].raw ≠ k.state.front.lines[x].filtered) :
    endAtTaking x k
      = deliver [recoveredEdge x k.state] { state := ended x k.state, sent := k.sent ++ [endRecords x k.state] } := by
  rw [endAtTaking_eq, if_neg differs]

theorem endAtTaking_disabled {x : Fin 32} {k : Work} (disabled : AllDisabled k.state) :
    endAtTaking x k = { state := ended x k.state, sent := k.sent ++ [endRecords x k.state] } := by
  rw [endAtTaking_eq]
  exact deliver_none fun v => .inl (disabled v)

theorem ended_line_other {x y : Fin 32} (other : y ≠ x) (s : State) : (ended x s).front.lines[y] = s.front.lines[y] :=
  Vector.getElem_set_ne x.isLt y.isLt fun same => other (Fin.ext same.symm)

theorem ended_line_same (x : Fin 32) (s : State) :
    (ended x s).front.lines[x]
      = { s.front.lines[x] with filtered := s.front.lines[x].raw, filter := .stable, chatter := .quiet } :=
  Vector.getElem_set_self x.isLt

/-- The pattern as the watches see it once a suppression has ended. -/
theorem pattern_ended {s u : State} {c : WatchDef} {x : Fin 32} (raw : u.front.lines[x].raw = s.front.lines[x].raw)
    (same : ∀ k : Fin 32, c.lineSet.getLsbD k.val = true → u.front.lines[k].filtered = s.front.lines[k].filtered) :
    (ended x u).pattern c = (recoveredLine s x).pattern c := by
  refine pattern_filtered fun k on => ?_
  by_cases own : k = x
  · subst own
    have after : (recoveredLine s k).front.lines[k] = { s.front.lines[k] with filtered := s.front.lines[k].raw } :=
      Vector.getElem_set_self k.isLt
    rw [ended_line_same, after]
    exact raw
  · have after : (recoveredLine s x).front.lines[k] = s.front.lines[k] :=
      Vector.getElem_set_ne x.isLt k.isLt fun at_x => own (Fin.ext at_x.symm)
    rw [ended_line_other own, after]
    exact same k on

/-! ## The ends of one and of two suppressions -/

theorem endSuppressions_one (x : Fin 32) (k : Work) : endSuppressions 1 [x] k = endAtTaking x k := by
  have next : k.state.endsNext [x] = [x] := by
    rw [State.endsNext, List.filter_cons, List.filter_nil]
    cases (!k.state.endsLater ([x].erase x) x) <;> rfl
  rw [endSuppressions, next]
  dsimp only
  rw [List.length_singleton, State.choose_one _ (Nat.le_refl 1)]
  rfl

/-- Of two lines, one that need not come later: either order, but for the other that must. -/
theorem endSuppressions_two {x y : Fin 32} {lines : List (Fin 32)} (two : lines.Perm [x, y]) (apart : x ≠ y) {k : Work}
    (first : k.state.endsLater [y] x = false) :
    ∃ n, endSuppressions 2 lines k = endAtTaking y (endAtTaking x { k with state := { k.state with choices := n } })
      ∨ k.state.endsLater [x] y = false
        ∧ endSuppressions 2 lines k = endAtTaking x (endAtTaking y { k with state := { k.state with choices := n } }) := by
  have without_x : lines.erase x = [y] := by
    refine List.perm_singleton.mp ((two.erase x).trans ?_)
    rw [List.erase_cons_head]
  have without_y : lines.erase y = [x] := by
    refine List.perm_singleton.mp ((two.erase y).trans ?_)
    rw [List.erase_cons_tail (by simpa using apart), List.erase_cons_head]
  have inside : x ∈ lines.filter fun i => !k.state.endsLater (lines.erase i) i :=
    List.mem_filter.mpr ⟨two.mem_iff.mpr List.mem_cons_self, by rw [without_x, first]; rfl⟩
  have next : k.state.endsNext lines = lines.filter fun i => !k.state.endsLater (lines.erase i) i := by
    unfold State.endsNext
    split
    · next none =>
      rw [none] at inside
      cases inside
    · rfl
  obtain ⟨n, drawn⟩ := k.state.choose_eq (k.state.endsNext lines).length
  have bound := k.state.choose_lt (n := (k.state.endsNext lines).length)
    (by rw [next]; exact List.length_pos_of_mem inside)
  rcases chosen : k.state.choose (k.state.endsNext lines).length with ⟨c, u⟩
  rw [chosen] at drawn bound
  subst drawn
  have at_choice : (k.state.endsNext lines)[c]? = some (k.state.endsNext lines)[c] := List.getElem?_eq_getElem bound
  have among : (k.state.endsNext lines)[c] ∈ lines.filter fun i => !k.state.endsLater (lines.erase i) i :=
    next ▸ List.getElem_mem bound
  generalize (k.state.endsNext lines)[c] = z at at_choice among
  have step : endSuppressions 2 lines k
      = endSuppressions 1 (lines.erase z) (endAtTaking z { k with state := { k.state with choices := n } }) := by
    rw [endSuppressions, chosen]
    dsimp only
    rw [at_choice]
  obtain ⟨mem, early⟩ := List.mem_filter.mp among
  refine ⟨n, ?_⟩
  obtain rfl | at_y := List.mem_cons.mp (two.mem_iff.mp mem)
  · exact .inl (by rw [step, without_x, endSuppressions_one])
  · obtain rfl := List.mem_singleton.mp at_y
    rw [without_y] at early
    exact .inr ⟨by simpa using early, by rw [step, without_y, endSuppressions_one]⟩

end Sys2Proof.Machine
end

section
/-! PROOF. The end of a suppression whose RECOVERED edge reaches a watch or its prerequisite (R37, R54, R56, R73). -/

namespace Sys2Proof.Machine

open Sys2Proof.Claims

/-- An ARMED watch under a prerequisite that is TRIPPED or HELD begins to qualify, with the onset formed or a free one. -/
theorem act_armed_begins {w : Fin 16} {d : WatchDef} {k : Work} (definition : k.state.watches[w].definition = some d)
    (armed : k.state.watches[w].state = .armed) (ready : k.state.prerequisiteTripped d = true) (qualify : d.qualify ≠ 0)
    (onset : Option TimeValue) :
    ∃ (began : TimeValue) (n : Nat), act w (.holds onset) k
      = (Work.mk (({ k.state with choices := n } : State).setWatchState w (.qualifying began ⟨d.qualify, false⟩)) k.sent,
          []) := by
  have begins : act w (.holds onset) k = becomeTrue w d onset k := by
    rw [act, definition]
    dsimp only
    rw [armed]
    exact if_pos ready
  have qualifies : (becomeTrue w d onset k)
      = (Work.mk ((k.state.pickOnset onset).2.setWatchState w (.qualifying (k.state.pickOnset onset).1 ⟨d.qualify, false⟩))
          k.sent, []) := by
    rw [becomeTrue]
    dsimp only
    exact if_neg qualify
  cases onset with
  | none => exact ⟨_, _, begins.trans qualifies⟩
  | some onset => exact ⟨onset, k.state.choices, begins.trans qualifies⟩

section
variable {k : Work} {x : Fin 32} {w p : Fin 16} {d e : WatchDef}
  (differs : k.state.front.lines[x].raw ≠ k.state.front.lines[x].filtered)
include differs

/-- With the prerequisite neither TRIPPED nor HELD, the edge reaches no watch. -/
theorem endAtTaking_untripped (pair : Pair k.state w p d) (armed : k.state.watches[w].state = .armed)
    (off : ∀ e, k.state.watches[p].definition = some e → e.lineSet.getLsbD x.val = false)
    (untripped : k.state.watches[p].state.isTripped = false) :
    endAtTaking x k = { state := ended x k.state, sent := k.sent ++ [endRecords x k.state] } := by
  have endedPair : Pair (ended x k.state) w p d := pair.congr rfl
  rw [endAtTaking_recovers differs]
  exact endedPair.deliver_untripped (x := recoveredEdge x k.state) armed off untripped _

section
variable (pair : Pair k.state w p d) (armed : k.state.watches[w].state = .armed)
  (off : ∀ e, k.state.watches[p].definition = some e → e.lineSet.getLsbD x.val = false)
  (on : d.lineSet.getLsbD x.val = true) (tripped : k.state.watches[p].state.isTripped = true)
  (holds : (ended x k.state).pattern d = true)
include pair armed off on tripped holds

/-- The edge makes the condition true: the watch begins to qualify, and its prerequisite and the outputs are as they were. -/
theorem endAtTaking_begins (qualify : d.qualify ≠ 0) :
    ∃ (began : TimeValue) (n : Nat), endAtTaking x k
      = { state := ({ ended x k.state with choices := n } : State).setWatchState w (.qualifying began ⟨d.qualify, false⟩)
          sent := k.sent ++ [endRecords x k.state] } := by
  have endedPair : Pair (ended x k.state) w p d := pair.congr rfl
  obtain ⟨began, n, acts⟩ := act_armed_begins (k := { state := ended x k.state, sent := k.sent ++ [endRecords x k.state] })
    endedPair.definition armed (endedPair.ready tripped) qualify
    ((patternOnset d [recoveredEdge x k.state]).map ((ended x k.state).onsetFrom d))
  refine ⟨began, n, ?_⟩
  rw [endAtTaking_recovers differs, endedPair.deliver_holds (x := recoveredEdge x k.state) armed off on tripped holds]
  exact run_act acts

/-- With an onset formed by the edge, that is the later of its time and the prerequisite's trip time (R54). -/
theorem endAtTaking_qualifies (qualify : d.qualify ≠ 0)
    (formed : d.sense = .matching ∨ k.state.front.lines[x].raw ≠ levelIn d.reference x) :
    endAtTaking x k
      = { state := (ended x k.state).setWatchState w
            (.qualifying (laterTime k.state.time.time k.state.watches[p].tripTime) ⟨d.qualify, false⟩)
          sent := k.sent ++ [endRecords x k.state] } := by
  have endedPair : Pair (ended x k.state) w p d := pair.congr rfl
  rw [endAtTaking_recovers differs]
  exact endedPair.deliver_qualifies (x := recoveredEdge x k.state) armed off on tripped holds formed qualify _

end

/-- What the end of a suppression leaves whose edge restores the prerequisite under AUTO. -/
structure EndRestores (w p : Fin 16) (x : Fin 32) (k t : Work) : Prop where
  outside : SameOutside (ended x k.state) t.state
  lower   : t.state.watches[w] = { k.state.watches[w] with state := .armed }
  upper   : t.state.watches[p] = { k.state.watches[p] with state := .armed }
  others  : ∀ v, v ≠ w → v ≠ p → t.state.watches[v] = k.state.watches[v]
  outputs : t.state.outputs = (releaseDrive p k.state).outputs
  sent    : SentNoTrip k.sent → SentNoTrip t.sent

theorem endAtTaking_restores (departure : Departure k.state w p d e) (on : e.lineSet.getLsbD x.val = true)
    (fails : (ended x k.state).pattern e = false) : EndRestores w p x k (endAtTaking x k) := by
  have endedDeparture : Departure (ended x k.state) w p d e := departure.congr rfl
  have restores := deliver_restores endedDeparture (x := recoveredEdge x k.state) on fails
    (k.sent ++ [endRecords x k.state])
  rw [endAtTaking_recovers differs]
  generalize deliver [recoveredEdge x k.state] { state := ended x k.state, sent := _ } = t at restores
  obtain ⟨lower, upper, outputs, stamp, -, sent⟩ := restores.done
  refine ⟨restores.outside, lower, upper, restores.others, outputs.trans (releaseDrive_outputs rfl), fun before => ?_⟩
  rw [sent]
  exact (before.append (endRecords_noTrip x k.state)).append restoreRecords_noTrip

end

/-- The prerequisite has departed: the watch under it is ARMED, and no prerequisite is TRIPPED or HELD. -/
theorem EndRestores.pair {w p : Fin 16} {x : Fin 32} {k t : Work} {d e : WatchDef} (restores : EndRestores w p x k t)
    (departure : Departure k.state w p d e) : Pair t.state w p d := by
  obtain ⟨definition, named, apart, others⟩ := departure.pair
  refine ⟨?_, named, apart, fun v notW notP => ?_⟩
  · rw [restores.lower]
    exact definition
  · rw [restores.others v notW notP]
    exact others v notW notP

end Sys2Proof.Machine
end

section
/-! PROOF. CONFIGURE_LINES where it ends suppressions, with watches that its RECOVERED edges reach (R37, R54, R56, R73). -/

namespace Sys2Proof.Machine

open Sys2Proof.Claims

/-! ## The lines with their new configuration -/

/-- The part once its lines have their new configuration, with every suppression still to end (R39). -/
def reconfigured (r : ConfigureLines) (s : State) : State :=
  { s with front := { s.front with lines := configuredLines r s.front.lines } }

theorem reconfigured_frame (r : ConfigureLines) (s : State) : reconfigured r s = { s with front := (reconfigured r s).front } := by
  simp only [reconfigured]

theorem reconfigured_sampleDue (r : ConfigureLines) (s : State) :
    (reconfigured r s).front.sampleDue = s.front.sampleDue := by rw [reconfigured]

theorem configureLines_reconfigured (r : ConfigureLines) (s : State) :
    configureLines r s
      = (endSuppressions (s.endedBy r).length (s.endedBy r) { state := reconfigured r s, sent := [] }).finish := rfl

theorem reconfigured_line (r : ConfigureLines) (s : State) (x : Fin 32) :
    (reconfigured r s).front.lines[x]
      = if covers r x = true then s.front.lines[x].configure (newConfig r) else s.front.lines[x] :=
  getElem_ofFn_fin _ x

/-- Two states whose lines have the same raw and filtered levels. -/
def SameLevels (s t : State) : Prop :=
  ∀ x : Fin 32, t.front.lines[x].raw = s.front.lines[x].raw ∧ t.front.lines[x].filtered = s.front.lines[x].filtered

theorem reconfigured_levels (r : ConfigureLines) (s : State) : SameLevels s (reconfigured r s) := fun x => by
  rw [reconfigured_line]
  split <;> exact ⟨rfl, rfl⟩

section
variable {r : ConfigureLines} {s : State}

theorem endedBy_perm {lines : List (Fin 32)} (nodup : lines.Nodup) (mem : ∀ x, x ∈ s.endedBy r ↔ x ∈ lines) :
    (s.endedBy r).Perm lines :=
  (List.perm_ext_iff_of_nodup ((List.nodup_finRange 32).filter _) nodup).mpr mem

theorem not_mem_endedBy {x : Fin 32} (unsuppressed : ∀ left, s.front.lines[x].chatter ≠ .suppressed left) :
    x ∉ s.endedBy r := fun mem => by
  obtain ⟨-, ⟨left, suppressed⟩, -⟩ := mem_endedBy.mp mem
  exact unsuppressed left suppressed

theorem endedBy_single {x : Fin 32} (inside : x ∈ s.endedBy r) (others : ∀ k, k ≠ x → k ∉ s.endedBy r) :
    s.endedBy r = [x] := by
  refine List.perm_singleton.mp (endedBy_perm (List.nodup_singleton x) fun k => ⟨fun mem => ?_, fun mem => ?_⟩)
  · by_contra other
    exact others k (fun same => other (List.mem_singleton.mpr same)) mem
  · rw [List.mem_singleton.mp mem]
    exact inside

/-- One suppression ends. -/
theorem configureLines_single {x : Fin 32} (single : s.endedBy r = [x]) :
    configureLines r s = (endAtTaking x { state := reconfigured r s, sent := [] }).finish := by
  rw [configureLines_reconfigured, single, List.length_singleton, endSuppressions_one]

/-- With no watch that a delivery may trip at once, the sample does not come first. -/
theorem sampleFirst_untripping (never : ∀ p w, s.tripsAtOnce p w = false) : s.sampleFirst r = false := by
  refine Bool.eq_false_iff.mpr fun first => ?_
  simp only [State.sampleFirst, State.mayTripDependent, Bool.and_eq_true, List.any_eq_true, never, Bool.false_eq_true,
    false_and, and_false, exists_false] at first

/-- What the command leaves, with the queue of requests as it was but for its own frame. -/
theorem exec_configureLines {f : Frame} {rest : List Frame} (waiting : Waiting .configureLines f rest s)
    (payload : f.payload = encodeConfigureLines r) (wellFormed : r.wellFormed = true) :
    exec .configureLines s = .next (replied f rest 0x00 [] none
      { (takeConfigureLines r s.popRequest).state with dispatcher := s.dispatcher }) := by
  have parsed : parseConfigureLines f.payload = .ok r := by rw [payload, parseConfigureLines_encode wellFormed]
  have served : serve .configureLines f.payload s.popRequest = .ok (takeConfigureLines r s.popRequest) := by
    simp only [serve, parsed, Except.map]
  have dispatcher := (takeConfigureLines_change r s.popRequest).dispatcher
  refine exec_command_served (k := .configureLines) waiting served ?_
  rw [popRequest_of_front waiting.dispatchable.front] at dispatcher ⊢
  generalize (takeConfigureLines r _).state = t at dispatcher ⊢
  exact congrArg (fun queues => { t with dispatcher := queues }) dispatcher

end

/-! ## Two suppressions, one of which restores the prerequisite -/

/-- The events of one taking, as far as they have come: the prerequisite has departed, the watch under it is as it was, and
no TRIP record has been sent. -/
structure BothEnded (s : State) (w p : Fin 16) (k : Work) : Prop where
  lower   : k.state.watches[w] = s.watches[w]
  upper   : k.state.watches[p] = { s.watches[p] with state := .armed }
  outputs : k.state.outputs = (releaseDrive p s).outputs
  journal : k.state.journal = s.journal
  sent    : SentNoTrip k.sent

theorem BothEnded.congr {s a : State} {w p : Fin 16} {k : Work} (h : BothEnded a w p k) (frame : a = { s with front := a.front }) :
    BothEnded s w p k := by
  have watches : a.watches = s.watches := by rw [frame]
  have outputs : a.outputs = s.outputs := by rw [frame]
  have journal : a.journal = s.journal := by rw [frame]
  obtain ⟨lower, upper, released, unchanged, sent⟩ := h
  rw [watches] at lower upper
  exact ⟨lower, upper, released.trans (releaseDrive_outputs outputs), unchanged.trans journal, sent⟩

theorem sentNoTrip_nil : SentNoTrip [] := fun _ mem => nomatch mem

theorem lines_apart {e : WatchDef} {i j : Fin 32} (onI : e.lineSet.getLsbD i.val = true)
    (offJ : e.lineSet.getLsbD j.val = false) : j ≠ i := by
  rintro rfl
  rw [onI] at offJ
  cases offJ

theorem SameLevels.differs {s a : State} {x : Fin 32} (levels : SameLevels s a)
    (differs : s.front.lines[x].raw ≠ s.front.lines[x].filtered) : a.front.lines[x].raw ≠ a.front.lines[x].filtered := by
  rw [(levels x).1, (levels x).2]
  exact differs

theorem SameLevels.pattern {s a : State} (levels : SameLevels s a) (c : WatchDef) (x : Fin 32) :
    (ended x a).pattern c = (recoveredLine s x).pattern c :=
  pattern_ended (levels x).1 fun k _ => (levels k).2

section
variable {s a : State} {w p : Fin 16} {d e : WatchDef} {i j : Fin 32} (levels : SameLevels s a)
  (departure : Departure a w p d e) (armed : a.watches[w].state = .armed) (onI : e.lineSet.getLsbD i.val = true)
  (offJ : e.lineSet.getLsbD j.val = false) (differsI : s.front.lines[i].raw ≠ s.front.lines[i].filtered)
  (differsJ : s.front.lines[j].raw ≠ s.front.lines[j].filtered) (fails : (recoveredLine s i).pattern e = false)
include levels departure armed onI offJ differsI differsJ fails

/-- The departure first: the edge of the other line then reaches no watch. -/
theorem ends_departure_first (n : Nat) :
    BothEnded a w p (endAtTaking j (endAtTaking i { state := { a with choices := n }, sent := [] })) := by
  have chosen : Departure ({ a with choices := n } : State) w p d e := departure.congr rfl
  have restores := endAtTaking_restores (k := { state := { a with choices := n }, sent := [] }) (levels.differs differsI)
    chosen onI ((levels.pattern e i).trans fails)
  have pair := restores.pair chosen
  generalize endAtTaking i { state := { a with choices := n }, sent := [] } = t at restores pair
  obtain ⟨outside, lower, upper, -, outputs, sent⟩ := restores
  have line : t.state.front.lines[j] = a.front.lines[j] := by
    rw [outside.front]
    exact ended_line_other (lines_apart onI offJ) _
  have off : ∀ c, t.state.watches[p].definition = some c → c.lineSet.getLsbD j.val = false := fun c present => by
    rw [upper] at present
    cases departure.upper.symm.trans present
    exact offJ
  rw [endAtTaking_untripped (by rw [line]; exact levels.differs differsJ) pair (by rw [lower]) off (by rw [upper]; rfl)]
  refine ⟨lower.trans ?_, upper, outputs.trans (releaseDrive_outputs rfl), outside.journal, ?_⟩
  · rw [← armed]
  · exact (sent sentNoTrip_nil).append (endRecords_noTrip j t.state)

/-- The other line first: the watch begins to qualify, and returns to ARMED at the departure. -/
theorem ends_qualifying_first (on : d.lineSet.getLsbD j.val = true) (holds : (recoveredLine s j).pattern d = true)
    (qualify : d.qualify ≠ 0) (n : Nat) :
    BothEnded a w p (endAtTaking i (endAtTaking j { state := { a with choices := n }, sent := [] })) := by
  have pair : Pair ({ a with choices := n } : State) w p d := departure.pair.congr rfl
  have apart := pair.apart
  have off : ∀ c, a.watches[p].definition = some c → c.lineSet.getLsbD j.val = false := fun c present => by
    cases departure.upper.symm.trans present
    exact offJ
  obtain ⟨onset, tripped⟩ := departure.tripped
  obtain ⟨began, m, begins⟩ := endAtTaking_begins (k := { state := { a with choices := n }, sent := [] })
    (levels.differs differsJ) pair armed off on (isTripped_of (.inl tripped)) ((levels.pattern d j).trans holds) qualify
  have watch (v : Fin 16) := getElem_setWatchState { ended j { a with choices := n } with choices := m } w v
    (.qualifying began ⟨d.qualify, false⟩)
  have line (k : Fin 32) (other : k ≠ j) := ended_line_other other { a with choices := n }
  have same : ∀ v, v ≠ w → _ := fun v other => (watch v).trans (if_neg (Ne.symm other))
  have own := (watch w).trans (if_pos rfl)
  rw [begins]
  generalize unfolded : ({ ended j { a with choices := n } with choices := m } : State).setWatchState w
    (.qualifying began ⟨d.qualify, false⟩) = u at same own
  have front : u.front = (ended j { a with choices := n }).front := by rw [← unfolded]; rfl
  have journal : u.journal = a.journal := by rw [← unfolded]; rfl
  have outputs : u.outputs = a.outputs := by rw [← unfolded]; rfl
  have lineI : u.front.lines[i] = a.front.lines[i] := by
    rw [front]
    exact line i (lines_apart onI offJ).symm
  have after : Departure u w p d e := by
    refine ⟨⟨?_, pair.named, apart, fun v notW notP => ?_⟩, ?_, ⟨onset, ?_⟩, departure.auto, .inr ⟨began, _, by rw [own]⟩⟩
    · rw [own]
      exact pair.definition
    · rw [same v notW]
      exact pair.others v notW notP
    · rw [same p apart]
      exact departure.upper
    · rw [same p apart]
      exact tripped
  have restores := endAtTaking_restores (k := { state := u, sent := [] ++ [endRecords j { a with choices := n }] })
    (by rw [lineI]; exact levels.differs differsI) after onI ((pattern_ended (s := s) (by rw [lineI]; exact (levels i).1)
      fun k inside => by
        have other : k ≠ j := by
          rintro rfl
          rw [offJ] at inside
          cases inside
        rw [front, line k other]
        exact (levels k).2).trans fails)
  obtain ⟨outside, lower, upper, -, released, sent⟩ := restores
  refine ⟨lower.trans ?_, upper.trans (by rw [same p apart]; rfl), released.trans (releaseDrive_outputs outputs),
    outside.journal.trans journal, sent (sentNoTrip_nil.append (endRecords_noTrip j _))⟩
  rw [own, ← armed]
  rfl

end

end Sys2Proof.Machine
end

section
/-! PROOF. The order of two suppressions that end at one taking, and of the sample before it (R56), with what is left of the
watches, the outputs and the journal. -/

namespace Sys2Proof.Machine

open Sys2Proof.Claims

/-- The prerequisite has departed, the watch under it is as it was, and no TRIP record has entered (R56, R73). -/
structure Departed (s : State) (w p : Fin 16) (t : State) : Prop where
  lower   : t.watches[w] = s.watches[w]
  upper   : t.watches[p] = { s.watches[p] with state := .armed }
  outputs : t.outputs = (releaseDrive p s).outputs
  records : NoNewTrip s t

theorem BothEnded.finish {s : State} {w p : Fin 16} {k : Work} (h : BothEnded s w p k) : Departed s w p k.finish := by
  have records := noNewTrip_trans (noNewTrip_of_journal h.journal) (finish_noNewTrip h.sent)
  obtain ⟨journal, n, finished, -⟩ := finish_eq k
  rw [finished] at records ⊢
  exact ⟨h.lower, h.upper, h.outputs, records⟩

theorem endsLater_eq {s : State} {x : Fin 32} (differs : s.front.lines[x].raw ≠ s.front.lines[x].filtered)
    (rest : List (Fin 32)) :
    s.endsLater rest x = (List.finRange 16).any fun p =>
      (ended x s).tripsDependent [recoveredEdge x s] p && s.mayRestore (s.recovering rest) p := by
  rw [State.endsLater, endSuppression_eq]
  dsimp only
  rw [if_neg differs]
  rfl

section
variable {r : ConfigureLines} {s : State} {w p : Fin 16} {d e : WatchDef} {i j : Fin 32}
  (departure : Departure s w p d e)
include departure

theorem Departure.tripsAtOnce (qualify : d.qualify ≠ 0) (q v : Fin 16) : s.tripsAtOnce q v = false := by
  refine Bool.eq_false_iff.mpr fun once => ?_
  obtain ⟨c, definition, armed, zero, -⟩ := tripsAtOnce_iff.mp once
  obtain rfl := departure.armed_eq armed
  cases definition.symm.trans departure.pair.definition
  exact qualify zero

variable (differsI : s.front.lines[i].raw ≠ s.front.lines[i].filtered) (onI : e.lineSet.getLsbD i.val = true)
include differsI onI

/-- The line whose edge is the departure need not come later. -/
theorem endsLater_departs (fails : (ended i s).pattern e = false) (rest : List (Fin 32)) : s.endsLater rest i = false := by
  have endedDeparture : Departure (ended i s) w p d e := departure.congr rfl
  rw [endsLater_eq differsI]
  refine List.any_eq_false.mpr fun q _ => ?_
  rw [endedDeparture.tripsDependent (endedDeparture.departsAt (x := recoveredEdge i s) onI fails)]
  exact Bool.false_ne_true

/-- The line whose edge would trip the watch at once comes later, as long as the line of the departure is still to end. -/
theorem endsLater_trips (armed : s.watches[w].state = .armed)
    (differsJ : s.front.lines[j].raw ≠ s.front.lines[j].filtered) (offJ : e.lineSet.getLsbD j.val = false)
    (on : d.lineSet.getLsbD j.val = true) (holds : (ended j s).pattern d = true) (qualify : d.qualify = 0) :
    s.endsLater [i] j = true := by
  obtain ⟨onset, tripped⟩ := departure.tripped
  have endedPair : Pair (ended j s) w p d := departure.pair.congr rfl
  have trips := endedPair.tripsDependent (x := recoveredEdge j s) armed
    (fun c present => by
      cases departure.upper.symm.trans present
      exact offJ)
    on (isTripped_of (s := s) (.inl tripped)) holds qualify
  have recovering : s.recovering [i] = [i] := List.filter_cons_of_pos (decide_eq_true differsI)
  have restores : s.mayRestore (s.recovering [i]) p = true := by
    rw [State.mayRestore, departure.upper, tripped, recovering]
    simpa [departure.auto] using onI
  rw [endsLater_eq differsJ]
  exact List.any_eq_true.mpr ⟨p, List.mem_finRange p, by rw [trips, restores]; rfl⟩

end

/-! ## Both suppressions end at the taking -/

theorem mem_endedBy_of_recovers {r : ConfigureLines} {s : State} {x : Fin 32} (recovers : Recovers r s x) :
    x ∈ s.endedBy r := by
  obtain ⟨zero, first, last, limited, suppressed, -⟩ := recovers
  exact mem_endedBy.mpr ⟨⟨first, last⟩, suppressed, limited, zero⟩

theorem recovers_differs {r : ConfigureLines} {s : State} {x : Fin 32} (recovers : Recovers r s x) :
    s.front.lines[x].raw ≠ s.front.lines[x].filtered := recovers.2.2.2.2.2

section
variable {r : ConfigureLines} {s : State} {w p : Fin 16} {d e : WatchDef} {i j : Fin 32}
  (departure : Departure s w p d e) (armed : s.watches[w].state = .armed) (onI : e.lineSet.getLsbD i.val = true)
  (offJ : e.lineSet.getLsbD j.val = false) (on : d.lineSet.getLsbD j.val = true)
  (holds : PatternHolds (recoveredLine s j) d) (recoversJ : Recovers r s j)
include departure armed offJ on holds recoversJ

include onI in
theorem configureLines_departs (recoversI : Recovers r s i)
    (others : ∀ k, k ≠ i → k ≠ j → ∀ left, s.front.lines[k].chatter ≠ .suppressed left)
    (fails : ¬ PatternHolds (recoveredLine s i) e) :
    Departed s w p (configureLines r s) := by
  have apart := (lines_apart onI offJ).symm
  have both : (s.endedBy r).Perm [i, j] := by
    refine endedBy_perm (by simpa using apart) fun k => ⟨fun mem => ?_, fun mem => ?_⟩
    · by_contra other
      simp only [List.mem_cons, List.not_mem_nil, or_false, not_or] at other
      exact not_mem_endedBy (others k other.1 other.2) mem
    · obtain rfl | at_j := List.mem_cons.mp mem
      · exact mem_endedBy_of_recovers recoversI
      · rw [List.mem_singleton.mp at_j]
        exact mem_endedBy_of_recovers recoversJ
  have differsI := recovers_differs recoversI
  have differsJ := recovers_differs recoversJ
  have fails' : (recoveredLine s i).pattern e = false := Bool.eq_false_iff.mpr fun holds => fails (pattern_iff.mp holds)
  have ends : BothEnded s w p
      (endSuppressions (s.endedBy r).length (s.endedBy r) { state := reconfigured r s, sent := [] }) := by
    have levels := reconfigured_levels r s
    have frame := reconfigured_frame r s
    rw [both.length_eq]
    generalize reconfigured r s = a at levels frame
    have watches : a.watches = s.watches := by rw [frame]
    have base : Departure a w p d e := departure.congr watches
    have armed' : a.watches[w].state = .armed := by rw [watches]; exact armed
    refine BothEnded.congr (a := a) ?_ frame
    obtain ⟨n, order⟩ := endSuppressions_two both apart (k := { state := a, sent := [] })
      (endsLater_departs base (levels.differs differsI) onI ((levels.pattern e i).trans fails') [j])
    obtain departs | ⟨early, qualifies⟩ := order
    · exact departs ▸ ends_departure_first levels base armed' onI offJ differsI differsJ fails' n
    · refine qualifies ▸ ends_qualifying_first levels base armed' onI offJ differsI differsJ fails' on
        (pattern_iff.mpr holds) (fun zero => ?_) n
      have later := endsLater_trips base (levels.differs differsI) onI armed' (levels.differs differsJ) offJ on
        ((levels.pattern d j).trans (pattern_iff.mpr holds)) zero
      exact absurd early (by rw [later]; exact Bool.noConfusion)
  rw [configureLines_reconfigured]
  exact ends.finish

/-! ## One suppression ends at the taking, with a qualify time -/

theorem configureLines_begins (others : ∀ k, k ≠ j → ∀ left, s.front.lines[k].chatter ≠ .suppressed left)
    (qualify : d.qualify ≠ 0)
    (formed : d.sense = .matching ∨ s.front.lines[j].raw ≠ levelIn d.reference j) :
    (∀ v : Fin 16, (configureLines r s).watches[v]
        = if w = v then
            { s.watches[w] with
              state := .qualifying (laterTime s.time.time s.watches[p].tripTime) ⟨d.qualify, false⟩ }
          else s.watches[v])
      ∧ (configureLines r s).outputs = s.outputs
      ∧ (configureLines r s).journal = arrived s
          (edgeRecords r.recording j s.front.lines[j].raw s.time.now true
            ++ [{ cls := .routine, stamp := s.time.now, body := .chatterOff j }]) := by
  obtain ⟨onset, tripped⟩ := departure.tripped
  have differs := recovers_differs recoversJ
  have covered : covers r j = true := covers_iff.mpr ⟨recoversJ.2.1, recoversJ.2.2.1⟩
  have config : (reconfigured r s).front.lines[j].config.recording = r.recording := by
    rw [reconfigured_line, if_pos covered]
    rfl
  have levels := reconfigured_levels r s
  have frame := reconfigured_frame r s
  rw [configureLines_single (endedBy_single (mem_endedBy_of_recovers recoversJ) fun k other =>
    not_mem_endedBy (others k other))]
  generalize reconfigured r s = a at config levels frame
  have watches : a.watches = s.watches := by rw [frame]
  have outputs : a.outputs = s.outputs := by rw [frame]
  have time : a.time = s.time := by rw [frame]
  have journal : a.journal = s.journal := by rw [frame]
  have ends := endAtTaking_qualifies (k := { state := a, sent := [] }) (levels.differs differs)
    (departure.pair.congr watches) (by rw [watches]; exact armed)
    (fun c present => by
      rw [watches] at present
      cases departure.upper.symm.trans present
      exact offJ)
    on (by rw [watches]; exact isTripped_of (.inl tripped)) ((levels.pattern d j).trans (pattern_iff.mpr holds)) qualify
    (by rw [(levels j).1]; exact formed)
  have records : endRecords j a
      = edgeRecords r.recording j s.front.lines[j].raw s.time.now true
        ++ [{ cls := .routine, stamp := s.time.now, body := .chatterOff j }] := by
    rw [endRecords, if_neg (levels.differs differs), (levels j).1, config, time]
  rw [ends, List.nil_append, Work.finish, send_single_eq, records, ← arrived_congr time journal]
  refine ⟨fun v => ?_, outputs, rfl⟩
  rw [← watches, ← time]
  exact getElem_setWatchState (ended j a) w v _

end

end Sys2Proof.Machine
end

section
/-! PROOF. CONFIGURE_LINES that ends suppressions, with the sample of the tick before it where that comes first (R31, R37,
R56). -/

namespace Sys2Proof.Machine

open Sys2Proof.Claims

/-! ## The sample that comes first -/

/-- The sample makes an edge on line `i`, the recovery time of line `j` still runs at it, and every other line is idle. -/
structure EdgeBeside (s : State) (i j : Fin 32) : Prop where
  sampling   : Sampling s
  apart      : j ≠ i
  others     : ∀ k, k ≠ i → k ≠ j → Idle s k
  recovering : ∃ left, s.front.lines[j].chatter = .suppressed left ∧ 1 < left
  same       : rawLevel s j = s.front.lines[j].raw
  edge       : EdgeNow s i
  quiet      : s.front.lines[i].chatter = .quiet
  limit      : s.front.lines[i].config.limit = 0

section
variable {s : State} {i j : Fin 32} (beside : EdgeBeside s i j)
include beside

theorem EdgeBeside.passed : passedTo s.front.lines[i] = some .quiet := by
  rw [passedTo, beside.quiet, if_pos beside.limit]

theorem EdgeBeside.uneventful (k : Fin 32) (other : k ≠ i) : Uneventful s k := by
  by_cases own : k = j
  · obtain ⟨left, suppressed, runs⟩ := beside.recovering
    rw [own, Uneventful, suppressed]
    exact .inr runs
  · exact uneventful_of_idle (beside.others k other own)

theorem EdgeBeside.sampleEdges : ∃ stamp, s.sampleEdges = [edgeAt s i stamp]
    ∧ takeSample s = (deliver [edgeAt s i stamp]
        { state := s.sampled
          sent := [edgeRecords s.front.lines[i].config.recording i (rawLevel s i) stamp false] }).finish := by
  obtain ⟨stamp, made⟩ := edgeMade_now beside.edge
  exact ⟨stamp, takeSample_edge beside.sampling.later made beside.passed beside.uneventful⟩

theorem EdgeBeside.sampled_edge : s.sampled.front.lines[i]
    = { s.front.lines[i] with raw := rawLevel s i, filtered := rawLevel s i, filter := .stable, chatter := .quiet } := by
  obtain ⟨stamp, made⟩ := edgeMade_now beside.edge
  exact sampled_line_passed made beside.passed

/-- The line whose suppression goes on counts its recovery time, and keeps its levels (R35). -/
theorem EdgeBeside.sampled_recovering :
    ∃ left, s.sampled.front.lines[j] = { s.front.lines[j] with chatter := .suppressed left } := by
  obtain ⟨left, suppressed, runs⟩ := beside.recovering
  refine ⟨left - 1, ?_⟩
  rw [sampled_line, sampleResult_suppressed suppressed, suppressedStep, if_neg (not_not.mpr beside.same),
    if_neg (Nat.not_le.mpr runs)]

theorem EdgeBeside.sampled_idle (k : Fin 32) (notI : k ≠ i) (notJ : k ≠ j) :
    s.sampled.front.lines[k] = s.front.lines[k] := sampled_line_idle (beside.others k notI notJ)

theorem EdgeBeside.endedBy {r : ConfigureLines} (recovers : Recovers r s j) {t : State}
    (front : t.front = s.sampled.front) : t.endedBy r = [j] := by
  obtain ⟨zero, first, last, limited, -, -⟩ := recovers
  obtain ⟨left, line⟩ := beside.sampled_recovering
  refine endedBy_single (mem_endedBy.mpr ⟨⟨first, last⟩, ⟨left, by rw [front, line]⟩, ?_, zero⟩) fun k other => not_mem_endedBy fun left => ?_
  · rw [front, line]
    exact limited
  · rw [front]
    by_cases own : k = i
    · rw [own, beside.sampled_edge]
      exact nofun
    · rw [beside.sampled_idle k own other, (beside.others k own other).1]
      exact nofun

section
variable {w p : Fin 16} {d e : WatchDef} (departure : Departure s w p d e) (onI : e.lineSet.getLsbD i.val = true)
  (offJ : e.lineSet.getLsbD j.val = false) (fails : ¬ PatternHolds (settled s i) e)
include departure onI offJ fails

omit departure onI in
theorem EdgeBeside.sampled_fails : s.sampled.pattern e = false := by
  have same : s.sampled.pattern e = (settled s i).pattern e := pattern_filtered fun k inside => by
    by_cases own : k = i
    · have after : (settled s i).front.lines[i]
          = { s.front.lines[i] with raw := rawLevel s i, filtered := rawLevel s i, filter := .stable } :=
        Vector.getElem_set_self i.isLt
      rw [own, beside.sampled_edge, after]
    · have after : (settled s i).front.lines[k] = s.front.lines[k] :=
        Vector.getElem_set_ne i.isLt k.isLt fun at_i => own (Fin.ext at_i.symm)
      have notJ : k ≠ j := by
        rintro rfl
        rw [offJ] at inside
        cases inside
      rw [after, beside.sampled_idle k own notJ]
  exact same.trans (settled_fails fails)

/-- The sample restores the prerequisite, and leaves the watch under it ARMED. -/
theorem EdgeBeside.takeSample (armed : s.watches[w].state = .armed) :
    Departed s w p (takeSample s) ∧ Pair (Machine.takeSample s) w p d
      ∧ (Machine.takeSample s).front = s.sampled.front := by
  have sampledDeparture : Departure s.sampled w p d e := departure.congr (sampled_watches s)
  obtain ⟨stamp, -, taken⟩ := beside.sampleEdges
  have restores := deliver_restores sampledDeparture (x := edgeAt s i stamp) onI (beside.sampled_fails offJ fails)
    [edgeRecords s.front.lines[i].config.recording i (rawLevel s i) stamp false]
  rw [taken]
  generalize deliver [edgeAt s i stamp] { state := s.sampled, sent := _ } = k at restores
  obtain ⟨lower, upper, outputs, stamp', -, sent⟩ := restores.done
  have others := restores.others
  rw [sampled_watches] at lower upper others
  have journal : k.state.journal = s.journal := by rw [restores.outside.journal, sampled_eq]
  have ends : BothEnded s w p k := by
    refine ⟨lower.trans (by rw [← armed]), upper, outputs.trans (releaseDrive_outputs (sampled_outputs s)), journal, ?_⟩
    rw [sent]
    refine SentNoTrip.append (fun stream mem => ?_) restoreRecords_noTrip
    rw [List.mem_singleton.mp mem]
    exact edgeRecords_noTrip
  obtain ⟨definition, named, apart, disabled⟩ := departure.pair
  refine ⟨ends.finish, ⟨?_, named, apart, fun v notW notP => ?_⟩, ?_⟩
  · rw [finish_watches, lower]
    exact definition
  · rw [finish_watches, others v notW notP]
    exact disabled v notW notP
  · obtain ⟨_, _, finished, -⟩ := finish_eq k
    rw [finished]
    exact restores.outside.front

/-- With a qualify time of 0 that sample comes before the CONFIGURE_LINES. -/
theorem EdgeBeside.sampleFirst {r : ConfigureLines} (armed : s.watches[w].state = .armed)
    (on : d.lineSet.getLsbD j.val = true) (recovers : Recovers r s j) (qualify : d.qualify = 0) :
    s.sampleFirst r = true := by
  have sampledDeparture : Departure s.sampled w p d e := departure.congr (sampled_watches s)
  obtain ⟨stamp, edges, -⟩ := beside.sampleEdges
  have departs : s.sampled.departsAt s.sampleEdges p = true := by
    rw [edges]
    exact sampledDeparture.departsAt (x := edgeAt s i stamp) onI (beside.sampled_fails offJ fails)
  have delivers : s.sampleDelivers = true := by
    rw [State.sampleDelivers, sampleReady_of beside.sampling, beside.sampling.later]
    rfl
  have once : s.tripsAtOnce p w = true :=
    tripsAtOnce_iff.mpr ⟨d, departure.pair.definition, armed, qualify, departure.pair.named⟩
  have inside : j ∈ s.recovering (s.endedBy r) :=
    List.mem_filter.mpr ⟨mem_endedBy_of_recovers recovers, decide_eq_true (recovers_differs recovers)⟩
  have trips : s.mayTripDependent (s.recovering (s.endedBy r)) p = true := by
    refine List.any_eq_true.mpr ⟨w, List.mem_finRange w, ?_⟩
    rw [once, departure.pair.definition, Option.any_some, Bool.true_and]
    exact List.any_eq_true.mpr ⟨j, inside, on⟩
  rw [State.sampleFirst, delivers, Bool.true_and]
  exact List.any_eq_true.mpr ⟨p, List.mem_finRange p, by rw [departs, trips]; rfl⟩

/-- Behind that sample the RECOVERED edge reaches no watch. -/
theorem EdgeBeside.configureLines {r : ConfigureLines} (armed : s.watches[w].state = .armed) (recovers : Recovers r s j) :
    Departed s w p (configureLines r (Machine.takeSample s))
      ∧ (Machine.configureLines r (Machine.takeSample s)).front.sampleDue = false := by
  obtain ⟨departed, pair, front⟩ := beside.takeSample departure onI offJ fails armed
  have single := beside.endedBy recovers front
  generalize Machine.takeSample s = t at departed pair front single
  obtain ⟨left, line⟩ := beside.sampled_recovering
  have differs : t.front.lines[j].raw ≠ t.front.lines[j].filtered := by
    rw [front, line]
    exact recovers_differs recovers
  have levels := reconfigured_levels r t
  have frame := reconfigured_frame r t
  have due : (reconfigured r t).front.sampleDue = false := by
    rw [reconfigured_sampleDue, front, sampled_sampleDue]
  rw [configureLines_single single]
  generalize reconfigured r t = a at levels frame due
  have watches : a.watches = t.watches := by rw [frame]
  have outputs : a.outputs = t.outputs := by rw [frame]
  have journal : a.journal = t.journal := by rw [frame]
  have ends := endAtTaking_untripped (k := { state := a, sent := [] }) (levels.differs differs) (pair.congr watches)
    (by rw [watches, departed.lower]; exact armed)
    (fun c present => by
      rw [watches, departed.upper] at present
      cases departure.upper.symm.trans present
      exact offJ)
    (by rw [watches, departed.upper]; rfl)
  have records := finish_noNewTrip (k := { state := ended j a, sent := [] ++ [endRecords j a] }) (endRecords_noTrip j a)
  obtain ⟨journal', n, finished, -⟩ := finish_eq { state := ended j a, sent := [] ++ [endRecords j a] }
  rw [ends]
  rw [finished] at records ⊢
  refine ⟨⟨?_, ?_, outputs.trans departed.outputs, ?_⟩, due⟩
  · rw [← departed.lower, ← watches]
    rfl
  · rw [← departed.upper, ← watches]
    rfl
  · exact noNewTrip_trans departed.records (noNewTrip_trans (noNewTrip_of_journal journal) records)

end

end

end Sys2Proof.Machine
end

section
/-! PROOF. The obligation about a CONFIGURE_LINES that ends suppressions (R31, R37, R56). -/

namespace Sys2Proof.Machine

open Sys2Proof.Claims

/-! ## One suppression, with every watch DISABLED -/

theorem tripsAtOnce_disabled {s : State} (disabled : AllDisabled s) (p w : Fin 16) : s.tripsAtOnce p w = false := by
  refine Bool.eq_false_iff.mpr fun once => ?_
  obtain ⟨_, _, armed, _⟩ := tripsAtOnce_iff.mp once
  cases (disabled w).symm.trans armed

theorem configureLines_disabled {r : ConfigureLines} {s : State} {i : Fin 32} {left : Nat} (disabled : AllDisabled s)
    (first : r.first = i.val) (count : r.count = 1) (zero : r.limit = 0) (limited : s.front.lines[i].config.limit ≠ 0)
    (suppressed : s.front.lines[i].chatter = .suppressed left) :
    configureLines r s = { s with
      front := { s.front with
        lines := s.front.lines.set i.val
          { s.front.lines[i] with
            config := newConfig r
            filtered := s.front.lines[i].raw, filter := .stable, chatter := .quiet } i.isLt }
      journal := arrived s
        ((if s.front.lines[i].raw = s.front.lines[i].filtered then []
          else edgeRecords r.recording i s.front.lines[i].raw s.time.now true)
          ++ [{ cls := .routine, stamp := s.time.now, body := .chatterOff i }]) } := by
  have only (k : Fin 32) : covers r k = true ↔ k = i := by
    rw [covers_iff, first, count, Fin.ext_iff]
    omega
  have single : s.endedBy r = [i] := by
    refine endedBy_single (mem_endedBy.mpr ⟨covers_iff.mp ((only i).mpr rfl), ⟨left, suppressed⟩, limited, zero⟩)
      fun k other mem => other ((only k).mp (covers_iff.mpr (mem_endedBy.mp mem).1))
  have own := reconfigured_line r s i
  have same (k : Fin 32) (other : k ≠ i) := (reconfigured_line r s k).trans (if_neg (mt (only k).mp other))
  rw [if_pos ((only i).mpr rfl)] at own
  rw [configureLines_single single]
  unfold reconfigured at own same ⊢
  generalize configuredLines r s.front.lines = lines at own same
  have after : lines.set i.val
      { lines[i] with filtered := lines[i].raw, filter := .stable, chatter := .quiet } i.isLt
      = s.front.lines.set i.val
        { s.front.lines[i] with
          config := newConfig r
          filtered := s.front.lines[i].raw, filter := .stable, chatter := .quiet } i.isLt := by
    refine Vector.ext fun k bound => ?_
    rw [Vector.getElem_set, Vector.getElem_set]
    split
    · rw [own]
      rfl
    · next other => exact same ⟨k, bound⟩ fun at_i => other (congrArg Fin.val at_i).symm
  rw [endAtTaking_disabled disabled, List.nil_append, Work.finish, send_single_eq, endRecords, ended]
  dsimp only [State.setLine]
  rw [after, own]
  rfl

/-! ## The taking -/

section
variable {r : ConfigureLines} {s : State}

theorem takeConfigureLines_alone (alone : s.sampleFirst r = false) : (takeConfigureLines r s).state = configureLines r s := by
  rw [takeConfigureLines, alone]
  rfl

theorem takeConfigureLines_behind (first : s.sampleFirst r = true) :
    (takeConfigureLines r s).state = configureLines r (takeSample s) := by
  rw [takeConfigureLines, first]
  rfl

theorem sampleFirst_taken (taken : s.front.sampleDue = false) : s.sampleFirst r = false := by
  rw [State.sampleFirst, State.sampleDelivers, State.sampleReady, taken, Bool.and_false, Bool.false_and, Bool.false_and]

theorem Departed.output {s t : State} {w p : Fin 16} (departed : Departed s w p t) (o : Fin 8) :
    (drivenBy p s.outputs[o].owner → t.outputs[o] = { s.outputs[o] with owner := .host none })
      ∧ (¬ drivenBy p s.outputs[o].owner → t.outputs[o] = s.outputs[o]) := by
  rw [departed.outputs]
  exact releaseDrive_output p s o

end

/-- Settles O18: by the lines that recover, and by the order of their deliveries and of the sample. -/
theorem configureLinesEndsSuppression : Obligations.ConfigureLinesEndsSuppression := by
  refine ⟨fun f rest r left i s waiting payload wellFormed disabled first count zero limited suppressed => ?_,
    fun f rest r w p d e onset i j s waiting payload wellFormed definition armed named apart upper tripped auto others on
      _ onI offJ holds recoversJ => ?_⟩
  · rw [exec_configureLines waiting payload wellFormed,
      takeConfigureLines_alone (sampleFirst_untripping (tripsAtOnce_disabled (s := s.popRequest) disabled)),
      configureLines_disabled (s := s.popRequest) disabled first count zero limited suppressed, newConfig, zero]
    rfl
  have departure : Departure s.popRequest w p d e :=
    ⟨⟨definition, named, apart, others⟩, upper, ⟨onset, tripped⟩, auto, .inl armed⟩
  have executed := exec_configureLines waiting payload wellFormed
  refine ⟨fun order recoversI unsuppressed fails => ?_, fun qualify sampling unsuppressed formed began begins => ?_,
    fun qualify sampling idle recovering same edge quiet limit fails => ?_⟩
  · have alone : s.popRequest.sampleFirst r = false := order.elim (sampleFirst_taken (s := s.popRequest))
      fun qualify => sampleFirst_untripping (departure.tripsAtOnce qualify)
    have departed := configureLines_departs departure armed onI offJ on holds recoversJ recoversI unsuppressed fails
    rw [takeConfigureLines_alone alone] at executed
    generalize configureLines r s.popRequest = t at executed departed
    exact ⟨_, executed, departed.lower, departed.upper, departed.output, departed.records⟩
  · have alone : s.popRequest.sampleFirst r = false := sampleFirst_untripping (departure.tripsAtOnce qualify)
    obtain ⟨watches, outputs, journal⟩ :=
      configureLines_begins departure armed offJ on holds recoversJ unsuppressed qualify formed
    rw [takeConfigureLines_alone alone] at executed
    generalize configureLines r s.popRequest = t at executed watches outputs journal
    have own := (watches w).trans (if_pos rfl)
    have same (v : Fin 16) (other : v ≠ w) := (watches v).trans (if_neg other.symm)
    subst begins
    refine ⟨_, executed, own, same p apart, outputs, journal, fun captured lone settledFails => ?_⟩
    generalize after : replied f rest 0x00 [] none { t with dispatcher := s.dispatcher } = u at lone settledFails
    have kept : u.watches = t.watches := by rw [← after]; rfl
    have departs : Departure u w p d e := by
      refine Departure.congr (s := t) ⟨⟨?_, named, apart, fun v notW notP => ?_⟩, ?_, ⟨onset, ?_⟩, auto,
        .inr ⟨_, _, congrArg Watch.state own⟩⟩ kept
      · rw [own]
        exact definition
      · rw [same v notW]
        exact others v notW notP
      · rw [same p apart]
        exact upper
      · rw [same p apart]
        exact tripped
    obtain ⟨lower, prerequisite, -⟩ := takeSample_restores lone departs onI settledFails
    rw [kept] at lower prerequisite
    refine ⟨_, exec_sample_alone lone.sampling (loneEdge_requestsFirst lone departs onI settledFails), lower.trans ?_,
      prerequisite.trans ?_⟩
    · rw [own, ← armed]
      rfl
    · rw [same p apart]
      rfl
  · have beside : EdgeBeside s.popRequest i j :=
      ⟨⟨sampling.running, sampling.due, sampling.later⟩, lines_apart onI offJ, idle, recovering, same, edge, quiet, limit⟩
    have first := beside.sampleFirst departure onI offJ fails armed on recoversJ qualify
    obtain ⟨departed, taken⟩ := beside.configureLines departure onI offJ fails armed recoversJ
    rw [takeConfigureLines_behind first] at executed
    generalize configureLines r (takeSample s.popRequest) = t at executed departed taken
    exact ⟨_, executed, taken, departed.lower, departed.upper, departed.output, departed.records⟩

end Sys2Proof.Machine
end
